-- ==== Sys2Proof/Word.lean ====
section
/-!
DEFINITION. The words of the ZT440 and the fixed tables its blocks are made of.

Stamps, counts and codes are bit vectors because the manual treats them as modular numbers or fields of
words (00_scope.md, "Times and counts"; R1, R11, R14, R118). Numbered things (tasks, slots) are `Fin`.
A fixed number of like records is one of the plain tables `Per4`, `Per8`, `Per16` below.
-/

namespace Sys2Proof

/-- One byte of the host port. -/
abbrev Byte := BitVec 8

/-- A value of the 48-bit stamp counter, in TU of 125 ps (R1). -/
abbrev Stamp := BitVec 48

/-- A running count of qualified edges, modulo 2^40 (R11). -/
abbrev EdgeCount := BitVec 40

/-- A sequence number, modulo 2^32 (R14). -/
abbrev SeqNo := BitVec 32

/-- A station number, 0 … 15 (R159). -/
abbrev StationNo := BitVec 4

/-- The tag of a marker, or a gate number, 0 … 15 (R118, R143). -/
abbrev Tag := BitVec 4

/-- A task number, 0 … 7. -/
abbrev TaskId := Fin 8

/-- A remote slot number, 0 … 7. -/
abbrev SlotId := Fin 8

/-- The four input channels. -/
inductive Chan where
  | a | b | c | d
  deriving DecidableEq, Repr

/-- One record for each channel. -/
structure Per4 (α : Type) where
  a : α
  b : α
  c : α
  d : α
  deriving DecidableEq, Repr

/-- Eight records, numbered 0 … 7. -/
structure Per8 (α : Type) where
  i0 : α
  i1 : α
  i2 : α
  i3 : α
  i4 : α
  i5 : α
  i6 : α
  i7 : α
  deriving DecidableEq, Repr

/-- Sixteen records, numbered 0 … 15: two halves of eight. -/
structure Per16 (α : Type) where
  lo : Per8 α
  hi : Per8 α
  deriving DecidableEq, Repr

/-- The same record on every channel. -/
def Per4.fill {α : Type} (v : α) : Per4 α := ⟨v, v, v, v⟩

/-- The record of one channel. -/
def Per4.get {α : Type} (p : Per4 α) : Chan → α
  | .a => p.a
  | .b => p.b
  | .c => p.c
  | .d => p.d

/-- The table with one channel's record replaced. -/
def Per4.set {α : Type} (p : Per4 α) (i : Chan) (v : α) : Per4 α :=
  match i with
  | .a => { p with a := v }
  | .b => { p with b := v }
  | .c => { p with c := v }
  | .d => { p with d := v }

/-- Every channel's record rewritten by one function. -/
def Per4.map {α β : Type} (f : α → β) (p : Per4 α) : Per4 β := ⟨f p.a, f p.b, f p.c, f p.d⟩

/-- The same record at every number. -/
def Per8.fill {α : Type} (v : α) : Per8 α := ⟨v, v, v, v, v, v, v, v⟩

/-- The record numbered `i`. -/
def Per8.get {α : Type} (p : Per8 α) (i : Fin 8) : α :=
  match i with
  | 0 => p.i0
  | 1 => p.i1
  | 2 => p.i2
  | 3 => p.i3
  | 4 => p.i4
  | 5 => p.i5
  | 6 => p.i6
  | 7 => p.i7

/-- The table with the record numbered `i` replaced. -/
def Per8.set {α : Type} (p : Per8 α) (i : Fin 8) (v : α) : Per8 α :=
  match i with
  | 0 => { p with i0 := v }
  | 1 => { p with i1 := v }
  | 2 => { p with i2 := v }
  | 3 => { p with i3 := v }
  | 4 => { p with i4 := v }
  | 5 => { p with i5 := v }
  | 6 => { p with i6 := v }
  | 7 => { p with i7 := v }

/-- Every record rewritten by one function. -/
def Per8.map {α β : Type} (f : α → β) (p : Per8 α) : Per8 β :=
  ⟨f p.i0, f p.i1, f p.i2, f p.i3, f p.i4, f p.i5, f p.i6, f p.i7⟩

/-- The records in number order. -/
def Per8.toList {α : Type} (p : Per8 α) : List α := [p.i0, p.i1, p.i2, p.i3, p.i4, p.i5, p.i6, p.i7]

/-- The same record at every number. -/
def Per16.fill {α : Type} (v : α) : Per16 α := ⟨Per8.fill v, Per8.fill v⟩

/-- The index of a 4-bit number inside its half of eight. -/
def low3 (i : BitVec 4) : Fin 8 := (i.setWidth 3).toFin

/-- The record numbered `i`. -/
def Per16.get {α : Type} (p : Per16 α) (i : BitVec 4) : α :=
  if i.msb then p.hi.get (low3 i) else p.lo.get (low3 i)

/-- The table with the record numbered `i` replaced. -/
def Per16.set {α : Type} (p : Per16 α) (i : BitVec 4) (v : α) : Per16 α :=
  if i.msb then { p with hi := p.hi.set (low3 i) v } else { p with lo := p.lo.set (low3 i) v }

/-- Every record rewritten by one function. -/
def Per16.map {α β : Type} (f : α → β) (p : Per16 α) : Per16 β := ⟨p.lo.map f, p.hi.map f⟩

/-- The records in number order. -/
def Per16.toList {α : Type} (p : Per16 α) : List α := p.lo.toList ++ p.hi.toList

/-- The task numbers in ascending order (R26, R152). -/
def taskIds : List TaskId := [0, 1, 2, 3, 4, 5, 6, 7]

/-- The channels in order. -/
def chans : List Chan := [.a, .b, .c, .d]

/-- The 4-bit numbers in ascending order: gates and stations. -/
def nibbles : List (BitVec 4) := [0, 1, 2, 3, 4, 5, 6, 7, 8, 9, 10, 11, 12, 13, 14, 15]

end Sys2Proof
end

