-- ==== Sys2Proof/Syntax.lean ====
section
/-!
DEFINITION. The commands: one constructor for each row of spec/opcode_table.json.

Every command begins with `dt`, the TU that have passed since the step before it (log 1). Host requests carry
the bytes of their frame as 12.3 lays them out, undecoded, so that the checks of the rules are made by the
machine. An event carries what its surroundings supply and the part cannot know.
-/

namespace Sys2Proof

/-- The levels a release of reset samples: straps ID3 … ID0, strap LUS, and whether LINE is low (R105, R159). -/
structure ReleasePins where
  id      : StationNo
  lus     : Bool
  lineLow : Bool
  deriving DecidableEq, Repr

/-- A command waiting for the station. -/
inductive Instr where
  /-- POWER_ON_RESET (R165). -/
  | powerOnReset (dt : Nat)
  /-- RESET_RELEASE (R159): the strap and LINE levels at the release. -/
  | resetRelease (dt : Nat) (pins : ReleasePins)
  /-- TRANSACTION_START (R177): CS# falls. -/
  | transactionStart (dt : Nat)
  /-- SETUP (R160). -/
  | setup (dt : Nat) (position : BitVec 16)
  /-- CONFIGURE_CHANNEL (R15, R16). -/
  | configureChannel (dt : Nat) (channel options glitch : Byte) (prescale : BitVec 16)
  /-- DEFINE_TASK (R32, R33): the kind area is 13 bytes, first byte most significant. -/
  | defineTask (dt : Nat) (task kind blockSize : Byte) (runLength : BitVec 16)
      (continuation failLimit escalation : Byte) (area : BitVec 104)
  /-- ARM_TASK (R34, R35). -/
  | armTask (dt : Nat) (task : Byte)
  /-- DISARM_TASK (R42). -/
  | disarmTask (dt : Nat) (task : Byte)
  /-- TEAR_DOWN_TASK (R43). -/
  | tearDownTask (dt : Nat) (task : Byte)
  /-- DEFINE_LISTEN_ENTRY (R128). -/
  | defineListenEntry (dt : Nat) (entry mode boundTag maskClass action task : Byte)
  /-- PUBLISH_GATE (R148). -/
  | publishGate (dt : Nat) (gate action : Byte)
  /-- READ_RESULT (R155). -/
  | readResult (dt : Nat)
  /-- READ_STATUS (R172): the clear option is bit 0. -/
  | readStatus (dt : Nat) (options : Byte)
  /-- READ_TIME (R8). -/
  | readTime (dt : Nat)
  /-- SET_EVENTS (R171). -/
  | setEvents (dt : Nat) (enables : Byte)
  /-- ACK_EVENTS (R170). -/
  | ackEvents (dt : Nat) (acks : Byte)
  /-- CLEAR_FAULT (R169). -/
  | clearFault (dt : Nat)
  /-- RETIRE (R163). -/
  | retire (dt : Nat)
  /-- RESET, the request (R164). -/
  | reset (dt : Nat)
  /-- UNKNOWN_REQUEST (R175): a kind byte with no request assigned. -/
  | unknownRequest (dt : Nat) (kind : Byte)
  /-- REPLY_READY (R174). -/
  | replyReady (dt : Nat)
  /-- REPLY_COMPLETED (R174): the strap levels are sampled if a reset is due. -/
  | replyCompleted (dt : Nat) (pins : ReleasePins)
  /-- CS_RISE_EARLY (R176). -/
  | csRiseEarly (dt : Nat) (pins : ReleasePins)
  /-- REFERENCE_LOST (R3): the stamp of the last reference edge seen. -/
  | referenceLost (dt : Nat) (lastEdge : Stamp)
  /-- REFERENCE_EDGE_RETURNS (R4). -/
  | referenceEdgeReturns (dt : Nat)
  /-- RETURNING_SILENCE (R4). -/
  | returningSilence (dt : Nat)
  /-- REFERENCE_QUALIFIED (R4). -/
  | referenceQualified (dt : Nat)
  /-- DEGRADED_SPAN_AGED (R6). -/
  | degradedSpanAged (dt : Nat)
  /-- FLOOR_AGED (R6). -/
  | floorAged (dt : Nat)
  /-- PIN_LEVEL_CHANGE (R9): the channel, and how long the new level persists on the pin. -/
  | pinLevelChange (dt : Nat) (ch : Chan) (persists : Nat)
  /-- EDGE_QUALIFIED (R10). -/
  | edgeQualified (dt : Nat) (ch : Chan)
  /-- RING_AGING (R20). -/
  | ringAging (dt : Nat) (ch : Chan)
  /-- RECORD_LONG_PAST (R21). -/
  | recordLongPast (dt : Nat) (ch : Chan)
  /-- KEPT_TIME_LONG_PAST (R100). -/
  | keptTimeLongPast (dt : Nat)
  /-- TIMED_GATE_EVALUATION (R52). -/
  | timedGateEvaluation (dt : Nat)
  /-- LINE_GATE_EVALUATION (R54). -/
  | lineGateEvaluation (dt : Nat)
  /-- LINE_GATE_CUT (R55). -/
  | lineGateCut (dt : Nat)
  /-- PHASE_NO_SIGNAL_LIMIT (R69). -/
  | phaseNoSignalLimit (dt : Nat)
  /-- WINDOW_HORIZON (R77). -/
  | windowHorizon (dt : Nat)
  /-- JOB_FINISH (R94). -/
  | jobFinish (dt : Nat)
  /-- LINE_FALL (R106). -/
  | lineFall (dt : Nat)
  /-- LINE_RISE (R106). -/
  | lineRise (dt : Nat)
  /-- STUCK_ENTRY (R110). -/
  | stuckEntry (dt : Nat)
  /-- STUCK_END (R110). -/
  | stuckEnd (dt : Nat)
  /-- LINE_STUCK (R110). -/
  | lineStuck (dt : Nat)
  /-- FRAME_TRUNCATED (R107). -/
  | frameTruncated (dt : Nat)
  /-- MARKER_RECEIVED (R108): the strap levels are sampled if a mute makes a waiting reset take effect. -/
  | markerReceived (dt : Nat) (pins : ReleasePins)
  /-- FRAME_END (R107): the strap levels are sampled if the completed HALT makes a waiting reset take effect. -/
  | frameEnd (dt : Nat) (pins : ReleasePins)
  /-- ATTEMPT_START (R123): how many TU before the own drive a peer's falling edge reached the receiver. -/
  | attemptStart (dt : Nat) (peerLead : Nat)
  /-- ARBITRATION_LOSS (R112). -/
  | arbitrationLoss (dt : Nat)
  /-- RESET_DEADLINE (R164). -/
  | resetDeadline (dt : Nat) (pins : ReleasePins)
  /-- CELL_EDGE (R104). -/
  | cellEdge (dt : Nat)
  /-- CELL_SAMPLE (R104): whether any other station drives LINE low at the sample. -/
  | cellSample (dt : Nat) (othersLow : Bool)
  /-- TRANSACTION_END (R176). -/
  | transactionEnd (dt : Nat)
  /-- STUCK_LINE_EDGE (R110): whether the edge rises. -/
  | stuckLineEdge (dt : Nat) (rising : Bool)
  deriving DecidableEq, Repr

/-- The time a command carries. -/
def Instr.dt : Instr → Nat
  | .powerOnReset dt | .resetRelease dt _ | .transactionStart dt | .setup dt _ | .configureChannel dt _ _ _ _
  | .defineTask dt _ _ _ _ _ _ _ _ | .armTask dt _ | .disarmTask dt _ | .tearDownTask dt _
  | .defineListenEntry dt _ _ _ _ _ _ | .publishGate dt _ _ | .readResult dt | .readStatus dt _ | .readTime dt
  | .setEvents dt _ | .ackEvents dt _ | .clearFault dt | .retire dt | .reset dt | .unknownRequest dt _
  | .replyReady dt | .replyCompleted dt _ | .csRiseEarly dt _ | .referenceLost dt _ | .referenceEdgeReturns dt
  | .returningSilence dt | .referenceQualified dt | .degradedSpanAged dt | .floorAged dt | .pinLevelChange dt _ _
  | .edgeQualified dt _ | .ringAging dt _ | .recordLongPast dt _ | .keptTimeLongPast dt | .timedGateEvaluation dt
  | .lineGateEvaluation dt | .lineGateCut dt | .phaseNoSignalLimit dt | .windowHorizon dt | .jobFinish dt
  | .lineFall dt | .lineRise dt | .stuckEntry dt | .stuckEnd dt | .lineStuck dt | .frameTruncated dt
  | .markerReceived dt _ | .frameEnd dt _ | .attemptStart dt _ | .arbitrationLoss dt | .resetDeadline dt _
  | .cellEdge dt | .cellSample dt _ | .transactionEnd dt | .stuckLineEdge dt _ => dt

end Sys2Proof
end

