-- ==== Sys2Proof/Machine/State.lean ====
section
/-!
DEFINITION. The state of a ZT440: every piece of state the spec gives each block, as plain data, and the state
right after reset. INVENTORY.md lists each field with its rule and its reset value.
-/

namespace Sys2Proof.Machine

/-- Why a step stops. Nothing in the spec stops the part (log 25), so there is no reason: a closed inductive
without constructors. That is safe: no claim can rest on a stop. -/
inductive Fault where
  deriving DecidableEq, Repr

/-- Why a command has no meaning. -/
inductive Refusal where
  /-- A row of the table whose meaning is not written yet; raised by no meaning, only by an arm of `exec`. Safe. -/
  | notModelled (mnemonic : String)
  deriving DecidableEq, Repr

/-! ## Times -/

/-- A time a block keeps for a later test, with its long-past mark (R100). -/
structure Kept where
  stamp    : Stamp
  longPast : Bool
  deriving DecidableEq, Repr

/-! ## Timebase (chapter 01) -/

/-- The reference monitor's state (section 1.2). -/
inductive Monitor where
  | present | absent | returning
  deriving DecidableEq, Repr

/-- One degraded span (R6): its start is a kept time, its end may be absent. -/
structure Span where
  start : Kept
  stop  : Option Stamp
  deriving DecidableEq, Repr

/-- The timebase (R1 to R7). -/
structure Timebase where
  /-- The stamp counter (R1): the current time. -/
  now         : Stamp
  monitor     : Monitor
  degraded    : Bool
  /-- Oldest first, at most four (R6). -/
  spans       : List Span
  floor       : Option Stamp
  /-- The edge at which the running qualification interval started (R4). -/
  qualifyFrom : Option Stamp
  deriving DecidableEq, Repr

/-! ## Rings and channels (chapters 01 and 02) -/

/-- One entry of an edge history ring (section 2.1). -/
structure Entry where
  index : Nat
  seqNo : SeqNo
  stamp : Stamp
  count : EdgeCount
  deriving DecidableEq, Repr

/-- The last-removed record of a ring (R21). -/
structure Removed where
  index : Nat
  stamp : Kept
  deriving DecidableEq, Repr

/-- One edge history ring (section 2.1): entries oldest first. -/
structure Ring where
  entries     : List Entry
  nextIndex   : Nat
  everRemoved : Bool
  lastRemoved : Option Removed
  deriving DecidableEq, Repr

/-- Which qualified polarity counts (R10). -/
inductive EdgeSelect where
  | rising | falling | both
  deriving DecidableEq, Repr

/-- One input channel with its ring (section 1.5). -/
structure Channel where
  enabled       : Bool
  edgeSelect    : EdgeSelect
  /-- Glitch width W in coarse ticks. -/
  glitch        : Fin 64
  /-- Prescale, held as N − 1. -/
  prescaleField : BitVec 16
  /-- The level the filter holds as settled; `true` is high. -/
  accepted      : Bool
  /-- Raw time of a level change not yet qualified (R9). -/
  pendingChange : Option Stamp
  count         : EdgeCount
  seqNo         : SeqNo
  deadUntil     : Option Kept
  /-- The time T of the last CONFIGURE CHANNEL: a level change not later than it makes nothing (R16). -/
  configuredAt  : Option Kept
  /-- The level on the pin; `true` is high. -/
  pinLevel      : Bool
  /-- The pin is inside a pulse it cannot resolve: its second edge vanishes too (R9, log 7). -/
  inShortPulse  : Bool
  ring          : Ring
  deriving DecidableEq, Repr

/-! ## Results and blocks (chapters 04, 05 and 10) -/

/-- Flags of a FREQUENCY result (R59). -/
structure FreqFlags where
  noSignal  : Bool
  shortened : Bool
  lost      : Bool
  clamped   : Bool
  orphaned  : Bool
  unplaced  : Bool
  degraded  : Bool
  saturated : Bool
  deriving DecidableEq, Repr

/-- A FREQUENCY result (section 4.7). -/
structure FreqResult where
  gateIndex   : BitVec 32
  openTime    : Stamp
  edges       : Nat
  span        : Nat
  frequency   : Nat
  smoothed    : Nat
  represented : Nat
  flags       : FreqFlags
  deriving DecidableEq, Repr

/-- Flags of a PHASE result (section 4.11). -/
structure PhaseFlags where
  noSignal  : Bool
  lost      : Bool
  unstamped : Bool
  gap       : Bool
  degraded  : Bool
  deriving DecidableEq, Repr

/-- A PHASE result (section 4.11). -/
structure PhaseResult where
  signal   : Stamp
  period   : Nat
  phase    : Nat
  gapCount : Nat
  flags    : PhaseFlags
  deriving DecidableEq, Repr

/-- Flags of an INTERVAL result (R82). -/
structure IntervalFlags where
  noStop    : Bool
  lost      : Bool
  unstamped : Bool
  unplaced  : Bool
  degraded  : Bool
  deriving DecidableEq, Repr

/-- An INTERVAL result (R82); `origin` is absent for LOCAL. -/
structure IntervalResult where
  start       : Stamp
  interval    : Nat
  origin      : Option StationNo
  tag         : Tag
  missedCount : Nat
  flags       : IntervalFlags
  deriving DecidableEq, Repr

/-- A TIMESTAMP result (R84). -/
structure StampResult where
  stamp    : Stamp
  seqNo    : SeqNo
  count    : EdgeCount
  gapCount : Nat
  gap      : Bool
  degraded : Bool
  deriving DecidableEq, Repr

/-- What became of a published marker (R87). -/
inductive Outcome5 where
  | taken | refused | unheard | stale | dropped
  deriving DecidableEq, Repr

/-- A PUBLISH result (R90). -/
structure PublishResult where
  edge     : Stamp
  outcome  : Outcome5
  delay    : BitVec 24
  gapCount : Nat
  gap      : Bool
  degraded : Bool
  deriving DecidableEq, Repr

/-- One result of a task. -/
inductive Result where
  | frequency (r : FreqResult)
  | phase (r : PhaseResult)
  | interval (r : IntervalResult)
  | timestamp (r : StampResult)
  | publish (r : PublishResult)
  deriving DecidableEq, Repr

/-- The five task kinds, in the order of their codes (12.3). -/
inductive Kind where
  | frequency | phase | interval | timestamp | publish
  deriving DecidableEq, Repr

/-- A completed block (section 10.1); the result count is the length of the list. -/
structure Block where
  task    : TaskId
  kind    : Kind
  number  : BitVec 16
  final   : Bool
  short   : Bool
  results : List Result
  /-- The model's own: the moment at which the block entered the queue as it was offered, for the order in which the offers
  of one moment are taken (R152, log 53); absent in a block that entered otherwise, or that READ RESULT has shown. -/
  offered : Option Kept := none
  deriving DecidableEq, Repr

/-! ## Tasks (chapters 03 to 05) -/

/-- Where a FREQUENCY task's gates come from (section 4.1). -/
inductive GateSource where
  | timed | line
  deriving DecidableEq, Repr

/-- Where an INTERVAL task's starts come from (section 5.1). -/
inductive StartSource where
  | localStart | remoteStart
  deriving DecidableEq, Repr

/-- Kind fields of FREQUENCY (section 4.1): the field the source does not use is kept as sent (R51). -/
structure FreqFields where
  input      : Chan
  source     : GateSource
  gateLength : Nat
  gate       : Byte
  shift      : Nat
  deriving DecidableEq, Repr

/-- Kind fields of PHASE (section 4.8). -/
structure PhaseFields where
  reference : Chan
  signal    : Chan
  deriving DecidableEq, Repr

/-- Kind fields of INTERVAL (section 5.1). -/
structure IntervalFields where
  source       : StartSource
  startChannel : Chan
  stopChannel  : Chan
  holdoff      : Nat
  window       : Nat
  deriving DecidableEq, Repr

/-- Kind fields of PUBLISH (section 5.8): the divider is carried as D − 1. -/
structure PublishFields where
  channel      : Chan
  tag          : Tag
  dividerField : Byte
  deriving DecidableEq, Repr

/-- The kind of a task with its kind fields. -/
inductive KindFields where
  | frequency (f : FreqFields)
  | phase (f : PhaseFields)
  | interval (f : IntervalFields)
  | timestamp (channel : Chan)
  | publish (f : PublishFields)
  deriving DecidableEq, Repr

/-- What a run's end and its blocks do (R44, R45). -/
inductive Continuation where
  | stopAtEnd | rearmOnRead | paced
  deriving DecidableEq, Repr

/-- What a task fault does (R48). -/
inductive Escalation where
  | keep | raise
  deriving DecidableEq, Repr

/-- The fields DEFINE TASK writes (section 3.1). -/
structure TaskDef where
  blockSize      : Nat
  runLength      : Nat
  continuation   : Continuation
  failLimit      : Nat
  onPeerLost     : Escalation
  onFailureRun   : Escalation
  fields         : KindFields
  deriving DecidableEq, Repr

/-- The eight task states (section 3.2). -/
inductive TaskState where
  | empty | idle | armed | running | paused | stalled | done | faulted
  deriving DecidableEq, Repr

/-- Why a task is not taking entries (R38). -/
inductive Cause where
  | none | paused | stalled | job
  deriving DecidableEq, Repr

/-- How a run ended (R40). -/
inductive EndCause where
  | length | disarm | peerLost | failureRun | retire | halt
  deriving DecidableEq, Repr

/-- The task's one arithmetic job (section 3.1). -/
inductive JobShown where
  | none | waiting | inProgress
  deriving DecidableEq, Repr

/-- The operands of a job (section 6.1). -/
inductive JobOps where
  | frequency (edges span shift : Nat) (smoothing : Option Nat)
  | phase (offset period : Nat)
  deriving DecidableEq, Repr

/-- A gate that has closed or been cut, with the flags of its notices (R54, R55). -/
structure GateSpan where
  opened   : Kept
  closed   : Kept
  unplaced : Bool
  orphaned : Bool
  reopened : Bool
  negative : Bool
  clamped  : Bool
  deriving DecidableEq, Repr

/-- LINE gate state of a FREQUENCY task (section 4.1). -/
inductive LineGateState where
  | waitingOpen | following | cut
  deriving DecidableEq, Repr

/-- The generation a FREQUENCY task follows (R53). -/
structure Followed where
  generation : BitVec 8
  opened     : Kept
  unplaced   : Bool
  deriving DecidableEq, Repr

/-- The later missed gates of a LINE task: a count, the open time of the first, the union of their flags (R62), and
whether one of their times was degraded (R63, log 14). -/
structure LaterMissed where
  count    : Nat
  opened   : Kept
  unplaced : Bool
  orphaned : Bool
  reopened : Bool
  negative : Bool
  clamped  : Bool
  degraded : Bool
  deriving DecidableEq, Repr

/-- Kind state of FREQUENCY (section 4.1). -/
structure FreqRun where
  nextGate  : BitVec 32
  /-- TIMED: open time of the gate whose evaluation moment comes next (R52). -/
  gateOpen  : Stamp
  /-- TIMED: gates whose evaluation moment has passed and that have no result yet (R61). -/
  passed    : Nat
  lineState : LineGateState
  followed  : Option Followed
  ended     : Option GateSpan
  missed    : Option GateSpan
  later     : Option LaterMissed
  /-- Smoothing state in 1/256 mHz (R60). -/
  smoothing : Option Nat
  deriving DecidableEq, Repr

/-- A pending signal entry of PHASE (R67); the mark is the entry stamp's (R100). -/
structure PendingSignal where
  entry    : Entry
  longPast : Bool
  deriving DecidableEq, Repr

/-- Kind state of PHASE (section 4.8); the two cursors are in the record. -/
structure PhaseRun where
  newestRef : Option Kept
  pending   : List PendingSignal
  gap       : Nat
  deriving DecidableEq, Repr

/-- A start of an INTERVAL task: its time, the time its stop search begins at and the end of its window (R76). -/
structure Start where
  time       : Kept
  searchFrom : Kept
  windowEnd  : Kept
  deriving DecidableEq, Repr

/-- Kind state of INTERVAL (section 5.1). -/
structure IntervalRun where
  pending : List Start
  missed  : Nat
  deriving DecidableEq, Repr

/-- A marker outcome held for a suspended PUBLISH task (R88). -/
structure Deferred where
  edge    : Kept
  outcome : Outcome5
  delay   : BitVec 24
  deriving DecidableEq, Repr

/-- Kind state of PUBLISH (section 5.8). -/
structure PublishRun where
  dividerCount : Nat
  gap          : Nat
  deferred     : List Deferred
  deriving DecidableEq, Repr

/-- The kind state of a run; absent outside a run (R64, R71, R81, R84, R89). -/
inductive RunState where
  | none
  | frequency (r : FreqRun)
  | phase (r : PhaseRun)
  | interval (r : IntervalRun)
  | timestamp (gap : Nat)
  | publish (r : PublishRun)
  deriving DecidableEq, Repr

/-- The rest of a result whose job is out (section 6.1). -/
inductive Partial where
  | frequency (gate : GateSpan) (edges span : Nat) (e1 e2 : Kept) (shortened : Bool)
  | phase (signal : Kept) (period : Nat) (r1 r2 : Kept)
  deriving DecidableEq, Repr

/-- One record of the task table (section 3.1). -/
structure TaskRec where
  defn          : Option TaskDef
  state         : TaskState
  nextBlock     : BitVec 16
  armTime       : Option Kept
  /-- Forward cursor: signal cursor of PHASE, start cursor of INTERVAL, cursor of TIMESTAMP and PUBLISH. -/
  cursor        : Option Nat
  /-- Reference cursor of PHASE. -/
  refCursor     : Option Nat
  resultsInRun  : Nat
  failCount     : Nat
  openBlock     : Option (List Result)
  heldBlock     : Option Block
  job           : JobShown
  jobDiscarded  : Bool
  heldBackJob   : Option JobOps
  cause         : Cause
  runEndPending : Option EndCause
  endCause      : Option EndCause
  rearmPending  : Bool
  pausedOn      : Option (BitVec 16)
  waitingResult : Option Partial
  run           : RunState
  deriving DecidableEq, Repr

/-! ## Arithmetic unit (chapter 06) -/

/-- A job waiting in the job list (R91). -/
structure WaitingJob where
  task : TaskId
  ops  : JobOps
  deriving DecidableEq, Repr

/-- The job the divider works on (R91). -/
structure CurrentJob where
  task      : TaskId
  ops       : JobOps
  start     : Stamp
  discarded : Bool
  /-- Chosen as jobs were handed over to a free divider, and not at a finish (R93): at its start stamp a job of a lower
  number that is handed over at the same moment still takes its place. -/
  handed    : Bool
  deriving DecidableEq, Repr

/-- The arithmetic unit (R91). -/
structure ArithUnit where
  waiting : List WaitingJob
  current : Option CurrentJob
  deriving DecidableEq, Repr

/-! ## Marker transmitter and line receiver (chapters 07 and 08) -/

/-- The kinds of marker (R118). -/
inductive MarkerKind where
  | halt | announce | gateOpen | gateClose | edge
  deriving DecidableEq, Repr

/-- An EDGE marker's offer, for the order in which the offers of one moment are answered (R121, log 53). -/
structure Offer where
  task : TaskId
  time : Kept
  deriving DecidableEq, Repr

/-- An entry of the outgoing queue (R120). -/
structure OutEntry where
  kind           : MarkerKind
  tag            : Tag
  /-- EDGE, GATE_OPEN and GATE_CLOSE only. -/
  origin         : Option Kept
  originTask     : Option TaskId
  /-- ANNOUNCE and HALT only. -/
  payload        : BitVec 24
  inTransmission : Bool
  /-- In transmission when the station halted: removed if the attempt ends LOST or CUT (R126). -/
  removeAtEnd    : Bool
  /-- The model's own: the offer of an EDGE marker of a PUBLISH task; it outlasts the origin task (R121, log 53). -/
  offered        : Option Offer := none
  deriving DecidableEq, Repr

/-- The attempt in progress (R120). -/
structure Attempt where
  /-- The moment the transmitter began driving (R103). -/
  began      : Stamp
  /-- The own attention stamp (R103). -/
  attention  : Stamp
  /-- The word being sent (R118, R124). -/
  word       : BitVec 40
  /-- All 40 bit cells sampled without a loss (R113). -/
  allSampled : Bool
  /-- Samples of the response cells, `true` when low (R113). -/
  takenLow   : Option Bool
  refusedLow : Option Bool
  deriving DecidableEq, Repr

/-- The marker transmitter (R120). -/
structure Transmitter where
  queue    : List OutEntry
  mute     : Bool
  attempt  : Option Attempt
  /-- A HALT frame has completed since the last reset (R121). -/
  haltSent : Bool
  deriving DecidableEq, Repr

/-- The receiver's state (section 7.3). -/
inductive RxState where
  | idle | frame | stuck
  deriving DecidableEq, Repr

/-- The next cell expected in FRAME (section 7.3). -/
inductive CellPos where
  | bit (k : Nat)
  | takenCell
  | refusedCell
  | noMore
  deriving DecidableEq, Repr

/-- Whether this station sends the current frame (section 7.3). -/
inductive OwnPart where
  | none | sending | lost
  deriving DecidableEq, Repr

/-- What this station drives in the response cells (section 7.3). -/
inductive CellAnswer where
  | none | taken | refused
  deriving DecidableEq, Repr

/-- The line receiver (section 7.3). -/
structure Receiver where
  state           : RxState
  lowSince        : Option Stamp
  quietSince      : Option Kept
  attention       : Option Stamp
  cellPos         : CellPos
  bits            : List Bool
  ownPart         : OwnPart
  answer          : CellAnswer
  episodeStart    : Option Stamp
  episodeReported : Bool
  /-- Falling edge of the bit cell that has begun and is not sampled yet (R104). -/
  openCell        : Option Stamp
  /-- The edge the 4 LU truncation wait counts from (R107). -/
  waitFrom        : Option Stamp
  /-- The word of this frame has been judged (R108). -/
  judged          : Bool
  /-- The falling edge a response-cell hold began at (R115). -/
  holdFrom        : Option Stamp
  /-- The current low began in a frame that has ended: its rise only starts quiet (R107). -/
  lowFromFrame    : Bool
  deriving DecidableEq, Repr

/-- Mode of a listen entry (R128). -/
inductive ListenMode where
  | off | one | upto
  deriving DecidableEq, Repr

/-- Class of a listen entry (R128). -/
inductive ListenClass where
  | edge | gate | either
  deriving DecidableEq, Repr

/-- Action of a listen entry (R128). -/
inductive ListenAction where
  | take | refuse | pass
  deriving DecidableEq, Repr

/-- One listen entry (R128). -/
structure ListenEntry where
  mode     : ListenMode
  bound    : StationNo
  cls      : ListenClass
  tagValue : Tag
  tagMask  : BitVec 4
  action   : ListenAction
  task     : TaskId
  deriving DecidableEq, Repr

/-- A held remote slot (R131). -/
structure Slot where
  source    : StationNo
  tag       : Tag
  attention : Kept
  /-- The remote time, with the search and window times its task forms from it. -/
  start     : Start
  unplaced  : Bool
  task      : TaskId
  arrival   : Nat
  deriving DecidableEq, Repr

/-! ## Gates and peers (chapter 09) -/

/-- State of a gate record (R143). -/
inductive GateState where
  | closed | opened
  deriving DecidableEq, Repr

/-- One gate record (R143). -/
structure Gate where
  state      : GateState
  openTime   : Option Kept
  opener     : Option StationNo
  closeTime  : Option Stamp
  closer     : Option StationNo
  generation : BitVec 8
  unplaced   : Bool
  orphaned   : Bool
  reopened   : Bool
  negative   : Bool
  deriving DecidableEq, Repr

/-- State of a peer entry (R137). -/
inductive PeerState where
  | absent | live | halted
  deriving DecidableEq, Repr

/-- Reason of a HALT (R118). -/
inductive HaltReason where
  | retired | reset | fault
  deriving DecidableEq, Repr

/-- One peer entry (R137). -/
structure Peer where
  state        : PeerState
  position     : Option (BitVec 11)
  haltReason   : Option HaltReason
  lastAnnounce : Option Stamp
  deriving DecidableEq, Repr

/-! ## Station control (chapter 11) -/

/-- The station state (R159). -/
inductive StationState where
  | unset | joining | live | halted
  deriving DecidableEq, Repr

/-- The departure under way (R159). -/
inductive Departure where
  | none | retire | reset
  deriving DecidableEq, Repr

/-- The station fault classes (00_scope.md, "Station fault"). -/
inductive FaultClass where
  | lineStuck | identityClash | referenceLost | escalated
  deriving DecidableEq, Repr

/-- The fault record (R159). -/
structure FaultRecord where
  cls    : FaultClass
  stamp  : Stamp
  detail : Byte
  deriving DecidableEq, Repr

/-- Why the station halted (R159). -/
inductive HaltCause where
  | retired
  | fault (cls : FaultClass)
  deriving DecidableEq, Repr

/-- The four latched events (R170). -/
structure Latched where
  taskEnded   : Bool
  peerChanged : Bool
  markerLoss  : Bool
  timebase    : Bool
  deriving DecidableEq, Repr

/-- The twelve statistics counters, in the order of R134. -/
structure Counters where
  sent          : BitVec 16
  arbLosses     : BitVec 16
  stale         : BitVec 16
  dropped       : BitVec 16
  ownRefused    : BitVec 16
  ownUnheard    : BitVec 16
  damaged       : BitVec 16
  truncated     : BitVec 16
  unknownKind   : BitVec 16
  unclaimed     : BitVec 16
  refusalsGiven : BitVec 16
  strayCloses   : BitVec 16
  deriving DecidableEq, Repr

/-- Station control's record (R159). -/
structure Control where
  stationNo     : StationNo
  /-- Line unit: `false` 200 ns, `true` 1,000 ns (R102). -/
  longUnit      : Bool
  state         : StationState
  departure     : Departure
  haltOwed      : Option HaltReason
  resetDeadline : Option Stamp
  faultHold     : Bool
  faultRecord   : Option FaultRecord
  haltCause     : Option HaltCause
  latched       : Latched
  /-- One bit for each event, as 12.2 numbers them. -/
  mask          : BitVec 7
  counters      : Counters
  /-- A RESET taken at once waits for its reply's last byte or the rise of CS# (R164). -/
  resetDue      : Bool
  deriving DecidableEq, Repr

/-! ## Host port (chapter 12) -/

/-- The status codes, in the order of their values (R175). -/
inductive Status where
  | ok | okAdjusted | busy | badState | badArgument | blocksPending | channelOff | conflict | inUse | notLive
  | alreadySet | queueFull | empty | halted | unknownRequest
  deriving DecidableEq, Repr

/-- A reply: its status code and its body (R174). -/
structure Reply where
  status : Status
  body   : List Byte
  deriving DecidableEq, Repr

/-- Phase of the transaction (R174). -/
inductive Phase where
  | idle | summary | body | fill | reply | done
  deriving DecidableEq, Repr

/-- The host port's transaction record (section 12.1). -/
structure HostPort where
  phase   : Phase
  /-- CS# is low. -/
  csLow   : Bool
  summary : Option Byte
  kind    : Option Byte
  body    : List Byte
  reply   : Option Reply
  deriving DecidableEq, Repr

/-! ## The station -/

/-- What edges come from: the timebase and the channels with their rings. The task engine reads it only. -/
structure Front where
  tb    : Timebase
  chans : Per4 Channel
  deriving DecidableEq, Repr

/-- What tasks, markers and station control change together. -/
structure Engine where
  tasks : Per8 TaskRec
  unit  : ArithUnit
  tx    : Transmitter
  slots : Per8 (Option Slot)
  /-- The result queue, head first (R152). -/
  queue : List Block
  peers : Per16 Peer
  ctl   : Control
  deriving DecidableEq, Repr

/-- One ZT440. -/
structure Station where
  front  : Front
  rx     : Receiver
  listen : Per8 ListenEntry
  gates  : Per16 Gate
  eng    : Engine
  port   : HostPort
  /-- RESET# is low (R165). -/
  held   : Bool
  deriving DecidableEq, Repr

/-! ## Reset values -/

/-- A time kept from now on: not long past. -/
def fresh (t : Stamp) : Kept := ⟨t, false⟩

/-- A cleared ring (R22). -/
def Ring.cleared : Ring := { entries := [], nextIndex := 1, everRemoved := false, lastRemoved := none }

/-- A channel after reset (R17), at the given pin level; the accepted level is log 5's choice. -/
def Channel.afterReset (pinLevel : Bool) : Channel :=
  { enabled := false, edgeSelect := .rising, glitch := 0, prescaleField := 0, accepted := false,
    pendingChange := none, count := 0, seqNo := 0, deadUntil := none, configuredAt := none, pinLevel := pinLevel,
    inShortPulse := false, ring := Ring.cleared }

/-- The timebase after reset (R17). -/
def Timebase.afterReset : Timebase :=
  { now := 0, monitor := .absent, degraded := true, spans := [⟨fresh 0, none⟩], floor := none, qualifyFrom := none }

/-- An EMPTY task record (R31). -/
def TaskRec.emptied : TaskRec :=
  { defn := none, state := .empty, nextBlock := 0, armTime := none, cursor := none, refCursor := none,
    resultsInRun := 0, failCount := 0, openBlock := none, heldBlock := none, job := .none, jobDiscarded := false,
    heldBackJob := none, cause := .none, runEndPending := none, endCause := none, rearmPending := false,
    pausedOn := none, waitingResult := none, run := .none }

/-- Every statistics counter at 0 (R135). -/
def Counters.zero : Counters := ⟨0, 0, 0, 0, 0, 0, 0, 0, 0, 0, 0, 0⟩

/-- Station control after reset (R159), with the strap values sampled at the release. -/
def Control.afterReset (id : StationNo) (lus : Bool) : Control :=
  { stationNo := id, longUnit := lus, state := .unset, departure := .none, haltOwed := none, resetDeadline := none,
    faultHold := false, faultRecord := none, haltCause := none, latched := ⟨false, false, false, false⟩, mask := 0,
    counters := Counters.zero, resetDue := false }

/-- A listen entry after reset (R128). -/
def ListenEntry.afterReset : ListenEntry :=
  { mode := .off, bound := 0, cls := .edge, tagValue := 0, tagMask := 0, action := .pass, task := 0 }

/-- A gate record after reset (R143). -/
def Gate.afterReset : Gate :=
  { state := .closed, openTime := none, opener := none, closeTime := none, closer := none, generation := 0,
    unplaced := false, orphaned := false, reopened := false, negative := false }

/-- A peer entry after reset (R137). -/
def Peer.afterReset : Peer := { state := .absent, position := none, haltReason := none, lastAnnounce := none }

/-- The line receiver at the release (R105): the release is at stamp 0. R105 names no cell position; no frame has
begun, and the model takes bit cell 0 (log 40, DESIGN CHOICE). -/
def Receiver.afterReset (lineLow : Bool) : Receiver :=
  { state := .stuck, lowSince := if lineLow then some 0 else none,
    quietSince := if lineLow then none else some (fresh 0), attention := none, cellPos := .bit 0, bits := [],
    ownPart := .none, answer := .none, episodeStart := some 0, episodeReported := false, openCell := none,
    waitFrom := none, judged := false, holdFrom := none, lowFromFrame := false }

/-- The task engine's side after reset (R31, R91, R120, R131, R137, R152, R159). -/
def Engine.afterReset (id : StationNo) (lus : Bool) : Engine :=
  { tasks := Per8.fill TaskRec.emptied, unit := ⟨[], none⟩, tx := ⟨[], false, none, false⟩, slots := Per8.fill none,
    queue := [], peers := Per16.fill Peer.afterReset, ctl := Control.afterReset id lus }

/-- The host port after reset, at the given level of CS# (section 12.1). -/
def HostPort.afterReset (csLow : Bool) : HostPort :=
  { phase := .idle, csLow := csLow, summary := none, kind := none, body := [], reply := none }

/-- The station right after a release: the levels `pins` are sampled, the signal pins and CS# keep their own. -/
def Station.released (pins : ReleasePins) (inputs : Per4 Bool) (csLow : Bool) : Station :=
  { front := { tb := Timebase.afterReset, chans := inputs.map Channel.afterReset },
    rx := Receiver.afterReset pins.lineLow, listen := Per8.fill ListenEntry.afterReset,
    gates := Per16.fill Gate.afterReset, eng := Engine.afterReset pins.id pins.lus,
    port := HostPort.afterReset csLow, held := false }

/-- The machine: one station and the commands that wait for it, first in, first out. -/
structure State where
  dev     : Station
  pending : List Instr
  deriving DecidableEq, Repr

/-- Right after reset: the levels on the pins are log 5's choice (station 0, LUS low, LINE high, inputs low,
CS# high), and no command waits. -/
def State.reset : State :=
  { dev := Station.released ⟨0, false, false⟩ (Per4.fill false) false, pending := [] }

end Sys2Proof.Machine
end

