-- ==== Sys2Proof/Machine/Time.lean ====
section
/-!
DEFINITION. Times: the modular order of stamps (00_scope.md, "Times and counts"; R2, R100), kept times with
their long-past marks, and the line unit (R102).
-/

namespace Sys2Proof.Machine

/-- 2^46 + 1 TU: the age at which a kept time is marked long past and a ring entry leaves (R20, R100). -/
def oldAge : Nat := 2 ^ 46 + 1

/-- A stamp a number of TU after another, modulo 2^48 (R100). -/
def plus (t : Stamp) (d : Nat) : Stamp := t + BitVec.ofNat 48 d

/-- TU from `b` to `a`, modulo 2^48. -/
def since (a b : Stamp) : Nat := (a - b).toNat

/-- `a` is later than `b`: the difference lies in 1 … 2^47 − 1 (R2). -/
def later (a b : Stamp) : Bool := decide (1 ≤ since a b) && decide (since a b < 2 ^ 47)

/-- The current time has reached a moment: it is the moment or later (R100). -/
def reached (now moment : Stamp) : Bool := decide (since now moment < 2 ^ 47)

/-- `a` is later than `b`, where a long-past time is earlier than every time that is not long past (R100). -/
def Kept.laterThan (a b : Kept) : Bool :=
  match a.longPast, b.longPast with
  | false, true => true
  | true, false => false
  | _, _ => later a.stamp b.stamp

/-- The current time has reached the moment `d` TU after a kept time; a long-past time's moments all count as
reached (R100). -/
def Kept.reachedAfter (now : Stamp) (k : Kept) (d : Nat) : Bool := k.longPast || reached now (plus k.stamp d)

/-- The kept time is the current time. -/
def Kept.isNow (now : Stamp) (k : Kept) : Bool := !k.longPast && k.stamp == now

/-- A kept time with its mark set once the current time reaches it + 2^46 + 1 TU (R100). -/
def Kept.mark (now : Stamp) (k : Kept) : Kept :=
  { k with longPast := k.longPast || reached now (plus k.stamp oldAge) }

/-- The line unit in TU: 1,600 with LUS low, 8,000 with LUS high (R102). -/
def lineUnit (longUnit : Bool) : Nat := if longUnit then 8000 else 1600

/-- Half line units in TU: the sample point of a cell is 3 of them after its edge (R104). -/
def halfUnits (longUnit : Bool) (n : Nat) : Nat := n * (lineUnit longUnit / 2)

/-- One coarse tick in TU (R1). -/
def coarseTick : Nat := 32

/-- The glitch width in TU: W coarse ticks (R9). -/
def Channel.glitchTime (c : Channel) : Nat := c.glitch.val * coarseTick

/-- The completeness horizon's distance from the time searched for: W × 32 + 1 TU (R23). -/
def Channel.horizon (c : Channel) : Nat := c.glitchTime + 1

/-- The prescale N, 1 … 65536. -/
def Channel.prescale (c : Channel) : Nat := c.prescaleField.toNat + 1

/-- The current time. -/
def Front.now (f : Front) : Stamp := f.tb.now

/-- The channel's record. -/
def Front.chan (f : Front) (ch : Chan) : Channel := f.chans.get ch

/-- The channel's ring. -/
def Front.ring (f : Front) (ch : Chan) : Ring := (f.chans.get ch).ring

/-- The stamp counter a number of TU later (R1). -/
def Timebase.elapse (dt : Nat) (tb : Timebase) : Timebase := { tb with now := plus tb.now dt }

/-- Time passes: the counter runs in every station state, but not while reset is held (R1, R165). -/
def Station.elapse (dt : Nat) (d : Station) : Station :=
  if d.held then d else { d with front := { d.front with tb := d.front.tb.elapse dt } }

/-- The current time of the station. -/
def Station.now (d : Station) : Stamp := d.front.tb.now

/-- The station's line unit in TU. -/
def Station.lu (d : Station) : Nat := lineUnit d.eng.ctl.longUnit

end Sys2Proof.Machine
end

