-- ==== Sys2Proof/Machine/Rings.lean ====
section
/-!
DEFINITION. Edge history rings (chapter 02): arrival and overwrite, aging, forward reads, backward searches and
the certainty rule.
-/

namespace Sys2Proof.Machine

/-- A ring holds at most 64 entries (R18). -/
def ringDepth : Nat := 64

/-- The saturation limit of every accumulator: 2^32 − 1 (R101). -/
def satLimit : Nat := 2 ^ 32 - 1

/-- A sum that stops at 2^32 − 1 (R101). -/
def satAdd (a b : Nat) : Nat := min (a + b) satLimit

/-- The oldest retained index; the next index when the ring is empty (R18). -/
def Ring.oldest (r : Ring) : Nat :=
  match r.entries with
  | [] => r.nextIndex
  | e :: _ => e.index

/-- The oldest entry leaves the ring (R21): the flag is set and the record names it, marked long past at once
when its time has come, whether or not entries remain. A search on a ring that an aging has emptied is therefore
PENDING, as R21, R27 and the worked example have it, and not GONE, as R30's example says (log 41, DEDUCED). -/
def Ring.depart (now : Stamp) (r : Ring) : Ring :=
  match r.entries with
  | [] => r
  | e :: es => { r with entries := es, everRemoved := true, lastRemoved := some ⟨e.index, (fresh e.stamp).mark now⟩ }

/-- An arrival (R19): a full ring first loses its oldest entry, then the new entry takes the next index. -/
def Ring.arrive (now : Stamp) (seqNo : SeqNo) (stamp : Stamp) (count : EdgeCount) (r : Ring) : Ring :=
  let r := if ringDepth ≤ r.entries.length then r.depart now else r
  { r with entries := r.entries ++ [⟨r.nextIndex, seqNo, stamp, count⟩], nextIndex := r.nextIndex + 1 }

/-- The oldest entry is due to age: the current time has reached its stamp + 2^46 + 1 TU (R20). -/
def Ring.agingDue (now : Stamp) (r : Ring) : Bool :=
  match r.entries with
  | [] => false
  | e :: _ => reached now (plus e.stamp oldAge)

/-- The retained entry with an index. -/
def Ring.at? (r : Ring) (i : Nat) : Option Entry := r.entries.find? (fun e => e.index == i)

/-- The answer of a forward read (R24, R25). -/
inductive ReadAnswer where
  | entry (e : Entry)
  | wait
  | overrun (missed resume : Nat)
  deriving DecidableEq, Repr

/-- A forward read at a cursor (R24, R25). -/
def Ring.read (r : Ring) (cursor : Nat) : ReadAnswer :=
  if cursor < r.oldest then .overrun (min (r.oldest - cursor) satLimit) r.oldest
  else match r.at? cursor with
    | some e => .entry e
    | none => .wait

/-- The missed count of the first read at a cursor: 0 when there is no overrun (R25). -/
def Ring.missedAt (r : Ring) (cursor : Nat) : Nat :=
  match r.read cursor with
  | .overrun missed _ => missed
  | _ => 0

/-- The entries a reader at a cursor takes one by one until WAIT, the overrun absorbed (R24, R25). -/
def Ring.readable (r : Ring) (cursor : Nat) : List Entry := r.entries.filter (fun e => decide (cursor ≤ e.index))

/-- The judgement of an entry found (R28). -/
inductive Certainty where
  | certain | unstamped | lost
  deriving DecidableEq, Repr

/-- The certainty rule (R28). -/
def Ring.judge (r : Ring) (e : Entry) : Certainty :=
  if e.index = 1 ∧ e.count = 1 then .certain
  else match r.at? (e.index - 1) with
    | some p => if e.count - p.count = 1 then .certain else .unstamped
    | none => .lost

/-- The answer of "first at or after" (R27). -/
inductive AfterAnswer where
  | found (e : Entry) (c : Certainty)
  | pending
  | gone
  deriving DecidableEq, Repr

/-- The search "first at or after t" (R27). -/
def Ring.firstAtOrAfter (r : Ring) (t : Kept) : AfterAnswer :=
  match r.entries.find? (fun e => !t.laterThan (fresh e.stamp)) with
  | some e => .found e (r.judge e)
  | none =>
    match r.entries, r.lastRemoved with
    | [], some rec => if rec.stamp.longPast || t.laterThan rec.stamp then .pending else .gone
    | _, _ => .pending

/-- The answer of "last at or before" (R29). -/
inductive BeforeAnswer where
  | found (e : Entry)
  | lost
  | none
  deriving DecidableEq, Repr

/-- The search "last at or before t" (R29). -/
def Ring.lastAtOrBefore (r : Ring) (t : Kept) : BeforeAnswer :=
  match (r.entries.filter (fun e => !(fresh e.stamp).laterThan t)).getLast? with
  | some e => .found e
  | .none => if r.everRemoved then .lost else .none

end Sys2Proof.Machine
end

