-- ==== Sys2Proof/Machine/Flags.lean ====
section
/-!
DEFINITION. Flags and conditions computed from state: the degraded test (R7), what makes a result failed or
orphaned (R46, R47), the pending events, INT# and the summary byte (R170, R171, R177).
-/

namespace Sys2Proof.Machine

/-- A span contains a stamp: not earlier than its start and, when it has an end, not later than that (R7). -/
def Span.contains (sp : Span) (t : Kept) : Bool :=
  !sp.start.laterThan t && (match sp.stop with
    | some e => !(t.laterThan (fresh e))
    | none => true)

/-- The stamp is not later than the floor (R7). -/
def atOrBeforeFloor (floor : Option Stamp) (t : Kept) : Bool :=
  match floor with
  | some f => !(t.laterThan (fresh f))
  | none => false

/-- The degraded test of R7, with R100's rule for a long-past stamp. -/
def Timebase.stampDegraded (tb : Timebase) (t : Kept) : Bool :=
  if t.longPast then
    tb.floor.isSome || tb.spans.any (fun sp => (sp.start.mark tb.now).longPast)
  else
    atOrBeforeFloor tb.floor t || tb.spans.any (fun sp => sp.contains t)

/-- Some of these stamps is degraded (R7). -/
def Timebase.anyDegraded (tb : Timebase) (ts : List Kept) : Bool := ts.any tb.stampDegraded

/-- A result is failed when it carries NO_SIGNAL, NO_STOP, LOST or UNSTAMPED (R46). -/
def Result.failed : Result → Bool
  | .frequency r => r.flags.noSignal || r.flags.lost
  | .phase r => r.flags.noSignal || r.flags.lost || r.flags.unstamped
  | .interval r => r.flags.noStop || r.flags.lost || r.flags.unstamped
  | .timestamp _ => false
  | .publish _ => false

/-- The result carries flag ORPHANED (R47). -/
def Result.orphaned : Result → Bool
  | .frequency r => r.flags.orphaned
  | _ => false

/-- The pending set, one bit for each event as 12.2 numbers them (R170). -/
def Engine.pendingEvents (e : Engine) : BitVec 7 :=
  BitVec.ofBool e.ctl.latched.timebase ++ BitVec.ofBool e.ctl.latched.markerLoss ++
  BitVec.ofBool e.ctl.latched.peerChanged ++ BitVec.ofBool e.ctl.latched.taskEnded ++
  BitVec.ofBool (e.ctl.state == .halted) ++ BitVec.ofBool e.ctl.faultHold ++ BitVec.ofBool (!e.queue.isEmpty)

/-- Some event is pending and enabled: INT# is driven low (R171). -/
def Engine.interrupt (e : Engine) : Bool := !(e.pendingEvents &&& e.ctl.mask == 0)

/-- The level of INT#: released high while reset is held (R165, R171). -/
def Station.intLow (d : Station) : Bool := !d.held && d.eng.interrupt

/-- Code of the station state in the summary byte and READ STATUS (R177). -/
def StationState.code : StationState → Nat
  | .unset => 0
  | .joining => 1
  | .live => 2
  | .halted => 3

/-- The summary byte (R177): fixed bits 011, interrupt pending, results waiting, fault hold, station state. -/
def Engine.summaryByte (e : Engine) : Byte :=
  (3 : BitVec 3) ++ BitVec.ofBool e.interrupt ++ BitVec.ofBool (!e.queue.isEmpty) ++ BitVec.ofBool e.ctl.faultHold ++
  BitVec.ofNat 2 e.ctl.state.code

/-- A run is in progress: ARMED, RUNNING, PAUSED, or STALLED with no run end pending (section 3.2, R41). -/
def TaskRec.runContinues (t : TaskRec) : Bool :=
  match t.state with
  | .armed | .running | .paused => true
  | .stalled => t.runEndPending.isNone
  | _ => false

/-- The task is taking entries: RUNNING and not waiting for a job (R26). -/
def TaskRec.takes (t : TaskRec) : Bool := t.state == .running && t.cause == .none

/-- The station counts as LIVE for the NOT_LIVE checks: no departure has begun (R162). -/
def Control.countsLive (c : Control) : Bool := c.state == .live && c.departure == .none

/-- The transmitter is muted, or the station is UNSET: no HALT can be sent (R162). -/
def Engine.cannotSendHalt (e : Engine) : Bool := e.ctl.state == .unset || e.tx.mute

end Sys2Proof.Machine
end

