-- ==== Sys2Proof/Machine/Operands.lean ====
section
/-!
DEFINITION. The operands of host requests: codes, clamps and the fields of request frames (12.2, 12.3), and which
channels a task names (R15).
-/

namespace Sys2Proof.Machine

/-- Channel codes (12.2). -/
def chanOf (c : Byte) : Option Chan :=
  match c with
  | 0 => some .a
  | 1 => some .b
  | 2 => some .c
  | 3 => some .d
  | _ => none

/-- A task, slot or entry number 0 … 7 from a whole byte. -/
def taskIdOf (b : Byte) : Option TaskId := if h : b.toNat < 8 then some ⟨b.toNat, h⟩ else none

/-- A number 0 … 15 from a whole byte. -/
def nibbleOf (b : Byte) : Option (BitVec 4) := if b.toNat < 16 then some (b.setWidth 4) else none

/-- Edge select codes (12.3). -/
def edgeSelectOf (c : BitVec 2) : Option EdgeSelect :=
  match c with
  | 0 => some .rising
  | 1 => some .falling
  | 2 => some .both
  | _ => none

/-- Continuation codes (12.3). -/
def continuationOf (c : Byte) : Option Continuation :=
  match c with
  | 0 => some .stopAtEnd
  | 1 => some .rearmOnRead
  | 2 => some .paced
  | _ => none

/-- Escalation bits (12.3). -/
def escalationOf (b : Bool) : Escalation := if b then .raise else .keep

/-- A number kept inside a range, and whether it was moved (OK_ADJUSTED). -/
def clamp (lo hi v : Nat) : Nat × Bool :=
  if v < lo then (lo, true) else if hi < v then (hi, true) else (v, false)

/-- A glitch width field above 63 is clamped to 63 (R15). -/
def glitchOf (b : Byte) : Fin 64 × Bool := if h : b.toNat < 64 then (⟨b.toNat, h⟩, false) else (63, true)

/-- Byte i of the kind area, counted from its first byte (12.3). -/
def areaByte (area : BitVec 104) (i : Nat) : Byte := area.extractLsb' (8 * (12 - i)) 8

/-- Kind fields of FREQUENCY (R51): the field the gate source does not use is kept as sent. -/
def freqFieldsOf (area : BitVec 104) : Option (FreqFields × Bool) :=
  match chanOf (areaByte area 0) with
  | none => none
  | some input =>
    let length := (area.extractLsb' 40 48).toNat
    let gate := areaByte area 8
    let shift := clamp 0 7 (areaByte area 9).toNat
    match areaByte area 1 with
    | 0 =>
      let g := clamp 8000 (2 ^ 40) length
      some (⟨input, .timed, g.1, gate, shift.1⟩, g.2 || shift.2)
    | 1 => if gate.toNat < 16 then some (⟨input, .line, length, gate, shift.1⟩, shift.2) else none
    | _ => none

/-- Kind fields of PHASE (R65): the two channels differ. -/
def phaseFieldsOf (area : BitVec 104) : Option PhaseFields :=
  match chanOf (areaByte area 0), chanOf (areaByte area 1) with
  | some r, some s => if r = s then none else some ⟨r, s⟩
  | _, _ => none

/-- Start source codes (12.3). -/
def startSourceOf (c : Byte) : Option StartSource :=
  match c with
  | 0 => some .localStart
  | 1 => some .remoteStart
  | _ => none

/-- Kind fields of INTERVAL (R72): holdoff at least 1, window from the holdoff as clamped to 2^40. -/
def intervalFieldsOf (area : BitVec 104) : Option (IntervalFields × Bool) :=
  match startSourceOf (areaByte area 0), chanOf (areaByte area 1), chanOf (areaByte area 2) with
  | some src, some startCh, some stopCh =>
    let h := clamp 1 (2 ^ 32 - 1) (area.extractLsb' 48 32).toNat
    let w := clamp h.1 (2 ^ 40) (area.extractLsb' 0 48).toNat
    some (⟨src, startCh, stopCh, h.1, w.1⟩, h.2 || w.2)
  | _, _, _ => none

/-- Kind fields of PUBLISH (R85). -/
def publishFieldsOf (area : BitVec 104) : Option PublishFields :=
  match chanOf (areaByte area 0), nibbleOf (areaByte area 1) with
  | some ch, some tag => some ⟨ch, tag, areaByte area 2⟩
  | _, _ => none

/-- The kind fields a kind code and a kind area give, and whether one was clamped (R32, R33). -/
def kindFieldsOf (kind : Byte) (area : BitVec 104) : Option (KindFields × Bool) :=
  match kind with
  | 0 => (freqFieldsOf area).map (fun p => (.frequency p.1, p.2))
  | 1 => (phaseFieldsOf area).map (fun p => (.phase p, false))
  | 2 => (intervalFieldsOf area).map (fun p => (.interval p.1, p.2))
  | 3 => (chanOf (areaByte area 0)).map (fun ch => (.timestamp ch, false))
  | 4 => (publishFieldsOf area).map (fun p => (.publish p, false))
  | _ => none

/-- The definition a DEFINE TASK frame gives, and whether a field was clamped (R32, R33). -/
def taskDefOf (kind blockSize : Byte) (runLength : BitVec 16) (continuation failLimit escalation : Byte)
    (area : BitVec 104) : Option (TaskDef × Bool) :=
  match kindFieldsOf kind area, continuationOf continuation with
  | some (fields, moved), some cont =>
    let b := clamp 1 32 blockSize.toNat
    some ({ blockSize := b.1, runLength := runLength.toNat, continuation := cont, failLimit := failLimit.toNat,
            onPeerLost := escalationOf (escalation.getLsbD 0), onFailureRun := escalationOf (escalation.getLsbD 1),
            fields := fields }, b.2 || moved)
  | _, _ => none

/-- Mode codes (12.3). -/
def listenModeOf (c : Byte) : Option ListenMode :=
  match c with
  | 0 => some .off
  | 1 => some .one
  | 2 => some .upto
  | _ => none

/-- Class codes (12.3). -/
def listenClassOf (c : BitVec 2) : Option ListenClass :=
  match c with
  | 0 => some .edge
  | 1 => some .gate
  | 2 => some .either
  | _ => none

/-- Action codes (12.3). -/
def listenActionOf (c : Byte) : Option ListenAction :=
  match c with
  | 0 => some .take
  | 1 => some .refuse
  | 2 => some .pass
  | _ => none

/-- The entry a DEFINE LISTEN ENTRY frame gives (R128, 12.3). -/
def listenEntryOf (mode boundTag maskClass action task : Byte) : Option ListenEntry :=
  match listenModeOf mode, listenClassOf (maskClass.extractLsb' 4 2), listenActionOf action, taskIdOf task with
  | some m, some c, some a, some t =>
    some { mode := m, bound := boundTag.extractLsb' 0 4, cls := c, tagValue := boundTag.extractLsb' 4 4,
           tagMask := maskClass.extractLsb' 0 4, action := a, task := t }
  | _, _, _, _ => none

/-- Gate action codes of PUBLISH GATE (12.3). -/
def gateActionOf (c : Byte) : Option MarkerKind :=
  match c with
  | 0 => some .gateOpen
  | 1 => some .gateClose
  | _ => none

/-- The kind of a task's fields. -/
def KindFields.kind : KindFields → Kind
  | .frequency _ => .frequency
  | .phase _ => .phase
  | .interval _ => .interval
  | .timestamp _ => .timestamp
  | .publish _ => .publish

/-- The channels a task names (R15). -/
def KindFields.channels : KindFields → List Chan
  | .frequency f => [f.input]
  | .phase f => [f.reference, f.signal]
  | .interval f => match f.source with
    | .localStart => [f.startChannel, f.stopChannel]
    | .remoteStart => [f.stopChannel]
  | .timestamp ch => [ch]
  | .publish f => [f.channel]

/-- The channel whose prescale must be 1 at arm (R34). -/
def KindFields.unprescaled : KindFields → Option Chan
  | .phase f => some f.reference
  | .interval f => some f.stopChannel
  | _ => none

/-- The channel read forward by the task's main cursor (R24, R73). -/
def KindFields.forward : KindFields → Option Chan
  | .frequency _ => none
  | .phase f => some f.signal
  | .interval f => match f.source with
    | .localStart => some f.startChannel
    | .remoteStart => none
  | .timestamp ch => some ch
  | .publish f => some f.channel

/-- The channel read forward by the reference cursor of PHASE. -/
def KindFields.refForward : KindFields → Option Chan
  | .phase f => some f.reference
  | _ => none

/-- The task follows line gate g (R147). -/
def KindFields.follows (k : KindFields) (g : BitVec 4) : Bool :=
  match k with
  | .frequency f => f.source == .line && f.gate == g.setWidth 8
  | _ => false

end Sys2Proof.Machine
end

