-- ==== Sys2Proof/Machine/Layout.lean ====
section
/-!
DEFINITION. Byte layouts of the host port (12.4 to 12.6): status codes, result blocks and the READ STATUS body.
An enumeration without a code of its own is coded by its order (chapter 12, opening; log 15).
-/

namespace Sys2Proof.Machine

/-- The low n bytes of a number, most significant byte first (chapter 12, opening). -/
def beBytes : Nat → Nat → List Byte
  | 0, _ => []
  | n + 1, v => BitVec.ofNat 8 (v / 256 ^ n) :: beBytes n v

/-- A byte from its bits, bit 0 first. -/
def flagByte (bits : List Bool) : Byte := bits.reverse.foldl (fun w b => (w <<< 1) ||| (BitVec.ofBool b).setWidth 8) 0

/-- A byte of fields, each a value with the bit it starts at. -/
def packByte (fields : List (Nat × Nat)) : Byte := BitVec.ofNat 8 (fields.foldl (fun acc p => acc + p.2 * 2 ^ p.1) 0)

/-- A truth value as a bit. -/
def bitOf (b : Bool) : Nat := if b then 1 else 0

/-- A stamp in six bytes; an absent one as zeros (12.6). -/
def stampBytes (t : Option Stamp) : List Byte := beBytes 6 ((t.map BitVec.toNat).getD 0)

/-- Status codes (R175). -/
def Status.code : Status → Byte
  | .ok => 0x00
  | .okAdjusted => 0x01
  | .busy => 0x02
  | .badState => 0x03
  | .badArgument => 0x04
  | .blocksPending => 0x05
  | .channelOff => 0x06
  | .conflict => 0x07
  | .inUse => 0x08
  | .notLive => 0x09
  | .alreadySet => 0x0A
  | .queueFull => 0x0B
  | .empty => 0x0C
  | .halted => 0x0D
  | .unknownRequest => 0x0E

/-- Body bytes of a request by its kind byte; a kind byte with no request assigned has none (R175, 12.3). -/
def bodyLength (kind : Byte) : Nat :=
  match kind.toNat with
  | 1 | 8 => 2
  | 2 => 5
  | 3 => 21
  | 4 | 5 | 6 | 10 | 12 | 13 => 1
  | 7 => 6
  | _ => 0

/-- The bytes of a reply: 0xA5, the status code, the body (R174). -/
def Reply.bytes (r : Reply) : List Byte := 0xA5 :: r.status.code :: r.body

/-- Codes of the task kinds (12.3). -/
def Kind.code : Kind → Nat
  | .frequency => 0
  | .phase => 1
  | .interval => 2
  | .timestamp => 3
  | .publish => 4

/-- Codes of marker outcomes (12.5). -/
def Outcome5.code : Outcome5 → Nat
  | .taken => 0
  | .refused => 1
  | .unheard => 2
  | .stale => 3
  | .dropped => 4

/-- Codes of the monitor state (12.4). -/
def Monitor.code : Monitor → Nat
  | .present => 0
  | .absent => 1
  | .returning => 2

/-- Codes of the task states, by order (3.1). -/
def TaskState.code : TaskState → Nat
  | .empty => 0
  | .idle => 1
  | .armed => 2
  | .running => 3
  | .paused => 4
  | .stalled => 5
  | .done => 6
  | .faulted => 7

/-- Codes of the suspension causes, by order (3.1). -/
def Cause.code : Cause → Nat
  | .none => 0
  | .paused => 1
  | .stalled => 2
  | .job => 3

/-- Codes of the end causes, by order (3.1). -/
def EndCause.code : EndCause → Nat
  | .length => 0
  | .disarm => 1
  | .peerLost => 2
  | .failureRun => 3
  | .retire => 4
  | .halt => 5

/-- Codes of the departure, by order (R159). -/
def Departure.code : Departure → Nat
  | .none => 0
  | .retire => 1
  | .reset => 2

/-- Codes of the halt reasons as fields of READ STATUS, by order (R137, R159; log 15). -/
def HaltReason.code : HaltReason → Nat
  | .retired => 0
  | .reset => 1
  | .fault => 2

/-- Codes of the fault classes, by order (00_scope.md; log 15). -/
def FaultClass.code : FaultClass → Nat
  | .lineStuck => 0
  | .identityClash => 1
  | .referenceLost => 2
  | .escalated => 3

/-- Codes of the halt cause: RETIRED, then the fault classes (R159; log 15). -/
def HaltCause.code : HaltCause → Nat
  | .retired => 0
  | .fault c => 1 + c.code

/-- Codes of the peer states, by order (R137). -/
def PeerState.code : PeerState → Nat
  | .absent => 0
  | .live => 1
  | .halted => 2

/-- Codes of the gate states, by order (R143). -/
def GateState.code : GateState → Nat
  | .closed => 0
  | .opened => 1

/-- A result record (12.5). -/
def Result.bytes : Result → List Byte
  | .frequency r =>
    beBytes 4 r.gateIndex.toNat ++ stampBytes (some r.openTime) ++ beBytes 5 r.edges ++ beBytes 6 r.span ++
    beBytes 5 r.frequency ++ beBytes 5 r.smoothed ++ beBytes 4 r.represented ++
    [flagByte [r.flags.noSignal, r.flags.shortened, r.flags.lost, r.flags.clamped, r.flags.orphaned, r.flags.unplaced,
      r.flags.degraded, r.flags.saturated]]
  | .phase r =>
    stampBytes (some r.signal) ++ beBytes 6 r.period ++ beBytes 2 r.phase ++ beBytes 4 r.gapCount ++
    [flagByte [r.flags.noSignal, r.flags.lost, r.flags.unstamped, r.flags.gap, r.flags.degraded]]
  | .interval r =>
    stampBytes (some r.start) ++ beBytes 6 r.interval ++
    [match r.origin with
      | some s => s.setWidth 8
      | none => 0xFF] ++ [r.tag.setWidth 8] ++ beBytes 4 r.missedCount ++
    [flagByte [r.flags.noStop, r.flags.lost, r.flags.unstamped, r.flags.unplaced, r.flags.degraded]]
  | .timestamp r =>
    stampBytes (some r.stamp) ++ beBytes 4 r.seqNo.toNat ++ beBytes 5 r.count.toNat ++ beBytes 4 r.gapCount ++
    [flagByte [r.gap, r.degraded]]
  | .publish r =>
    stampBytes (some r.edge) ++ beBytes 1 r.outcome.code ++ beBytes 3 r.delay.toNat ++ beBytes 4 r.gapCount ++
    [flagByte [r.gap, r.degraded]]

/-- The block header (12.5). -/
def Block.header (b : Block) : List Byte :=
  packByte [(0, b.task.val), (3, b.kind.code), (6, bitOf b.final), (7, bitOf b.short)] ::
  (beBytes 2 b.number.toNat ++ beBytes 1 b.results.length)

/-- The body of a READ RESULT reply: blocks behind the head, the header, the records (12.4, R155). -/
def resultBody (b : Block) (behind : Nat) : List Byte :=
  beBytes 1 behind ++ b.header ++ b.results.flatMap Result.bytes

/-- The body of a READ TIME reply (12.4, R8). -/
def timeBody (tb : Timebase) : List Byte :=
  stampBytes (some tb.now) ++ [packByte [(0, bitOf tb.degraded), (1, tb.monitor.code)]]

/-- Group Station of READ STATUS (12.6). -/
def stationGroup (c : Control) (mute : Bool) (tb : Timebase) : List Byte :=
  [packByte [(0, c.stationNo.toNat), (4, bitOf c.longUnit), (5, bitOf mute)],
   packByte [(0, c.state.code), (2, c.departure.code), (4, bitOf c.haltOwed.isSome),
     (5, (c.haltOwed.map HaltReason.code).getD 0)],
   packByte [(0, tb.monitor.code), (2, bitOf tb.degraded)]]

/-- Group Faults of READ STATUS (12.6). -/
def faultGroup (c : Control) : List Byte :=
  [packByte [(0, bitOf c.faultHold), (1, bitOf c.faultRecord.isSome), (2, bitOf c.haltCause.isSome)],
   packByte [(0, (c.faultRecord.map (fun r => r.cls.code)).getD 0)]] ++
  stampBytes (c.faultRecord.map FaultRecord.stamp) ++
  [(c.faultRecord.map FaultRecord.detail).getD 0, packByte [(0, (c.haltCause.map HaltCause.code).getD 0)]]

/-- Group Events of READ STATUS (12.6). -/
def eventGroup (e : Engine) : List Byte := [e.pendingEvents.setWidth 8, e.ctl.mask.setWidth 8]

/-- Blocks of a task in the result queue (R158). -/
def Engine.blocksOf (e : Engine) (t : TaskId) : Nat := (e.queue.filter (fun b => b.task == t)).length

/-- Eight bytes of one task in READ STATUS (12.6, R50). -/
def taskBytes (e : Engine) (t : TaskId) : List Byte :=
  let k := e.tasks.get t
  [packByte [(0, k.state.code)], packByte [(0, k.cause.code)]] ++ beBytes 2 k.resultsInRun ++
  [packByte [(0, k.failCount)],
   packByte [(0, (k.endCause.map EndCause.code).getD 0), (7, bitOf k.endCause.isSome)],
   packByte [(0, bitOf k.rearmPending)],
   packByte [(0, e.blocksOf t), (7, bitOf k.heldBlock.isSome)]]

/-- Group Queue of READ STATUS (12.6). -/
def queueGroup (q : List Block) : List Byte :=
  [packByte [(0, q.length)], packByte [(0, (q.head?.map (fun b => b.task.val)).getD 0), (7, bitOf q.head?.isSome)]] ++
  beBytes 2 ((q.head?.map (fun b => b.number.toNat)).getD 0)

/-- Three bytes of one slot in READ STATUS (12.6, R133). -/
def slotBytes (s : Option Slot) : List Byte :=
  match s with
  | some s => [packByte [(0, s.task.val), (7, 1)], packByte [(0, s.tag.toNat), (4, s.source.toNat)],
      packByte [(0, s.arrival)]]
  | none => [0, 0, 0]

/-- Nine bytes of one peer in READ STATUS (12.6). -/
def peerBytes (p : Peer) : List Byte :=
  [packByte [(0, p.state.code), (2, (p.haltReason.map HaltReason.code).getD 0), (4, bitOf p.haltReason.isSome),
    (5, bitOf p.position.isSome), (6, bitOf p.lastAnnounce.isSome)]] ++
  beBytes 2 ((p.position.map BitVec.toNat).getD 0) ++ stampBytes p.lastAnnounce

/-- Sixteen bytes of one gate in READ STATUS (12.6). -/
def gateBytes (g : Gate) : List Byte :=
  [packByte [(0, g.state.code), (1, bitOf g.openTime.isSome), (2, bitOf g.opener.isSome), (3, bitOf g.closeTime.isSome),
    (4, bitOf g.closer.isSome)],
   flagByte [g.unplaced, g.orphaned, g.reopened, g.negative]] ++
  stampBytes (g.openTime.map Kept.stamp) ++
  [packByte [(0, (g.closer.map BitVec.toNat).getD 0), (4, (g.opener.map BitVec.toNat).getD 0)]] ++
  stampBytes g.closeTime ++ beBytes 1 g.generation.toNat

/-- The twelve counters in the order of R134. -/
def Counters.toList (c : Counters) : List (BitVec 16) :=
  [c.sent, c.arbLosses, c.stale, c.dropped, c.ownRefused, c.ownUnheard, c.damaged, c.truncated, c.unknownKind,
   c.unclaimed, c.refusalsGiven, c.strayCloses]

/-- The 532 bytes of a READ STATUS reply (12.6, R172). -/
def statusBody (tb : Timebase) (gates : Per16 Gate) (e : Engine) : List Byte :=
  stationGroup e.ctl e.tx.mute tb ++ faultGroup e.ctl ++ eventGroup e ++ taskIds.flatMap (taskBytes e) ++
  queueGroup e.queue ++ e.slots.toList.flatMap slotBytes ++ beBytes 1 e.tx.queue.length ++
  e.peers.toList.flatMap peerBytes ++ gates.toList.flatMap gateBytes ++
  e.ctl.counters.toList.flatMap (fun c => beBytes 2 c.toNat)

end Sys2Proof.Machine
end

