-- ==== Sys2Proof/Decode.lean ====
section
/-!
DEFINITION. The words and frames that spell commands. No row of the table gives bits; the host requests have the byte
frames of 12.3 (R175): a decoder, total and refusing by answering none, and an encoder. A word spells the request whose
frame its bytes are (log 27).
-/

namespace Sys2Proof

/-- Bytes, most significant first, read as a number (chapter 12, opening). -/
def natOfBytes (bs : List Byte) : Nat := bs.foldl (fun v b => v * 256 + b.toNat) 0

/-- A request body of 12.3 with its kind byte, taken `dt` TU after the step before. -/
def decodeBody (dt : Nat) (kind : Nat) (body : List Byte) : Option Instr :=
  match kind, body with
  | 1, [p1, p0] => some (.setup dt (BitVec.ofNat 16 (natOfBytes [p1, p0])))
  | 2, [ch, opt, w, n1, n0] => some (.configureChannel dt ch opt w (BitVec.ofNat 16 (natOfBytes [n1, n0])))
  | 3, task :: k :: b :: l1 :: l0 :: cont :: f :: esc :: area =>
    if area.length = 13 then
      some (.defineTask dt task k b (BitVec.ofNat 16 (natOfBytes [l1, l0])) cont f esc (BitVec.ofNat 104 (natOfBytes area)))
    else none
  | 4, [t] => some (.armTask dt t)
  | 5, [t] => some (.disarmTask dt t)
  | 6, [t] => some (.tearDownTask dt t)
  | 7, [e, mode, bound, mask, action, t] => some (.defineListenEntry dt e mode bound mask action t)
  | 8, [g, a] => some (.publishGate dt g a)
  | 9, [] => some (.readResult dt)
  | 10, [o] => some (.readStatus dt o)
  | 11, [] => some (.readTime dt)
  | 12, [e] => some (.setEvents dt e)
  | 13, [a] => some (.ackEvents dt a)
  | 14, [] => some (.clearFault dt)
  | 15, [] => some (.retire dt)
  | 16, [] => some (.reset dt)
  | _, _ => none

/-- The request a frame carries: an unassigned kind byte completes at once (R175). -/
def decodeFrame (dt : Nat) (frame : List Byte) : Option Instr :=
  match frame with
  | [] => none
  | kind :: body =>
    if 1 ≤ kind.toNat ∧ kind.toNat ≤ 16 then decodeBody dt kind.toNat body
    else if body = [] then some (.unknownRequest dt kind) else none

/-- The first `n` bytes of a word, its lowest byte first. -/
def bytesOfWord : Nat → Nat → List Byte
  | 0, _ => []
  | n + 1, w => BitVec.ofNat 8 w :: bytesOfWord n (w / 256)

/-- The command a word spells (log 27): a request frame of 12.3, its kind byte in bits 7 to 0 and each further byte in
the eight bits above; body bytes beyond the word's bits are 0. No time passes before it. -/
def decodeTableWord (nbits w : Nat) : Option Instr :=
  if nbits < 8 then none
  else
    let w := w % 2 ^ nbits
    decodeFrame 0 (bytesOfWord (max (nbits / 8) (1 + Machine.bodyLength (BitVec.ofNat 8 w))) w)

/-- The frame of a host request (12.3); events have none. -/
def encodeFrame : Instr → Option (List Byte)
  | .setup _ p => some (0x01 :: Machine.beBytes 2 p.toNat)
  | .configureChannel _ ch opt w n => some ([0x02, ch, opt, w] ++ Machine.beBytes 2 n.toNat)
  | .defineTask _ task k b l cont f esc area =>
    some ([0x03, task, k, b] ++ Machine.beBytes 2 l.toNat ++ [cont, f, esc] ++ Machine.beBytes 13 area.toNat)
  | .armTask _ t => some [0x04, t]
  | .disarmTask _ t => some [0x05, t]
  | .tearDownTask _ t => some [0x06, t]
  | .defineListenEntry _ e mode bound mask action t => some [0x07, e, mode, bound, mask, action, t]
  | .publishGate _ g a => some [0x08, g, a]
  | .readResult _ => some [0x09]
  | .readStatus _ o => some [0x0A, o]
  | .readTime _ => some [0x0B]
  | .setEvents _ e => some [0x0C, e]
  | .ackEvents _ a => some [0x0D, a]
  | .clearFault _ => some [0x0E]
  | .retire _ => some [0x0F]
  | .reset _ => some [0x10]
  | .unknownRequest _ k => some [k]
  | .powerOnReset _ | .resetRelease _ _ | .transactionStart _ | .replyReady _ | .replyCompleted _ _ | .csRiseEarly _ _
  | .referenceLost _ _ | .referenceEdgeReturns _ | .returningSilence _ | .referenceQualified _ | .degradedSpanAged _
  | .floorAged _ | .pinLevelChange _ _ _ | .edgeQualified _ _ | .ringAging _ _ | .recordLongPast _ _
  | .keptTimeLongPast _ | .timedGateEvaluation _ | .lineGateEvaluation _ | .lineGateCut _ | .phaseNoSignalLimit _
  | .windowHorizon _ | .jobFinish _ | .lineFall _ | .lineRise _ | .stuckEntry _ | .stuckEnd _ | .lineStuck _
  | .frameTruncated _ | .markerReceived _ _ | .frameEnd _ _ | .attemptStart _ _ | .arbitrationLoss _
  | .resetDeadline _ _ | .cellEdge _ | .cellSample _ _ | .transactionEnd _ | .stuckLineEdge _ _ => none

end Sys2Proof
end

