-- ==== Sys2Proof/Config.lean ====
section
/-!
DEFINITION. What the spec does not fix as a number: the free values. The chip has no build options; its two
straps are sampled into State.

An opaque constant has no body, so no proof can learn its value.
-/

namespace Sys2Proof.Config

/-- The quotient of a job whose divisor is 0. Section 6.1 gives jobs divisors of at least 1, so the spec states
no result here (log 23, DESIGN CHOICE). The argument is the dividend. -/
opaque quotientByZero : Nat → Nat

end Sys2Proof.Config
end

