-- ==== Sys2Proof/Machine/Marker.lean ====
section
/-!
DEFINITION. The 40-bit marker word (R118, R119, 12.7): codes, payloads, the check nibble, and reading a word.
-/

namespace Sys2Proof.Machine

/-- Kind codes (R118). -/
def MarkerKind.code : MarkerKind → BitVec 4
  | .halt => 0
  | .announce => 1
  | .gateOpen => 2
  | .gateClose => 3
  | .edge => 4

/-- The kind a code names; 5 … 15 are unknown kinds (R119). -/
def markerKindOf (c : BitVec 4) : Option MarkerKind :=
  match c with
  | 0 => some .halt
  | 1 => some .announce
  | 2 => some .gateOpen
  | 3 => some .gateClose
  | 4 => some .edge
  | _ => none

/-- Reason codes of a HALT payload (R118). -/
def HaltReason.wordCode : HaltReason → BitVec 2
  | .retired => 1
  | .reset => 2
  | .fault => 3

/-- The reason a HALT payload carries; code 0 is taken as FAULT (R118). -/
def haltReasonOf (c : BitVec 2) : HaltReason :=
  match c with
  | 1 => .retired
  | 2 => .reset
  | _ => .fault

/-- The payload of an ANNOUNCE: position, joining flag, twelve zeros (R118). -/
def announcePayload (position : BitVec 11) (joining : Bool) : BitVec 24 :=
  (position ++ BitVec.ofBool joining) ++ (0 : BitVec 12)

/-- The payload of a HALT: reason and 22 zeros (R118). -/
def haltPayload (r : HaltReason) : BitVec 24 := r.wordCode ++ (0 : BitVec 22)

/-- The nibble of a word whose lowest bit is bit 4·i. -/
def nibble (w : BitVec 40) (i : Nat) : Nat := (w.extractLsb' (4 * i) 4).toNat

/-- The sum of the nine nibbles before the check (R119). -/
def nibbleSum (w : BitVec 40) : Nat :=
  nibble w 1 + nibble w 2 + nibble w 3 + nibble w 4 + nibble w 5 + nibble w 6 + nibble w 7 + nibble w 8 + nibble w 9

/-- The check nibble of a word: 15 minus the sum of the nine nibbles before it modulo 16 (R119). -/
def checkNibble (w : BitVec 40) : BitVec 4 := BitVec.ofNat 4 (15 - nibbleSum w % 16)

/-- A word is whole when its ten nibbles sum to 15 modulo 16 (R119). -/
def checkRight (w : BitVec 40) : Bool := (nibbleSum w + nibble w 0) % 16 == 15

/-- The word of a marker, check nibble included (R118, R119, 12.7). -/
def markerWord (k : MarkerKind) (source : StationNo) (tag : Tag) (payload : BitVec 24) : BitVec 40 :=
  let w := (((k.code ++ source) ++ tag) ++ payload) ++ (0 : BitVec 4)
  w ||| (checkNibble w).setWidth 40

/-- The kind code of a word. -/
def wordKind (w : BitVec 40) : BitVec 4 := w.extractLsb' 36 4

/-- The source of a word. -/
def wordSource (w : BitVec 40) : StationNo := w.extractLsb' 32 4

/-- The tag of a word. -/
def wordTag (w : BitVec 40) : Tag := w.extractLsb' 28 4

/-- The payload of a word. -/
def wordPayload (w : BitVec 40) : BitVec 24 := w.extractLsb' 4 24

/-- The delay an EDGE or GATE word carries (R118). -/
def wordDelay (w : BitVec 40) : Nat := (wordPayload w).toNat

/-- The position an ANNOUNCE word carries (R118). -/
def wordPosition (w : BitVec 40) : BitVec 11 := w.extractLsb' 17 11

/-- The joining flag of an ANNOUNCE word (R118). -/
def wordJoining (w : BitVec 40) : Bool := w.getLsbD 16

/-- The reason a HALT word carries (R118). -/
def wordReason (w : BitVec 40) : HaltReason := haltReasonOf (w.extractLsb' 26 2)

/-- The word of forty bits, first bit most significant (R103, R118). -/
def wordOfBits (bits : List Bool) : BitVec 40 :=
  bits.foldl (fun w b => (w <<< 1) ||| (BitVec.ofBool b).setWidth 40) 0

/-- Bit cell k of a word: bit 39 is sent in cell 0 (12.7). -/
def cellBit (w : BitVec 40) (k : Nat) : Bool := w.getLsbD (39 - k)

end Sys2Proof.Machine
end

