-- ==== Sys2Proof/Machine/Ops.lean ====
section
/-!
DEFINITION. The shared operations of the engine: counters and latches, remote slots, jobs leaving a task, the
result queue's side of a block, the end of a run (R40, R41), a station fault and the station halt (R166, R167,
R157), and the taking of a result (R37).

Nothing here changes the timebase, the channels, the line receiver, the listen table or the gates: an `Engine`
has none of them.
-/

namespace Sys2Proof.Machine

/-! ## Records, counters and latches -/

/-- One task record replaced. -/
def Engine.setTask (t : TaskId) (k : TaskRec) (e : Engine) : Engine := { e with tasks := e.tasks.set t k }

/-- One task record rewritten. -/
def Engine.modTask (t : TaskId) (f : TaskRec → TaskRec) (e : Engine) : Engine := e.setTask t (f (e.tasks.get t))

/-- Station control's record rewritten. -/
def Engine.modCtl (f : Control → Control) (e : Engine) : Engine := { e with ctl := f e.ctl }

/-- A 16-bit counter that stops at 65535 (R134). -/
def bumpBy (n : Nat) (c : BitVec 16) : BitVec 16 := BitVec.ofNat 16 (min (c.toNat + n) 65535)

/-- The statistics counters rewritten (R134). -/
def Engine.count (f : Counters → Counters) (e : Engine) : Engine :=
  e.modCtl (fun c => { c with counters := f c.counters })

/-- Event TASK_ENDED latches (R50). -/
def Engine.latchTaskEnded (e : Engine) : Engine :=
  e.modCtl (fun c => { c with latched := { c.latched with taskEnded := true } })

/-- Event PEER_CHANGED latches when the condition holds (R138, R141). -/
def Engine.latchPeerChanged (changed : Bool) (e : Engine) : Engine :=
  e.modCtl (fun c => { c with latched := { c.latched with peerChanged := c.latched.peerChanged || changed } })

/-- Event MARKER_LOSS latches (R136). -/
def Engine.latchMarkerLoss (e : Engine) : Engine :=
  e.modCtl (fun c => { c with latched := { c.latched with markerLoss := true } })

/-- Event TIMEBASE latches (R3, R4). -/
def Engine.latchTimebase (e : Engine) : Engine :=
  e.modCtl (fun c => { c with latched := { c.latched with timebase := true } })

/-- `n` markers are dropped: each adds 1 to the dropped counter, and any latches MARKER_LOSS (R134, R136). -/
def Engine.countDropped (n : Nat) (e : Engine) : Engine :=
  if n = 0 then e
  else (e.count (fun c => { c with dropped := bumpBy n c.dropped })).latchMarkerLoss

/-! ## Remote slots -/

/-- A held slot closes up over a freed arrival number (R133). -/
def Slot.closeUp (freed : Nat) (s : Slot) : Slot :=
  if freed < s.arrival then { s with arrival := s.arrival - 1 } else s

/-- A slot becomes FREE and the later arrivals close up (R133). -/
def Engine.freeSlot (i : SlotId) (e : Engine) : Engine :=
  match e.slots.get i with
  | none => e
  | some s => { e with slots := (e.slots.set i none).map (fun o => o.map (Slot.closeUp s.arrival)) }

/-- The slot is held for the task (R131). -/
def Engine.slotOf (e : Engine) (t : TaskId) (i : SlotId) : Bool :=
  match e.slots.get i with
  | some s => s.task == t
  | none => false

/-- Every slot held for the task is freed (R133). -/
def Engine.freeSlotsOf (t : TaskId) (e : Engine) : Engine :=
  taskIds.foldl (fun e i => if e.slotOf t i then e.freeSlot i else e) e

/-! ## A task's job and markers leave its hands -/

/-- The task's waiting or held-back job is withdrawn and its job in progress marked discarded (R40, R95). -/
def Engine.withdrawJob (t : TaskId) (e : Engine) : Engine :=
  let mine := match e.unit.current with
    | some j => j.task == t
    | none => false
  { e with
    unit := { waiting := e.unit.waiting.filter (fun w => !(w.task == t)),
              current := e.unit.current.map (fun j => if j.task = t then { j with discarded := true } else j) },
    tasks := e.tasks.set t
      { e.tasks.get t with
        job := if (e.tasks.get t).job = .waiting then .none else (e.tasks.get t).job,
        heldBackJob := none, waitingResult := none,
        jobDiscarded := (e.tasks.get t).jobDiscarded || mine } }

/-- The outgoing queue rewritten. -/
def Engine.modOutgoing (f : List OutEntry → List OutEntry) (e : Engine) : Engine :=
  { e with tx := { e.tx with queue := f e.tx.queue } }

/-- An entry leaves a task's hands: its origin task becomes absent (R126). -/
def OutEntry.detach (t : TaskId) (m : OutEntry) : OutEntry :=
  if m.originTask = some t then { m with originTask := none } else m

/-- The transmitter detaches a task's entries at its run end (R89, R126). -/
def Engine.detachMarkers (t : TaskId) (e : Engine) : Engine := e.modOutgoing (List.map (OutEntry.detach t))

/-! ## Offers of one moment (R121, R152)

The tasks' offers of one moment are taken in ascending task number, whichever commands bring them: an offer stands before
those of the moment that higher-numbered tasks made, and where the queue is full it takes the place of the last of them. -/

/-- A list with an element placed before the first that it precedes, or at the tail. -/
def placeBefore {α : Type} (follows : α → Bool) (a : α) (q : List α) : List α :=
  q.takeWhile (fun x => !follows x) ++ a :: q.dropWhile (fun x => !follows x)

/-- The last element of a list that a test picks, and the list without it. -/
def takeLast {α : Type} (picks : α → Bool) : List α → Option (α × List α)
  | [] => none
  | x :: xs =>
    match takeLast picks xs with
    | some (y, ys) => some (y, x :: ys)
    | none => if picks x then some (x, xs) else none

/-! ## Blocks and the result queue -/

/-- The result queue holds at most 16 blocks (R152). -/
def queueDepth : Nat := 16

/-- A block of the task that completes now, with the number it takes (R31, R151). -/
def TaskRec.blockNow (t : TaskId) (k : TaskRec) (d : TaskDef) (final : Bool) (rs : List Result) : Block :=
  { task := t, kind := d.fields.kind, number := k.nextBlock, final := final,
    short := final && decide (rs.length < d.blockSize), results := rs }

/-- The block flagged FINAL, and SHORT where it holds fewer than B results (R41, R157). -/
def Block.asFinal (blockSize : Nat) (b : Block) : Block :=
  { b with final := true, short := decide (b.results.length < blockSize) }

/-- A block that a higher-numbered task offered at this moment: a block of task `t` offered now is taken before it
(R152). -/
def Block.follows (now : Stamp) (t : TaskId) (x : Block) : Bool := x.offered.any (Kept.isNow now) && decide (t < x.task)

/-- A task stands as the append of its newest block left it, so that it can hold the block instead. A task that has gone on
since (a job handed over, a result taken, a new run) keeps its block's place (log 53, DESIGN CHOICE). -/
def TaskRec.canHold (x : Block) (k : TaskRec) : Bool :=
  k.nextBlock == x.number + 1 && k.heldBlock.isNone &&
  (if x.final then (k.state == .done || k.state == .faulted) && k.endCause.isSome
   else k.runContinues && k.openBlock == some [] && (k.cause == .none || (k.cause == .paused && k.pausedOn == some x.number)))

/-- A task whose newest block has found the queue full after all: STALLED with the block, with run-end pending where the
block is FINAL (R40, R41, R152). -/
def TaskRec.holding (x : Block) (k : TaskRec) : TaskRec :=
  let k := { k with state := .stalled, cause := .stalled, heldBlock := some { x with offered := none } }
  if x.final then { k with runEndPending := k.endCause, endCause := none } else { k with pausedOn := none }

/-- Place in the queue for a block of a task: there is one while fewer than 16 blocks stand in it, and in a full queue the
last block that a higher-numbered task offered at this moment gives its place up (R152). -/
def Engine.placeFor (now : Stamp) (t : TaskId) (e : Engine) : Option Engine :=
  if e.queue.length < queueDepth then some e
  else (takeLast (fun x => x.follows now t && (e.tasks.get x.task).canHold x) e.queue).map (fun p =>
    { e with queue := p.2, tasks := e.tasks.set p.1.task ((e.tasks.get p.1.task).holding p.1) })

/-- A completed block of a task is offered: it enters the queue at its place among the offers of the moment, with the record
`entered` for its task, or finds the queue full, with the record `held` (R152). -/
def Engine.offerBlock (now : Stamp) (t : TaskId) (b : Block) (entered held : TaskRec) (e : Engine) : Engine :=
  match e.placeFor now t with
  | some p =>
    { p with
      queue := placeBefore (Block.follows now t) { b with offered := some (fresh now) } p.queue,
      tasks := p.tasks.set t entered }
  | none => e.setTask t held

/-- The open block is full and the run continues: it completes without FINAL and is offered (R37 step 8, R45, R152). -/
def Engine.completeFull (now : Stamp) (t : TaskId) (d : TaskDef) (rs : List Result) (e : Engine) : Engine :=
  let k := e.tasks.get t
  let b := k.blockNow t d false rs
  let k := { k with nextBlock := k.nextBlock + 1, openBlock := some [] }
  e.offerBlock now t b
    (if d.continuation = .paced then { k with state := .paused, cause := .paused, pausedOn := some b.number } else k)
    { k with state := .stalled, cause := .stalled, heldBlock := some b }

/-! ## The end of a run -/

/-- The state a run leaves its task in (R40). -/
def EndCause.endState : EndCause → TaskState
  | .peerLost | .failureRun | .halt => .faulted
  | _ => .done

/-- What every run end releases: slots, job, markers, cursors, kind state and deferred work (R40, R41). -/
def Engine.releaseRun (t : TaskId) (e : Engine) : Engine :=
  (((e.freeSlotsOf t).withdrawJob t).detachMarkers t).modTask t
    (fun k => { k with cursor := none, refCursor := none, run := .none, pausedOn := none })

/-- The end of a run already released: the final block, the end cause and the state (R40, R41). -/
def Engine.closeRun (now : Stamp) (t : TaskId) (d : TaskDef) (cause : EndCause) (e : Engine) : Engine :=
  let k := e.tasks.get t
  let k := { k with rearmPending := k.rearmPending || (d.continuation == Continuation.rearmOnRead && cause == EndCause.length) }
  match k.state, k.openBlock with
  | .stalled, _ =>
    e.setTask t { k with runEndPending := some cause, openBlock := none,
                         heldBlock := k.heldBlock.map (Block.asFinal d.blockSize) }
  | _, some (r :: rs) =>
    let b := k.blockNow t d true (r :: rs)
    let k := { k with nextBlock := k.nextBlock + 1, openBlock := none }
    e.offerBlock now t b { k with state := cause.endState, endCause := some cause, cause := .none }
      { k with state := .stalled, cause := .stalled, heldBlock := some b, runEndPending := some cause }
  | _, _ => e.setTask t { k with openBlock := none, state := cause.endState, endCause := some cause, cause := .none }

/-- A run ends with an end cause (R40, R41, R50); nothing happens where no run continues. -/
def Engine.endRun (now : Stamp) (t : TaskId) (cause : EndCause) (e : Engine) : Engine :=
  match (e.tasks.get t).runContinues, (e.tasks.get t).defn with
  | true, some d => ((e.releaseRun t).latchTaskEnded).closeRun now t d cause
  | true, none =>
    ((e.releaseRun t).latchTaskEnded).modTask t (fun k =>
      { k with openBlock := none, heldBlock := none, state := cause.endState, endCause := some cause, cause := .none })
  | false, _ => e

/-! ## HALT in the outgoing queue -/

/-- The queue holds a HALT entry. -/
def Engine.haltQueued (e : Engine) : Bool := e.tx.queue.any (fun m => m.kind == .halt)

/-- A HALT entry with a reason (R118, R120). -/
def haltEntry (r : HaltReason) : OutEntry :=
  { kind := .halt, tag := 0, origin := none, originTask := none, payload := haltPayload r, inTransmission := false,
    removeAtEnd := false }

/-- A queued HALT not in transmission takes a new reason (R122). -/
def OutEntry.newReason (r : HaltReason) (m : OutEntry) : OutEntry :=
  if m.kind == .halt && !m.inTransmission then { m with payload := haltPayload r } else m

/-- A HALT takes its place: a queued one not in transmission takes the new reason, one in transmission stands,
and otherwise the HALT is inserted at the head (R122). -/
def Engine.placeHalt (r : HaltReason) (e : Engine) : Engine :=
  if e.haltQueued then e.modOutgoing (List.map (OutEntry.newReason r)) else e.modOutgoing (List.cons (haltEntry r))

/-- The own peer entry becomes HALTED with a reason (R140). -/
def Engine.ownHalted (r : HaltReason) (e : Engine) : Engine :=
  let own := { e.peers.get e.ctl.stationNo with state := .halted, haltReason := some r }
  { e with peers := e.peers.set e.ctl.stationNo own }

/-! ## Station faults and the station halt -/

/-- A task's last block at a station halt, offered to a queue of 16 places: the held block, or else the open one
if it holds a result (R157). An open block takes its number as it enters. -/
def Engine.offerHaltBlock (t : TaskId) (d : TaskDef) (e : Engine) : Engine :=
  let k := e.tasks.get t
  match k.heldBlock, k.openBlock with
  | some b, _ => if e.queue.length < queueDepth then { e with queue := e.queue ++ [b.asFinal d.blockSize] } else e
  | none, some (r :: rs) =>
    if e.queue.length < queueDepth then
      { e with queue := e.queue ++ [k.blockNow t d true (r :: rs)],
               tasks := e.tasks.set t { k with nextBlock := k.nextBlock + 1 } }
    else e
  | none, _ => e

/-- A task's record after a station halt: FAULTED, and a task already FAULTED keeps its end cause (R49). -/
def TaskRec.halted (k : TaskRec) : TaskRec :=
  { k with openBlock := none, heldBlock := none, runEndPending := none, rearmPending := false, cause := .none,
           endCause := if k.state = .faulted then k.endCause else some .halt, state := .faulted }

/-- One task at a station halt (R49, R157): its run ends, its last block is offered and it becomes FAULTED. -/
def Engine.haltTask (t : TaskId) (e : Engine) : Engine :=
  if (e.tasks.get t).state = .empty then e
  else
    let ended := (e.tasks.get t).runContinues
    let e := e.releaseRun t
    let e := match (e.tasks.get t).defn with
      | some d => e.offerHaltBlock t d
      | none => e
    (if ended then e.latchTaskEnded else e).modTask t TaskRec.halted

/-- A station halt clears the outgoing queue: what is not in transmission is dropped, what is stays for its frame
only (R126). -/
def Engine.clearOutgoing (e : Engine) : Engine :=
  let kept := e.tx.queue.filter (fun m => m.inTransmission)
  let n := e.tx.queue.length - kept.length
  (e.modOutgoing (fun _ => kept.map (fun m => { m with removeAtEnd := true }))).countDropped n

/-- The station halts on a second station fault (R167). -/
def Engine.stationHalt (cls : FaultClass) (e : Engine) : Engine :=
  let silent := e.cannotSendHalt
  let e := (taskIds.foldl (fun e t => e.haltTask t) e).clearOutgoing
  let e := e.modCtl (fun c =>
    { c with state := .halted, haltCause := some (.fault cls),
             departure := if c.departure = .reset then .reset else .none,
             haltOwed := if silent then none else some .fault })
  if silent then e.ownHalted .fault else e.placeHalt .fault

/-- A station fault handed to station control: nothing in HALTED, held while the hold is clear, else a halt
(R166, R167). -/
def Engine.stationFault (cls : FaultClass) (stamp : Stamp) (detail : Byte) (e : Engine) : Engine :=
  if e.ctl.state = .halted then e
  else if e.ctl.faultHold then e.stationHalt cls
  else e.modCtl (fun c => { c with faultHold := true, faultRecord := some ⟨cls, stamp, detail⟩ })

/-- A task hands ESCALATED up: the stamp is the time it took the result, the detail its number (R48). -/
def Engine.escalate (now : Stamp) (t : TaskId) (e : Engine) : Engine :=
  e.stationFault .escalated now (BitVec.ofNat 8 t.val)

/-! ## Taking a result -/

/-- Steps 1 to 3 of R37: the result joins the open block, the run's count and the failure count. `n` is what the
result represents. -/
def TaskRec.addResult (d : TaskDef) (r : Result) (n : Nat) (k : TaskRec) : TaskRec :=
  { k with
    openBlock := some (k.openBlock.getD [] ++ [r]),
    resultsInRun := if d.runLength = 0 then min (k.resultsInRun + n) 65535 else k.resultsInRun + n,
    failCount := if r.failed then min (k.failCount + 1) 255 else 0 }

/-- Step 4 of R37: an ORPHANED result takes PEER_LOST (R47, R48). -/
def Engine.takePeerLost (now : Stamp) (t : TaskId) (d : TaskDef) (r : Result) (e : Engine) : Engine :=
  if r.orphaned then
    match d.onPeerLost with
    | .keep => e.endRun now t .peerLost
    | .raise => e.escalate now t
  else e

/-- Step 5 of R37: FAILURE_RUN when the failure count has reached F; the count becomes 0, and no second ESCALATED
is handed up for one result (R46, R48). -/
def Engine.takeFailureRun (now : Stamp) (t : TaskId) (d : TaskDef) (r : Result) (e : Engine) : Engine :=
  if (e.tasks.get t).runContinues && decide (d.failLimit ≠ 0) && decide (d.failLimit ≤ (e.tasks.get t).failCount) then
    let e := e.modTask t (fun k => { k with failCount := 0 })
    match d.onFailureRun with
    | .keep => e.endRun now t .failureRun
    | .raise => if r.orphaned && d.onPeerLost == .raise then e else e.escalate now t
  else e

/-- Steps 6 to 8 of R37: the run ends by length, or a full block completes. -/
def Engine.finishTaking (now : Stamp) (t : TaskId) (d : TaskDef) (e : Engine) : Engine :=
  let k := e.tasks.get t
  if !k.runContinues then e
  else if d.runLength ≠ 0 ∧ d.runLength ≤ k.resultsInRun then e.endRun now t .length
  else match k.openBlock with
    | some rs => if d.blockSize ≤ rs.length then e.completeFull now t d rs else e
    | none => e

/-- A task takes a whole result that represents `n` gates or results (R37). -/
def Engine.takeResult (now : Stamp) (t : TaskId) (r : Result) (n : Nat) (e : Engine) : Engine :=
  match (e.tasks.get t).defn with
  | none => e
  | some d =>
    (((e.modTask t (TaskRec.addResult d r n)).takePeerLost now t d r).takeFailureRun now t d r).finishTaking now t d

/-- The task is taking entries (R26). -/
def Engine.takes (e : Engine) (t : TaskId) : Bool := (e.tasks.get t).takes

end Sys2Proof.Machine
end

