-- ==== Sys2Proof/Machine/Arithmetic.lean ====
section
/-!
DEFINITION. The arithmetic unit (chapter 06): the frequency quotient, smoothing and the phase quotient, handing a
job over, the arbiter, and the finish of a job.
-/

namespace Sys2Proof.Machine

/-- A floored quotient; a divisor of 0 is outside the jobs' domain and its result is a free value (log 23). -/
def quotient (a b : Nat) : Nat := if b = 0 then Config.quotientByZero a else a / b

/-- The quotient of R96 before any limit: mHz from edges over TU, rounded to the nearest. -/
def rawFrequency (edges span : Nat) : Nat := quotient (edges * 8000000000000 + span / 2) span

/-- The greatest frequency reported: 2^40 − 1 mHz (R97). -/
def maxFrequency : Nat := 2 ^ 40 - 1

/-- The frequency of a job, after any saturation (R96, R97). -/
def frequencyOf (edges span : Nat) : Nat := min (rawFrequency edges span) maxFrequency

/-- The quotient exceeds 2^40 − 1 (R97). -/
def saturates (edges span : Nat) : Bool := decide (maxFrequency < rawFrequency edges span)

/-- The new smoothing state, in 1/256 mHz (R98): the step (F − S) / 2^s rounds toward minus infinity. -/
def newSmoothing (state : Option Nat) (shift frequency : Nat) : Nat :=
  match state with
  | none => frequency * 256
  | some s => ((s : Int) + Int.fdiv ((frequency : Int) * 256 - (s : Int)) ((2 : Int) ^ shift)).toNat

/-- The smoothed frequency a state reports: to the nearest mHz, a half rounded up (R98). -/
def smoothedOf (state : Nat) : Nat := (state + 128) / 256

/-- The phase quotient, in 1/65536 turn, truncated (R99). -/
def phaseOf (offset period : Nat) : Nat := quotient (offset * 65536) period

/-- A job enters the job list (R91). -/
def Engine.enterJob (t : TaskId) (ops : JobOps) (e : Engine) : Engine :=
  { e with unit := { e.unit with waiting := e.unit.waiting ++ [⟨t, ops⟩] } }

/-- A task hands a job over and is suspended for JOB; behind a discarded job of its number the new one is held
back in the record (R92). -/
def Engine.handJob (t : TaskId) (ops : JobOps) (waitingResult : Partial) (e : Engine) : Engine :=
  let k := { e.tasks.get t with job := .waiting, cause := .job, waitingResult := some waitingResult }
  if k.jobDiscarded then e.setTask t { k with heldBackJob := some ops }
  else (e.setTask t k).enterJob t ops

/-- The waiting job of the lowest-numbered task. -/
def lowestJob (ws : List WaitingJob) : Option WaitingJob :=
  taskIds.findSome? (fun t => ws.find? (fun w => w.task == t))

/-- A waiting job starts, as jobs are handed over or at a finish (R93): it leaves the list. -/
def Engine.startJob (now : Stamp) (handed : Bool) (w : WaitingJob) (e : Engine) : Engine :=
  let started : ArithUnit :=
    { waiting := e.unit.waiting.filter (fun x => !(x.task == w.task)),
      current := some ⟨w.task, w.ops, now, false, handed⟩ }
  { e with unit := started, tasks := e.tasks.set w.task { e.tasks.get w.task with job := .inProgress } }

/-- The arbiter's choice at a finish: with the divider free, the waiting job of the lowest-numbered task starts (R93). -/
def Engine.chooseNext (now : Stamp) (e : Engine) : Engine :=
  match e.unit.current, lowestJob e.unit.waiting with
  | none, some w => e.startJob now false w
  | _, _ => e

/-- A job that started at this very moment, as jobs were handed over, gives way to one of a lower number: jobs handed
over at one moment all enter the list before the arbiter chooses, whichever commands hand them (R93). A job whose
answer is discarded meanwhile stays (log 30, DESIGN CHOICE). -/
def CurrentJob.givesWay (now : Stamp) (w : WaitingJob) (j : CurrentJob) : Bool :=
  j.handed && !j.discarded && j.start == now && decide (w.task < j.task)

/-- A job that has given way stands in the list again (R93). -/
def Engine.returnJob (j : CurrentJob) (e : Engine) : Engine :=
  { e with
    unit := { waiting := e.unit.waiting ++ [⟨j.task, j.ops⟩], current := none },
    tasks := e.tasks.set j.task { e.tasks.get j.task with job := .waiting } }

/-- The arbiter where jobs may have been handed over: with the divider free, or given to a job that gives way, the
waiting job of the lowest-numbered task starts (R93). -/
def Engine.arbitrate (now : Stamp) (e : Engine) : Engine :=
  match e.unit.current, lowestJob e.unit.waiting with
  | none, some w => e.startJob now true w
  | some j, some w => if j.givesWay now w then (e.returnJob j).startJob now true w else e
  | _, none => e

/-- A job lasts 3,200 TU (R93). -/
def jobTime : Nat := 3200

/-- The divider becomes free; a discarded job's record takes job answer discarded no, and a job held back behind
it enters the list (R94). -/
def Engine.releaseDivider (j : CurrentJob) (e : Engine) : Engine :=
  let e := { e with unit := { e.unit with current := none } }
  let k := e.tasks.get j.task
  if j.discarded then
    let k := { k with jobDiscarded := false, job := if k.job = JobShown.inProgress then JobShown.none else k.job }
    match k.heldBackJob with
    | some ops => (e.setTask j.task { k with heldBackJob := none }).enterJob j.task ops
    | none => e.setTask j.task k
  else e.setTask j.task { k with job := .none }

end Sys2Proof.Machine
end

