-- ==== Sys2Proof/Machine/FrequencyTasks.lean ====
section
/-!
DEFINITION. FREQUENCY tasks (chapter 04, sections 4.1 to 4.7): evaluating a gate, its result, missed gates,
notices of line gates and catching up.
-/

namespace Sys2Proof.Machine

/-! ## Evaluating a gate -/

/-- How a gate evaluates (R56, R57). -/
inductive GateOutcome where
  | valid | noSignal | lost
  deriving DecidableEq, Repr

/-- The answer of an evaluation: the outcome, the entries the two searches found and SHORTENED (R57, R58). -/
structure GateAnswer where
  outcome   : GateOutcome
  e1        : Option Entry
  e2        : Option Entry
  shortened : Bool
  deriving DecidableEq, Repr

/-- The entry "first at or after" found. -/
def AfterAnswer.entry? : AfterAnswer → Option Entry
  | .found e _ => some e
  | _ => none

/-- SHORTENED: e1 is judged LOST and the ring's ever-removed flag is set (R58). -/
def Ring.shortens (r : Ring) (a : AfterAnswer) : Bool :=
  match a with
  | .found _ .lost => r.everRemoved
  | _ => false

/-- The evaluation of a gate on its channel's ring (R56, R57, R58). -/
def Ring.evaluateGate (r : Ring) (g : GateSpan) : GateAnswer :=
  if g.negative then ⟨.noSignal, none, none, false⟩
  else
    let a1 := r.firstAtOrAfter g.opened
    match r.lastAtOrBefore g.closed with
    | .found e2 =>
      if g.opened.laterThan (fresh e2.stamp) then ⟨.noSignal, a1.entry?, some e2, false⟩
      else match a1.entry? with
        | some e1 =>
          ⟨if e1.index = e2.index then .noSignal else .valid, some e1, some e2, r.shortens a1⟩
        | none => ⟨.noSignal, none, some e2, false⟩
    | .none => ⟨.noSignal, a1.entry?, none, false⟩
    | .lost => ⟨if a1 = .pending then .noSignal else .lost, a1.entry?, none, false⟩

/-! ## Making a result -/

/-- The kind state of a FREQUENCY run. -/
def TaskRec.freqRun (k : TaskRec) : Option FreqRun :=
  match k.run with
  | .frequency r => some r
  | _ => none

/-- The kind fields of a FREQUENCY task. -/
def TaskRec.freqFields (k : TaskRec) : Option FreqFields :=
  match k.defn with
  | some d => match d.fields with
    | .frequency f => some f
    | _ => none
  | none => none

/-- The kind state rewritten. -/
def Engine.setFreqRun (t : TaskId) (r : FreqRun) (e : Engine) : Engine :=
  e.modTask t (fun k => { k with run := .frequency r })

/-- The stamps of a gate that R59 tests for DEGRADED besides e1 and e2: the arm time of a TIMED task, the gate's
own times of a LINE task. -/
def gateStamps (k : TaskRec) (f : FreqFields) (g : GateSpan) : List Kept :=
  match f.source with
  | .timed => k.armTime.toList
  | .line => [g.opened, g.closed]

/-- Results a merged result may represent: no more than L leaves room for (R37 step 2, R63). -/
def TaskRec.capRepresented (k : TaskRec) (n : Nat) : Nat :=
  match k.defn with
  | some d => if d.runLength = 0 then min n satLimit else min (min n satLimit) (d.runLength - k.resultsInRun)
  | none => n

/-- The smoothed frequency reported from a held state: 0 while it is absent (R60). -/
def heldSmoothed (s : Option Nat) : Nat :=
  match s with
  | some x => smoothedOf x
  | none => 0

/-- A FREQUENCY result is taken: the next gate index advances by what it represents (R59, R61, R63). -/
def Engine.takeFrequency (fr : Front) (t : TaskId) (run : FreqRun) (openTime : Stamp) (n edges span freq smoothed : Nat)
    (flags : FreqFlags) (e : Engine) : Engine :=
  let n := (e.tasks.get t).capRepresented n
  let r : FreqResult :=
    { gateIndex := run.nextGate, openTime := openTime, edges := edges, span := span, frequency := freq,
      smoothed := smoothed, represented := n, flags := flags }
  (e.setFreqRun t { run with nextGate := run.nextGate + BitVec.ofNat 32 n }).takeResult fr.now t (.frequency r) n

/-- A gate that is not valid gives its result at once: NO_SIGNAL or LOST, reported from the held state (R57, R59,
R60). DEGRADED tests each entry the two searches found (log 14, DEDUCED). -/
def Engine.takeFailedGate (fr : Front) (t : TaskId) (f : FreqFields) (run : FreqRun) (g : GateSpan) (a : GateAnswer)
    (e : Engine) : Engine :=
  let stamps := a.e1.toList.map (fun x => fresh x.stamp) ++ a.e2.toList.map (fun x => fresh x.stamp) ++
    gateStamps (e.tasks.get t) f g
  e.takeFrequency fr t run g.opened.stamp 1 0 0 0 (heldSmoothed run.smoothing)
    { noSignal := a.outcome == .noSignal || run.smoothing.isNone, shortened := a.shortened,
      lost := a.outcome == .lost, clamped := g.clamped, orphaned := g.orphaned, unplaced := g.unplaced,
      degraded := fr.tb.anyDegraded stamps, saturated := false }

/-- What an evaluated gate does: a valid one is handed over as a job, another gives its result (R57, R59). -/
def Engine.actOnGate (fr : Front) (t : TaskId) (f : FreqFields) (run : FreqRun) (g : GateSpan) (a : GateAnswer)
    (e : Engine) : Engine :=
  match a.outcome, a.e1, a.e2 with
  | .valid, some e1, some e2 =>
    let edges := (e2.count - e1.count).toNat
    let span := since e2.stamp e1.stamp
    (e.setFreqRun t run).handJob t (.frequency edges span f.shift run.smoothing)
      (.frequency g edges span (fresh e1.stamp) (fresh e2.stamp) a.shortened)
  | _, _, _ => e.takeFailedGate fr t f run g a

/-- The answer of a FREQUENCY job completes the waiting result (R59, R94). -/
def Engine.completeFrequency (fr : Front) (t : TaskId) (g : GateSpan) (edges span shift : Nat) (state : Option Nat)
    (e1 e2 : Kept) (shortened : Bool) (e : Engine) : Engine :=
  match (e.tasks.get t).freqRun, (e.tasks.get t).freqFields with
  | some run, some f =>
    let freq := frequencyOf edges span
    let s := newSmoothing state shift freq
    e.takeFrequency fr t { run with smoothing := some s } g.opened.stamp 1 edges span freq (smoothedOf s)
      { noSignal := false, shortened := shortened, lost := false, clamped := g.clamped, orphaned := g.orphaned,
        unplaced := g.unplaced, degraded := fr.tb.anyDegraded (e1 :: e2 :: gateStamps (e.tasks.get t) f g),
        saturated := saturates edges span }
  | _, _ => e

/-! ## TIMED gates -/

/-- A TIMED gate `back` gates before the one that opens at `gateOpen`, with the ages of its times counted whole,
so that times older than the counter's range stay long past (R52, R61, R100; log 11). -/
def timedGate (now gateOpen : Stamp) (length back : Nat) : GateSpan :=
  let age := since now gateOpen + back * length
  let opened := gateOpen - BitVec.ofNat 48 (back * length)
  { opened := ⟨opened, decide (oldAge ≤ age)⟩, closed := ⟨plus opened length, decide (oldAge + length ≤ age)⟩,
    unplaced := false, orphaned := false, reopened := false, negative := false, clamped := false }

/-- The evaluation moment of the gate that opens at `gateOpen` has come (R52). -/
def timedGateDue (now : Stamp) (c : Channel) (length : Nat) (gateOpen : Stamp) : Bool :=
  reached now (plus gateOpen (length + c.horizon))

/-- A LOST stretch of `n` missed gates gives its one result and leaves the missed gates (R61, R63). Of a stretch of more
than 2^32 − 1 gates the excess gates are left with it, and the index advances by the saturated count (log 43,
DESIGN CHOICE). DEGRADED tests the arm time alone and no entry e1 that a search of the stretch found (R59, R63; log 14,
DEDUCED). -/
def Engine.takeTimedStretch (fr : Front) (t : TaskId) (f : FreqFields) (n : Nat) (e : Engine) : Engine :=
  match (e.tasks.get t).freqRun with
  | some run =>
    let g := timedGate fr.now run.gateOpen f.gateLength run.passed
    e.takeFrequency fr t { run with passed := run.passed - n } g.opened.stamp n 0 0 0 (heldSmoothed run.smoothing)
      { noSignal := run.smoothing.isNone, shortened := false, lost := true, clamped := false, orphaned := false,
        unplaced := false, degraded := fr.tb.anyDegraded (e.tasks.get t).armTime.toList, saturated := false }
  | none => e

/-- Missed TIMED gates in index order (R61). `fuel` counts the gates not looked at yet, `stretch` the LOST gates
that stand before them; the first other gate closes the stretch, whose result is taken first. -/
def Engine.catchUpTimed (fr : Front) (t : TaskId) (f : FreqFields) : Nat → Nat → Engine → Engine
  | 0, stretch, e => if stretch = 0 then e else e.takeTimedStretch fr t f stretch
  | fuel + 1, stretch, e =>
    match (e.tasks.get t).freqRun with
    | none => e
    | some run =>
      let g := timedGate fr.now run.gateOpen f.gateLength (run.passed - stretch)
      let a := (fr.ring f.input).evaluateGate g
      if a.outcome = .lost then Engine.catchUpTimed fr t f fuel (stretch + 1) e
      else
        let e := if stretch = 0 then e else e.takeTimedStretch fr t f stretch
        match e.takes t, (e.tasks.get t).freqRun with
        | true, some run =>
          let e := e.actOnGate fr t f { run with passed := run.passed - 1 } g a
          if e.takes t then Engine.catchUpTimed fr t f fuel 0 e else e
        | _, _ => e

/-- A TIMED gate's evaluation moment: it is evaluated, or it becomes a missed gate if the task is suspended
(R52, R61). -/
def Engine.timedMoment (fr : Front) (t : TaskId) (e : Engine) : Engine :=
  match (e.tasks.get t).runContinues, (e.tasks.get t).freqRun, (e.tasks.get t).freqFields with
  | true, some run, some f =>
    if f.source = .timed ∧ timedGateDue fr.now (fr.chan f.input) f.gateLength run.gateOpen = true then
      let next := plus run.gateOpen f.gateLength
      if e.takes t then
        let g := timedGate fr.now run.gateOpen f.gateLength 0
        e.actOnGate fr t f { run with gateOpen := next } g ((fr.ring f.input).evaluateGate g)
      else e.setFreqRun t { run with gateOpen := next, passed := run.passed + 1 }
    else e
  | _, _, _ => e

/-! ## LINE gates -/

/-- One more later missed gate: the count, saturating, and the union of the flags (R62). -/
def LaterMissed.join (tb : Timebase) (g : GateSpan) (m : LaterMissed) : LaterMissed :=
  { count := satAdd m.count 1, opened := m.opened, unplaced := m.unplaced || g.unplaced,
    orphaned := m.orphaned || g.orphaned, reopened := m.reopened || g.reopened, negative := m.negative || g.negative,
    clamped := m.clamped || g.clamped, degraded := m.degraded || tb.anyDegraded [g.opened, g.closed] }

/-- No later missed gate, the next one opening at a time. -/
def noneLater (opened : Kept) : LaterMissed := ⟨0, opened, false, false, false, false, false, false⟩

/-- An ended gate whose moment passes while the task is suspended: the first is kept whole, later ones are
counted with the union of their flags (R62; log 14). Where the first has been handed on as a job and later ones still
wait, the gate joins these (log 47, DESIGN CHOICE). -/
def FreqRun.addMissed (tb : Timebase) (g : GateSpan) (r : FreqRun) : FreqRun :=
  match r.missed, r.later with
  | none, none => { r with missed := some g }
  | _, none => { r with later := some ((noneLater g.opened).join tb g) }
  | _, some m => { r with later := some (m.join tb g) }

/-- The evaluation moment of an ended gate has come (R54). -/
def endedGateDue (now : Stamp) (c : Channel) (g : GateSpan) : Bool := g.closed.reachedAfter now c.horizon

/-- The ended gate at its evaluation moment: evaluated, or missed if the task is suspended (R54, R62). -/
def Engine.lineMoment (fr : Front) (t : TaskId) (e : Engine) : Engine :=
  match (e.tasks.get t).runContinues, (e.tasks.get t).freqRun, (e.tasks.get t).freqFields with
  | true, some run, some f =>
    match run.ended with
    | some g =>
      if endedGateDue fr.now (fr.chan f.input) g then
        if e.takes t then e.actOnGate fr t f { run with ended := none } g ((fr.ring f.input).evaluateGate g)
        else e.setFreqRun t ({ run with ended := none }.addMissed fr.tb g)
      else e
    | none => e
  | _, _, _ => e

/-- A gate ends for a task: it awaits its evaluation moment; one still awaiting becomes a missed gate (R54;
log 31). -/
def FreqRun.endGate (tb : Timebase) (g : GateSpan) (r : FreqRun) : FreqRun :=
  match r.ended with
  | some old => { r.addMissed tb old with ended := some g }
  | none => { r with ended := some g }

/-- A notice of the gate table (R147). -/
inductive Notice where
  | opened (generation : BitVec 8) (openTime : Kept) (unplaced : Bool)
  | closed (generation : BitVec 8) (openTime closeTime : Kept) (unplaced orphaned reopened negative : Bool)
  deriving DecidableEq, Repr

/-- An open notice (R53, R54): the task follows the new generation; an ARMED task becomes RUNNING (R36). -/
def Engine.openNotice (t : TaskId) (run : FreqRun) (generation : BitVec 8) (openTime : Kept) (unplaced : Bool)
    (e : Engine) : Engine :=
  e.modTask t (fun k =>
    { k with state := if k.state = .armed then .running else k.state,
             run := .frequency { run with lineState := .following, followed := some ⟨generation, openTime, unplaced⟩ } })

/-- A close notice of the followed generation records an ended gate and, when its moment has come, evaluates it
(R54); an ARMED task and a task in CUT ignore it (R53, R55). -/
def Engine.closeNotice (fr : Front) (t : TaskId) (run : FreqRun) (generation : BitVec 8) (closeTime : Kept)
    (unplaced orphaned reopened negative : Bool) (e : Engine) : Engine :=
  match run.lineState, run.followed with
  | .following, some w =>
    if w.generation = generation then
      let g : GateSpan := { opened := w.opened, closed := closeTime, unplaced := w.unplaced || unplaced,
                            orphaned := orphaned, reopened := reopened, negative := negative, clamped := false }
      (e.setFreqRun t ({ run with lineState := .waitingOpen, followed := none }.endGate fr.tb g)).lineMoment fr t
    else e
  | _, _ => e

/-- One notice reaches one task, suspended or not (R147). -/
def Engine.notifyTask (fr : Front) (gate : BitVec 4) (n : Notice) (t : TaskId) (e : Engine) : Engine :=
  let k := e.tasks.get t
  match k.runContinues && (k.defn.any (fun d => d.fields.follows gate)), k.freqRun with
  | true, some run =>
    match n with
    | .opened gen openTime unplaced => e.openNotice t run gen openTime unplaced
    | .closed gen _ closeTime unplaced orphaned reopened negative =>
      if k.state = .armed then e else e.closeNotice fr t run gen closeTime unplaced orphaned reopened negative
  | _, _ => e

/-- Notices reach the tasks in ascending number, each task its gate's notices in order (R147, R152; log 9). -/
def Engine.notify (fr : Front) (ns : List (BitVec 4 × Notice)) (e : Engine) : Engine :=
  taskIds.foldl (fun e t => ns.foldl (fun e p => e.notifyTask fr p.1 p.2 t) e) e

/-- 2^40 − 1 TU: the longest a followed gate is followed (R55). -/
def gateLimit : Nat := 2 ^ 40 - 1

/-- A followed gate still open at its open time + 2^40 − 1 is cut (R55). -/
def Engine.cutMoment (fr : Front) (t : TaskId) (e : Engine) : Engine :=
  match (e.tasks.get t).runContinues, (e.tasks.get t).freqRun with
  | true, some run =>
    match run.lineState, run.followed with
    | .following, some w =>
      if w.opened.reachedAfter fr.now gateLimit then
        let g : GateSpan := { opened := w.opened, closed := fresh (plus w.opened.stamp gateLimit), unplaced := w.unplaced,
                              orphaned := false, reopened := false, negative := false, clamped := true }
        e.setFreqRun t ({ run with lineState := .cut, followed := none }.endGate fr.tb g)
      else e
    | _, _ => e
  | _, _ => e

/-- The later missed gates that a merged result represents: none of them where the cap leaves room for the first gate
alone (R37 step 2, R63). Where it ends inside them, all their flags count, since only the union of their flags is kept
(R62; log 44, DESIGN CHOICE). -/
def LaterMissed.represented (first : Option GateSpan) (n : Nat) (m : LaterMissed) : LaterMissed :=
  if n ≤ first.toList.length then noneLater m.opened else m

/-- The stamps a merged LINE result tests for DEGRADED besides those tested when the later gates were recorded (R63). -/
def stretchStamps (k : TaskRec) (f : FreqFields) (first : Option GateSpan) (later : LaterMissed) : List Kept :=
  (first.map (gateStamps k f)).getD [] ++ (if later.count = 0 then [] else [later.opened])

/-- The LOST result of missed LINE gates: the first one when it joins, and the later ones (R62, R63). Its flags are
those of the gates it represents; CLAMPED is that of a gate kept whole (R62; log 45, DEDUCED). DEGRADED tests the gates'
times and no entry e1 that the search of the first one found (R59, R63; log 14, DEDUCED). -/
def Engine.takeLineStretch (fr : Front) (t : TaskId) (f : FreqFields) (run : FreqRun) (first : Option GateSpan)
    (later : LaterMissed) (e : Engine) : Engine :=
  let size := later.count + first.toList.length
  let shown := later.represented first ((e.tasks.get t).capRepresented size)
  let opened := (first.map GateSpan.opened).getD later.opened
  e.takeFrequency fr t { run with missed := none, later := none } opened.stamp size 0 0 0 (heldSmoothed run.smoothing)
    { noSignal := run.smoothing.isNone, shortened := false, lost := true, clamped := first.any GateSpan.clamped,
      orphaned := first.any GateSpan.orphaned || shown.orphaned, unplaced := first.any GateSpan.unplaced || shown.unplaced,
      degraded := fr.tb.anyDegraded (stretchStamps (e.tasks.get t) f first shown) || shown.degraded, saturated := false }

/-- Missed LINE gates at resumption: the first is evaluated like an ended gate and joins the stretch if LOST; the
later ones are one LOST result (R62). -/
def Engine.catchUpLine (fr : Front) (t : TaskId) (f : FreqFields) (e : Engine) : Engine :=
  match (e.tasks.get t).freqRun with
  | none => e
  | some run =>
    match run.missed with
    | some g =>
      let a := (fr.ring f.input).evaluateGate g
      if a.outcome = .lost then e.takeLineStretch fr t f run (some g) (run.later.getD (noneLater g.opened))
      else
        let e := e.actOnGate fr t f { run with missed := none } g a
        match e.takes t, (e.tasks.get t).freqRun with
        | true, some run => match run.later with
          | some m => e.takeLineStretch fr t f run none m
          | none => e
        | _, _ => e
    | none => match run.later with
      | some m => e.takeLineStretch fr t f run none m
      | none => e

/-- A FREQUENCY task catches up (R39, R61, R62). -/
def Engine.catchUpFrequency (fr : Front) (t : TaskId) (f : FreqFields) (e : Engine) : Engine :=
  match f.source, (e.tasks.get t).freqRun with
  | .timed, some run => e.catchUpTimed fr t f run.passed 0
  | .line, some _ => e.catchUpLine fr t f
  | _, none => e

end Sys2Proof.Machine
end

