-- ==== Sys2Proof/Machine/IntervalTasks.lean ====
section
/-!
DEFINITION. INTERVAL tasks (chapter 05, sections 5.1 to 5.6): starts, pairing a start with its stop, the order of
results, suspension and catching up.
-/

namespace Sys2Proof.Machine

/-- The kind state of an INTERVAL run. -/
def TaskRec.intervalRun (k : TaskRec) : Option IntervalRun :=
  match k.run with
  | .interval r => some r
  | _ => none

/-- The kind fields of an INTERVAL task. -/
def TaskRec.intervalFields (k : TaskRec) : Option IntervalFields :=
  match k.defn with
  | some d => match d.fields with
    | .interval f => some f
    | _ => none
  | none => none

/-- The kind state rewritten. -/
def Engine.setIntervalRun (t : TaskId) (r : IntervalRun) (e : Engine) : Engine :=
  e.modTask t (fun k => { k with run := .interval r })

/-- Starts that wait together: at most 16 (R74). -/
def startLimit : Nat := 16

/-- A start with the times its task forms from it: s + H and s + window (R76). -/
def startAt (f : IntervalFields) (s : Stamp) : Start :=
  { time := fresh s, searchFrom := fresh (plus s f.holdoff), windowEnd := fresh (plus s f.window) }

/-- The window horizon of a start has been reached (R76). -/
def Start.horizonReached (fr : Front) (f : IntervalFields) (s : Start) : Bool :=
  s.time.longPast || s.windowEnd.reachedAfter fr.now (fr.chan f.stopChannel).horizon

/-- What a start's judgement gives (R76). -/
inductive Verdict where
  | valid (stop : Entry)
  | noStop (stop : Option Entry)
  | lost (stop : Option Entry)
  | unstamped (stop : Entry)
  | waits
  deriving DecidableEq, Repr

/-- The judgement of a start by one search "first at or after s + H" on the stop ring (R76). -/
def judgeStart (fr : Front) (f : IntervalFields) (s : Start) : Verdict :=
  match (fr.ring f.stopChannel).firstAtOrAfter s.searchFrom with
  | .found e .lost => .lost (some e)
  | .found e .unstamped => .unstamped e
  | .found e .certain => if (fresh e.stamp).laterThan s.windowEnd then .noStop (some e) else .valid e
  | .gone => .lost none
  | .pending => if s.horizonReached fr f then .noStop none else .waits

/-- The stop a judgement found. -/
def Verdict.stop? : Verdict → Option Entry
  | .valid e => some e
  | .noStop o => o
  | .lost o => o
  | .unstamped e => some e
  | .waits => none

/-- An INTERVAL result is taken with the missed-start accumulator as its count; the accumulator returns to 0
(R82). `degradedBy` is the stamp behind the start. -/
def Engine.takeInterval (fr : Front) (t : TaskId) (run : IntervalRun) (start : Kept) (origin : Option StationNo) (tag : Tag)
    (unplaced : Bool) (degradedBy : Kept) (v : Verdict) (e : Engine) : Engine :=
  let stops := v.stop?.toList.map (fun x => fresh x.stamp)
  let r : IntervalResult :=
    { start := start.stamp,
      interval := match v with
        | .valid x => since x.stamp start.stamp
        | _ => 0,
      origin := origin, tag := tag, missedCount := run.missed,
      flags := { noStop := match v with
                   | .noStop _ => true
                   | _ => false,
                 lost := match v with
                   | .lost _ => true
                   | _ => false,
                 unstamped := match v with
                   | .unstamped _ => true
                   | _ => false,
                 unplaced := unplaced, degraded := fr.tb.anyDegraded (degradedBy :: stops) } }
  (e.setIntervalRun t { run with missed := 0 }).takeResult fr.now t (.interval r) 1

/-! ## Local starts -/

/-- A local start that resolved gives its result (R76, R82). -/
def Engine.takeLocalStart (fr : Front) (t : TaskId) (run : IntervalRun) (s : Start) (v : Verdict) (e : Engine) : Engine :=
  e.takeInterval fr t run s.time none 0 false s.time v

/-- Waiting local starts judged one at a time in order, while the task takes entries (R77, R79). -/
def Engine.judgePending (fr : Front) (t : TaskId) (f : IntervalFields) : List Start → Engine → Engine
  | [], e => e
  | s :: ss, e =>
    match e.takes t, (e.tasks.get t).intervalRun with
    | true, some run =>
      match judgeStart fr f s with
      | .waits => Engine.judgePending fr t f ss e
      | v => Engine.judgePending fr t f ss (e.takeLocalStart fr t { run with pending := run.pending.erase s } s v)
    | _, _ => e

/-- A start joins the pending list while fewer than 16 wait; beyond that it is missed (R74, R80). -/
def Engine.pendStart (t : TaskId) (s : Start) (e : Engine) : Engine :=
  match (e.tasks.get t).intervalRun with
  | none => e
  | some run =>
    if run.pending.length < startLimit then e.setIntervalRun t { run with pending := run.pending ++ [s] }
    else e.setIntervalRun t { run with missed := satAdd run.missed 1 }

/-- A new local start, judged at once (R74). -/
def Engine.newStart (fr : Front) (t : TaskId) (f : IntervalFields) (x : Entry) (e : Engine) : Engine :=
  match (e.tasks.get t).intervalRun with
  | none => e
  | some run =>
    let s := startAt f x.stamp
    match judgeStart fr f s with
    | .waits => e.pendStart t s
    | v => e.takeLocalStart fr t run s v

/-! ## Remote starts -/

/-- The slots of a task with their numbers. -/
def Engine.slotsOf (e : Engine) (t : TaskId) : List (SlotId × Slot) :=
  taskIds.filterMap (fun i => match e.slots.get i with
    | some s => if s.task = t then some (i, s) else none
    | none => none)

/-- One slot's start comes before another's: the earlier start time, or the lower arrival number (R79). -/
def slotBefore (a b : SlotId × Slot) : Bool :=
  b.2.start.time.laterThan a.2.start.time || (!a.2.start.time.laterThan b.2.start.time && decide (a.2.arrival < b.2.arrival))

/-- A slot put in its place among slots in order (R79). -/
def insertSlot (x : SlotId × Slot) : List (SlotId × Slot) → List (SlotId × Slot)
  | [] => [x]
  | y :: ys => if slotBefore x y then x :: y :: ys else y :: insertSlot x ys

/-- Slots in the order of their results (R79). -/
def inStartOrder (xs : List (SlotId × Slot)) : List (SlotId × Slot) := xs.foldr insertSlot []

/-- Slots judged one at a time in order, while the task takes entries; a slot is freed as its result is taken (R75,
R76, R79, R133). -/
def Engine.judgeSlots (fr : Front) (t : TaskId) (f : IntervalFields) : List (SlotId × Slot) → Engine → Engine
  | [], e => e
  | p :: ps, e =>
    match e.takes t, (e.tasks.get t).intervalRun with
    | true, some run =>
      match judgeStart fr f p.2.start with
      | .waits => Engine.judgeSlots fr t f ps e
      | v => Engine.judgeSlots fr t f ps ((e.freeSlot p.1).takeInterval fr t run p.2.start.time (some p.2.source) p.2.tag
          p.2.unplaced p.2.attention v)
    | _, _ => e

/-! ## Moments -/

/-- The waiting starts that satisfy a condition are judged in the order of R79. A LOCAL task has pending starts
only, a REMOTE task slots only (R73, R131). -/
def Engine.judgeWaiting (fr : Front) (t : TaskId) (f : IntervalFields) (p : Start → Bool) (e : Engine) : Engine :=
  match (e.tasks.get t).intervalRun with
  | none => e
  | some run =>
    (e.judgePending fr t f (run.pending.filter p)).judgeSlots fr t f
      ((inStartOrder (e.slotsOf t)).filter (fun q => p q.2.start))

/-- An arrival: first as a stop, judging the waiting starts whose s + H it is not earlier than, then as a new local
start (R74, R77, R78). -/
def Engine.intervalArrival (fr : Front) (t : TaskId) (f : IntervalFields) (ch : Chan) (x : Entry) (e : Engine) : Engine :=
  let isStart := f.source == .localStart && ch == f.startChannel
  let e := if ch = f.stopChannel then
      e.judgeWaiting fr t f (fun s => !s.searchFrom.laterThan (fresh x.stamp))
    else e
  if isStart && e.takes t && (e.tasks.get t).cursor == some x.index then
    (e.modTask t (fun k => { k with cursor := some (x.index + 1) })).newStart fr t f x
  else e

/-- The window horizons of waiting starts (R77); a suspended task leaves them to its resumption. -/
def Engine.windowMoment (fr : Front) (t : TaskId) (e : Engine) : Engine :=
  match e.takes t, (e.tasks.get t).intervalFields with
  | true, some f => e.judgeWaiting fr t f (fun s => s.horizonReached fr f)
  | _, _ => e

/-- Candidate starts of a catch-up judged in order; the ones that still wait or are not judged come back (R80). -/
def Engine.judgeCandidates (fr : Front) (t : TaskId) (f : IntervalFields) : List Start → Engine → List Start × Engine
  | [], e => ([], e)
  | s :: ss, e =>
    match e.takes t, (e.tasks.get t).intervalRun with
    | true, some run =>
      match judgeStart fr f s with
      | .waits => let r := Engine.judgeCandidates fr t f ss e
        (s :: r.1, r.2)
      | v => Engine.judgeCandidates fr t f ss (e.takeLocalStart fr t run s v)
    | _, _ => (s :: ss, e)

/-- Step 1 of R80: the start cursor read forward to the ring's next index; an overrun adds to the missed starts. -/
def Engine.readStarts (fr : Front) (t : TaskId) (f : IntervalFields) (e : Engine) : List Start × Engine :=
  let r := fr.ring f.startChannel
  match f.source, (e.tasks.get t).cursor, (e.tasks.get t).intervalRun with
  | .localStart, some c, some run =>
    ((r.readable c).map (fun x => startAt f x.stamp),
     (e.modTask t (fun k => { k with cursor := some r.nextIndex })).setIntervalRun t
       { run with missed := satAdd run.missed (r.missedAt c) })
  | _, _, _ => ([], e)

/-- An INTERVAL task catches up (R80). -/
def Engine.catchUpInterval (fr : Front) (t : TaskId) (f : IntervalFields) (e : Engine) : Engine :=
  let (candidates, e) := e.readStarts fr t f
  let e := e.judgeWaiting fr t f (fun _ => true)
  let (left, e) := e.judgeCandidates fr t f candidates
  left.foldl (fun e s => e.pendStart t s) e

/-- A slot just filled is judged at the fill if its task takes entries (R75). -/
def Engine.judgeFill (fr : Front) (i : SlotId) (e : Engine) : Engine :=
  match e.slots.get i with
  | none => e
  | some s =>
    match (e.tasks.get s.task).intervalFields with
    | some f => e.judgeSlots fr s.task f [(i, s)]
    | none => e

end Sys2Proof.Machine
end

