-- ==== Sys2Proof/Machine/PhaseTasks.lean ====
section
/-!
DEFINITION. PHASE tasks (chapter 04, sections 4.8 to 4.11): taking entries, resolving signal entries, the
NO_SIGNAL limit and catching up.
-/

namespace Sys2Proof.Machine

/-- The kind state of a PHASE run. -/
def TaskRec.phaseRun (k : TaskRec) : Option PhaseRun :=
  match k.run with
  | .phase r => some r
  | _ => none

/-- The kind state rewritten. -/
def Engine.setPhaseRun (t : TaskId) (r : PhaseRun) (e : Engine) : Engine :=
  e.modTask t (fun k => { k with run := .phase r })

/-- The pending signal list holds at most 16 entries (R67). -/
def pendingLimit : Nat := 16

/-- A pending signal entry's stamp as a kept time. -/
def PendingSignal.kept (x : PendingSignal) : Kept := ⟨x.entry.stamp, x.longPast⟩

/-- The failure of a PHASE result. -/
inductive PhaseFailure where
  | noSignal | lost | unstamped
  deriving DecidableEq, Repr

/-- A PHASE result is taken with the gap accumulator as its gap count; the accumulator returns to 0 (R70). -/
def Engine.takePhase (fr : Front) (t : TaskId) (run : PhaseRun) (x : Kept) (period phase : Nat)
    (failure : Option PhaseFailure) (refs : List Kept) (e : Engine) : Engine :=
  let r : PhaseResult :=
    { signal := x.stamp, period := period, phase := phase, gapCount := run.gap,
      flags := { noSignal := failure == some .noSignal, lost := failure == some .lost,
                 unstamped := failure == some .unstamped, gap := decide (run.gap ≠ 0),
                 degraded := fr.tb.anyDegraded (x :: refs) } }
  (e.setPhaseRun t { run with gap := 0 }).takeResult fr.now t (.phase r) 1

/-- Where a signal entry falls in the reference ring (R68). -/
inductive Placement where
  | valid (r1 r2 : Entry)
  | failed (f : PhaseFailure) (refs : List Entry)
  deriving DecidableEq, Repr

/-- The search "last at or before stamp(x)" on the reference ring and the count step to the next entry (R68). An r1
without its successor does not arise; it would be LOST (log 34). -/
def Ring.place (r : Ring) (x : Kept) : Placement :=
  match r.lastAtOrBefore x with
  | .found r1 =>
    match r.at? (r1.index + 1) with
    | some r2 => if r2.count - r1.count = 1 then .valid r1 r2 else .failed .unstamped [r1, r2]
    | none => .failed .lost [r1]
  | .lost => .failed .lost []
  | .none => .failed .noSignal []

/-- A signal entry is resolved: a valid one becomes a job, another gives its failed result (R68). -/
def Engine.resolveSignal (fr : Front) (t : TaskId) (f : PhaseFields) (run : PhaseRun) (x : Kept) (e : Engine) : Engine :=
  match (fr.ring f.reference).place x with
  | .valid r1 r2 =>
    let period := since r2.stamp r1.stamp
    (e.setPhaseRun t run).handJob t (.phase (since x.stamp r1.stamp) period)
      (.phase x period (fresh r1.stamp) (fresh r2.stamp))
  | .failed why refs => e.takePhase fr t run x 0 0 (some why) (refs.map (fun r => fresh r.stamp))

/-- The answer of a PHASE job completes the waiting result (R68, R94). -/
def Engine.completePhase (fr : Front) (t : TaskId) (x : Kept) (period offset : Nat) (r1 r2 : Kept) (e : Engine) : Engine :=
  match (e.tasks.get t).phaseRun with
  | some run => e.takePhase fr t run x period (phaseOf offset period) none [r1, r2]
  | none => e

/-- The task's newest reference stamp is later than a signal stamp (R68). -/
def PhaseRun.resolvable (r : PhaseRun) (x : Kept) : Bool :=
  match r.newestRef with
  | some n => n.laterThan x
  | none => false

/-- The pending entry's NO_SIGNAL limit has passed: 2^40 TU, and no later reference entry taken (R69). -/
def PhaseRun.limitPassed (now : Stamp) (r : PhaseRun) (x : PendingSignal) : Bool :=
  x.kept.reachedAfter now (2 ^ 40) && !r.resolvable x.kept

/-- Resolvable pending entries are resolved, oldest first, while the task takes entries (R68). `fuel` bounds the
list. -/
def Engine.resolvePending (fr : Front) (t : TaskId) (f : PhaseFields) : Nat → Engine → Engine
  | 0, e => e
  | fuel + 1, e =>
    match e.takes t, (e.tasks.get t).phaseRun with
    | true, some run =>
      match run.pending with
      | x :: xs =>
        if run.resolvable x.kept then
          Engine.resolvePending fr t f fuel (e.resolveSignal fr t f { run with pending := xs } x.kept)
        else e
      | [] => e
    | _, _ => e

/-- Pending entries whose limit has passed give NO_SIGNAL, oldest first, while the task takes entries (R69). -/
def Engine.resolveLimits (fr : Front) (t : TaskId) : Nat → Engine → Engine
  | 0, e => e
  | fuel + 1, e =>
    match e.takes t, (e.tasks.get t).phaseRun with
    | true, some run =>
      match run.pending.find? (fun x => run.limitPassed fr.now x) with
      | some x =>
        let left := { run with pending := run.pending.erase x }
        Engine.resolveLimits fr t fuel (e.takePhase fr t left x.kept 0 0 (some .noSignal) [])
      | none => e
    | _, _ => e

/-- A signal entry taken: resolved when it can be, else pended while fewer than 16 wait, else counted in the gap
(R67). That holds of an entry beyond the NO_SIGNAL limit as well: its limit is met at the next moment of R69 (log 48,
DESIGN CHOICE). -/
def Engine.takeSignal (fr : Front) (t : TaskId) (f : PhaseFields) (x : Entry) (e : Engine) : Engine :=
  match (e.tasks.get t).phaseRun with
  | none => e
  | some run =>
    if run.resolvable (fresh x.stamp) then e.resolveSignal fr t f run (fresh x.stamp)
    else if run.pending.length < pendingLimit then e.setPhaseRun t { run with pending := run.pending ++ [⟨x, false⟩] }
    else e.setPhaseRun t { run with gap := satAdd run.gap 1 }

/-- A reference entry taken: the newest reference stamp moves, and what becomes resolvable is resolved (R66,
R68). -/
def Engine.takeReference (fr : Front) (t : TaskId) (f : PhaseFields) (x : Entry) (e : Engine) : Engine :=
  match (e.tasks.get t).phaseRun with
  | none => e
  | some run => (e.setPhaseRun t { run with newestRef := some (fresh x.stamp) }).resolvePending fr t f pendingLimit

/-- An arrival at one of the task's cursors, taken while it is RUNNING without a job (R26, R66, R67). -/
def Engine.phaseArrival (fr : Front) (t : TaskId) (f : PhaseFields) (ch : Chan) (x : Entry) (e : Engine) : Engine :=
  if ch = f.reference ∧ (e.tasks.get t).refCursor = some x.index then
    (e.modTask t (fun k => { k with refCursor := some (x.index + 1) })).takeReference fr t f x
  else if ch = f.signal ∧ (e.tasks.get t).cursor = some x.index then
    (e.modTask t (fun k => { k with cursor := some (x.index + 1) })).takeSignal fr t f x
  else e

/-- The reference cursor read forward to the ring's next index; its missed count is dropped (R66, R71). -/
def Engine.readReference (fr : Front) (t : TaskId) (f : PhaseFields) (e : Engine) : Engine :=
  let r := fr.ring f.reference
  match (e.tasks.get t).refCursor, (e.tasks.get t).phaseRun with
  | some c, some run =>
    let newest := ((r.readable c).getLast?.map (fun x => fresh x.stamp)).or run.newestRef
    (e.modTask t (fun k => { k with refCursor := some r.nextIndex })).setPhaseRun t { run with newestRef := newest }
  | _, _ => e

/-- The signal entries read forward, one by one while the task takes entries (R67, R71), however old they are (log 48,
DESIGN CHOICE). -/
def Engine.readSignals (fr : Front) (t : TaskId) (f : PhaseFields) : List Entry → Engine → Engine
  | [], e => e
  | x :: xs, e =>
    if e.takes t then
      Engine.readSignals fr t f xs ((e.modTask t (fun k => { k with cursor := some (x.index + 1) })).takeSignal fr t f x)
    else e

/-- An overrun of the signal cursor adds the missed count to the gap and moves the cursor to the resume index
(R25, R67). -/
def Engine.absorbSignalOverrun (fr : Front) (t : TaskId) (f : PhaseFields) (e : Engine) : Engine :=
  let r := fr.ring f.signal
  match (e.tasks.get t).cursor, (e.tasks.get t).phaseRun with
  | some c, some run =>
    if c < r.oldest then
      (e.modTask t (fun k => { k with cursor := some r.oldest })).setPhaseRun t
        { run with gap := satAdd run.gap (r.missedAt c) }
    else e
  | _, _ => e

/-- A PHASE task catches up (R71): limits that passed, the reference cursor, the entries now resolvable, then the
signal cursor. -/
def Engine.catchUpPhase (fr : Front) (t : TaskId) (f : PhaseFields) (e : Engine) : Engine :=
  let e := e.resolveLimits fr t pendingLimit
  if !e.takes t then e
  else
    let e := (e.readReference fr t f).resolvePending fr t f pendingLimit
    if !e.takes t then e
    else
      let e := e.absorbSignalOverrun fr t f
      match (e.tasks.get t).cursor with
      | some c => e.readSignals fr t f ((fr.ring f.signal).readable c)
      | none => e

/-- The NO_SIGNAL limit of a PHASE task's pending entries (R69): a suspended task leaves it to its resumption. -/
def Engine.phaseLimitMoment (fr : Front) (t : TaskId) (e : Engine) : Engine := e.resolveLimits fr t pendingLimit

end Sys2Proof.Machine
end

