-- ==== Sys2Proof/Machine/StreamTasks.lean ====
section
/-!
DEFINITION. TIMESTAMP tasks and the results of PUBLISH tasks (chapter 05, sections 5.7 to 5.11).
-/

namespace Sys2Proof.Machine

/-! ## TIMESTAMP -/

/-- A TIMESTAMP result from an entry, with the gap accumulator as its gap count (R84). -/
def Engine.takeStamp (fr : Front) (t : TaskId) (x : Entry) (e : Engine) : Engine :=
  match (e.tasks.get t).run with
  | .timestamp gap =>
    let r : StampResult :=
      { stamp := x.stamp, seqNo := x.seqNo, count := x.count, gapCount := gap, gap := decide (gap ≠ 0),
        degraded := fr.tb.stampDegraded (fresh x.stamp) }
    (e.modTask t (fun k => { k with cursor := some (x.index + 1), run := .timestamp 0 })).takeResult fr.now t
      (.timestamp r) 1
  | _ => e

/-- An arrival at the task's cursor (R26, R84). -/
def Engine.stampArrival (fr : Front) (t : TaskId) (channel ch : Chan) (x : Entry) (e : Engine) : Engine :=
  if ch = channel ∧ (e.tasks.get t).cursor = some x.index then e.takeStamp fr t x else e

/-- Retained entries taken one per result in index order, while the task takes entries (R84). -/
def Engine.readStamps (fr : Front) (t : TaskId) : List Entry → Engine → Engine
  | [], e => e
  | x :: xs, e => if e.takes t then Engine.readStamps fr t xs (e.takeStamp fr t x) else e

/-- A TIMESTAMP task catches up: an overrun adds to the gap, then the retained entries are taken (R39, R84). -/
def Engine.catchUpStamp (fr : Front) (t : TaskId) (channel : Chan) (e : Engine) : Engine :=
  let r := fr.ring channel
  match (e.tasks.get t).cursor, (e.tasks.get t).run with
  | some c, .timestamp gap =>
    let e := e.modTask t (fun k => { k with cursor := some (max c r.oldest), run := .timestamp (satAdd gap (r.missedAt c)) })
    e.readStamps fr t (r.readable c)
  | _, _ => e

/-! ## PUBLISH results -/

/-- The kind state of a PUBLISH run. -/
def TaskRec.publishRun (k : TaskRec) : Option PublishRun :=
  match k.run with
  | .publish r => some r
  | _ => none

/-- The kind state rewritten. -/
def Engine.setPublishRun (t : TaskId) (r : PublishRun) (e : Engine) : Engine :=
  e.modTask t (fun k => { k with run := .publish r })

/-- A PUBLISH result from an outcome, with the gap accumulator as its gap count (R87, R88, R90). -/
def Engine.takePublish (fr : Front) (t : TaskId) (run : PublishRun) (x : Deferred) (e : Engine) : Engine :=
  let r : PublishResult :=
    { edge := x.edge.stamp, outcome := x.outcome, delay := x.delay, gapCount := run.gap, gap := decide (run.gap ≠ 0),
      degraded := fr.tb.stampDegraded x.edge }
  (e.setPublishRun t { run with gap := 0 }).takeResult fr.now t (.publish r) 1

/-- An outcome reaches a task: taken as a result if it takes entries, deferred while it is suspended, and given to
no one once its run has ended (R87, R88, R89). -/
def Engine.giveOutcome (fr : Front) (t : TaskId) (x : Deferred) (e : Engine) : Engine :=
  match (e.tasks.get t).publishRun with
  | none => e
  | some run =>
    if e.takes t then e.takePublish fr t run x
    else if (e.tasks.get t).runContinues then e.setPublishRun t { run with deferred := run.deferred ++ [x] }
    else e

/-- Outcomes of one moment, given in ascending task number and, for one task, in their order (R87, R152). -/
def Engine.giveOutcomes (fr : Front) (xs : List (TaskId × Deferred)) (e : Engine) : Engine :=
  taskIds.foldl (fun e t => (xs.filter (fun p => p.1 == t)).foldl (fun e p => e.giveOutcome fr t p.2) e) e

/-- Deferred outcomes taken as results, oldest first, while the task takes entries (R88). `fuel` bounds the list. -/
def Engine.takeDeferred (fr : Front) (t : TaskId) : Nat → Engine → Engine
  | 0, e => e
  | fuel + 1, e =>
    match e.takes t, (e.tasks.get t).publishRun with
    | true, some run =>
      match run.deferred with
      | x :: xs => Engine.takeDeferred fr t fuel (e.takePublish fr t { run with deferred := xs } x)
      | [] => e
    | _, _ => e

/-- A PUBLISH task catches up: the entries that came meanwhile are passed over and counted, then the deferred
outcomes are taken (R88). -/
def Engine.catchUpPublish (fr : Front) (t : TaskId) (channel : Chan) (e : Engine) : Engine :=
  let next := (fr.ring channel).nextIndex
  match (e.tasks.get t).cursor, (e.tasks.get t).publishRun with
  | some c, some run =>
    let e := (e.modTask t (fun k => { k with cursor := some next })).setPublishRun t
      { run with gap := satAdd run.gap (next - c) }
    e.takeDeferred fr t run.deferred.length
  | _, _ => e

end Sys2Proof.Machine
end

