-- ==== Sys2Proof/Machine/Transmitter.lean ====
section
/-!
DEFINITION. The marker transmitter's queue (chapter 08, section 8.2): offers, room for ANNOUNCE and HALT, the owed
HALT (R162), and the ways an entry or an attempt ends.
-/

namespace Sys2Proof.Machine

/-- The outgoing queue holds at most 8 markers (R120). -/
def outgoingDepth : Nat := 8

/-- The entry is EDGE, GATE_OPEN or GATE_CLOSE. -/
def OutEntry.ordinary (m : OutEntry) : Bool := !(m.kind == .halt) && !(m.kind == .announce)

/-- The outcome an entry removed unsent gives its origin task (R87). -/
def OutEntry.outcome (m : OutEntry) (o : Outcome5) (delay : BitVec 24) : List (TaskId × Deferred) :=
  match m.originTask, m.origin with
  | some t, some origin => [(t, ⟨origin, o, delay⟩)]
  | _, _ => []

/-- The transmitter answers every offer DROPPED: muted, or after a completed HALT frame (R121, R122). -/
def Engine.refusesOffers (e : Engine) : Bool := e.tx.mute || e.tx.haltSent

/-- The offer of a GATE marker is answered DROPPED (R121). -/
def Engine.dropsOffer (e : Engine) : Bool := e.refusesOffers || decide (outgoingDepth ≤ e.tx.queue.length)

/-- An EDGE or GATE marker with its origin. -/
def ordinaryEntry (kind : MarkerKind) (tag : Tag) (origin : Stamp) (task : Option TaskId) : OutEntry :=
  { kind := kind, tag := tag, origin := some (fresh origin), originTask := task, payload := 0, inTransmission := false,
    removeAtEnd := false }

/-- An EDGE marker not in transmission that a higher-numbered task offered at this moment: an offer of task `t` made now is
answered before it (R121). One whose attempt has begun keeps its place (log 53, DESIGN CHOICE). -/
def OutEntry.follows (now : Stamp) (t : TaskId) (m : OutEntry) : Bool :=
  !m.inTransmission && m.offered.any (fun o => o.time.isNow now && decide (t < o.task))

/-- Room for an EDGE marker of a task: there is while fewer than 8 entries stand in the queue, and a full queue loses the
last marker that a higher-numbered task offered at this moment (R121). -/
def Engine.roomForEdge (now : Stamp) (t : TaskId) (e : Engine) : Option (Option OutEntry × List OutEntry) :=
  if e.tx.queue.length < outgoingDepth then some (none, e.tx.queue)
  else (takeLast (OutEntry.follows now t) e.tx.queue).map (fun p => (some p.1, p.2))

/-- An EDGE marker of a task is offered (R121): queued at its place among the offers of the moment, or DROPPED, its outcome
given to the task at once. A marker that gives up its place is answered DROPPED after it. -/
def Engine.offerEdge (fr : Front) (t : TaskId) (m : OutEntry) (e : Engine) : Engine :=
  match e.refusesOffers, e.roomForEdge fr.now t with
  | false, some (gone, q) =>
    let e := e.modOutgoing (fun _ => placeBefore (OutEntry.follows fr.now t) { m with offered := some ⟨t, fresh fr.now⟩ } q)
    match gone with
    | some y => (e.countDropped 1).giveOutcomes fr (y.outcome .dropped 0)
    | none => e
  | _, _ => (e.countDropped 1).giveOutcomes fr (m.outcome .dropped 0)

/-- A GATE marker is offered: queued at the tail, or DROPPED, counted and latched (R121). -/
def Engine.offerOrdinary (m : OutEntry) (e : Engine) : Engine :=
  if e.dropsOffer then e.countDropped 1 else e.modOutgoing (fun q => q ++ [m])

/-- The EDGE or GATE entry nearest the tail taken out of a queue, with the queue that is left (R122). -/
def takeNearestTail (q : List OutEntry) : Option OutEntry × List OutEntry :=
  match q.reverse.find? OutEntry.ordinary with
  | some m => (some m, (q.reverse.erase m).reverse)
  | none => (none, q)

/-- Room for an ANNOUNCE or a HALT: a full queue loses its EDGE or GATE entry nearest the tail as DROPPED; with it
stands the outcome still to be given to its origin task (R122). -/
def Engine.roomMade (e : Engine) : Engine × List (TaskId × Deferred) :=
  if e.tx.queue.length < outgoingDepth then (e, [])
  else
    let p := takeNearestTail e.tx.queue
    match p.1 with
    | some m => ((e.modOutgoing (fun _ => p.2)).countDropped 1, m.outcome .dropped 0)
    | none => (e, [])

/-- Room for a HALT, the outcome of the entry removed given at once (R122). -/
def Engine.makeRoom (fr : Front) (e : Engine) : Engine := e.roomMade.1.giveOutcomes fr e.roomMade.2

/-- An ANNOUNCE with the own position and a joining flag. -/
def announceEntry (position : BitVec 11) (joining : Bool) : OutEntry :=
  { kind := .announce, tag := 0, origin := none, originTask := none, payload := announcePayload position joining,
    inTransmission := false, removeAtEnd := false }

/-- An ANNOUNCE is offered; with it stands the outcome of an entry that made room, still to be given (R122). -/
def Engine.announceOffer (position : BitVec 11) (joining : Bool) (e : Engine) : Engine × List (TaskId × Deferred) :=
  if e.refusesOffers then (e.countDropped 1, [])
  else if e.tx.queue.any (fun m => m.kind == .announce) then (e, [])
  else (e.roomMade.1.modOutgoing (fun q => q ++ [announceEntry position joining]), e.roomMade.2)

/-- An ANNOUNCE is offered, the outcome of an entry that made room given at once (R122). -/
def Engine.offerAnnounce (fr : Front) (position : BitVec 11) (joining : Bool) (e : Engine) : Engine :=
  (e.announceOffer position joining).1.giveOutcomes fr (e.announceOffer position joining).2

/-- A HALT is offered (R122). -/
def Engine.offerHalt (fr : Front) (r : HaltReason) (e : Engine) : Engine :=
  if e.refusesOffers then e.countDropped 1
  else if e.haltQueued then e.placeHalt r
  else (e.makeRoom fr).placeHalt r

/-- An owed HALT with no HALT queued is offered again (R162). -/
def Engine.reofferHalt (fr : Front) (e : Engine) : Engine :=
  match e.ctl.haltOwed with
  | some r => if e.haltQueued then e else e.offerHalt fr r
  | none => e

/-- A published entry is offered as an EDGE marker (R86, R121). -/
def Engine.publishEntry (fr : Front) (t : TaskId) (f : PublishFields) (x : Entry) (e : Engine) : Engine :=
  e.offerEdge fr t (ordinaryEntry .edge f.tag x.stamp (some t))

/-- An arrival at a PUBLISH task's cursor: every D-th entry is published (R86). -/
def Engine.publishArrival (fr : Front) (t : TaskId) (f : PublishFields) (ch : Chan) (x : Entry) (e : Engine) : Engine :=
  match (e.tasks.get t).publishRun with
  | none => e
  | some run =>
    if ch = f.channel ∧ (e.tasks.get t).cursor = some x.index then
      let e := e.modTask t (fun k => { k with cursor := some (x.index + 1) })
      if run.dividerCount + 1 < f.dividerField.toNat + 1 then
        e.setPublishRun t { run with dividerCount := run.dividerCount + 1 }
      else (e.setPublishRun t { run with dividerCount := 0 }).publishEntry fr t f x
    else e

/-! ## Attempts and removals -/

/-- The entry in transmission leaves transmission and stays where it stands, or, after a station halt, is removed
as DROPPED (R125, R126); an owed HALT is then offered again (R162). -/
def Engine.endAttempt (fr : Front) (e : Engine) : Engine :=
  let gone := e.tx.queue.filter (fun m => m.inTransmission && m.removeAtEnd)
  let stay := (e.tx.queue.filter (fun m => !(m.inTransmission && m.removeAtEnd))).map
    (fun m => { m with inTransmission := false })
  let e := { e with tx := { e.tx with queue := stay, attempt := none } }
  ((e.countDropped gone.length).giveOutcomes fr (gone.flatMap (fun m => m.outcome .dropped 0))).reofferHalt fr

/-- An attempt ends LOST (R125): counted, the entry stays. -/
def Engine.attemptLost (fr : Front) (e : Engine) : Engine :=
  (e.count (fun c => { c with arbLosses := bumpBy 1 c.arbLosses })).endAttempt fr

/-- An attempt ends CUT (R113, R125): a contender that has not sampled its last bit cell; no count. -/
def Engine.attemptCut (fr : Front) (e : Engine) : Engine :=
  match e.tx.attempt with
  | some a => if a.allSampled then e else e.endAttempt fr
  | none => e

/-- Every entry not in transmission is removed as DROPPED, its outcome given to its origin task (R125, R127). -/
def Engine.dropAll (fr : Front) (e : Engine) : Engine :=
  let gone := e.tx.queue.filter (fun m => !m.inTransmission)
  ((e.modOutgoing (List.filter OutEntry.inTransmission)).countDropped gone.length).giveOutcomes fr
    (gone.flatMap (fun m => m.outcome .dropped 0))

/-- TEAR DOWN TASK: a task's entries not in transmission are removed without outcome or count, one in transmission
is detached (R43, R126). An entry that an earlier run placed left the task's hands at that run end and stays queued
(R89, R126; log 49, DEDUCED). -/
def Engine.tearDownMarkers (t : TaskId) (e : Engine) : Engine :=
  (e.modOutgoing (List.filter (fun m => !(m.originTask == some t && !m.inTransmission)))).detachMarkers t

/-! ## The moment a HALT debt ends without a frame -/

/-- The station becomes HALTED by retirement (R163). -/
def Engine.retired (e : Engine) : Engine :=
  e.modCtl (fun c => { c with state := .halted, departure := .none, haltOwed := none })

/-- What a mute does to a station that owes a HALT, but for a reset: the own peer entry becomes HALTED with the
owed reason, and a retiring station is HALTED (R162). -/
def Engine.muteDebt (e : Engine) : Engine :=
  match e.ctl.haltOwed with
  | none => e
  | some r =>
    let e := e.ownHalted r
    if e.ctl.departure = .retire then e.retired else e.modCtl (fun c => { c with haltOwed := none })

/-- The transmitter mutes itself: the flag, the queue emptied, MARKER_LOSS (R127, R136). -/
def Engine.muteNow (fr : Front) (e : Engine) : Engine :=
  ({ e with tx := { e.tx with mute := true } }.dropAll fr).latchMarkerLoss

end Sys2Proof.Machine
end

