-- ==== Sys2Proof/Machine/Tasks.lean ====
section
/-!
DEFINITION. What the five kinds share (chapters 03, 06 and 10): the offer of a ring arrival, catching up, starting
a run, handing on freed queue places, the removal of a block that was read, and the finish of a job.
-/

namespace Sys2Proof.Machine

/-! ## Arrivals and catching up -/

/-- One task that takes entries is offered an arrival (R26); a FREQUENCY task reads no ring forward. -/
def Engine.taskArrival (fr : Front) (ch : Chan) (x : Entry) (t : TaskId) (e : Engine) : Engine :=
  match e.takes t, (e.tasks.get t).defn with
  | true, some d =>
    match d.fields with
    | .frequency _ => e
    | .phase f => e.phaseArrival fr t f ch x
    | .interval f => e.intervalArrival fr t f ch x
    | .timestamp channel => e.stampArrival fr t channel ch x
    | .publish f => e.publishArrival fr t f ch x
  | _, _ => e

/-- An arrival is offered to the tasks that take entries, in ascending number, and the jobs handed over all enter
the list before the arbiter chooses (R26, R93). The blocks and EDGE markers of one stamp stand in ascending task number,
also where arrivals on several channels are commands of their own (R121, R152). -/
def Engine.arrival (fr : Front) (ch : Chan) (x : Entry) (e : Engine) : Engine :=
  (taskIds.foldl (fun e t => e.taskArrival fr ch x t) e).arbitrate fr.now

/-- A task whose suspension ended catches up (R39). -/
def Engine.catchUp (fr : Front) (t : TaskId) (e : Engine) : Engine :=
  match e.takes t, (e.tasks.get t).defn with
  | true, some d =>
    match d.fields with
    | .frequency f => e.catchUpFrequency fr t f
    | .phase f => e.catchUpPhase fr t f
    | .interval f => e.catchUpInterval fr t f
    | .timestamp channel => e.catchUpStamp fr t channel
    | .publish f => e.catchUpPublish fr t f.channel
  | _, _ => e

/-! ## Starting a run -/

/-- The kind state a run starts with at `now` (R52, R53, R60, R65, R73, R83, R85). -/
def KindFields.startState (now : Stamp) : KindFields → RunState
  | .frequency _ =>
    .frequency { nextGate := 0, gateOpen := now, passed := 0, lineState := .waitingOpen, followed := none, ended := none,
                 missed := none, later := none, smoothing := none }
  | .phase _ => .phase { newestRef := none, pending := [], gap := 0 }
  | .interval _ => .interval { pending := [], missed := 0 }
  | .timestamp _ => .timestamp 0
  | .publish _ => .publish { dividerCount := 0, gap := 0, deferred := [] }

/-- The state a run starts in (R35): ARMED for a FREQUENCY task on a LINE gate. -/
def KindFields.startTaskState : KindFields → TaskState
  | .frequency f => match f.source with
    | .line => .armed
    | .timed => .running
  | _ => .running

/-- The record of a task whose run starts at the current time (R35). -/
def TaskRec.started (fr : Front) (d : TaskDef) (k : TaskRec) : TaskRec :=
  { k with
    state := d.fields.startTaskState, armTime := some (fresh fr.now),
    cursor := d.fields.forward.map (fun ch => (fr.ring ch).nextIndex),
    refCursor := d.fields.refForward.map (fun ch => (fr.ring ch).nextIndex),
    resultsInRun := 0, failCount := 0, endCause := none, runEndPending := none, rearmPending := false,
    openBlock := some [], cause := .none, pausedOn := none, run := d.fields.startState fr.now }

/-- A run starts (R35). -/
def Engine.startRun (fr : Front) (t : TaskId) (d : TaskDef) (e : Engine) : Engine := e.modTask t (TaskRec.started fr d)

/-- Every channel the task names is enabled (R34). -/
def channelsOn (fr : Front) (d : TaskDef) : Bool := d.fields.channels.all (fun ch => (fr.chan ch).enabled)

/-- The channel whose prescale must be 1 has another prescale (R34). -/
def prescaleConflict (fr : Front) (d : TaskDef) : Bool :=
  d.fields.unprescaled.any (fun ch => decide ((fr.chan ch).prescale ≠ 1))

/-- The checks of R34 from NOT_LIVE onward: the first that fails. -/
def Engine.armRefusal (fr : Front) (d : TaskDef) (e : Engine) : Option Status :=
  if !e.ctl.countsLive then some .notLive
  else if !channelsOn fr d then some .channelOff
  else if prescaleConflict fr d then some .conflict
  else none

/-- A re-arm under REARM_ON_READ (R44): as an ARM TASK from NOT_LIVE onward; a failed check only clears re-arm
pending. -/
def Engine.rearm (fr : Front) (t : TaskId) (d : TaskDef) (e : Engine) : Engine :=
  match e.armRefusal fr d with
  | none => e.startRun fr t d
  | some _ => e.modTask t (fun k => { k with rearmPending := false })

/-! ## Handing on freed places -/

/-- A STALLED task takes a place: its held block enters, and the task goes where R153 sends it. -/
def Engine.takePlace (t : TaskId) (b : Block) (e : Engine) : Engine :=
  let k := { e.tasks.get t with heldBlock := none }
  let paced := match k.defn with
    | some d => d.continuation == Continuation.paced
    | none => false
  let k := match k.runEndPending with
    | some cause => { k with state := cause.endState, endCause := some cause, runEndPending := none, cause := .none }
    | none =>
      if paced && !b.final then { k with state := .paused, cause := .paused, pausedOn := some b.number }
      else { k with state := .running, cause := .none }
  { e with queue := e.queue ++ [b], tasks := e.tasks.set t k }

/-- Free places are handed to the STALLED tasks of a list, one to each (R153). -/
def Engine.handPlaces : Nat → List TaskId → Engine → Engine
  | 0, _, e => e
  | _, [], e => e
  | places + 1, t :: ts, e =>
    match (e.tasks.get t).state, (e.tasks.get t).heldBlock with
    | .stalled, some b => Engine.handPlaces places ts (e.takePlace t b)
    | _, _ => Engine.handPlaces (places + 1) ts e

/-- The free places of the queue are handed on, and only then do the tasks that returned to RUNNING catch up (R153). -/
def Engine.handOff (fr : Front) (e : Engine) : Engine :=
  let stalled := taskIds.filter (fun t => (e.tasks.get t).state == .stalled)
  let e := Engine.handPlaces (queueDepth - e.queue.length) stalled e
  (stalled.filter (fun t => e.takes t)).foldl (fun e t => e.catchUp fr t) e

/-! ## A block that was read leaves -/

/-- The block is the one its task is PAUSED on: the task returns to RUNNING and catches up (R45, R155). -/
def Engine.resumePaused (fr : Front) (b : Block) (e : Engine) : Engine :=
  let k := e.tasks.get b.task
  if k.state = .paused ∧ k.pausedOn = some b.number then
    (e.setTask b.task { k with state := .running, cause := .none, pausedOn := none }).catchUp fr b.task
  else e

/-- A FINAL block of a task that is DONE with re-arm pending re-arms it (R44, R155), whichever run the block ended
(log 50, DEDUCED). -/
def Engine.rearmOnRead (fr : Front) (b : Block) (e : Engine) : Engine :=
  match (e.tasks.get b.task).defn with
  | some d =>
    let k := e.tasks.get b.task
    if b.final = true ∧ k.state = .done ∧ k.rearmPending = true then e.rearm fr b.task d else e
  | none => e

/-- A completed READ RESULT: the head leaves, its place is handed on, a PAUSED task resumes, a re-arm takes place
(R155). -/
def Engine.removeHead (fr : Front) (e : Engine) : Engine :=
  match e.queue with
  | [] => e
  | b :: rest =>
    (((({ e with queue := rest }).handOff fr).resumePaused fr b).rearmOnRead fr b).arbitrate fr.now

/-- TEAR DOWN TASK: the queue loses every block of a task, and freed places are handed on (R154). -/
def Engine.removeBlocksOf (t : TaskId) (e : Engine) : Engine :=
  { e with queue := e.queue.filter (fun b => !(b.task == t)) }

/-! ## The finish of a job -/

/-- The answer of a job is handed to its task, which takes its result and goes on (R94). -/
def Engine.takeAnswer (fr : Front) (j : CurrentJob) (e : Engine) : Engine :=
  let k := e.tasks.get j.task
  let cleared := e.setTask j.task { k with cause := .none, waitingResult := none }
  match j.ops, k.waitingResult with
  | .frequency edges span shift state, some (.frequency g _ _ e1 e2 shortened) =>
    (cleared.completeFrequency fr j.task g edges span shift state e1 e2 shortened).catchUp fr j.task
  | .phase offset period, some (.phase x _ r1 r2) =>
    (cleared.completePhase fr j.task x period offset r1 r2).catchUp fr j.task
  | _, _ => cleared

/-- The job in progress has lasted its 3,200 TU (R93). -/
def Engine.jobDue (now : Stamp) (e : Engine) : Bool :=
  match e.unit.current with
  | some j => reached now (plus j.start jobTime)
  | none => false

/-- A job finishes (R94): the divider becomes free, the arbiter chooses, and only then is the answer handed back. -/
def Engine.finishJob (fr : Front) (e : Engine) : Engine :=
  match e.unit.current with
  | none => e
  | some j =>
    let chosen := (e.releaseDivider j).chooseNext fr.now
    if j.discarded then chosen else (chosen.takeAnswer fr j).arbitrate fr.now

end Sys2Proof.Machine
end

