-- ==== Sys2Proof/Machine/Requests.lean ====
section
/-!
DEFINITION. The host requests (12.3): what each is judged by, its effect and its reply.

A request is one command, taken whole at its last byte (R174, log 19). It needs a transaction that still waits for
one; without it nothing is taken (log 19), and only time passes.
-/

namespace Sys2Proof.Machine

/-! ## How a command acts -/

/-- A command acts on the station after its time has passed; the queue of commands stays as it is. -/
def State.acting (dt : Nat) (f : Station → Station) (s : State) : Host.Outcome State Fault Refusal :=
  .next { s with dev := f (s.dev.elapse dt) }

/-- A command that a station in reset does not take (R165). -/
def State.running (dt : Nat) (f : Station → Station) (s : State) : Host.Outcome State Fault Refusal :=
  s.acting dt (fun d => if d.held then d else f d)

/-- A transaction waits for its request: the kind byte or the body is coming in (R174). -/
def HostPort.takesRequest (p : HostPort) : Bool := p.phase == .summary || p.phase == .body

/-- One byte is complete on SDI (R174): the kind byte in SUMMARY, a body byte in BODY; later ones are ignored. -/
def HostPort.clockIn (p : HostPort) (b : Byte) : HostPort :=
  match p.phase with
  | .summary => { p with phase := .body, kind := some b, body := [] }
  | .body => { p with body := p.body ++ [b] }
  | _ => p

/-- The request is complete: BODY holds as many bytes as its kind byte fixes, none for some (R174, R175). -/
def HostPort.requestComplete (p : HostPort) : Bool :=
  p.phase == .body && p.kind.any (fun k => p.body.length == bodyLength k)

/-- A request command brings its frame from the kind byte on, byte by byte (R174, log 19). -/
def HostPort.receive (kind : Byte) (body : List Byte) (p : HostPort) : HostPort :=
  (kind :: body).foldl HostPort.clockIn { p with phase := .summary }

/-- A request is taken at its last byte, which completes it: judged at once, its reply kept, and FILL begins (R174). -/
def Station.takeRequest (kind : Byte) (body : List Byte) (judge : Station → Station × Reply) (d : Station) : Station :=
  if d.port.takesRequest then
    let r := judge d
    { r.1 with port := { d.port.receive kind body with phase := .fill, reply := some r.2 } }
  else d

/-- A host request as a command. -/
def State.request (dt : Nat) (kind : Byte) (body : List Byte) (judge : Station → Station × Reply) (s : State) :
    Host.Outcome State Fault Refusal :=
  s.running dt (Station.takeRequest kind body judge)

/-- A reply without a body (R175). -/
def bare (st : Status) : Reply := ⟨st, []⟩

/-- A refusal: nothing changes but the reply. -/
def Station.refuse (st : Status) (d : Station) : Station × Reply := (d, bare st)

/-- OK, or OK_ADJUSTED where a field was clamped. -/
def okReply (adjusted : Bool) : Reply := bare (if adjusted then .okAdjusted else .ok)

/-- The engine's side of the station rewritten. -/
def Station.modEng (f : Engine → Engine) (d : Station) : Station := { d with eng := f d.eng }

/-- The station is HALTED. -/
def Station.isHalted (d : Station) : Bool := d.eng.ctl.state == .halted

/-! ## SETUP (R160) -/

/-- The own peer entry at SETUP: LIVE at the position set (R137). -/
def Engine.setOwnPosition (position : BitVec 11) (e : Engine) : Engine :=
  let own := { e.peers.get e.ctl.stationNo with state := .live, position := some position, haltReason := none }
  { e with peers := e.peers.set e.ctl.stationNo own }

/-- SETUP: checked, then the station joins. -/
def Station.setup (position : BitVec 16) (d : Station) : Station × Reply :=
  if d.isHalted then d.refuse .halted
  else if d.eng.ctl.state ≠ .unset then d.refuse .alreadySet
  else
    let p := clamp 0 2047 position.toNat
    let pos := BitVec.ofNat 11 p.1
    (d.modEng (fun e =>
      ((e.modCtl (fun c => { c with state := .joining })).setOwnPosition pos).offerAnnounce d.front pos true), okReply p.2)

/-! ## CONFIGURE CHANNEL (R15, R16) -/

/-- A running task names the channel (R15). -/
def Engine.channelInUse (ch : Chan) (e : Engine) : Bool :=
  taskIds.any (fun t => (e.tasks.get t).runContinues &&
    (e.tasks.get t).defn.any (fun d => d.fields.channels.contains ch))

/-- The level the pin input resolves: inside a pulse too short to resolve it is the level before (R9, log 7). -/
def Channel.resolvedLevel (c : Channel) : Bool := if c.inShortPulse then !c.pinLevel else c.pinLevel

/-- A channel reconfigured at `now` (R16). -/
def Channel.configure (now : Stamp) (enable : Bool) (edges : EdgeSelect) (glitch : Fin 64) (prescale : BitVec 16) (c : Channel) :
    Channel :=
  { c with
    enabled := enable, edgeSelect := edges, glitch := glitch, prescaleField := prescale, count := 0, seqNo := 0,
    deadUntil := none, configuredAt := some (fresh now), pendingChange := none, accepted := if enable then c.resolvedLevel else c.accepted,
    ring := Ring.cleared }

/-- One channel's record rewritten. -/
def Station.modChan (ch : Chan) (f : Channel → Channel) (d : Station) : Station :=
  { d with front := { d.front with chans := d.front.chans.set ch (f (d.front.chans.get ch)) } }

/-- CONFIGURE CHANNEL: checked, then the channel is reconfigured. -/
def Station.configureChannel (channel options glitch : Byte) (prescale : BitVec 16) (d : Station) : Station × Reply :=
  if d.isHalted then d.refuse .halted
  else match chanOf channel, edgeSelectOf (options.extractLsb' 1 2) with
    | some ch, some edges =>
      if d.eng.channelInUse ch then d.refuse .inUse
      else (d.modChan ch (Channel.configure d.now (options.getLsbD 0) edges (glitchOf glitch).1 prescale),
        okReply (glitchOf glitch).2)
    | _, _ => d.refuse .badArgument

/-! ## Task requests (R32 to R36, R42, R43) -/

/-- The task may be defined or armed: not in ARMED, RUNNING, PAUSED or STALLED (R32, R34). -/
def TaskState.free (st : TaskState) : Bool :=
  match st with
  | .empty | .idle | .done | .faulted => true
  | _ => false

/-- The record an accepted DEFINE TASK leaves (R33). -/
def TaskRec.defined (d : TaskDef) (k : TaskRec) : TaskRec :=
  { TaskRec.emptied with defn := some d, state := .idle, jobDiscarded := k.jobDiscarded }

/-- DEFINE TASK: checked (R32), then the record is replaced (R33). -/
def Station.defineTask (task : Byte) (definition : Option (TaskDef × Bool)) (d : Station) : Station × Reply :=
  if d.isHalted then d.refuse .halted
  else match taskIdOf task, definition with
    | some t, some p =>
      if !(d.eng.tasks.get t).state.free then d.refuse .busy
      else if d.eng.queue.any (fun b => b.task == t) then d.refuse .blocksPending
      else (d.modEng (Engine.modTask t (TaskRec.defined p.1)), okReply p.2)
    | _, _ => d.refuse .badArgument

/-- ARM TASK: checked (R34), then a run starts (R35). -/
def Station.armTask (task : Byte) (d : Station) : Station × Reply :=
  if d.isHalted then d.refuse .halted
  else match taskIdOf task with
    | none => d.refuse .badArgument
    | some t =>
      match (d.eng.tasks.get t).defn with
      | none => d.refuse .badState
      | some td =>
        if !(d.eng.tasks.get t).state.free then d.refuse .busy
        else match d.eng.armRefusal d.front td with
          | some st => d.refuse st
          | none => (d.modEng (Engine.startRun d.front t td), bare .ok)

/-- DISARM on a record: a run in progress ends, and DONE loses its re-arm pending (R42). -/
def Engine.disarm (now : Stamp) (t : TaskId) (e : Engine) : Engine :=
  if (e.tasks.get t).state = .done then e.modTask t (fun k => { k with rearmPending := false }) else e.endRun now t .disarm

/-- DISARM TASK (R42). -/
def Station.disarmTask (task : Byte) (d : Station) : Station × Reply :=
  if d.isHalted then d.refuse .halted
  else match taskIdOf task with
    | none => d.refuse .badArgument
    | some t =>
      if (d.eng.tasks.get t).state = .empty then d.refuse .badState
      else (d.modEng (Engine.disarm d.now t), bare .ok)

/-- The record becomes EMPTY; an answer still to be discarded is remembered (R43). -/
def Engine.emptyRecord (t : TaskId) (e : Engine) : Engine :=
  e.modTask t (fun k => { TaskRec.emptied with jobDiscarded := k.jobDiscarded })

/-- TEAR DOWN TASK on a task that is not EMPTY (R43, R154): freed places are handed on once its record is EMPTY. -/
def Engine.tearDown (fr : Front) (t : TaskId) (e : Engine) : Engine :=
  let queued := e.queue.length
  let e := (((((e.removeBlocksOf t).freeSlotsOf t).withdrawJob t).tearDownMarkers t).emptyRecord t)
  if e.queue.length < queued then (e.handOff fr).arbitrate fr.now else e

/-- TEAR DOWN TASK (R43). -/
def Station.tearDownTask (task : Byte) (d : Station) : Station × Reply :=
  if d.isHalted then d.refuse .halted
  else match taskIdOf task with
    | none => d.refuse .badArgument
    | some t =>
      if (d.eng.tasks.get t).state = .empty then (d, bare .ok) else (d.modEng (Engine.tearDown d.front t), bare .ok)

/-! ## DEFINE LISTEN ENTRY and PUBLISH GATE -/

/-- DEFINE LISTEN ENTRY (R128). -/
def Station.defineListenEntry (entry : Byte) (definition : Option ListenEntry) (d : Station) : Station × Reply :=
  if d.isHalted then d.refuse .halted
  else match taskIdOf entry, definition with
    | some i, some l => ({ d with listen := d.listen.set i l }, bare .ok)
    | _, _ => d.refuse .badArgument

/-- PUBLISH GATE (R148): the last two refusals are the transmitter's DROPPED answer. -/
def Station.publishGate (gate action : Byte) (d : Station) : Station × Reply :=
  if d.isHalted then d.refuse .halted
  else match nibbleOf gate, gateActionOf action with
    | some g, some kind =>
      if !d.eng.ctl.countsLive then d.refuse .notLive
      else
        let reply := if d.eng.tx.mute then .badState
          else if outgoingDepth ≤ d.eng.tx.queue.length then .queueFull else .ok
        (d.modEng (Engine.offerOrdinary (ordinaryEntry kind g d.now none)), bare reply)
    | _, _ => d.refuse .badArgument

/-! ## Reading -/

/-- READ RESULT (R155): the head block whole, or EMPTY; nothing is removed yet. The block named in the reply stays at the
head, so it no longer counts as an offer of its moment (log 53). -/
def Station.readResult (d : Station) : Station × Reply :=
  match d.eng.queue with
  | [] => d.refuse .empty
  | b :: rest =>
    (d.modEng (fun e => { e with queue := { b with offered := none } :: rest }), ⟨.ok, resultBody b rest.length⟩)

/-- Every statistics counter set to 0 (R135). -/
def Engine.clearCounters (e : Engine) : Engine := e.count (fun _ => Counters.zero)

/-- READ STATUS (R172): the clear option sets the counters to 0 once they are reported (R135). -/
def Station.readStatus (clear : Bool) (d : Station) : Station × Reply :=
  (if clear then d.modEng Engine.clearCounters else d, ⟨.ok, statusBody d.front.tb d.gates d.eng⟩)

/-- READ TIME (R8). -/
def Station.readTime (d : Station) : Station × Reply := (d, ⟨.ok, timeBody d.front.tb⟩)

/-! ## Events and faults -/

/-- SET EVENTS (R171). -/
def Station.setEvents (enables : Byte) (d : Station) : Station × Reply :=
  (d.modEng (Engine.modCtl (fun c => { c with mask := enables.setWidth 7 })), bare .ok)

/-- The latched events less those an acknowledgement names, as 12.2 numbers them (R170). -/
def Latched.acknowledge (acks : Byte) (l : Latched) : Latched :=
  { taskEnded := l.taskEnded && !acks.getLsbD 3, peerChanged := l.peerChanged && !acks.getLsbD 4,
    markerLoss := l.markerLoss && !acks.getLsbD 5, timebase := l.timebase && !acks.getLsbD 6 }

/-- ACK EVENTS (R170): the reply carries the pending set after the acknowledgement. -/
def Station.ackEvents (acks : Byte) (d : Station) : Station × Reply :=
  let d := d.modEng (Engine.modCtl (fun c => { c with latched := c.latched.acknowledge acks }))
  (d, ⟨.ok, [d.eng.pendingEvents.setWidth 8]⟩)

/-- CLEAR FAULT (R169). -/
def Station.clearFault (d : Station) : Station × Reply :=
  if d.isHalted then d.refuse .halted
  else if !d.eng.ctl.faultHold then d.refuse .badState
  else (d.modEng (Engine.modCtl (fun c => { c with faultHold := false, faultRecord := none })), bare .ok)

/-! ## Departures -/

/-- RETIRE taken: every run ends with cause RETIRE (R49, R163). -/
def Engine.retireRuns (now : Stamp) (e : Engine) : Engine := taskIds.foldl (fun e t => e.endRun now t .retire) e

/-- A departure's HALT is owed and offered (R162). -/
def Engine.oweHalt (fr : Front) (r : HaltReason) (e : Engine) : Engine :=
  (e.modCtl (fun c => { c with haltOwed := some r })).offerHalt fr r

/-- RETIRE (R163): muted, the station is HALTED at once without a frame. -/
def Engine.retire (fr : Front) (e : Engine) : Engine :=
  let e := (e.modCtl (fun c => { c with departure := .retire, haltCause := some .retired })).retireRuns fr.now
  if e.tx.mute then e.retired.ownHalted .retired else e.oweHalt fr .retired

/-- RETIRE: checked, then the station begins to leave. -/
def Station.retire (d : Station) : Station × Reply :=
  if d.isHalted then d.refuse .halted
  else if d.eng.ctl.state = .unset then d.refuse .badState
  else if d.eng.ctl.departure ≠ .none then d.refuse .badState
  else (d.modEng (Engine.retire d.front), bare .ok)

/-- The longest wait of a RESET: 2^24 TU (R164). -/
def resetWait : Nat := 2 ^ 24

/-- The RESET request (R164): due at once, or a departure with a deadline, or no effect while one waits. -/
def Engine.requestReset (fr : Front) (e : Engine) : Engine :=
  if e.ctl.state = .unset ∨ e.ctl.state = .halted ∨ e.tx.mute = true then
    e.modCtl (fun c => { c with resetDue := true })
  else if e.ctl.departure = .reset then e
  else (e.modCtl (fun c =>
    { c with departure := .reset, resetDeadline := some (plus fr.now resetWait) })).oweHalt fr .reset

/-- RESET is accepted in every station state (R164). -/
def Station.requestReset (d : Station) : Station × Reply := (d.modEng (Engine.requestReset d.front), bare .ok)

/-! ## The commands -/

/-- SETUP. -/
def execSetup (dt : Nat) (position : BitVec 16) (s : State) : Host.Outcome State Fault Refusal :=
  s.request dt 0x01 (beBytes 2 position.toNat) (Station.setup position)

/-- CONFIGURE_CHANNEL. -/
def execConfigureChannel (dt : Nat) (channel options glitch : Byte) (prescale : BitVec 16) (s : State) :
    Host.Outcome State Fault Refusal :=
  s.request dt 0x02 ([channel, options, glitch] ++ beBytes 2 prescale.toNat)
    (Station.configureChannel channel options glitch prescale)

/-- DEFINE_TASK. -/
def execDefineTask (dt : Nat) (task kind blockSize : Byte) (runLength : BitVec 16)
    (continuation failLimit escalation : Byte) (area : BitVec 104) (s : State) : Host.Outcome State Fault Refusal :=
  s.request dt 0x03
    ([task, kind, blockSize] ++ beBytes 2 runLength.toNat ++ [continuation, failLimit, escalation] ++ beBytes 13 area.toNat)
    (Station.defineTask task (taskDefOf kind blockSize runLength continuation failLimit escalation area))

/-- ARM_TASK. -/
def execArmTask (dt : Nat) (task : Byte) (s : State) : Host.Outcome State Fault Refusal :=
  s.request dt 0x04 [task] (Station.armTask task)

/-- DISARM_TASK. -/
def execDisarmTask (dt : Nat) (task : Byte) (s : State) : Host.Outcome State Fault Refusal :=
  s.request dt 0x05 [task] (Station.disarmTask task)

/-- TEAR_DOWN_TASK. -/
def execTearDownTask (dt : Nat) (task : Byte) (s : State) : Host.Outcome State Fault Refusal :=
  s.request dt 0x06 [task] (Station.tearDownTask task)

/-- DEFINE_LISTEN_ENTRY. -/
def execDefineListenEntry (dt : Nat) (entry mode boundTag maskClass action task : Byte) (s : State) :
    Host.Outcome State Fault Refusal :=
  s.request dt 0x07 [entry, mode, boundTag, maskClass, action, task]
    (Station.defineListenEntry entry (listenEntryOf mode boundTag maskClass action task))

/-- PUBLISH_GATE. -/
def execPublishGate (dt : Nat) (gate action : Byte) (s : State) : Host.Outcome State Fault Refusal :=
  s.request dt 0x08 [gate, action] (Station.publishGate gate action)

/-- READ_RESULT. -/
def execReadResult (dt : Nat) (s : State) : Host.Outcome State Fault Refusal := s.request dt 0x09 [] Station.readResult

/-- READ_STATUS. -/
def execReadStatus (dt : Nat) (options : Byte) (s : State) : Host.Outcome State Fault Refusal :=
  s.request dt 0x0A [options] (Station.readStatus (options.getLsbD 0))

/-- READ_TIME. -/
def execReadTime (dt : Nat) (s : State) : Host.Outcome State Fault Refusal := s.request dt 0x0B [] Station.readTime

/-- SET_EVENTS. -/
def execSetEvents (dt : Nat) (enables : Byte) (s : State) : Host.Outcome State Fault Refusal :=
  s.request dt 0x0C [enables] (Station.setEvents enables)

/-- ACK_EVENTS. -/
def execAckEvents (dt : Nat) (acks : Byte) (s : State) : Host.Outcome State Fault Refusal :=
  s.request dt 0x0D [acks] (Station.ackEvents acks)

/-- CLEAR_FAULT. -/
def execClearFault (dt : Nat) (s : State) : Host.Outcome State Fault Refusal := s.request dt 0x0E [] Station.clearFault

/-- RETIRE. -/
def execRetire (dt : Nat) (s : State) : Host.Outcome State Fault Refusal := s.request dt 0x0F [] Station.retire

/-- RESET, the request. -/
def execReset (dt : Nat) (s : State) : Host.Outcome State Fault Refusal := s.request dt 0x10 [] Station.requestReset

/-- A kind byte with a request assigned: 0x01 … 0x10 (12.3). -/
def kindAssigned (kind : Byte) : Bool := decide (1 ≤ kind.toNat) && decide (kind.toNat ≤ 16)

/-- UNKNOWN_REQUEST (R175): nothing changes but the reply; an assigned kind byte is not this command (log 3). -/
def execUnknownRequest (dt : Nat) (kind : Byte) (s : State) : Host.Outcome State Fault Refusal :=
  if kindAssigned kind then s.running dt id else s.request dt kind [] (Station.refuse .unknownRequest)

end Sys2Proof.Machine
end

