-- ==== Sys2Proof/Machine/ChannelEvents.lean ====
section
/-!
DEFINITION. Events of the input channels (R9 to R14) and of their rings (R19 to R21).
-/

namespace Sys2Proof.Machine

/-! ## Qualified edges -/

/-- A level the filter settles on is a counted edge (R10). -/
def EdgeSelect.counts (s : EdgeSelect) (level : Bool) : Bool :=
  match s with
  | .rising => level
  | .falling => !level
  | .both => true

/-- The stamper's dead time: 64 TU (R13). -/
def deadTime : Nat := 64

/-- An attempt at an edge time is skipped: the time is earlier than dead until (R13). -/
def Channel.skips (edge : Stamp) (c : Channel) : Bool := c.deadUntil.any (fun t => t.laterThan (fresh edge))

/-- The running count selects the edge for an attempt: a multiple of N (R12). -/
def Channel.attempts (c : Channel) : Bool := c.count.toNat % c.prescale == 0

/-- The entry the next stamp makes (R14, R19). -/
def Channel.nextEntry (edge : Stamp) (c : Channel) : Entry := ⟨c.ring.nextIndex, c.seqNo + 1, edge, c.count⟩

/-- A stamp is taken (R14): sequence number, dead time and the entry's arrival in the ring. -/
def Channel.stamp (now edge : Stamp) (c : Channel) : Channel :=
  { c with
    seqNo := c.seqNo + 1, deadUntil := some (fresh (plus edge deadTime)),
    ring := c.ring.arrive now (c.seqNo + 1) edge c.count }

/-- The level the filter settles on: accepted, the pending change gone, and counted if selected (R9 to R11). -/
def Channel.settle (c : Channel) : Channel :=
  { c with
    accepted := !c.accepted, pendingChange := none,
    count := if c.edgeSelect.counts (!c.accepted) then c.count + 1 else c.count }

/-- A change is qualified (R9 to R14): settled, counted, and stamped if it is attempted and not skipped; the new
entry comes back. -/
def Channel.qualify (now edge : Stamp) (c : Channel) : Channel × Option Entry :=
  let selected := c.edgeSelect.counts (!c.accepted)
  let c := c.settle
  if selected && c.attempts && !c.skips edge then (c.stamp now edge, some (c.nextEntry edge)) else (c, none)

/-- A channel qualifies a change with an edge time, and a new entry is offered to the tasks (R26). -/
def Station.qualifyEdge (ch : Chan) (edge : Stamp) (d : Station) : Station :=
  let r := (d.front.chan ch).qualify d.now edge
  let d := d.modChan ch (fun _ => r.1)
  match r.2 with
  | some x => d.modEng (Engine.arrival d.front ch x)
  | none => d

/-! ## The pin -/

/-- A pulse shorter than 13 TU vanishes with both its edges (R9). -/
def minPulse : Nat := 13

/-- The filter sees a level change (R9): away from the accepted level it becomes pending; a return, the pending change
not being due, cancels it. -/
def Channel.filterChange (now : Stamp) (c : Channel) : Channel :=
  { c with pendingChange := if c.pinLevel = c.accepted then none else some now }

/-- The pending change of an enabled channel that has persisted W coarse ticks: its raw time (R9, R10). -/
def Channel.qualifyDue (now : Stamp) (c : Channel) : Option Stamp :=
  match c.pendingChange with
  | some raw => if c.enabled && reached now (plus raw c.glitchTime) then some raw else none
  | none => none

/-- A pending change is qualified at its arrival (R10). -/
def Station.edgeQualified (ch : Chan) (d : Station) : Station :=
  match (d.front.chan ch).qualifyDue d.now with
  | some raw => d.qualifyEdge ch raw
  | none => d

/-- The current time is not later than the last CONFIGURE CHANNEL (R16). -/
def Channel.beforeConfigured (now : Stamp) (c : Channel) : Bool := c.configuredAt.any (fun t => !(fresh now).laterThan t)

/-- A channel's level change that persists long enough is for the filter (R9). A pending change that has persisted W
coarse ticks is qualified first, so that a change at its very arrival does not undo it. A change at the time of the
configuration makes no count and no entry (R16), and its level is taken as part of the level on the pin at that time
(log 38, DESIGN CHOICE). With W = 0 a change is qualified at once. -/
def Station.filterPin (ch : Chan) (d : Station) : Station :=
  let d := d.edgeQualified ch
  let c := d.front.chan ch
  if !c.enabled then d
  else if c.beforeConfigured d.now then d.modChan ch (fun c => { c with accepted := c.pinLevel })
  else if c.glitch = 0 then if c.pinLevel = c.accepted then d else d.qualifyEdge ch d.now
  else d.modChan ch (Channel.filterChange d.now)

/-- The pin's level changes; the new level persists for a number of TU (R9, log 7). In a run of adjacent levels each
shorter than 13 TU the edges vanish in pairs from the first: the second short level ends the first pulse, and a third
begins the next (log 39, DESIGN CHOICE). -/
def Station.pinChange (ch : Chan) (persists : Nat) (d : Station) : Station :=
  let c := d.front.chan ch
  let toggled := d.modChan ch (fun c => { c with pinLevel := !c.pinLevel })
  if c.inShortPulse then toggled.modChan ch (fun c => { c with inShortPulse := false })
  else if persists < minPulse then toggled.modChan ch (fun c => { c with inShortPulse := true })
  else if d.held then toggled
  else toggled.filterPin ch

/-! ## Rings -/

/-- The oldest entry ages (R20). -/
def Ring.age (now : Stamp) (r : Ring) : Ring := if r.agingDue now then r.depart now else r

/-- The last-removed record is marked long past (R21), also while the ring holds entries: R21 says of the mark both
when it is set and that it can happen only to the record of an empty ring, and the model keeps to the first; the
record is consulted on an empty ring only (R27; log 41, DEDUCED). -/
def Ring.markRecord (now : Stamp) (r : Ring) : Ring :=
  { r with lastRemoved := r.lastRemoved.map (fun x => { x with stamp := x.stamp.mark now }) }

/-- One channel's ring rewritten. -/
def Station.modRing (ch : Chan) (f : Ring → Ring) (d : Station) : Station := d.modChan ch (fun c => { c with ring := f c.ring })

/-! ## The commands -/

/-- PIN_LEVEL_CHANGE. -/
def execPinLevelChange (dt : Nat) (ch : Chan) (persists : Nat) (s : State) : Host.Outcome State Fault Refusal :=
  s.acting dt (Station.pinChange ch persists)

/-- EDGE_QUALIFIED. -/
def execEdgeQualified (dt : Nat) (ch : Chan) (s : State) : Host.Outcome State Fault Refusal :=
  s.running dt (Station.edgeQualified ch)

/-- RING_AGING. -/
def execRingAging (dt : Nat) (ch : Chan) (s : State) : Host.Outcome State Fault Refusal :=
  s.running dt (fun d => d.modRing ch (Ring.age d.now))

/-- RECORD_LONG_PAST. -/
def execRecordLongPast (dt : Nat) (ch : Chan) (s : State) : Host.Outcome State Fault Refusal :=
  s.running dt (fun d => d.modRing ch (Ring.markRecord d.now))

end Sys2Proof.Machine
end

