-- ==== Sys2Proof/Machine/Resets.lean ====
section
/-!
DEFINITION. The resets (R117, R159, R164, R165): power-on reset and RESET#, the release, the reset of the RESET
request and its deadline.
-/

namespace Sys2Proof.Machine

/-- The levels on the signal pins; no reset changes them. -/
def Station.inputLevels (d : Station) : Per4 Bool := d.front.chans.map Channel.pinLevel

/-- The station resets and releases in one step (R165): every block at its reset values, the straps sampled. -/
def Station.resetNow (pins : ReleasePins) (d : Station) : Station :=
  Station.released pins d.inputLevels d.port.csLow

/-- RESET# goes low (R165): every block at its reset values and held there; the straps are sampled at the release,
so the number and the line unit stay as they were (log 21). -/
def Station.heldInReset (d : Station) : Station :=
  { d.resetNow ⟨d.eng.ctl.stationNo, d.eng.ctl.longUnit, false⟩ with held := true }

/-- The waiting reset's deadline has come (R164). -/
def Engine.deadlineReached (now : Stamp) (e : Engine) : Bool :=
  e.ctl.departure == .reset && e.ctl.resetDeadline.any (fun t => reached now t)

/-- POWER_ON_RESET (R165): acts in every state. -/
def execPowerOnReset (dt : Nat) (s : State) : Host.Outcome State Fault Refusal := s.acting dt Station.heldInReset

/-- RESET_RELEASE (R159): the straps are sampled and the timebase counts from 0. -/
def execResetRelease (dt : Nat) (pins : ReleasePins) (s : State) : Host.Outcome State Fault Refusal :=
  s.acting dt (fun d => if d.held then d.resetNow pins else d)

/-- RESET_DEADLINE (R164): the waiting reset takes effect, also while its own reply is still being clocked out (R178;
log 51, DEDUCED). -/
def execResetDeadline (dt : Nat) (pins : ReleasePins) (s : State) : Host.Outcome State Fault Refusal :=
  s.running dt (fun d => if d.eng.deadlineReached d.now then d.resetNow pins else d)

end Sys2Proof.Machine
end

