-- ==== Sys2Proof/Machine/HostPort.lean ====
section
/-!
DEFINITION. The transaction on the host port (R174, R176 to R178): its start, the reply becoming ready, the last
reply byte, the rise of CS#, and what SDO carries.
-/

namespace Sys2Proof.Machine

/-- The port returns to idle; CS# is at the given level (R176). -/
def HostPort.idled (csLow : Bool) (_ : HostPort) : HostPort := HostPort.afterReset csLow

/-- The transaction record rewritten. -/
def Station.modPort (f : HostPort → HostPort) (d : Station) : Station := { d with port := f d.port }

/-- CS# falls (R177): the summary byte is sampled; while reset is held the port stays idle (R178). -/
def Station.transactionStart (d : Station) : Station :=
  if d.port.csLow then d
  else if d.held then d.modPort (fun p => { p with csLow := true })
  else d.modPort (fun _ =>
    { phase := .summary, csLow := true, summary := some d.eng.summaryByte, kind := none, body := [], reply := none })

/-- The reply is ready: FILL ends and REPLY begins (R174). -/
def Station.replyReady (d : Station) : Station :=
  if d.port.phase = .fill then d.modPort (fun p => { p with phase := .reply }) else d

/-- The completed reply is that of a READ RESULT that gave a block (R155). -/
def HostPort.gaveBlock (p : HostPort) : Bool :=
  p.kind == some 0x09 && p.reply.any (fun r => r.status == .ok)

/-- The last reply byte is out (R174): a block that was read leaves (R155), a reset that is due resets (R164). -/
def Station.replyCompleted (pins : ReleasePins) (d : Station) : Station :=
  if d.port.phase ≠ .reply then d
  else if d.eng.ctl.resetDue then d.resetNow pins
  else
    let d := if d.port.gaveBlock then d.modEng (Engine.removeHead d.front) else d
    d.modPort (fun p => { p with phase := .done })

/-- A phase in which a rise of CS# comes before the transaction is done (R176). -/
def Phase.early (p : Phase) : Bool :=
  match p with
  | .summary | .body | .fill | .reply => true
  | _ => false

/-- CS# rises before the transaction is done (R176): a request already taken keeps its effects. -/
def Station.csRiseEarly (pins : ReleasePins) (d : Station) : Station :=
  if d.port.phase.early then
    let r := d.modPort (HostPort.idled false)
    if d.eng.ctl.resetDue then r.resetNow pins else r
  else d

/-- CS# rises with the transaction done, or with none in progress (R176, R178). -/
def Station.transactionEnd (d : Station) : Station :=
  if d.port.csLow && !d.port.phase.early then d.modPort (HostPort.idled false) else d

/-- The byte the port shifts out on SDO as byte `i` of its phase, `none` where SDO is high-impedance (R174, R178): the
summary byte, the bytes of the reply in REPLY and 0x00 past the last, 0x00 in BODY, FILL and DONE. It drives SDO only
while CS# is low, and not while it idles with CS# low after a reset (log 46, DEDUCED). -/
def HostPort.sdo (i : Nat) (p : HostPort) : Option Byte :=
  if p.csLow then
    match p.phase with
    | .idle => none
    | .summary => p.summary
    | .body | .fill | .done => some 0
    | .reply => p.reply.map (fun r => r.bytes.getD i 0)
  else none

/-- What the station shifts out on SDO: nothing while RESET# is low (R178). -/
def Station.sdo (i : Nat) (d : Station) : Option Byte := if d.held then none else d.port.sdo i

/-- TRANSACTION_START. -/
def execTransactionStart (dt : Nat) (s : State) : Host.Outcome State Fault Refusal := s.acting dt Station.transactionStart

/-- REPLY_READY. -/
def execReplyReady (dt : Nat) (s : State) : Host.Outcome State Fault Refusal := s.running dt Station.replyReady

/-- REPLY_COMPLETED. -/
def execReplyCompleted (dt : Nat) (pins : ReleasePins) (s : State) : Host.Outcome State Fault Refusal :=
  s.running dt (Station.replyCompleted pins)

/-- CS_RISE_EARLY. -/
def execCsRiseEarly (dt : Nat) (pins : ReleasePins) (s : State) : Host.Outcome State Fault Refusal :=
  s.running dt (Station.csRiseEarly pins)

/-- TRANSACTION_END. -/
def execTransactionEnd (dt : Nat) (s : State) : Host.Outcome State Fault Refusal := s.acting dt Station.transactionEnd

end Sys2Proof.Machine
end

