-- ==== Sys2Proof/Machine/Gates.lean ====
section
/-!
DEFINITION. Positions, the times formed from markers (R132, R142, R144) and the gate table (R143 to R147).
-/

namespace Sys2Proof.Machine

/-! ## Times formed from a marker -/

/-- The position a peer entry gives: LIVE, or HALTED with its position present (R142). -/
def Peer.givesPosition (p : Peer) : Option (BitVec 11) :=
  match p.state with
  | .absent => none
  | _ => p.position

/-- The propagation between the own position and a source's, in TU; absent when the source gives no position
(R142). -/
def Engine.propagation (source : StationNo) (e : Engine) : Option Nat :=
  match (e.peers.get e.ctl.stationNo).position, (e.peers.get source).givesPosition with
  | some own, some p => some (own.toNat - p.toNat + (p.toNat - own.toNat))
  | _, _ => none

/-- A time formed from a marker (R132, R144): the attention stamp minus the delay minus the propagation; UNPLACED
without a position. -/
def Engine.formedTime (attention : Stamp) (delay : Nat) (source : StationNo) (e : Engine) : Stamp × Bool :=
  (attention - BitVec.ofNat 48 delay - BitVec.ofNat 48 ((e.propagation source).getD 0), (e.propagation source).isNone)

/-! ## One record -/

/-- The gate opens from CLOSED (R144). -/
def Gate.opensFresh (time : Stamp) (source : StationNo) (unplaced : Bool) (g : Gate) : Gate :=
  { state := .opened, openTime := some (fresh time), opener := some source, closeTime := none, closer := none,
    generation := g.generation + 1, unplaced := unplaced, orphaned := false, reopened := false, negative := false }

/-- A close at `time` is earlier than the open time; never so for a long-past open time (R145). -/
def Gate.closesEarly (time : Stamp) (g : Gate) : Bool :=
  match g.openTime with
  | some o => o.laterThan (fresh time)
  | none => false

/-- The gate closes (R145): clamped to the open time and NEGATIVE if the close would be earlier. -/
def Gate.closes (time : Stamp) (source : StationNo) (unplaced : Bool) (g : Gate) : Gate :=
  { g with
    state := .closed, closeTime := some (if g.closesEarly time then (g.openTime.map Kept.stamp).getD time else time),
    closer := some source, unplaced := g.unplaced || unplaced, negative := g.negative || g.closesEarly time }

/-- The gate closes by the loss of its opener (R146). -/
def Gate.orphans (time : Stamp) (source : StationNo) (unplaced : Bool) (g : Gate) : Gate :=
  { g.closes time source unplaced with orphaned := true }

/-- The first step of a reopen: the current generation closes with REOPENED (R144). -/
def Gate.closesByReopen (time : Stamp) (source : StationNo) (unplaced : Bool) (g : Gate) : Gate :=
  { g.closes time source unplaced with reopened := true }

/-- The second step of a reopen: the gate opens again at the same gate time, REOPENED staying set (R144). -/
def Gate.opensAgain (time : Stamp) (source : StationNo) (unplaced : Bool) (g : Gate) : Gate :=
  { g.opensFresh time source unplaced with reopened := g.reopened }

/-- The open notice of a record that has just opened (R147). -/
def Gate.openNotice (g : Gate) : List Notice :=
  match g.openTime with
  | some o => [.opened g.generation o g.unplaced]
  | none => []

/-- The close notice of a record that has just closed (R147). -/
def Gate.closeNotice (g : Gate) : List Notice :=
  match g.openTime, g.closeTime with
  | some o, some c => [.closed g.generation o (fresh c) g.unplaced g.orphaned g.reopened g.negative]
  | _, _ => []

/-- A GATE_OPEN applied to a record, with its notices in order (R144). -/
def Gate.applyOpen (time : Stamp) (source : StationNo) (unplaced : Bool) (g : Gate) : Gate × List Notice :=
  match g.state with
  | .closed =>
    let g := g.opensFresh time source unplaced
    (g, g.openNotice)
  | .opened =>
    let c := g.closesByReopen time source unplaced
    let o := c.opensAgain time source unplaced
    (o, c.closeNotice ++ o.openNotice)

/-! ## The table -/

/-- The notices of a gate reach the tasks that follow it, and the arbiter then chooses (R93, R147). -/
def Station.notify (ns : List (BitVec 4 × Notice)) (d : Station) : Station :=
  { d with eng := (d.eng.notify d.front ns).arbitrate d.now }

/-- A GATE_OPEN reaches the gate table (R144). -/
def Station.gateOpens (gate : BitVec 4) (time : Stamp) (source : StationNo) (unplaced : Bool) (d : Station) : Station :=
  let r := (d.gates.get gate).applyOpen time source unplaced
  { d with gates := d.gates.set gate r.1 }.notify (r.2.map (fun n => (gate, n)))

/-- A GATE_CLOSE reaches the gate table; on a CLOSED gate it is a stray close (R145). -/
def Station.gateCloses (gate : BitVec 4) (time : Stamp) (source : StationNo) (unplaced : Bool) (d : Station) : Station :=
  match (d.gates.get gate).state with
  | .closed => { d with eng := d.eng.count (fun c => { c with strayCloses := bumpBy 1 c.strayCloses }) }
  | .opened =>
    let g := (d.gates.get gate).closes time source unplaced
    { d with gates := d.gates.set gate g }.notify (g.closeNotice.map (fun n => (gate, n)))

/-- A GATE marker of either kind reaches the gate table (R144, R145). -/
def Station.applyGate (kind : MarkerKind) (gate : BitVec 4) (time : Stamp) (source : StationNo) (unplaced : Bool)
    (d : Station) : Station :=
  match kind with
  | .gateOpen => d.gateOpens gate time source unplaced
  | .gateClose => d.gateCloses gate time source unplaced
  | _ => d

/-- The gates a station opened and that are OPEN (R146). -/
def openGatesOf (source : StationNo) (gates : Per16 Gate) : List (BitVec 4) :=
  nibbles.filter (fun i => (gates.get i).state == .opened && (gates.get i).opener == some source)

/-- Outcomes and notices of one moment reach the tasks in ascending number, each task acting on all of its own before
the next (R87, R147, R152; log 9). -/
def Engine.actTogether (fr : Front) (xs : List (TaskId × Deferred)) (ns : List (BitVec 4 × Notice)) (e : Engine) : Engine :=
  taskIds.foldl (fun e t =>
    ns.foldl (fun e p => e.notifyTask fr p.1 p.2 t)
      ((xs.filter (fun p => p.1 == t)).foldl (fun e p => e.giveOutcome fr t p.2) e)) e

/-- Every gate a station opened closes with ORPHANED at the attention stamp less the propagation (R146). The close
notices reach the tasks together with the outcomes `xs` of the same moment, and the arbiter then chooses (R93, R152). -/
def Station.orphanWith (xs : List (TaskId × Deferred)) (attention : Stamp) (source : StationNo) (d : Station) : Station :=
  let t := d.eng.formedTime attention 0 source
  let lost := openGatesOf source d.gates
  let gates := lost.foldl (fun gs i => gs.set i ((gs.get i).orphans t.1 source t.2)) d.gates
  let ns := lost.flatMap (fun i => (gates.get i).closeNotice.map (fun n => (i, n)))
  { d with gates := gates, eng := (d.eng.actTogether d.front xs ns).arbitrate d.now }

/-- Every gate a station opened closes with ORPHANED, and no other result comes at that moment (R146). -/
def Station.orphan (attention : Stamp) (source : StationNo) (d : Station) : Station := d.orphanWith [] attention source

end Sys2Proof.Machine
end

