-- ==== Sys2Proof/Machine/Line.lean ====
section
/-!
DEFINITION. The line receiver (chapter 07): the drive of LINE, lows and highs, cells, truncation and stuck episodes.

An event whose condition or moment does not hold has no effect but the passing of its time (log 3).
-/

namespace Sys2Proof.Machine

/-! ## Times on the line -/

/-- A number of line units in TU (R102). -/
def Station.units (n : Nat) (d : Station) : Nat := n * d.lu

/-- A number of half line units in TU (R104). -/
def Station.halves (n : Nat) (d : Station) : Nat := halfUnits d.eng.ctl.longUnit n

/-- The current time has reached the moment so many TU after a stamp. -/
def Station.passed (t : Stamp) (tu : Nat) (d : Station) : Bool := reached d.now (plus t tu)

/-! ## What the station drives -/

/-- How long a bit cell is held low: 1 LU for a one, 2 LU for a zero (R104). -/
def cellUnits (bit : Bool) : Nat := if bit then 1 else 2

/-- The cells of a frame hold the line so long: bit cells by their bit, response cells 1 LU (R104, R113). -/
def Attempt.cellHold (a : Attempt) (k : Nat) : Nat := if k < 40 then cellUnits (cellBit a.word k) else 1

/-- An attempt drives the line `age` TU after its attention stamp: cell k starts at 5 + 3k LU, the response cells
are cells 40 and 41 (R103, R113). -/
def Attempt.drivesCell (lu age : Nat) (a : Attempt) : Bool :=
  let k := (age - 5 * lu) / (3 * lu)
  decide (5 * lu ≤ age) && decide (k < 42) && decide ((age - 5 * lu) % (3 * lu) < a.cellHold k * lu)

/-- An attempt drives the line: its attention for 4 LU from its beginning, then its cells (R103). -/
def Attempt.drives (now : Stamp) (lu : Nat) (a : Attempt) : Bool :=
  decide (since now a.began < 4 * lu) || a.drivesCell lu (since now a.attention)

/-- A response-cell hold in progress: 2 LU from the edge seen (R115). The station's state is tested at the edge only; a
hold already begun runs on when the station becomes HALTED (log 42, DESIGN CHOICE). -/
def Receiver.holds (now : Stamp) (lu : Nat) (r : Receiver) : Bool :=
  r.holdFrom.any (fun t => decide (since now t < 2 * lu))

/-- The station drives LINE low (R103, R113, R115, R165). -/
def Station.drivesLine (d : Station) : Bool :=
  !d.held && (d.eng.tx.attempt.any (Attempt.drives d.now d.lu) || d.rx.holds d.now d.lu)

/-! ## Leaving a frame -/

/-- What a frame leaves behind when it ends: nothing of it is kept (R107) but a response-cell hold in progress, which
runs its 2 LU (R115); the cell position goes back to bit cell 0 (log 40, DESIGN CHOICE). -/
def Receiver.frameGone (now : Stamp) (lu : Nat) (r : Receiver) : Receiver :=
  { r with
    attention := none, cellPos := .bit 0, bits := [], ownPart := .none, answer := .none, openCell := none,
    waitFrom := none, judged := false, holdFrom := if r.holds now lu then r.holdFrom else none }

/-- The receiver returns to IDLE: the line is quiet from now, or from its next rise if it is low (R107; log 17,
DEDUCED). -/
def Receiver.toIdle (now : Stamp) (lu : Nat) (r : Receiver) : Receiver :=
  { r.frameGone now lu with
    state := .idle, quietSince := if r.lowSince.isSome then none else some (fresh now),
    lowFromFrame := r.lowSince.isSome }

/-- The receiver enters STUCK from a low (R110). -/
def Receiver.toStuck (now : Stamp) (lu : Nat) (low : Stamp) (r : Receiver) : Receiver :=
  { r.frameGone now lu with
    state := .stuck, quietSince := none, episodeStart := some low, episodeReported := false, lowFromFrame := false }

/-- The receiver rewritten. -/
def Station.modRx (f : Receiver → Receiver) (d : Station) : Station := { d with rx := f d.rx }

/-- A truncated frame is counted (R107, R134). -/
def Station.countTruncated (d : Station) : Station :=
  d.modEng (Engine.count (fun c => { c with truncated := bumpBy 1 c.truncated }))

/-- A contender whose last bit cell has not been sampled ends its attempt CUT (R113). -/
def Station.cutAttempt (d : Station) : Station := d.modEng (Engine.attemptCut d.front)

/-! ## Lows and highs outside STUCK (R106, R110) -/

/-- A falling edge in IDLE: low since is set and quiet since removed (R106). -/
def Receiver.fall (now : Stamp) (r : Receiver) : Receiver :=
  if r.state = .idle ∧ r.lowSince = none then { r with lowSince := some now, quietSince := none } else r

/-- A rise that ends a disturbance: quiet from now (R106). The station drives nothing then, so a hold is over. -/
def Receiver.quietRise (now : Stamp) (r : Receiver) : Receiver :=
  { r with lowSince := none, quietSince := some (fresh now), lowFromFrame := false, holdFrom := none }

/-- The station began driving this low: it is that of its own attention, whose stamp the attempt in progress carries
(R103, R111). An attempt in progress in any other low began a frame that its receiver has left. -/
def Engine.beganLow (low : Stamp) (e : Engine) : Bool := e.tx.attempt.any (fun a => a.attention == low)

/-- A rise that ends an attention: the receiver enters FRAME (R106, R111). -/
def Receiver.enterFrame (now : Stamp) (lu : Nat) (low : Stamp) (sending : Bool) (r : Receiver) : Receiver :=
  { r.frameGone now lu with
    state := .frame, lowSince := none, quietSince := none, attention := some low, waitFrom := some now,
    ownPart := if sending then .sending else .none }

/-- A low that has lasted more than 6 LU: STUCK, a frame in progress truncated, an attempt in progress cut (R107,
R110, R113). -/
def Station.enterStuck (low : Stamp) (d : Station) : Station :=
  let e := if d.rx.state = .frame then d.countTruncated else d
  (e.modRx (Receiver.toStuck d.now d.lu low)).cutAttempt

/-- A rise of LINE in IDLE or FRAME (R106, R107); a station that drives the line sees none. -/
def Station.lineRise (d : Station) : Station :=
  match d.rx.lowSince with
  | none => d
  | some low =>
    if d.drivesLine then d
    else match d.rx.state with
      | .stuck => d
      | .frame =>
        if since d.now low ≤ d.units 6 then d.modRx (fun r => { r with lowSince := none })
        else (d.enterStuck low).modRx (Receiver.quietRise d.now)
      | .idle =>
        if d.units 6 < since d.now low then (d.enterStuck low).modRx (Receiver.quietRise d.now)
        else if d.rx.lowFromFrame || decide (since d.now low < d.units 3) then d.modRx (Receiver.quietRise d.now)
        else d.modRx (Receiver.enterFrame d.now d.lu low (d.eng.beganLow low))

/-- A low reaches 6 LU and goes on (R110). -/
def Station.stuckEntry (d : Station) : Station :=
  match d.rx.lowSince with
  | some low => if d.rx.state ≠ .stuck ∧ d.units 6 ≤ since d.now low then d.enterStuck low else d
  | none => d

/-! ## STUCK (R110) -/

/-- An edge of LINE in STUCK (R110). -/
def Station.stuckEdge (rising : Bool) (d : Station) : Station :=
  if d.rx.state ≠ .stuck then d
  else if rising then
    if d.rx.lowSince.isSome && !d.drivesLine then d.modRx (Receiver.quietRise d.now) else d
  else if d.rx.lowSince.isNone then d.modRx (fun r => { r with lowSince := some d.now, quietSince := none })
  else d

/-- The line has been high for 4 LU: the episode ends, quiet from the rise that began it (R110). -/
def Station.stuckEnd (d : Station) : Station :=
  if d.rx.state = .stuck ∧ d.rx.quietSince.any (fun q => q.reachedAfter d.now (d.units 4)) = true then
    d.modRx (fun r => { r with state := .idle, episodeStart := none, episodeReported := false })
  else d

/-- The episode reaches 2,000 LU: LINE_STUCK is handed up once, stamped with that moment (R110). -/
def Station.lineStuck (d : Station) : Station :=
  match d.rx.state, d.rx.episodeReported, d.rx.episodeStart with
  | .stuck, false, some t =>
    if d.passed t (d.units 2000) then
      (d.modRx (fun r => { r with episodeReported := true })).modEng
        (Engine.stationFault .lineStuck (plus t (d.units 2000)) 0)
    else d
  | _, _, _ => d

/-! ## Cells (R104, R107, R115) -/

/-- The station may hold a response cell of this frame (R115): JOINING or LIVE, not muted, not its own frame. -/
def Station.mayHold (d : Station) : Bool :=
  !d.eng.tx.mute && (d.eng.ctl.state == .joining || d.eng.ctl.state == .live) && !(d.rx.ownPart == .sending)

/-- A falling edge comes between a cell's start and its sample point: no new cell (R104). Of the TAKEN cell a receiver takes
no sample of its own; an edge at its sample point exactly counts as after it and starts the REFUSED cell (log 52,
DESIGN CHOICE). -/
def Station.inCell (d : Station) : Bool :=
  d.rx.openCell.isSome ||
  (match d.rx.cellPos with
   | .refusedCell | .noMore => d.rx.waitFrom.any (fun t => !d.passed t (d.halves 3))
   | _ => false)

/-- The next cell begins at a falling edge (R104, R107, R115). -/
def Receiver.beginCell (now : Stamp) (mayHold : Bool) (r : Receiver) : Receiver :=
  match r.cellPos with
  | .bit k =>
    { r with openCell := some now, waitFrom := some now, cellPos := if 39 ≤ k then .takenCell else .bit (k + 1) }
  | .takenCell =>
    { r with waitFrom := some now, cellPos := .refusedCell,
             holdFrom := if mayHold && r.answer == .taken then some now else r.holdFrom }
  | .refusedCell =>
    { r with waitFrom := some now, cellPos := .noMore,
             holdFrom := if mayHold && r.answer == .refused then some now else r.holdFrom }
  | .noMore => r

/-- A falling edge in FRAME, the line having been high (R104). -/
def Station.cellEdge (d : Station) : Station :=
  if d.rx.state = .frame ∧ d.rx.lowSince = none then
    let r := { d.rx with lowSince := some d.now }
    d.modRx (fun _ => if d.inCell then r else r.beginCell d.now d.mayHold)
  else d

/-- A bit cell that has begun and whose sample point has come (R104). -/
def Station.sampleDue (d : Station) : Bool :=
  d.rx.state == .frame && d.rx.openCell.any (fun t => d.passed t (d.halves 3))

/-- A bit is appended: one for a high line, zero for a low one (R104). -/
def Receiver.appendBit (low : Bool) (r : Receiver) : Receiver := { r with bits := r.bits ++ [!low], openCell := none }

/-- The sender has sampled all its 40 bit cells and lost in none (R113). -/
def Receiver.sentWhole (word : BitVec 40) (r : Receiver) : Bool :=
  r.ownPart == .sending && decide (r.bits.length = 40) && wordOfBits r.bits == word

/-- The attempt in progress rewritten. -/
def Engine.modAttempt (f : Attempt → Attempt) (e : Engine) : Engine :=
  { e with tx := { e.tx with attempt := e.tx.attempt.map f } }

/-- The sample point of a bit cell (R104, R113). -/
def Station.sampleBit (low : Bool) (d : Station) : Station :=
  let d := d.modRx (Receiver.appendBit low)
  d.modEng (Engine.modAttempt (fun a => { a with allSampled := a.allSampled || d.rx.sentWhole a.word }))

/-- The sender samples its response cells 1.5 LU after its own edges at 125 and 128 LU (R113). -/
def Attempt.sampleResponse (now : Stamp) (longUnit low : Bool) (a : Attempt) : Attempt :=
  if since now a.attention = halfUnits longUnit 253 then { a with takenLow := some low }
  else if since now a.attention = halfUnits longUnit 259 then { a with refusedLow := some low }
  else a

/-- The sender of a frame whose bit cells are all sampled (R113). -/
def Engine.isSender (e : Engine) : Bool := e.tx.attempt.any Attempt.allSampled

/-- The sample point of one of the sender's response cells (R113). -/
def Station.sampleOwn (low : Bool) (d : Station) : Station :=
  if d.eng.isSender then d.modEng (Engine.modAttempt (Attempt.sampleResponse d.now d.eng.ctl.longUnit low)) else d

/-- A sample point: of one of the sender's response cells, and of a bit cell of the frame its receiver is in, which may be
another's when the receiver left the sent frame before its end (R104, R107, R113). -/
def Station.cellSample (othersLow : Bool) (d : Station) : Station :=
  let low := othersLow || d.drivesLine
  let s := d.sampleOwn low
  if s.sampleDue then s.sampleBit low else s

/-! ## Arbitration (R112) -/

/-- The last cell sampled reads zero where the contender sent a one (R112). -/
def Station.losesCell (d : Station) : Bool :=
  d.rx.state == .frame && d.rx.ownPart == .sending && d.eng.tx.attempt.any (fun a =>
    !a.allSampled && d.rx.bits.getLast? == some false && cellBit a.word (d.rx.bits.length - 1))

/-- ARBITRATION_LOSS: the sample that shows the loss is taken here if CELL_SAMPLE has not taken it; the contender
stops driving and its attempt ends LOST (R112, R125). -/
def Station.arbitrationLoss (d : Station) : Station :=
  let s := if d.sampleDue then d.modRx (Receiver.appendBit true) else d
  if s.losesCell then (s.modRx (fun r => { r with ownPart := .lost })).modEng (Engine.attemptLost s.front) else d

/-! ## Truncation (R107) -/

/-- A cell is still expected (R107). -/
def CellPos.expects (c : CellPos) : Bool := !(c == .noMore)

/-- No cell edge has come within 4 LU: the frame is truncated and counted, an attempt not wholly sent is cut (log 16). -/
def Station.frameTruncated (d : Station) : Station :=
  if d.rx.state = .frame ∧ d.rx.cellPos.expects = true ∧ d.rx.waitFrom.any (fun t => d.passed t (d.units 4)) = true then
    (d.countTruncated.modRx (Receiver.toIdle d.now d.lu)).cutAttempt
  else d

/-! ## The commands -/

/-- LINE_FALL. -/
def execLineFall (dt : Nat) (s : State) : Host.Outcome State Fault Refusal :=
  s.running dt (fun d => d.modRx (Receiver.fall d.now))

/-- LINE_RISE. -/
def execLineRise (dt : Nat) (s : State) : Host.Outcome State Fault Refusal := s.running dt Station.lineRise

/-- STUCK_ENTRY. -/
def execStuckEntry (dt : Nat) (s : State) : Host.Outcome State Fault Refusal := s.running dt Station.stuckEntry

/-- STUCK_LINE_EDGE. -/
def execStuckLineEdge (dt : Nat) (rising : Bool) (s : State) : Host.Outcome State Fault Refusal :=
  s.running dt (Station.stuckEdge rising)

/-- STUCK_END. -/
def execStuckEnd (dt : Nat) (s : State) : Host.Outcome State Fault Refusal := s.running dt Station.stuckEnd

/-- LINE_STUCK. -/
def execLineStuck (dt : Nat) (s : State) : Host.Outcome State Fault Refusal := s.running dt Station.lineStuck

/-- CELL_EDGE. -/
def execCellEdge (dt : Nat) (s : State) : Host.Outcome State Fault Refusal := s.running dt Station.cellEdge

/-- CELL_SAMPLE. -/
def execCellSample (dt : Nat) (othersLow : Bool) (s : State) : Host.Outcome State Fault Refusal :=
  s.running dt (Station.cellSample othersLow)

/-- ARBITRATION_LOSS. -/
def execArbitrationLoss (dt : Nat) (s : State) : Host.Outcome State Fault Refusal := s.running dt Station.arbitrationLoss

/-- FRAME_TRUNCATED. -/
def execFrameTruncated (dt : Nat) (s : State) : Host.Outcome State Fault Refusal := s.running dt Station.frameTruncated

end Sys2Proof.Machine
end

