-- ==== Sys2Proof/Machine/Markers.lean ====
section
/-!
DEFINITION. A whole word at the receiver (R108, R114, R116, R119): the peer table (R138 to R141), the listen table
and the remote slots (R129 to R132); the completion of an own frame (R125) and the start of an attempt (R123, R124).
-/

namespace Sys2Proof.Machine

/-! ## The peer table -/

/-- A peer entry after an ANNOUNCE (R138). -/
def Peer.announced (position : BitVec 11) (attention : Stamp) (_ : Peer) : Peer :=
  { state := .live, position := some position, haltReason := none, lastAnnounce := some attention }

/-- An ANNOUNCE changes what the entry held of state or position (R138). -/
def Peer.announceChanges (position : BitVec 11) (p : Peer) : Bool := !(p.state == .live) || !(p.position == some position)

/-- A peer entry after a HALT (R141). -/
def Peer.halts (r : HaltReason) (p : Peer) : Peer := { p with state := .halted, haltReason := some r }

/-- A HALT changes what the entry held of state or reason (R141). -/
def Peer.haltChanges (r : HaltReason) (p : Peer) : Bool := !(p.state == .halted) || !(p.haltReason == some r)

/-- The station is JOINING or LIVE (R116). -/
def Control.onLine (c : Control) : Bool := c.state == .joining || c.state == .live

/-- The cell answer set (R108). -/
def Station.answer (a : CellAnswer) (d : Station) : Station := d.modRx (fun r => { r with answer := a })

/-- A joining ANNOUNCE is answered by the own ANNOUNCE while the station is LIVE (R139); with the answer stands the outcome
of an entry that made room for it, still to be given (R122). -/
def Engine.replyToJoin (e : Engine) : Engine × List (TaskId × Deferred) :=
  match e.ctl.state, (e.peers.get e.ctl.stationNo).position with
  | .live, some own => e.announceOffer own false
  | _, _ => (e, [])

/-- A joining ANNOUNCE is answered, and the gates of its source are orphaned (R139, R146). The reply is queued before a
task acts (log 10, DEDUCED); the outcome of an entry that made room and the gates' notices then reach the tasks together,
so that their blocks come in ascending task number (R152). -/
def Station.takeJoin (attention : Stamp) (source : StationNo) (d : Station) : Station :=
  (d.modEng (fun e => e.replyToJoin.1)).orphanWith d.eng.replyToJoin.2 attention source

/-- An ANNOUNCE is delivered (R138, R139, R146). -/
def Station.takeAnnounce (source : StationNo) (position : BitVec 11) (joining : Bool) (attention : Stamp) (d : Station) :
    Station :=
  let p := d.eng.peers.get source
  let d := d.modEng (fun e => { e with peers := e.peers.set source (p.announced position attention) }.latchPeerChanged
    (p.announceChanges position))
  if joining then d.takeJoin attention source else d

/-- A HALT is delivered (R141, R146). -/
def Station.takeHalt (source : StationNo) (r : HaltReason) (attention : Stamp) (d : Station) : Station :=
  let p := d.eng.peers.get source
  (d.modEng (fun e => { e with peers := e.peers.set source (p.halts r) }.latchPeerChanged (p.haltChanges r))).orphan
    attention source

/-! ## The listen table (R129, R130) -/

/-- Where an UPTO entry's range starts: one above the previous entry's bound, 0 for entry 0 (R129). -/
def rangeStart (listen : Per8 ListenEntry) (i : Fin 8) : Nat :=
  if i = 0 then 0 else (listen.get (i - 1)).bound.toNat + 1

/-- The entry's source test (R129). -/
def ListenEntry.sourceFits (start : Nat) (source : StationNo) (l : ListenEntry) : Bool :=
  match l.mode with
  | .off => false
  | .one => source == l.bound
  | .upto => decide (start ≤ source.toNat) && decide (source.toNat ≤ l.bound.toNat)

/-- The entry's class test (R129). -/
def ListenClass.fits (c : ListenClass) (k : MarkerKind) : Bool :=
  match c, k with
  | .edge, .edge => true
  | .gate, .gateOpen | .gate, .gateClose => true
  | .either, .edge | .either, .gateOpen | .either, .gateClose => true
  | _, _ => false

/-- The entry's tag test (R129). -/
def ListenEntry.tagFits (tag : Tag) (l : ListenEntry) : Bool := (tag ^^^ l.tagValue) &&& l.tagMask == 0

/-- An entry matches a marker (R129). -/
def listenMatches (listen : Per8 ListenEntry) (k : MarkerKind) (source : StationNo) (tag : Tag) (i : Fin 8) : Bool :=
  (listen.get i).sourceFits (rangeStart listen i) source && (listen.get i).cls.fits k && (listen.get i).tagFits tag

/-- The lowest-numbered matching entry decides (R129). -/
def decidingEntry (listen : Per8 ListenEntry) (k : MarkerKind) (source : StationNo) (tag : Tag) : Option ListenEntry :=
  (taskIds.find? (listenMatches listen k source tag)).map listen.get

/-- The kind fields of a task fit to take an EDGE marker: INTERVAL with REMOTE start, its run in progress (R130). -/
def TaskRec.fitFields (k : TaskRec) : Option IntervalFields :=
  match k.runContinues, k.defn with
  | true, some d => match d.fields with
    | .interval f => if f.source = .remoteStart then some f else none
    | _ => none
  | _, _ => none

/-- The lowest-numbered free slot (R131). -/
def Engine.freeSlotNo (e : Engine) : Option SlotId := taskIds.find? (fun i => (e.slots.get i).isNone)

/-- How many slots are held (R131). -/
def Engine.heldSlots (e : Engine) : Nat := (taskIds.filter (fun i => (e.slots.get i).isSome)).length

/-- A slot is filled, and its task judges the start if it takes entries (R75, R131, R132). -/
def Engine.fillSlot (fr : Front) (i : SlotId) (s : Slot) (e : Engine) : Engine :=
  { e with slots := e.slots.set i (some s) }.judgeFill fr i

/-- A refusal given (R130, R136). -/
def Station.giveRefusal (d : Station) : Station :=
  (d.modEng (fun e => (e.count (fun c => { c with refusalsGiven := bumpBy 1 c.refusalsGiven })).latchMarkerLoss)).answer
    .refused

/-- An unclaimed EDGE marker (R130). -/
def Station.countUnclaimed (d : Station) : Station :=
  d.modEng (Engine.count (fun c => { c with unclaimed := bumpBy 1 c.unclaimed }))

/-- TAKE of an EDGE marker (R130, R131, R132). -/
def Station.takeEdge (task : TaskId) (source : StationNo) (tag : Tag) (delay : Nat) (attention : Stamp) (d : Station) :
    Station :=
  match (d.eng.tasks.get task).fitFields with
  | none => d.countUnclaimed
  | some f =>
    match d.eng.freeSlotNo with
    | none => d.giveRefusal
    | some i =>
      let t := d.eng.formedTime attention delay source
      let s : Slot := { source := source, tag := tag, attention := fresh attention, start := startAt f t.1,
                        unplaced := t.2, task := task, arrival := d.eng.heldSlots + 1 }
      (d.answer .taken).modEng (Engine.fillSlot d.front i s)

/-- TAKE of a GATE marker (R130, R144). -/
def Station.takeGate (kind : MarkerKind) (source : StationNo) (tag : Tag) (delay : Nat) (attention : Stamp) (d : Station) :
    Station :=
  let t := d.eng.formedTime attention delay source
  (d.answer .taken).applyGate kind tag t.1 source t.2

/-- An EDGE or GATE marker at the listen table (R129, R130). -/
def Station.listenTo (kind : MarkerKind) (source : StationNo) (tag : Tag) (delay : Nat) (attention : Stamp) (d : Station) :
    Station :=
  match decidingEntry d.listen kind source tag with
  | none => d
  | some l =>
    match l.action, kind with
    | .pass, _ => d
    | .refuse, _ => d.giveRefusal
    | .take, .edge => d.takeEdge l.task source tag delay attention
    | .take, _ => d.takeGate kind source tag delay attention

/-! ## Identity clash (R114, R127, R162) -/

/-- Own-numbered words are clashes only in UNSET, JOINING and LIVE, and not while muted (R114). -/
def Engine.takesClash (e : Engine) : Bool := !e.tx.mute && !(e.ctl.state == .halted)

/-- The mute ends the debt of a waiting reset (R162, R164). -/
def Engine.resetByMute (e : Engine) : Bool := e.ctl.departure == .reset && e.ctl.haltOwed.isSome

/-- An identity clash (R114): the transmitter mutes itself, the fault is handed up to the station as the clash found it,
held or halting it (R166, R167), and only then does the debt of a HALT that was not replaced end (R162; log 10, DEDUCED).
A reset that the mute sets off takes effect at once, also while its own reply is still being clocked out (R164, R178;
log 51, DEDUCED), and makes the fault moot (log 24, DEDUCED). -/
def Station.identityClash (pins : ReleasePins) (d : Station) : Station :=
  if !d.eng.takesClash then d
  else if d.eng.resetByMute then d.resetNow pins
  else d.modEng (fun e =>
    ((e.muteNow d.front).stationFault .identityClash d.now (e.ctl.stationNo.setWidth 8)).muteDebt)

/-! ## The word judged (R108, R116, R119) -/

/-- A word of unknown kind is counted in JOINING and LIVE (R119). -/
def Station.countUnknown (d : Station) : Station :=
  if d.eng.ctl.onLine then d.modEng (Engine.count (fun c => { c with unknownKind := bumpBy 1 c.unknownKind })) else d

/-- A damaged frame is counted (R108). -/
def Station.countDamaged (d : Station) : Station :=
  d.modEng (Engine.count (fun c => { c with damaged := bumpBy 1 c.damaged }))

/-- ANNOUNCE and HALT are answered TAKEN in JOINING and LIVE (R116). -/
def Station.answerTaken (d : Station) : Station := if d.eng.ctl.onLine then d.answer .taken else d

/-- A word from another station is delivered by kind (R116). -/
def Station.deliver (kind : MarkerKind) (w : BitVec 40) (attention : Stamp) (d : Station) : Station :=
  match kind with
  | .announce => d.answerTaken.takeAnnounce (wordSource w) (wordPosition w) (wordJoining w) attention
  | .halt => d.answerTaken.takeHalt (wordSource w) (wordReason w) attention
  | k => if d.eng.ctl.onLine then d.listenTo k (wordSource w) (wordTag w) (wordDelay w) attention else d

/-- A word with a correct check nibble that bears the station's own number (R108, R114). -/
def Station.judgeOwn (pins : ReleasePins) (w : BitVec 40) (d : Station) : Station :=
  if d.rx.ownPart = .sending then d
  else (if (markerKindOf (wordKind w)).isNone then d.countUnknown else d).identityClash pins

/-- A whole word is judged (R108). -/
def Station.judgeWord (pins : ReleasePins) (w : BitVec 40) (attention : Stamp) (d : Station) : Station :=
  if !checkRight w then d.countDamaged
  else if wordSource w = d.eng.ctl.stationNo then d.judgeOwn pins w
  else match markerKindOf (wordKind w) with
    | none => d.countUnknown
    | some k => d.deliver k w attention

/-- MARKER_RECEIVED: bit cell 39 has been sampled, and the word is judged once (R108). -/
def Station.markerReceived (pins : ReleasePins) (d : Station) : Station :=
  match d.rx.state, d.rx.judged, d.rx.attention with
  | .frame, false, some attention =>
    if d.rx.bits.length = 40 then
      (d.modRx (fun r => { r with judged := true })).judgeWord pins (wordOfBits d.rx.bits) attention
    else d
  | _, _, _ => d

/-! ## The completion of an own frame (R113, R125) -/

/-- The outcome the response cells give (R113). -/
def Attempt.outcome (a : Attempt) : Outcome5 :=
  if a.refusedLow.getD false then .refused else if a.takenLow.getD false then .taken else .unheard

/-- A completed frame is counted (R125, R134, R136). -/
def Engine.countCompleted (o : Outcome5) (e : Engine) : Engine :=
  let e := e.count (fun c =>
    { c with
      sent := bumpBy 1 c.sent, ownRefused := if o = .refused then bumpBy 1 c.ownRefused else c.ownRefused,
      ownUnheard := if o = .unheard then bumpBy 1 c.ownUnheard else c.ownUnheard })
  if o = .refused then e.latchMarkerLoss else e

/-- The own ANNOUNCE frame has completed: the own entry's last ANNOUNCE, and a JOINING station is LIVE (R140, R161). -/
def Engine.announceSent (attention : Stamp) (e : Engine) : Engine :=
  let own := { e.peers.get e.ctl.stationNo with lastAnnounce := some attention }
  let e := { e with peers := e.peers.set e.ctl.stationNo own }
  e.modCtl (fun c => { c with state := if c.state = .joining then .live else c.state })

/-- The own HALT frame has completed (R125, R140, R162, R163): the rest of the queue is dropped and the debt ends. -/
def Engine.haltSentNow (fr : Front) (r : HaltReason) (e : Engine) : Engine :=
  let e := (({ e with tx := { e.tx with haltSent := true } }.dropAll fr).ownHalted r).modCtl
    (fun c => { c with haltOwed := none })
  if e.ctl.departure = .retire then e.retired else e

/-- The entry in transmission leaves the queue and the attempt is over (R125). -/
def Engine.removeSent (e : Engine) : Engine :=
  { e with tx := { e.tx with queue := e.tx.queue.filter (fun m => !m.inTransmission), attempt := none } }

/-- What the completion of an entry's frame does, by kind (R125, R149). A waiting reset takes effect at its HALT frame's
completion, also while its own reply is still being clocked out (R164, R178; log 51, DEDUCED). -/
def Station.handCompletion (pins : ReleasePins) (m : OutEntry) (a : Attempt) (d : Station) : Station :=
  match m.kind with
  | .edge => d.modEng (Engine.giveOutcomes d.front (m.outcome a.outcome (wordPayload a.word)))
  | .gateOpen | .gateClose =>
    match m.origin with
    | some o => d.applyGate m.kind m.tag o.stamp d.eng.ctl.stationNo false
    | none => d
  | .announce => d.modEng (Engine.announceSent a.attention)
  | .halt =>
    let resets := d.eng.ctl.departure == .reset
    let d := d.modEng (Engine.haltSentNow d.front (wordReason a.word))
    if resets then d.resetNow pins else d

/-- The attempt in progress is COMPLETED (R113, R125). -/
def Station.completeAttempt (pins : ReleasePins) (a : Attempt) (d : Station) : Station :=
  match d.eng.tx.queue.find? OutEntry.inTransmission with
  | some m => (d.modEng (fun e => e.removeSent.countCompleted a.outcome)).handCompletion pins m a
  | none => d.modEng Engine.removeSent

/-- The frame's end as the receiver sees it: IDLE, quiet from now; an attempt not wholly sent is cut (R107, log 16). -/
def Station.receiverFrameEnd (d : Station) : Station :=
  match d.rx.state, d.rx.attention with
  | .frame, some t => if d.passed t (d.units 131) then (d.modRx (Receiver.toIdle d.now d.lu)).cutAttempt else d
  | _, _ => d

/-- FRAME_END at 131 LU: the receiver leaves FRAME, and the sender's attempt completes in whatever state its receiver
is (R107, R113). -/
def Station.frameEnd (pins : ReleasePins) (d : Station) : Station :=
  let d := d.receiverFrameEnd
  match d.eng.tx.attempt with
  | some a => if a.allSampled && d.passed a.attention (d.units 131) then d.completeAttempt pins a else d
  | none => d

/-! ## The start of an attempt (R111, R123, R124) -/

/-- 2^24 TU: the age at which a marker is stale (R123). -/
def staleAge : Nat := 2 ^ 24

/-- The entry is stale (R123). -/
def OutEntry.stale (now : Stamp) (m : OutEntry) : Bool :=
  m.ordinary && m.origin.any (fun o => o.longPast || decide (staleAge ≤ since now o.stamp))

/-- The station state lets the transmitter attempt the head entry (R116, R123). -/
def Control.mayAttempt (c : Control) (m : OutEntry) : Bool :=
  match c.state with
  | .unset => false
  | .joining | .live => true
  | .halted => m.kind == .halt

/-- The conditions of R111 hold. -/
def Station.mayBegin (d : Station) : Bool :=
  d.eng.tx.queue.head?.any d.eng.ctl.mayAttempt && !d.eng.tx.mute && d.eng.tx.attempt.isNone && d.rx.state == .idle &&
  d.rx.lowSince.isNone && d.rx.quietSince.any (fun q => q.reachedAfter d.now (d.units 4))

/-- Stale entries leave the head of the queue (R123). -/
def Engine.dropStale (fr : Front) (e : Engine) : Engine :=
  let gone := e.tx.queue.takeWhile (OutEntry.stale fr.now)
  let e := e.modOutgoing (List.dropWhile (OutEntry.stale fr.now))
  if gone.length = 0 then e
  else ((e.count (fun c => { c with stale := bumpBy gone.length c.stale })).latchMarkerLoss).giveOutcomes fr
    (gone.flatMap (fun m => m.outcome .stale 0))

/-- The delay from an origin to the own attention stamp; 0 when the attention is earlier (R124). -/
def delayTo (attention : Stamp) (origin : Option Kept) : BitVec 24 :=
  match origin with
  | some o => if later o.stamp attention then 0 else (attention - o.stamp).setWidth 24
  | none => 0

/-- The word an entry is sent as (R118, R124). -/
def OutEntry.word (source : StationNo) (attention : Stamp) (m : OutEntry) : BitVec 40 :=
  markerWord m.kind source m.tag (if m.ordinary then delayTo attention m.origin else m.payload)

/-- The transmitter begins attention with the head entry (R103, R111). -/
def Station.begin (attention : Stamp) (m : OutEntry) (rest : List OutEntry) (d : Station) : Station :=
  let a : Attempt :=
    { began := d.now, attention := attention, word := m.word d.eng.ctl.stationNo attention, allSampled := false,
      takenLow := none, refusedLow := none }
  (d.modEng (fun e =>
    { e with tx := { e.tx with queue := { m with inTransmission := true } :: rest, attempt := some a } })).modRx
    (fun r => { r with lowSince := some attention, quietSince := none })

/-- ATTEMPT_START (R123): a peer's falling edge may have reached the receiver `peerLead` TU before (R103, log 8). -/
def Station.attemptStart (peerLead : Nat) (d : Station) : Station :=
  if !d.mayBegin then d
  else
    let d := d.modEng (Engine.dropStale d.front)
    match d.eng.tx.queue with
    | [] => d
    | m :: rest =>
      if d.eng.ctl.mayAttempt m then d.begin (d.now - BitVec.ofNat 48 peerLead) m rest else d

/-! ## The commands -/

/-- MARKER_RECEIVED. -/
def execMarkerReceived (dt : Nat) (pins : ReleasePins) (s : State) : Host.Outcome State Fault Refusal :=
  s.running dt (Station.markerReceived pins)

/-- FRAME_END. -/
def execFrameEnd (dt : Nat) (pins : ReleasePins) (s : State) : Host.Outcome State Fault Refusal :=
  s.running dt (Station.frameEnd pins)

/-- ATTEMPT_START. -/
def execAttemptStart (dt : Nat) (peerLead : Nat) (s : State) : Host.Outcome State Fault Refusal :=
  s.running dt (Station.attemptStart peerLead)

end Sys2Proof.Machine
end

