-- ==== Sys2Proof/Machine/TaskEvents.lean ====
section
/-!
DEFINITION. Moments of the task engine and the arithmetic unit (R52, R54, R55, R69, R77, R94).

Each moment is one command for the whole engine: every task whose moment has come acts, in ascending number, and
the jobs they hand over enter the list before the arbiter chooses (log 9, R93).
-/

namespace Sys2Proof.Machine

/-- Every task acts at a moment, in ascending number, and the arbiter then chooses (R93, R152). -/
def Engine.atMoment (now : Stamp) (f : TaskId → Engine → Engine) (e : Engine) : Engine :=
  (taskIds.foldl (fun e t => f t e) e).arbitrate now

/-- TIMED_GATE_EVALUATION (R52). -/
def execTimedGateEvaluation (dt : Nat) (s : State) : Host.Outcome State Fault Refusal :=
  s.running dt (fun d => d.modEng (Engine.atMoment d.now (Engine.timedMoment d.front)))

/-- LINE_GATE_EVALUATION (R54). -/
def execLineGateEvaluation (dt : Nat) (s : State) : Host.Outcome State Fault Refusal :=
  s.running dt (fun d => d.modEng (Engine.atMoment d.now (Engine.lineMoment d.front)))

/-- LINE_GATE_CUT (R55). -/
def execLineGateCut (dt : Nat) (s : State) : Host.Outcome State Fault Refusal :=
  s.running dt (fun d => d.modEng (Engine.atMoment d.now (Engine.cutMoment d.front)))

/-- PHASE_NO_SIGNAL_LIMIT (R69). -/
def execPhaseNoSignalLimit (dt : Nat) (s : State) : Host.Outcome State Fault Refusal :=
  s.running dt (fun d => d.modEng (Engine.atMoment d.now (Engine.phaseLimitMoment d.front)))

/-- WINDOW_HORIZON (R77). -/
def execWindowHorizon (dt : Nat) (s : State) : Host.Outcome State Fault Refusal :=
  s.running dt (fun d => d.modEng (Engine.atMoment d.now (Engine.windowMoment d.front)))

/-- JOB_FINISH (R94): the job in progress has lasted its time. -/
def execJobFinish (dt : Nat) (s : State) : Host.Outcome State Fault Refusal :=
  s.running dt (fun d => if d.eng.jobDue d.now then d.modEng (Engine.finishJob d.front) else d)

end Sys2Proof.Machine
end

