-- ==== Sys2Proof/Machine/TimebaseEvents.lean ====
section
/-!
DEFINITION. Events of the timebase (R3, R4, R6) and the marking of kept times as long past (R100).

An event whose condition or moment does not hold has no effect but the passing of its time (log 3).
-/

namespace Sys2Proof.Machine

/-! ## The reference monitor -/

/-- The degraded-span list holds at most four spans (R6). -/
def maxSpans : Nat := 4

/-- A new degraded span with its start, no end (R6): with four spans the oldest folds into the floor. -/
def Timebase.openSpan (start : Stamp) (tb : Timebase) : Timebase :=
  let fresh1 : Span := ⟨fresh start, none⟩
  match tb.spans with
  | oldest :: rest =>
    if maxSpans ≤ tb.spans.length then { tb with spans := rest ++ [fresh1], floor := oldest.stop }
    else { tb with spans := tb.spans ++ [fresh1] }
  | [] => { tb with spans := [fresh1] }

/-- The newest span of a list receives its end (R6). -/
def closeNewest (stop : Stamp) : List Span → List Span
  | [] => []
  | [sp] => [{ sp with stop := some stop }]
  | sp :: rest => sp :: closeNewest stop rest

/-- The reference is lost (R3): the monitor's own part. -/
def Timebase.loseReference (lastEdge : Stamp) (tb : Timebase) : Timebase :=
  { tb.openSpan lastEdge with monitor := .absent, degraded := true, qualifyFrom := none }

/-- The timebase rewritten. -/
def Station.modTb (f : Timebase → Timebase) (d : Station) : Station := { d with front := { d.front with tb := f d.front.tb } }

/-- REFERENCE_LOST (R3): declared once, in PRESENT; the fault's stamp is the declaration's, its detail 0. -/
def Station.referenceLost (lastEdge : Stamp) (d : Station) : Station :=
  if d.front.tb.monitor = .present then
    (d.modTb (Timebase.loseReference lastEdge)).modEng (fun e => (e.stationFault .referenceLost d.now 0).latchTimebase)
  else d

/-- The first reference edge in ABSENT (R4). -/
def Timebase.edgeReturns (tb : Timebase) : Timebase :=
  if tb.monitor = .absent then { tb with monitor := .returning, qualifyFrom := some tb.now } else tb

/-- 2 µs of silence in RETURNING (R4). -/
def Timebase.silence (tb : Timebase) : Timebase :=
  if tb.monitor = .returning then { tb with monitor := .absent, qualifyFrom := none } else tb

/-- The qualification interval: 1 ms (R4). -/
def qualification : Nat := 8000000

/-- The reference has qualified: RETURNING for 1 ms (R4). -/
def Timebase.qualifies (tb : Timebase) : Bool :=
  tb.monitor == .returning && tb.qualifyFrom.any (fun t => reached tb.now (plus t qualification))

/-- The monitor enters PRESENT (R4, R6). -/
def Timebase.qualified (tb : Timebase) : Timebase :=
  { tb with monitor := .present, degraded := false, spans := closeNewest tb.now tb.spans, qualifyFrom := none }

/-- REFERENCE_QUALIFIED (R4). -/
def Station.referenceQualified (d : Station) : Station :=
  if d.front.tb.qualifies then (d.modTb Timebase.qualified).modEng Engine.latchTimebase else d

/-- The end of the oldest span lies more than 2^46 TU behind: the span is removed (R6). -/
def Timebase.ageSpan (tb : Timebase) : Timebase :=
  match tb.spans with
  | ⟨_, some e⟩ :: rest => if reached tb.now (plus e oldAge) then { tb with spans := rest } else tb
  | _ => tb

/-- The floor lies more than 2^46 TU behind: it becomes absent (R6). -/
def Timebase.ageFloor (tb : Timebase) : Timebase :=
  match tb.floor with
  | some t => if reached tb.now (plus t oldAge) then { tb with floor := none } else tb
  | none => tb

/-! ## Long-past marks (R100) -/

/-- A span's start is marked. -/
def Span.mark (now : Stamp) (sp : Span) : Span := { sp with start := sp.start.mark now }

/-- A gate's times are marked. -/
def GateSpan.mark (now : Stamp) (g : GateSpan) : GateSpan := { g with opened := g.opened.mark now, closed := g.closed.mark now }

/-- A start's times are marked. -/
def Start.mark (now : Stamp) (s : Start) : Start :=
  { time := s.time.mark now, searchFrom := s.searchFrom.mark now, windowEnd := s.windowEnd.mark now }

/-- A pending signal entry is marked. -/
def PendingSignal.mark (now : Stamp) (x : PendingSignal) : PendingSignal := { x with longPast := (x.kept.mark now).longPast }

/-- The times in a kind state are marked. -/
def RunState.mark (now : Stamp) : RunState → RunState
  | .none => .none
  | .frequency r =>
    .frequency { r with
      followed := r.followed.map (fun w => { w with opened := w.opened.mark now }),
      ended := r.ended.map (GateSpan.mark now), missed := r.missed.map (GateSpan.mark now),
      later := r.later.map (fun m => { m with opened := m.opened.mark now }) }
  | .phase r => .phase { r with newestRef := r.newestRef.map (Kept.mark now), pending := r.pending.map (PendingSignal.mark now) }
  | .interval r => .interval { r with pending := r.pending.map (Start.mark now) }
  | .timestamp gap => .timestamp gap
  | .publish r => .publish { r with deferred := r.deferred.map (fun x => { x with edge := x.edge.mark now }) }

/-- The times of a waiting result are marked. -/
def Partial.mark (now : Stamp) : Partial → Partial
  | .frequency g edges span e1 e2 shortened =>
    .frequency (g.mark now) edges span (e1.mark now) (e2.mark now) shortened
  | .phase signal period r1 r2 => .phase (signal.mark now) period (r1.mark now) (r2.mark now)

/-- The times in a task record are marked. -/
def TaskRec.mark (now : Stamp) (k : TaskRec) : TaskRec :=
  { k with armTime := k.armTime.map (Kept.mark now), run := k.run.mark now, waitingResult := k.waitingResult.map (Partial.mark now) }

/-- A held slot's times are marked. -/
def Slot.mark (now : Stamp) (s : Slot) : Slot := { s with attention := s.attention.mark now, start := s.start.mark now }

/-- An OPEN gate's open time is marked (R145). -/
def Gate.mark (now : Stamp) (g : Gate) : Gate :=
  match g.state with
  | .opened => { g with openTime := g.openTime.map (Kept.mark now) }
  | .closed => g

/-- The times of an outgoing entry are marked. -/
def OutEntry.mark (now : Stamp) (m : OutEntry) : OutEntry :=
  { m with origin := m.origin.map (Kept.mark now), offered := m.offered.map (fun o => { o with time := o.time.mark now }) }

/-- The engine's kept times are marked, with the moments of the offers (log 53). -/
def Engine.mark (now : Stamp) (e : Engine) : Engine :=
  { e with
    tasks := e.tasks.map (TaskRec.mark now), slots := e.slots.map (fun o => o.map (Slot.mark now)),
    queue := e.queue.map (fun b => { b with offered := b.offered.map (Kept.mark now) }),
    tx := { e.tx with queue := e.tx.queue.map (OutEntry.mark now) } }

/-- A channel's kept times are marked; the ring's record has a row of its own (RECORD_LONG_PAST). -/
def Channel.mark (now : Stamp) (c : Channel) : Channel :=
  { c with deadUntil := c.deadUntil.map (Kept.mark now), configuredAt := c.configuredAt.map (Kept.mark now) }

/-- The front's kept times are marked. -/
def Front.mark (now : Stamp) (f : Front) : Front :=
  { tb := { f.tb with spans := f.tb.spans.map (Span.mark now) },
    chans := f.chans.map (Channel.mark now) }

/-- KEPT_TIME_LONG_PAST (R100): every kept time whose moment the current time has reached is marked. -/
def Station.markLongPast (d : Station) : Station :=
  { d with
    front := d.front.mark d.now, eng := d.eng.mark d.now, gates := d.gates.map (Gate.mark d.now),
    rx := { d.rx with quietSince := d.rx.quietSince.map (Kept.mark d.now) } }

/-! ## The commands -/

/-- REFERENCE_LOST. -/
def execReferenceLost (dt : Nat) (lastEdge : Stamp) (s : State) : Host.Outcome State Fault Refusal :=
  s.running dt (Station.referenceLost lastEdge)

/-- REFERENCE_EDGE_RETURNS. -/
def execReferenceEdgeReturns (dt : Nat) (s : State) : Host.Outcome State Fault Refusal :=
  s.running dt (Station.modTb Timebase.edgeReturns)

/-- RETURNING_SILENCE. -/
def execReturningSilence (dt : Nat) (s : State) : Host.Outcome State Fault Refusal :=
  s.running dt (Station.modTb Timebase.silence)

/-- REFERENCE_QUALIFIED. -/
def execReferenceQualified (dt : Nat) (s : State) : Host.Outcome State Fault Refusal := s.running dt Station.referenceQualified

/-- DEGRADED_SPAN_AGED. -/
def execDegradedSpanAged (dt : Nat) (s : State) : Host.Outcome State Fault Refusal :=
  s.running dt (Station.modTb Timebase.ageSpan)

/-- FLOOR_AGED. -/
def execFloorAged (dt : Nat) (s : State) : Host.Outcome State Fault Refusal := s.running dt (Station.modTb Timebase.ageFloor)

/-- KEPT_TIME_LONG_PAST. -/
def execKeptTimeLongPast (dt : Nat) (s : State) : Host.Outcome State Fault Refusal := s.running dt Station.markLongPast

end Sys2Proof.Machine
end

