-- ==== Sys2Proof/Machine/Dispatch.lean ====
section
/-! DEFINITION. One arm for each command: a direct call of its meaning. -/

namespace Sys2Proof.Machine

def exec (i : Instr) (s : State) : Host.Outcome State Fault Refusal :=
  match i with
  | .powerOnReset dt => Sys2Proof.Machine.execPowerOnReset dt s
  | .resetRelease dt pins => Sys2Proof.Machine.execResetRelease dt pins s
  | .transactionStart dt => Sys2Proof.Machine.execTransactionStart dt s
  | .setup dt position => Sys2Proof.Machine.execSetup dt position s
  | .configureChannel dt channel options glitch prescale => Sys2Proof.Machine.execConfigureChannel dt channel options glitch prescale s
  | .defineTask dt task kind blockSize runLength continuation failLimit escalation area => Sys2Proof.Machine.execDefineTask dt task kind blockSize runLength continuation failLimit escalation area s
  | .armTask dt task => Sys2Proof.Machine.execArmTask dt task s
  | .disarmTask dt task => Sys2Proof.Machine.execDisarmTask dt task s
  | .tearDownTask dt task => Sys2Proof.Machine.execTearDownTask dt task s
  | .defineListenEntry dt entry mode boundTag maskClass action task => Sys2Proof.Machine.execDefineListenEntry dt entry mode boundTag maskClass action task s
  | .publishGate dt gate action => Sys2Proof.Machine.execPublishGate dt gate action s
  | .readResult dt => Sys2Proof.Machine.execReadResult dt s
  | .readStatus dt options => Sys2Proof.Machine.execReadStatus dt options s
  | .readTime dt => Sys2Proof.Machine.execReadTime dt s
  | .setEvents dt enables => Sys2Proof.Machine.execSetEvents dt enables s
  | .ackEvents dt acks => Sys2Proof.Machine.execAckEvents dt acks s
  | .clearFault dt => Sys2Proof.Machine.execClearFault dt s
  | .retire dt => Sys2Proof.Machine.execRetire dt s
  | .reset dt => Sys2Proof.Machine.execReset dt s
  | .unknownRequest dt kind => Sys2Proof.Machine.execUnknownRequest dt kind s
  | .replyReady dt => Sys2Proof.Machine.execReplyReady dt s
  | .replyCompleted dt pins => Sys2Proof.Machine.execReplyCompleted dt pins s
  | .csRiseEarly dt pins => Sys2Proof.Machine.execCsRiseEarly dt pins s
  | .referenceLost dt lastEdge => Sys2Proof.Machine.execReferenceLost dt lastEdge s
  | .referenceEdgeReturns dt => Sys2Proof.Machine.execReferenceEdgeReturns dt s
  | .returningSilence dt => Sys2Proof.Machine.execReturningSilence dt s
  | .referenceQualified dt => Sys2Proof.Machine.execReferenceQualified dt s
  | .degradedSpanAged dt => Sys2Proof.Machine.execDegradedSpanAged dt s
  | .floorAged dt => Sys2Proof.Machine.execFloorAged dt s
  | .pinLevelChange dt ch persists => Sys2Proof.Machine.execPinLevelChange dt ch persists s
  | .edgeQualified dt ch => Sys2Proof.Machine.execEdgeQualified dt ch s
  | .ringAging dt ch => Sys2Proof.Machine.execRingAging dt ch s
  | .recordLongPast dt ch => Sys2Proof.Machine.execRecordLongPast dt ch s
  | .keptTimeLongPast dt => Sys2Proof.Machine.execKeptTimeLongPast dt s
  | .timedGateEvaluation dt => Sys2Proof.Machine.execTimedGateEvaluation dt s
  | .lineGateEvaluation dt => Sys2Proof.Machine.execLineGateEvaluation dt s
  | .lineGateCut dt => Sys2Proof.Machine.execLineGateCut dt s
  | .phaseNoSignalLimit dt => Sys2Proof.Machine.execPhaseNoSignalLimit dt s
  | .windowHorizon dt => Sys2Proof.Machine.execWindowHorizon dt s
  | .jobFinish dt => Sys2Proof.Machine.execJobFinish dt s
  | .lineFall dt => Sys2Proof.Machine.execLineFall dt s
  | .lineRise dt => Sys2Proof.Machine.execLineRise dt s
  | .stuckEntry dt => Sys2Proof.Machine.execStuckEntry dt s
  | .stuckEnd dt => Sys2Proof.Machine.execStuckEnd dt s
  | .lineStuck dt => Sys2Proof.Machine.execLineStuck dt s
  | .frameTruncated dt => Sys2Proof.Machine.execFrameTruncated dt s
  | .markerReceived dt pins => Sys2Proof.Machine.execMarkerReceived dt pins s
  | .frameEnd dt pins => Sys2Proof.Machine.execFrameEnd dt pins s
  | .attemptStart dt peerLead => Sys2Proof.Machine.execAttemptStart dt peerLead s
  | .arbitrationLoss dt => Sys2Proof.Machine.execArbitrationLoss dt s
  | .resetDeadline dt pins => Sys2Proof.Machine.execResetDeadline dt pins s
  | .cellEdge dt => Sys2Proof.Machine.execCellEdge dt s
  | .cellSample dt othersLow => Sys2Proof.Machine.execCellSample dt othersLow s
  | .transactionEnd dt => Sys2Proof.Machine.execTransactionEnd dt s
  | .stuckLineEdge dt rising => Sys2Proof.Machine.execStuckLineEdge dt rising s

end Sys2Proof.Machine
end

