-- ==== Sys2Proof/Machine/Step.lean ====
section
/-!
DEFINITION. One step: the command at the front of the queue, or one coarse tick when none waits.
-/

namespace Sys2Proof.Machine

/-- Nothing waits: one coarse tick of 32 TU passes (R1, log 2). -/
def State.idle (s : State) : State := { s with dev := s.dev.elapse coarseTick }

/-- One step: the front command acts, with the rest of the queue waiting. -/
def step (s : State) : Host.Outcome State Fault Refusal :=
  match s.pending with
  | [] => .next s.idle
  | c :: rest => exec c { s with pending := rest }

/-- The request whose frame a word is, put at the front of the queue (log 27). -/
def State.withFetchWord (s : State) (nbits w : Nat) : State :=
  match decodeTableWord nbits w with
  | some c => { s with pending := c :: s.pending }
  | none => s

end Sys2Proof.Machine
end

