-- ==== Sys2Proof/Safety.lean ====
section
/-!
DEFINITION. What claims are stated in: the laws that every step keeps, what it means that a station takes a request,
and when a command comes in time.
-/

namespace Sys2Proof.Safety

open Sys2Proof.Machine

/-! ## Laws of the state -/

/-- The entries carry the indices from `i` up, and `next` is one above the last (R18). -/
def runsTo (next : Nat) : Nat → List Entry → Bool
  | i, [] => i == next
  | i, e :: es => e.index == i && runsTo next (i + 1) es

/-- The ring's law (R18, R21): at most 64 entries, consecutive indices up to the next index, the record present
exactly while the flag is set, and one below the oldest retained index. -/
def RingLaw (r : Ring) : Prop :=
  r.entries.length ≤ 64 ∧ runsTo r.nextIndex r.oldest r.entries = true ∧ r.everRemoved = r.lastRemoved.isSome ∧
  ∀ x, r.lastRemoved = some x → x.index + 1 = r.oldest

/-- Every span but the newest has an end, and the newest lacks one exactly while DEGRADED is set (R6). -/
def spansFit (degraded : Bool) : List Span → Bool
  | [] => !degraded
  | [sp] => sp.stop.isNone == degraded
  | sp :: rest => sp.stop.isSome && spansFit degraded rest

/-- The timebase's law (section 1.2, R4, R6): at most four spans that fit DEGRADED, DEGRADED clear exactly in PRESENT,
a qualification interval exactly in RETURNING. -/
def TimebaseLaw (tb : Timebase) : Prop :=
  tb.spans.length ≤ 4 ∧ spansFit tb.degraded tb.spans = true ∧ (tb.degraded = false ↔ tb.monitor = .present) ∧
  (tb.qualifyFrom.isSome = true ↔ tb.monitor = .returning)

/-- The law of a channel (R14, R18, R22): its ring's law, sequence numbers that go with the indices, and a cleared
ring with no pending change while it is disabled. -/
def ChannelLaw (c : Channel) : Prop :=
  RingLaw c.ring ∧ (∀ e ∈ c.ring.entries, e.seqNo = BitVec.ofNat 32 e.index) ∧
  c.seqNo + 1 = BitVec.ofNat 32 c.ring.nextIndex ∧
  (c.enabled = false → c.ring = Ring.cleared ∧ c.pendingChange = none)

/-- The laws of the timebase and of the four channels. -/
def FrontLaw (f : Front) : Prop := TimebaseLaw f.tb ∧ ∀ ch, ChannelLaw (f.chan ch)

/-- The law of a gate record (R143, R145): an OPEN record has an open time and an opener and no close; a close time is
not earlier than the open time, unless that is long past. -/
def GateLaw (g : Gate) : Prop :=
  (g.state = .opened → g.openTime.isSome = true ∧ g.opener.isSome = true ∧ g.closeTime = none ∧ g.closer = none) ∧
  ∀ o c, g.openTime = some o → g.closeTime = some c → o.laterThan (fresh c) = false

/-- Every gate record keeps its law. -/
def GatesLaw (d : Station) : Prop := ∀ i, GateLaw (d.gates.get i)

/-- The laws every step keeps. -/
def StationLaw (d : Station) : Prop := FrontLaw d.front ∧ GatesLaw d

/-! ## What lasts until a reset -/

/-- What one station keeps of another: its number and line unit (R159), a mute (R127), a completed HALT frame (R121),
the state HALTED (R173) and the bound on the result queue (R152). -/
def Keeps (e e' : Engine) : Prop :=
  e'.ctl.stationNo = e.ctl.stationNo ∧ e'.ctl.longUnit = e.ctl.longUnit ∧ (e.tx.mute = true → e'.tx.mute = true) ∧
  (e.tx.haltSent = true → e'.tx.haltSent = true) ∧ (e.ctl.state = .halted → e'.ctl.state = .halted) ∧
  (e.queue.length ≤ 16 → e'.queue.length ≤ 16)

/-- The station is one that has just been reset: some straps and pin levels, held or released (R159, R165). -/
def JustReset (d : Station) : Prop :=
  ∃ pins inputs csLow held, d = { Station.released pins inputs csLow with held := held }

/-! ## Requests -/

/-- A command finds the station out of reset with a transaction that waits for its request (R174). -/
def awaitsRequest (s : State) : Prop := s.dev.held = false ∧ s.dev.port.takesRequest = true

/-- The station as it is when a command `dt` TU later is taken: only time has passed (R1). -/
def atTime (dt : Nat) (s : State) : Station :=
  { s.dev with front := { s.dev.front with tb := { s.dev.front.tb with now := s.dev.front.tb.now + BitVec.ofNat 48 dt } } }

/-- The outcome of a command: the station it leads to, the same commands waiting. -/
def goesTo (s : State) (d : Station) : Host.Outcome State Fault Refusal := .next { s with dev := d }

/-- The port once a request has been taken and answered (R174). -/
def answered (kind : Byte) (body : List Byte) (status : Status) (replyBody : List Byte) (p : HostPort) : HostPort :=
  { p with phase := .fill, kind := some kind, body := body, reply := some ⟨status, replyBody⟩ }

/-- The station has taken a request and answered it. -/
def replied (kind : Byte) (body : List Byte) (status : Status) (replyBody : List Byte) (d : Station) : Station :=
  { d with port := answered kind body status replyBody d.port }

/-- The station's record of station control replaced. -/
def withCtl (d : Station) (c : Control) : Station := { d with eng := { d.eng with ctl := c } }

/-- One task's record replaced. -/
def withTask (d : Station) (t : TaskId) (k : TaskRec) : Station :=
  { d with eng := { d.eng with tasks := d.eng.tasks.set t k } }

/-- One channel's record replaced. -/
def withChan (d : Station) (ch : Chan) (c : Channel) : Station :=
  { d with front := { d.front with chans := d.front.chans.set ch c } }

/-- The line receiver's record replaced. -/
def withRx (d : Station) (r : Receiver) : Station := { d with rx := r }

/-- The host port's record replaced. -/
def withPort (d : Station) (p : HostPort) : Station := { d with port := p }

/-- No task but the given one has a run in progress (3.2, R41). -/
def onlyRuns (t : TaskId) (d : Station) : Prop := ∀ u, u ≠ t → (d.eng.tasks.get u).runContinues = false

/-- The chip's surroundings ask something of it in this command: the request has a frame (12.3). -/
def isRequest (c : Instr) : Bool := (encodeFrame c).isSome

/-- The commands that act while RESET# is low: the reset itself, its release, the pins' levels and CS# (R165, R178). -/
def actsInReset : Instr → Bool
  | .powerOnReset _ | .resetRelease _ _ | .transactionStart _ | .transactionEnd _ | .pinLevelChange _ _ _ => true
  | _ => false

/-- The divider works and no waiting job takes its place at this moment, or no job waits: the arbiter changes nothing
(R93). -/
def unitSettled (now : Stamp) (e : Engine) : Prop :=
  (∃ j, e.unit.current = some j ∧ ∀ w ∈ e.unit.waiting, j.givesWay now w = false) ∨ e.unit.waiting = []

/-! ## The end of a run, as R40 and R41 describe it -/

/-- The record of a task once its run has released what it held: job, deferred work, cursors, open block (R40). -/
def releasedRecord (e : Engine) (t : TaskId) : TaskRec :=
  { e.tasks.get t with
    job := if (e.tasks.get t).job = .waiting then .none else (e.tasks.get t).job,
    heldBackJob := none, waitingResult := none,
    jobDiscarded := (e.tasks.get t).jobDiscarded || e.unit.current.any (fun j => j.task == t),
    cursor := none, refCursor := none, run := .none, pausedOn := none, openBlock := none }

/-- DONE, or FAULTED for the end causes PEER_LOST, FAILURE_RUN and HALT (R40). -/
def endsAs (cause : EndCause) : TaskState :=
  if cause = .peerLost ∨ cause = .failureRun ∨ cause = .halt then .faulted else .done

/-- The outgoing queue once a task's markers belong to no task (R126). -/
def markersLeft (t : TaskId) (q : List OutEntry) : List OutEntry :=
  q.map (fun m => if m.originTask = some t then { m with originTask := none } else m)

/-- The arithmetic unit once a task's job has left it: a waiting one withdrawn, one in progress discarded (R40). -/
def unitLeft (t : TaskId) (u : ArithUnit) : ArithUnit :=
  { waiting := u.waiting.filter (fun w => w.task ≠ t),
    current := u.current.map (fun j => { j with discarded := j.discarded || j.task == t }) }

/-- The engine after the end of a run (R40, R41): the final block in the queue, at its place among the offers of the moment
(R152), or held while the task is STALLED. -/
def runEnded (now : Stamp) (t : TaskId) (td : TaskDef) (cause : EndCause) (e : Engine) : Engine :=
  let k := releasedRecord e t
  let k := { k with rearmPending := k.rearmPending || (td.continuation == Continuation.rearmOnRead && cause == EndCause.length) }
  let rs := ((e.tasks.get t).openBlock).getD []
  let b : Block := { task := t, kind := td.fields.kind, number := k.nextBlock, final := true,
                     short := decide (rs.length < td.blockSize), results := rs }
  let released : Engine := { e with
    tasks := e.tasks.set t { releasedRecord e t with openBlock := (e.tasks.get t).openBlock },
    unit := unitLeft t e.unit, slots := (e.freeSlotsOf t).slots,
    tx := { e.tx with queue := markersLeft t e.tx.queue },
    ctl := { e.ctl with latched := { e.ctl.latched with taskEnded := true } } }
  if k.state = .stalled then
    released.setTask t
      { k with runEndPending := some cause,
               heldBlock := k.heldBlock.map (fun (h : Block) =>
                 { h with final := true, short := decide (h.results.length < td.blockSize) }) }
  else if rs = [] then released.setTask t { k with state := endsAs cause, endCause := some cause, cause := .none }
  else
    released.offerBlock now t b
      { k with nextBlock := k.nextBlock + 1, state := endsAs cause, endCause := some cause, cause := .none }
      { k with nextBlock := k.nextBlock + 1, state := .stalled, cause := .stalled, heldBlock := some b,
               runEndPending := some cause }

/-! ## The result of a start, as R76 and R82 describe it -/

/-- The INTERVAL result of a start with a verdict: `placed` is the stamp behind its start time, `missed` the missed starts
it reports. -/
def intervalResult (tb : Timebase) (start : Kept) (origin : Option StationNo) (tag : Tag) (unplaced : Bool) (placed : Kept)
    (missed : Nat) (v : Verdict) : IntervalResult :=
  let judged : Bool × Bool × Bool × Nat := match v with
    | .noStop _ => (true, false, false, 0)
    | .lost _ => (false, true, false, 0)
    | .unstamped _ => (false, false, true, 0)
    | .valid x => (false, false, false, since x.stamp start.stamp)
    | .waits => (false, false, false, 0)
  { start := start.stamp, interval := judged.2.2.2, origin := origin, tag := tag, missedCount := missed,
    flags := { noStop := judged.1, lost := judged.2.1, unstamped := judged.2.2.1, unplaced := unplaced,
               degraded := tb.anyDegraded (placed :: (v.stop?.map (fun (x : Entry) => (⟨x.stamp, false⟩ : Kept))).toList) } }

/-! ## Time -/

/-- The stamps at which something of the station falls due: qualification of pending changes (R9), aging (R20), the
job's finish (R94), gate moments (R52, R54, R55), pending signals and starts (R69, R77), spans and the floor (R6),
the reset deadline (R164), and the moments of the line (R104, R107, R110, R113). -/
def dueMoments (d : Station) : List Stamp :=
  let lu := d.lu
  let half := halfUnits d.eng.ctl.longUnit
  let channel := fun (ch : Chan) =>
    (d.front.chan ch).pendingChange.toList.map (fun t => plus t (d.front.chan ch).glitchTime) ++
    (d.front.ring ch).entries.head?.toList.map (fun e => plus e.stamp oldAge)
  let task := fun (t : TaskId) =>
    let k := d.eng.tasks.get t
    match k.runContinues, k.defn, k.run with
    | true, some td, .frequency r =>
      match td.fields with
      | .frequency f =>
        let horizon := (d.front.chan f.input).horizon
        (if f.source = .timed then [plus r.gateOpen (f.gateLength + horizon)] else []) ++
        r.ended.toList.map (fun g => plus g.closed.stamp horizon) ++
        r.followed.toList.map (fun w => plus w.opened.stamp gateLimit)
      | _ => []
    | true, _, .phase r => if k.takes then r.pending.map (fun x => plus x.entry.stamp (2 ^ 40)) else []
    | true, some td, .interval r =>
      match td.fields with
      | .interval f =>
        if k.takes then
          let horizon := (d.front.chan f.stopChannel).horizon
          (r.pending ++ (d.eng.slotsOf t).map (fun p => p.2.start)).map (fun x => plus x.windowEnd.stamp horizon)
        else []
      | _ => []
    | _, _, _ => []
  let line :=
    (if d.rx.state = .stuck then
      d.rx.quietSince.toList.map (fun q => plus q.stamp (4 * lu)) ++
      (if d.rx.episodeReported then [] else d.rx.episodeStart.toList.map (fun t => plus t (2000 * lu)))
     else d.rx.lowSince.toList.map (fun t => plus t (6 * lu))) ++
    d.rx.openCell.toList.map (fun t => plus t (half 3)) ++
    (if d.rx.state = .frame ∧ d.rx.cellPos.expects = true then d.rx.waitFrom.toList.map (fun t => plus t (4 * lu)) else []) ++
    d.rx.attention.toList.map (fun t => plus t (131 * lu)) ++
    d.eng.tx.attempt.toList.map (fun a => plus a.attention (131 * lu))
  chans.flatMap channel ++ taskIds.flatMap task ++ line ++
  d.eng.unit.current.toList.map (fun j => plus j.start jobTime) ++
  d.front.tb.qualifyFrom.toList.map (fun t => plus t qualification) ++
  (d.front.tb.spans.head?.bind Span.stop).toList.map (fun t => plus t oldAge) ++
  d.front.tb.floor.toList.map (fun t => plus t oldAge) ++
  d.eng.ctl.resetDeadline.toList

/-- A command comes in time: no moment that falls due lies before it (log 4). -/
def Timely (c : Instr) (s : State) : Bool :=
  (dueMoments s.dev).all (fun m => !later (plus s.dev.now c.dt) m)

end Sys2Proof.Safety
end

