-- ==== Sys2Proof/WellFormed.lean ====
section
/-!
DEFINITION. When a command is one the surroundings can send: its time fits the range of R2, an unknown request has
no request assigned, a level lasts, and a peer's edge leads the own drive by no more than the wire's propagation.
-/

namespace Sys2Proof

/-- The time since the step before lies within the range in which stamps are ordered (R2). -/
def Instr.timeFits (i : Instr) : Bool := decide (i.dt < 2 ^ 46)

/-- A kind byte with no request assigned: outside 0x01 … 0x10 (12.3, R175). -/
def Instr.kindFits : Instr → Bool
  | .unknownRequest _ kind => decide (kind.toNat = 0) || decide (16 < kind.toNat)
  | _ => true

/-- A pin level lasts at least 1 TU (R9). -/
def Instr.levelLasts : Instr → Bool
  | .pinLevelChange _ _ persists => decide (0 < persists)
  | _ => true

/-- A peer's edge leads by at most the propagation limit, 1,600 TU (R102, R111). -/
def Instr.leadFits : Instr → Bool
  | .attemptStart _ lead => decide (lead ≤ 1600)
  | _ => true

/-- A command the surroundings can send. -/
def Instr.wellFormed (i : Instr) : Bool := i.timeFits && i.kindFits && i.levelLasts && i.leadFits

end Sys2Proof
end

