-- ==== Sys2Proof/Certificates/Slice0/Obligations.lean ====
section
/-!
DEFINITION. The statements for the provers, one `def Obligations.<Name> : Prop` each; OBLIGATIONS.json says what each
claims and which rules it rests on.

In every statement about a command, `d` is the station at the moment the command is taken: only the time `dt` it
carries has passed (R1). A statement whose conclusion names the whole next state says at the same time what the
command leaves alone: every field not named is the one before.
-/

open Sys2Proof Sys2Proof.Machine Sys2Proof.Safety

/-! ## The step -/

/-- A step is `exec` of the front command with the rest of the queue waiting, and nothing else. -/
def Obligations.StepRunsTheFrontCommand : Prop :=
  ∀ (c : Instr) (rest : List Instr) (s : State), s.pending = c :: rest → step s = exec c { s with pending := rest }

/-- With no command waiting the counter advances by one coarse tick and nothing else changes, and not even that while
RESET# is low (R1, R165). That an idle step is one tick is the model's choice (log 2). -/
def Obligations.IdleStepIsOneCoarseTick : Prop :=
  ∀ s : State, s.pending = [] → step s = goesTo s (if s.dev.held then s.dev else atTime 32 s)

/-- Every command of the table answers a next state from every state, and touches the station only: nothing in the spec
stops the part (log 25). -/
def Obligations.EveryCommandCompletes : Prop :=
  ∀ (c : Instr) (s : State), ∃ d, exec c s = goesTo s d

/-- While RESET# is low every command but those of the reset pin, the signal pins and CS# leaves the state as it is
(R165, R178).
CS# falls while RESET# is low: the port stays idle and no transaction begins, then or at the release (R178).
A host request that finds no transaction waiting for one changes nothing but the time (log 19): R174 gives the
host no way to send it. -/
def Obligations.CommandsWithoutAnOccasion : Prop :=
  (∀ (c : Instr) (s : State), s.dev.held = true → actsInReset c = false → exec c s = .next s) ∧
  (∀ (s : State) (dt : Nat), s.dev.held = true → s.dev.port.csLow = false →
     exec (.transactionStart dt) s = goesTo s (withPort s.dev { s.dev.port with csLow := true })) ∧
  (∀ (c : Instr) (s : State), isRequest c = true → s.dev.held = false → s.dev.port.takesRequest = false →
     exec c s = goesTo s (atTime c.dt s))

/-! ## Resets -/

/-- What the release of reset leaves, whole: the values of R17, R22, R31, R91, R105, R120, R128, R131, R137, R143 and R159,
the straps and the pins at the levels they have. Where no rule gives a value it is the model's: the accepted level of a
disabled channel (log 5), the receiver's cell position (log 40), and its own marks of a short pulse and of the last
configuration (log 7, log 38). -/
def Obligations.ReleasedStationIsAtReset : Prop :=
  ∀ (pins : ReleasePins) (inputs : Per4 Bool) (csLow : Bool),
    let channel := fun (level : Bool) =>
      ({ enabled := false, edgeSelect := .rising, glitch := 0, prescaleField := 0, accepted := false,
         pendingChange := none, count := 0, seqNo := 0, deadUntil := none, configuredAt := none, pinLevel := level,
         inShortPulse := false,
         ring := { entries := [], nextIndex := 1, everRemoved := false, lastRemoved := none } } : Channel)
    let task : TaskRec :=
      { defn := none, state := .empty, nextBlock := 0, armTime := none, cursor := none, refCursor := none,
        resultsInRun := 0, failCount := 0, openBlock := none, heldBlock := none, job := .none, jobDiscarded := false,
        heldBackJob := none, cause := .none, runEndPending := none, endCause := none, rearmPending := false,
        pausedOn := none, waitingResult := none, run := .none }
    let counters : Counters :=
      { sent := 0, arbLosses := 0, stale := 0, dropped := 0, ownRefused := 0, ownUnheard := 0, damaged := 0,
        truncated := 0, unknownKind := 0, unclaimed := 0, refusalsGiven := 0, strayCloses := 0 }
    let gate : Gate :=
      { state := .closed, openTime := none, opener := none, closeTime := none, closer := none, generation := 0,
        unplaced := false, orphaned := false, reopened := false, negative := false }
    Station.released pins inputs csLow =
      { front := {
          tb := { now := 0, monitor := .absent, degraded := true, spans := [{ start := ⟨0, false⟩, stop := none }],
                  floor := none, qualifyFrom := none },
          chans := { a := channel inputs.a, b := channel inputs.b, c := channel inputs.c, d := channel inputs.d } },
        rx := { state := .stuck, lowSince := if pins.lineLow then some 0 else none,
                quietSince := if pins.lineLow then none else some ⟨0, false⟩, attention := none, cellPos := .bit 0,
                bits := [], ownPart := .none, answer := .none, episodeStart := some 0, episodeReported := false,
                openCell := none, waitFrom := none, judged := false, holdFrom := none, lowFromFrame := false },
        listen := Per8.fill { mode := .off, bound := 0, cls := .edge, tagValue := 0, tagMask := 0, action := .pass, task := 0 },
        gates := Per16.fill gate,
        eng := {
          tasks := Per8.fill task, unit := { waiting := [], current := none },
          tx := { queue := [], mute := false, attempt := none, haltSent := false }, slots := Per8.fill none, queue := [],
          peers := Per16.fill { state := .absent, position := none, haltReason := none, lastAnnounce := none },
          ctl := { stationNo := pins.id, longUnit := pins.lus, state := .unset, departure := .none, haltOwed := none,
                   resetDeadline := none, faultHold := false, faultRecord := none, haltCause := none,
                   latched := { taskEnded := false, peerChanged := false, markerLoss := false, timebase := false },
                   mask := 0, counters := counters, resetDue := false } },
        port := { phase := .idle, csLow := csLow, summary := none, kind := none, body := [], reply := none },
        held := false }

/-- POWER_ON_RESET puts every block at its reset values at once, in every state, and holds it there; the levels on the
signal pins and CS# stay (R165). That the strap values stay too until the release samples them is the model's choice
(log 21).
RESET_RELEASE samples the straps and lets the station run from its reset values (R159, R165). That with RESET# high already it
is no occasion, and only time passes, is the model's choice (log 3). -/
def Obligations.ResetHoldsAndReleases : Prop :=
  (∀ (s : State) (dt : Nat),
     exec (.powerOnReset dt) s = goesTo s
       { Station.released ⟨s.dev.eng.ctl.stationNo, s.dev.eng.ctl.longUnit, false⟩
           (s.dev.front.chans.map Channel.pinLevel) s.dev.port.csLow with held := true }) ∧
  (∀ (s : State) (dt : Nat) (pins : ReleasePins),
     (s.dev.held = true → exec (.resetRelease dt pins) s = goesTo s
       (Station.released pins (s.dev.front.chans.map Channel.pinLevel) s.dev.port.csLow)) ∧
     (s.dev.held = false → exec (.resetRelease dt pins) s = goesTo s (atTime dt s)))

/-- A reset that waits takes effect when its deadline comes, whatever the HALT does, and not before (R164). That it cuts
its own reply where this is still being clocked out is the model's choice, deduced (log 51).
A RESET that is due takes effect when its reply is complete (R164, R174). -/
def Obligations.WaitingResetsTakeEffect : Prop :=
  (∀ (s : State) (dt : Nat) (pins : ReleasePins) (moment : Stamp), s.dev.held = false →
     s.dev.eng.ctl.departure = .reset → s.dev.eng.ctl.resetDeadline = some moment →
     exec (.resetDeadline dt pins) s = goesTo s
       (if reached (atTime dt s).now moment = true
        then Station.released pins (s.dev.front.chans.map Channel.pinLevel) s.dev.port.csLow
        else atTime dt s)) ∧
  (∀ (s : State) (dt : Nat) (pins : ReleasePins), s.dev.held = false → s.dev.port.phase = .reply →
     s.dev.eng.ctl.resetDue = true →
     exec (.replyCompleted dt pins) s = goesTo s
       (Station.released pins (s.dev.front.chans.map Channel.pinLevel) s.dev.port.csLow))

/-! ## The host port -/

/-- The fall of CS# samples the summary byte: fixed bits 011, interrupt pending, results waiting, fault hold and the
station state (R177). -/
def Obligations.TransactionStartSamplesTheSummary : Prop :=
  ∀ (s : State) (dt : Nat), s.dev.held = false → s.dev.port.csLow = false →
    let d := atTime dt s
    let state : BitVec 2 := match d.eng.ctl.state with
      | .unset => 0
      | .joining => 1
      | .live => 2
      | .halted => 3
    exec (.transactionStart dt) s = goesTo s (withPort d
      { phase := .summary, csLow := true, kind := none, body := [], reply := none,
        summary := some ((0b011 : BitVec 3) ++ BitVec.ofBool d.intLow ++ BitVec.ofBool (d.eng.queue.length ≠ 0) ++
          BitVec.ofBool d.eng.ctl.faultHold ++ state) })

/-- The phases after a request (R174): the reply becomes ready, its last byte goes out, CS# rises. Where no block was
read and no reset is due, nothing else changes.
A rise of CS# before the transaction is done discards it; a request already taken keeps its effects, a block that was
being read stays at the head, and a RESET that is due resets (R176, R156, R164).
The rise of CS# with no transaction in progress (R176, R178), as after a reset during a transaction: the port, idle with CS#
low, stays idle, and a fall is seen again after it; while CS# is low it starts nothing. The same while RESET# is low. A rise
that comes for a phase it does not end changes nothing (the model's choice, log 3).
The bytes of a request (R174, R175): in SUMMARY the first is the kind byte, in BODY each joins the body, elsewhere they are
ignored. A request is complete at the last byte of its frame and not before, with no body at its kind byte.
What SDO carries (R174, R178): the summary byte in SUMMARY, 0x00 in BODY, FILL and DONE, and in REPLY 0xA5, the status
code and the reply body, 0x00 past its end. It is high-impedance while CS# is high or RESET# low; with CS# low and no transaction
the port sends nothing (the model's choice, log 46). -/
def Obligations.TransactionPhasesAdvance : Prop :=
  (∀ (s : State) (dt : Nat) (pins : ReleasePins), s.dev.held = false →
     let d := atTime dt s
     (s.dev.port.phase = .fill →
       exec (.replyReady dt) s = goesTo s (withPort d { d.port with phase := .reply })) ∧
     (s.dev.port.phase ≠ .fill → exec (.replyReady dt) s = goesTo s d) ∧
     (s.dev.port.phase = .reply → s.dev.eng.ctl.resetDue = false →
       ¬(s.dev.port.kind = some 0x09 ∧ ∃ body, s.dev.port.reply = some ⟨.ok, body⟩) →
       exec (.replyCompleted dt pins) s = goesTo s (withPort d { d.port with phase := .done })) ∧
     (s.dev.port.phase = .done → s.dev.port.csLow = true →
       exec (.transactionEnd dt) s = goesTo s (withPort d ⟨.idle, false, none, none, [], none⟩))) ∧
  (∀ (s : State) (dt : Nat) (pins : ReleasePins), s.dev.held = false →
     (s.dev.port.phase = .summary ∨ s.dev.port.phase = .body ∨ s.dev.port.phase = .fill ∨ s.dev.port.phase = .reply) →
     exec (.csRiseEarly dt pins) s = goesTo s
       (if s.dev.eng.ctl.resetDue then Station.released pins (s.dev.front.chans.map Channel.pinLevel) false
        else withPort (atTime dt s) ⟨.idle, false, none, none, [], none⟩)) ∧
  (∀ (s : State) (dt : Nat) (pins : ReleasePins),
     let d := if s.dev.held then s.dev else atTime dt s
     let p := s.dev.port
     (p.phase = .idle → p.csLow = true →
       exec (.transactionEnd dt) s = goesTo s (withPort d ⟨.idle, false, none, none, [], none⟩) ∧
       exec (.transactionStart dt) s = goesTo s d) ∧
     (p.csLow = false → exec (.transactionEnd dt) s = goesTo s d) ∧
     (p.phase = .summary ∨ p.phase = .body ∨ p.phase = .fill ∨ p.phase = .reply →
       exec (.transactionEnd dt) s = goesTo s d) ∧
     (p.phase = .idle ∨ p.phase = .done → exec (.csRiseEarly dt pins) s = goesTo s d)) ∧
  (∀ (p : HostPort) (b : Byte),
     (p.phase = .summary → p.clockIn b = { p with phase := .body, kind := some b, body := [] }) ∧
     (p.phase = .body → p.clockIn b = { p with body := p.body ++ [b] }) ∧
     (p.phase ≠ .summary → p.phase ≠ .body → p.clockIn b = p) ∧
     (∀ c k body, encodeFrame c = some (k :: body) → c.kindFits = true →
       (p.receive k body).requestComplete = true ∧ (p.receive k body).kind = some k ∧ (p.receive k body).body = body ∧
       ∀ n, n < body.length → (p.receive k (body.take n)).requestComplete = false)) ∧
  (∀ (d : Station) (i : Nat),
     let p := d.port
     (d.held = true ∨ p.csLow = false ∨ p.phase = .idle → d.sdo i = none) ∧
     (d.held = false → p.csLow = true →
       (p.phase = .summary → d.sdo i = p.summary) ∧
       (p.phase = .body ∨ p.phase = .fill ∨ p.phase = .done → d.sdo i = some 0) ∧
       (∀ r, p.phase = .reply → p.reply = some r →
         d.sdo 0 = some 0xA5 ∧ d.sdo 1 = some r.status.code ∧
         (∀ j (h : j < r.body.length), d.sdo (j + 2) = some r.body[j]) ∧
         (r.body.length + 2 ≤ i → d.sdo i = some 0))))

/-! ## Host requests: the station, its channels and its tasks -/

/-- SETUP in UNSET (R160, R122): JOINING, the own peer entry LIVE at the position, clamped to 2047, and an ANNOUNCE with
the joining flag; muted, the ANNOUNCE is DROPPED instead. -/
def Obligations.SetupJoins : Prop :=
  ∀ (s : State) (dt : Nat) (position : BitVec 16), awaitsRequest s → s.dev.eng.ctl.state = .unset →
    s.dev.eng.tx.queue = [] → s.dev.eng.tx.haltSent = false →
    let d := atTime dt s
    let pos : BitVec 11 := BitVec.ofNat 11 (min position.toNat 2047)
    let status : Status := if position.toNat ≤ 2047 then .ok else .okAdjusted
    let own := { d.eng.peers.get d.eng.ctl.stationNo with state := .live, position := some pos, haltReason := none }
    let joined : Engine := { d.eng with
      ctl := { d.eng.ctl with state := .joining }, peers := d.eng.peers.set d.eng.ctl.stationNo own }
    (s.dev.eng.tx.mute = false →
      exec (.setup dt position) s = goesTo s (replied 0x01 (beBytes 2 position.toNat) status [] { d with eng :=
        { joined with tx := { d.eng.tx with queue :=
          [{ kind := .announce, tag := 0, origin := none, originTask := none, inTransmission := false, removeAtEnd := false,
             payload := (pos ++ (1 : BitVec 1)) ++ (0 : BitVec 12) }] } } })) ∧
    (s.dev.eng.tx.mute = true →
      exec (.setup dt position) s = goesTo s (replied 0x01 (beBytes 2 position.toNat) status [] { d with eng :=
        { joined with ctl := { joined.ctl with
            counters := { d.eng.ctl.counters with dropped := bumpBy 1 d.eng.ctl.counters.dropped },
            latched := { d.eng.ctl.latched with markerLoss := true } } } }))

/-- CONFIGURE CHANNEL on a channel no run names (R15, R16): the new fields, W clamped to 63, and everything else of the
channel cleared. An enabled channel takes the level the pin resolves (R9, R16); that inside a pulse shorter than 13 TU this is the
level outside it is the model's choice (log 7).
A channel that a run in progress names is not reconfigured: IN_USE (R15). -/
def Obligations.ChannelsAreConfigured : Prop :=
  (∀ (s : State) (dt : Nat) (channel options glitch : Byte) (prescale : BitVec 16) (ch : Chan) (edges : EdgeSelect),
     awaitsRequest s → s.dev.eng.ctl.state ≠ .halted → chanOf channel = some ch →
     edgeSelectOf (options.extractLsb' 1 2) = some edges →
     (∀ t td, (s.dev.eng.tasks.get t).runContinues = true → (s.dev.eng.tasks.get t).defn = some td →
       ch ∉ td.fields.channels) →
     let d := atTime dt s
     let c := d.front.chan ch
     exec (.configureChannel dt channel options glitch prescale) s =
       goesTo s (replied 0x02 ([channel, options, glitch] ++ beBytes 2 prescale.toNat)
         (if glitch.toNat ≤ 63 then .ok else .okAdjusted) []
         (withChan d ch { enabled := options.getLsbD 0, edgeSelect := edges,
                          glitch := if h : glitch.toNat < 64 then ⟨glitch.toNat, h⟩ else 63, prescaleField := prescale,
                          accepted := if options.getLsbD 0 then (if c.inShortPulse then !c.pinLevel else c.pinLevel)
                                      else c.accepted,
                          pendingChange := none, count := 0, seqNo := 0, deadUntil := none,
                          configuredAt := some ⟨d.now, false⟩, pinLevel := c.pinLevel,
                          inShortPulse := c.inShortPulse, ring := ⟨[], 1, false, none⟩ }))) ∧
  (∀ (s : State) (dt : Nat) (channel options glitch : Byte) (prescale : BitVec 16) (ch : Chan) (edges : EdgeSelect)
     (t : TaskId) (td : TaskDef),
     awaitsRequest s → s.dev.eng.ctl.state ≠ .halted → chanOf channel = some ch →
     edgeSelectOf (options.extractLsb' 1 2) = some edges → (s.dev.eng.tasks.get t).runContinues = true →
     (s.dev.eng.tasks.get t).defn = some td → ch ∈ td.fields.channels →
     exec (.configureChannel dt channel options glitch prescale) s =
       goesTo s (replied 0x02 ([channel, options, glitch] ++ beBytes 2 prescale.toNat) .inUse [] (atTime dt s)))

/-- An accepted DEFINE TASK replaces the whole record: the new fields, IDLE, block number 0 and nothing left of an earlier
run but an answer still to be discarded (R32, R33).
Every numeric field of a definition lies in its range, clamped into it where the frame is outside (R33, R51, R72);
PHASE has two channels (R65), and a LINE gate is one of sixteen (R51). -/
def Obligations.TasksAreDefined : Prop :=
  (∀ (s : State) (dt : Nat) (task kind b : Byte) (runLength : BitVec 16) (cont f esc : Byte) (area : BitVec 104)
     (t : TaskId) (td : TaskDef) (moved : Bool),
     awaitsRequest s → s.dev.eng.ctl.state ≠ .halted → task.toNat = t.val →
     taskDefOf kind b runLength cont f esc area = some (td, moved) →
     ((s.dev.eng.tasks.get t).state = .empty ∨ (s.dev.eng.tasks.get t).state = .idle ∨
       (s.dev.eng.tasks.get t).state = .done ∨ (s.dev.eng.tasks.get t).state = .faulted) →
     (∀ x ∈ s.dev.eng.queue, x.task ≠ t) →
     let d := atTime dt s
     exec (.defineTask dt task kind b runLength cont f esc area) s =
       goesTo s (replied 0x03 ([task, kind, b] ++ beBytes 2 runLength.toNat ++ [cont, f, esc] ++ beBytes 13 area.toNat)
         (if moved then .okAdjusted else .ok) []
         (withTask d t
           { defn := some td, state := .idle, nextBlock := 0, armTime := none, cursor := none, refCursor := none,
             resultsInRun := 0, failCount := 0, openBlock := none, heldBlock := none, job := .none,
             jobDiscarded := (d.eng.tasks.get t).jobDiscarded, heldBackJob := none, cause := .none, runEndPending := none,
             endCause := none, rearmPending := false, pausedOn := none, waitingResult := none, run := .none }))) ∧
  (∀ (kind b : Byte) (runLength : BitVec 16) (cont f esc : Byte) (area : BitVec 104) (td : TaskDef) (moved : Bool),
     taskDefOf kind b runLength cont f esc area = some (td, moved) →
     td.blockSize = max 1 (min 32 b.toNat) ∧ td.runLength = runLength.toNat ∧ td.failLimit = f.toNat ∧
     (b.toNat = 0 ∨ 32 < b.toNat → moved = true) ∧
     (∀ g, td.fields = .frequency g → kind = 0 ∧ g.shift = min 7 (area.extractLsb' 24 8).toNat ∧
       (g.source = .timed → g.gateLength = max 8000 (min (2 ^ 40) (area.extractLsb' 40 48).toNat)) ∧
       (g.source = .line → g.gate.toNat < 16)) ∧
     (∀ p, td.fields = .phase p → kind = 1 ∧ p.reference ≠ p.signal) ∧
     (∀ i, td.fields = .interval i → kind = 2 ∧ i.holdoff = max 1 (area.extractLsb' 48 32).toNat ∧
       i.window = max i.holdoff (min (2 ^ 40) (area.extractLsb' 0 48).toNat)) ∧
     (∀ ch, td.fields = .timestamp ch → kind = 3) ∧
     (∀ p, td.fields = .publish p → kind = 4 ∧ p.dividerField = area.extractLsb' 80 8))

/-- An accepted ARM TASK starts a run at the time it is taken (R34, R35, R52, R53, R60): cursors at the next index of
their rings, counts 0, an empty open block, and the kind state of a new run.
The later checks of ARM TASK, in the order of R34, for a task number 0 … 7 out of HALTED; a refusal changes nothing. -/
def Obligations.RunsAreArmed : Prop :=
  (∀ (s : State) (dt : Nat) (task : Byte) (t : TaskId) (td : TaskDef),
     awaitsRequest s → task.toNat = t.val → (s.dev.eng.tasks.get t).defn = some td →
     ((s.dev.eng.tasks.get t).state = .idle ∨ (s.dev.eng.tasks.get t).state = .done ∨
       (s.dev.eng.tasks.get t).state = .faulted) →
     s.dev.eng.ctl.state = .live → s.dev.eng.ctl.departure = .none →
     (∀ ch ∈ td.fields.channels, (s.dev.front.chan ch).enabled = true) →
     (∀ p, td.fields = .phase p → (s.dev.front.chan p.reference).prescaleField = 0) →
     (∀ i, td.fields = .interval i → (s.dev.front.chan i.stopChannel).prescaleField = 0) →
     let d := atTime dt s
     let next := fun ch => (d.front.ring ch).nextIndex
     let k := { d.eng.tasks.get t with
       state := .running, armTime := some ⟨d.now, false⟩, resultsInRun := 0, failCount := 0, endCause := none,
       runEndPending := none, rearmPending := false, openBlock := some [], cause := .none, pausedOn := none }
     exec (.armTask dt task) s = goesTo s (replied 0x04 [task] .ok [] (withTask d t (match td.fields with
       | .frequency f =>
         { k with state := if f.source = .line then .armed else .running, cursor := none, refCursor := none,
                  run := .frequency ⟨0, d.now, 0, .waitingOpen, none, none, none, none, none⟩ }
       | .phase p =>
         { k with cursor := some (next p.signal), refCursor := some (next p.reference), run := .phase ⟨none, [], 0⟩ }
       | .interval i =>
         { k with cursor := if i.source = .localStart then some (next i.startChannel) else none, refCursor := none,
                  run := .interval ⟨[], 0⟩ }
       | .timestamp ch => { k with cursor := some (next ch), refCursor := none, run := .timestamp 0 }
       | .publish p => { k with cursor := some (next p.channel), refCursor := none, run := .publish ⟨0, 0, []⟩ })))) ∧
  (∀ (s : State) (dt : Nat) (task : Byte) (t : TaskId), awaitsRequest s → task.toNat = t.val →
     s.dev.eng.ctl.state ≠ .halted →
     let k := s.dev.eng.tasks.get t
     let refused := fun st => exec (.armTask dt task) s = goesTo s (replied 0x04 [task] st [] (atTime dt s))
     (k.defn = none → refused .badState) ∧
     (∀ td, k.defn = some td →
       ((k.state = .armed ∨ k.state = .running ∨ k.state = .paused ∨ k.state = .stalled) → refused .busy) ∧
       ((k.state = .idle ∨ k.state = .done ∨ k.state = .faulted) →
         (s.dev.eng.ctl.state ≠ .live ∨ s.dev.eng.ctl.departure ≠ .none → refused .notLive) ∧
         (s.dev.eng.ctl.state = .live → s.dev.eng.ctl.departure = .none →
           ((∃ ch ∈ td.fields.channels, (s.dev.front.chan ch).enabled = false) → refused .channelOff) ∧
           ((∀ ch ∈ td.fields.channels, (s.dev.front.chan ch).enabled = true) →
             ((∃ p, td.fields = .phase p ∧ (s.dev.front.chan p.reference).prescaleField ≠ 0) ∨
              (∃ i, td.fields = .interval i ∧ (s.dev.front.chan i.stopChannel).prescaleField ≠ 0)) →
             refused .conflict)))))

/-- DISARM TASK ends a run in progress with cause DISARM, takes a re-arm that is pending from a DONE task, and has no
effect on a task in any other state but EMPTY (R40, R41, R42). That a STALLED task keeps its suspension cause STALLED while its
run end is pending, where R40 says NONE, is the model's choice, deduced from R38 and R41 (log 12).
TEAR DOWN TASK empties the record and takes the task's blocks, slots, job and markers with it; freed places are
handed on (R43, R154). On an EMPTY task it has no effect. That entries which an earlier run placed, detached at its end (R89,
R126), stay queued is the model's choice, deduced (log 49). -/
def Obligations.TasksAreEndedAndTornDown : Prop :=
  (∀ (s : State) (dt : Nat) (task : Byte) (t : TaskId) (td : TaskDef), awaitsRequest s → task.toNat = t.val →
     s.dev.eng.ctl.state ≠ .halted → (s.dev.eng.tasks.get t).defn = some td →
     let d := atTime dt s
     let k := s.dev.eng.tasks.get t
     let leads := fun e => exec (.disarmTask dt task) s = goesTo s (replied 0x05 [task] .ok [] { d with eng := e })
     ((k.state = .armed ∨ k.state = .running ∨ k.state = .paused ∨ (k.state = .stalled ∧ k.runEndPending = none)) →
       leads (runEnded d.now t td .disarm d.eng)) ∧
     (k.state = .done → leads { d.eng with tasks := d.eng.tasks.set t { k with rearmPending := false } }) ∧
     ((k.state = .idle ∨ k.state = .faulted ∨ (k.state = .stalled ∧ k.runEndPending.isSome)) → leads d.eng)) ∧
  (∀ (s : State) (dt : Nat) (task : Byte) (t : TaskId), awaitsRequest s → task.toNat = t.val →
     s.dev.eng.ctl.state ≠ .halted →
     let d := atTime dt s
     let k := d.eng.tasks.get t
     let kept := d.eng.tx.queue.filter (fun m => m.originTask ≠ some t ∨ m.inTransmission = true)
     let torn : Engine := { d.eng with
       queue := d.eng.queue.filter (fun b => b.task ≠ t), slots := (d.eng.freeSlotsOf t).slots,
       unit := unitLeft t d.eng.unit, tx := { d.eng.tx with queue := markersLeft t kept },
       tasks := d.eng.tasks.set t { TaskRec.emptied with
         jobDiscarded := k.jobDiscarded || d.eng.unit.current.any (fun j => j.task == t) } }
     let leads := fun e => exec (.tearDownTask dt task) s = goesTo s (replied 0x06 [task] .ok [] { d with eng := e })
     (k.state = .empty → leads d.eng) ∧
     (k.state ≠ .empty → (∀ b ∈ d.eng.queue, b.task ≠ t) → leads torn) ∧
     (k.state ≠ .empty → (∃ b ∈ d.eng.queue, b.task = t) → leads ((torn.handOff d.front).arbitrate d.now)))

/-! ## Host requests: markers, results, status, events, departures -/

/-- An accepted DEFINE LISTEN ENTRY replaces the whole entry, whatever the task it names does (R128). -/
def Obligations.DefineListenEntryReplacesTheEntry : Prop :=
  ∀ (s : State) (dt : Nat) (entry mode boundTag maskClass action task : Byte) (i : Fin 8) (t : TaskId)
    (m : ListenMode) (c : ListenClass) (a : ListenAction),
    awaitsRequest s → s.dev.eng.ctl.state ≠ .halted → entry.toNat = i.val → task.toNat = t.val →
    listenModeOf mode = some m → listenClassOf (maskClass.extractLsb' 4 2) = some c → listenActionOf action = some a →
    let d := atTime dt s
    let l : ListenEntry := { mode := m, bound := boundTag.extractLsb' 0 4, cls := c, tagValue := boundTag.extractLsb' 4 4,
                             tagMask := maskClass.extractLsb' 0 4, action := a, task := t }
    exec (.defineListenEntry dt entry mode boundTag maskClass action task) s =
      goesTo s (replied 0x07 [entry, mode, boundTag, maskClass, action, task] .ok [] { d with listen := d.listen.set i l })

/-- PUBLISH GATE on a LIVE station that is not leaving (R148, R121): the marker joins the tail of the outgoing queue with
the time of the request as its origin; muted or with 8 entries queued it is DROPPED and counted.
PUBLISH GATE is refused NOT_LIVE before the station is LIVE and once a departure has begun (R148, R162). -/
def Obligations.GatesArePublished : Prop :=
  (∀ (s : State) (dt : Nat) (gate action : Byte), awaitsRequest s → gate.toNat < 16 → action.toNat ≤ 1 →
     s.dev.eng.ctl.state = .live → s.dev.eng.ctl.departure = .none → s.dev.eng.tx.haltSent = false →
     let d := atTime dt s
     let marker : OutEntry :=
       { kind := if action = 0 then .gateOpen else .gateClose, tag := BitVec.ofNat 4 gate.toNat,
         origin := some ⟨d.now, false⟩, originTask := none, payload := 0, inTransmission := false, removeAtEnd := false }
     let dropped : Engine := { d.eng with ctl := { d.eng.ctl with
       counters := { d.eng.ctl.counters with dropped := bumpBy 1 d.eng.ctl.counters.dropped },
       latched := { d.eng.ctl.latched with markerLoss := true } } }
     let leads := fun st e =>
       exec (.publishGate dt gate action) s = goesTo s (replied 0x08 [gate, action] st [] { d with eng := e })
     (s.dev.eng.tx.mute = false → s.dev.eng.tx.queue.length < 8 →
       leads .ok { d.eng with tx := { d.eng.tx with queue := d.eng.tx.queue ++ [marker] } }) ∧
     (s.dev.eng.tx.mute = true → leads .badState dropped) ∧
     (s.dev.eng.tx.mute = false → 8 ≤ s.dev.eng.tx.queue.length → leads .queueFull dropped)) ∧
  (∀ (s : State) (dt : Nat) (gate action : Byte), awaitsRequest s → gate.toNat < 16 → action.toNat ≤ 1 →
     (s.dev.eng.ctl.state = .unset ∨ s.dev.eng.ctl.state = .joining ∨
       (s.dev.eng.ctl.state = .live ∧ s.dev.eng.ctl.departure ≠ .none)) →
     exec (.publishGate dt gate action) s = goesTo s (replied 0x08 [gate, action] .notLive [] (atTime dt s)))

/-- Requests with a code or a number that names nothing are refused BAD_ARGUMENT and change nothing (R15, R32, R34, R42,
R43, R128, R148).
Requests that the state of a task or of the station refuses, each with its status (R32, R42, R160, R163, R169). -/
def Obligations.RequestsAreRefused : Prop :=
  (∀ (s : State) (dt : Nat), awaitsRequest s → s.dev.eng.ctl.state ≠ .halted →
     let d := atTime dt s
     let bad := fun (c : Instr) (kind : Byte) (body : List Byte) => exec c s = goesTo s (replied kind body .badArgument [] d)
     (∀ channel options glitch prescale, 3 < channel.toNat ∨ options.extractLsb' 1 2 = 3 →
       bad (.configureChannel dt channel options glitch prescale) 0x02 ([channel, options, glitch] ++ beBytes 2 prescale.toNat)) ∧
     (∀ (task kind b : Byte) l (cont f esc : Byte) (area : BitVec 104),
       (let byte := fun i => (area.extractLsb' (8 * (12 - i)) 8).toNat
        7 < task.toNat ∨ 4 < kind.toNat ∨ 2 < cont.toNat ∨ (kind.toNat ≠ 2 ∧ 3 < byte 0) ∨
        (kind.toNat = 0 ∧ (1 < byte 1 ∨ (byte 1 = 1 ∧ 15 < byte 8))) ∨
        (kind.toNat = 1 ∧ (3 < byte 1 ∨ byte 0 = byte 1)) ∨
        (kind.toNat = 2 ∧ (1 < byte 0 ∨ 3 < byte 1 ∨ 3 < byte 2)) ∨ (kind.toNat = 4 ∧ 15 < byte 1)) →
       bad (.defineTask dt task kind b l cont f esc area) 0x03
         ([task, kind, b] ++ beBytes 2 l.toNat ++ [cont, f, esc] ++ beBytes 13 area.toNat)) ∧
     (∀ task, 7 < task.toNat → bad (.armTask dt task) 0x04 [task] ∧ bad (.disarmTask dt task) 0x05 [task] ∧
       bad (.tearDownTask dt task) 0x06 [task]) ∧
     (∀ entry mode bound mask action task,
       7 < entry.toNat ∨ 2 < mode.toNat ∨ mask.extractLsb' 4 2 = 3 ∨ 2 < action.toNat ∨ 7 < task.toNat →
       bad (.defineListenEntry dt entry mode bound mask action task) 0x07 [entry, mode, bound, mask, action, task]) ∧
     (∀ gate action, 15 < gate.toNat ∨ 1 < action.toNat → bad (.publishGate dt gate action) 0x08 [gate, action])) ∧
  (∀ (s : State) (dt : Nat), awaitsRequest s → s.dev.eng.ctl.state ≠ .halted →
     let d := atTime dt s
     let refused := fun (c : Instr) (kind : Byte) (body : List Byte) (st : Status) => exec c s = goesTo s (replied kind body st [] d)
     (∀ position, s.dev.eng.ctl.state ≠ .unset → refused (.setup dt position) 0x01 (beBytes 2 position.toNat) .alreadySet) ∧
     (∀ (t : TaskId) (task kind b : Byte) l (cont f esc : Byte) area td moved, task.toNat = t.val →
       taskDefOf kind b l cont f esc area = some (td, moved) →
       let k := s.dev.eng.tasks.get t
       let body := [task, kind, b] ++ beBytes 2 l.toNat ++ [cont, f, esc] ++ beBytes 13 area.toNat
       ((k.state = .armed ∨ k.state = .running ∨ k.state = .paused ∨ k.state = .stalled) →
         refused (.defineTask dt task kind b l cont f esc area) 0x03 body .busy) ∧
       ((k.state = .empty ∨ k.state = .idle ∨ k.state = .done ∨ k.state = .faulted) →
         (∃ x ∈ s.dev.eng.queue, x.task = t) →
         refused (.defineTask dt task kind b l cont f esc area) 0x03 body .blocksPending)) ∧
     (∀ (t : TaskId) (task : Byte), task.toNat = t.val → (s.dev.eng.tasks.get t).state = .empty →
       refused (.disarmTask dt task) 0x05 [task] .badState) ∧
     (s.dev.eng.ctl.faultHold = false → refused (.clearFault dt) 0x0E [] .badState) ∧
     (s.dev.eng.ctl.state = .unset ∨ s.dev.eng.ctl.departure ≠ .none → refused (.retire dt) 0x0F [] .badState))

/-- In HALTED the ten requests that change the station are refused HALTED and change nothing (R173).
A kind byte with no request assigned is answered UNKNOWN_REQUEST in every station state and changes nothing (R175,
R173). -/
def Obligations.HaltedAndUnknownRequests : Prop :=
  (∀ (s : State) (c : Instr) (kind : Byte) (body : List Byte), awaitsRequest s → s.dev.eng.ctl.state = .halted →
     c.wellFormed = true → encodeFrame c = some (kind :: body) →
     kind ∈ ([0x01, 0x02, 0x03, 0x04, 0x05, 0x06, 0x07, 0x08, 0x0E, 0x0F] : List Byte) →
     exec c s = goesTo s (replied kind body .halted [] (atTime c.dt s))) ∧
  (∀ (s : State) (dt : Nat) (kind : Byte), awaitsRequest s → kind.toNat = 0 ∨ 16 < kind.toNat →
     exec (.unknownRequest dt kind) s = goesTo s (replied kind [] .unknownRequest [] (atTime dt s)))

/-- READ RESULT shows the head block whole and the number of blocks behind it, and removes nothing yet; the block
shown stays at the head, so the model's own note of the moment of its offer goes (log 53); on an empty queue it is answered
EMPTY (R155).
The header and the records of a block have the lengths of 12.5.
The bytes of a block's header and of its result records, kind by kind (12.5): numbers most significant byte first, the
flags in one byte, bit 0 first in the order listed, the origin of a LOCAL start 0xFF. -/
def Obligations.ResultsAreShown : Prop :=
  (∀ (s : State) (dt : Nat), awaitsRequest s →
     (s.dev.eng.queue = [] → exec (.readResult dt) s = goesTo s (replied 0x09 [] .empty [] (atTime dt s))) ∧
     (∀ b rest, s.dev.eng.queue = b :: rest →
       exec (.readResult dt) s = goesTo s (replied 0x09 [] .ok
         (BitVec.ofNat 8 rest.length :: (b.header ++ b.results.flatMap Result.bytes))
         (let d := atTime dt s; { d with eng := { d.eng with queue := { b with offered := none } :: rest } })))) ∧
  (∀ b : Block, b.header.length = 4 ∧
     (∀ r : Result, r.bytes.length = match r with
       | .frequency _ => 36
       | .phase _ => 19
       | .interval _ => 19
       | .timestamp _ => 20
       | .publish _ => 15) ∧
     b.header.take 1 = [BitVec.ofBool b.short ++ BitVec.ofBool b.final ++
       (match b.kind with
         | .frequency => (0 : BitVec 3)
         | .phase => 1
         | .interval => 2
         | .timestamp => 3
         | .publish => 4) ++ BitVec.ofNat 3 b.task.val]) ∧
  (∀ b : Block,
     let be := fun (n v : Nat) => (List.range n).map (fun i => BitVec.ofNat 8 (v / 256 ^ (n - 1 - i)))
     let bit := BitVec.ofBool
     b.header.drop 1 = be 2 b.number.toNat ++ [BitVec.ofNat 8 b.results.length] ∧
     (∀ r : FreqResult, (Result.frequency r).bytes =
       be 4 r.gateIndex.toNat ++ be 6 r.openTime.toNat ++ be 5 r.edges ++ be 6 r.span ++ be 5 r.frequency ++ be 5 r.smoothed ++
       be 4 r.represented ++ [bit r.flags.saturated ++ bit r.flags.degraded ++ bit r.flags.unplaced ++ bit r.flags.orphaned ++
         bit r.flags.clamped ++ bit r.flags.lost ++ bit r.flags.shortened ++ bit r.flags.noSignal]) ∧
     (∀ r : PhaseResult, (Result.phase r).bytes =
       be 6 r.signal.toNat ++ be 6 r.period ++ be 2 r.phase ++ be 4 r.gapCount ++
       [(0 : BitVec 3) ++ bit r.flags.degraded ++ bit r.flags.gap ++ bit r.flags.unstamped ++ bit r.flags.lost ++
         bit r.flags.noSignal]) ∧
     (∀ r : IntervalResult, (Result.interval r).bytes =
       be 6 r.start.toNat ++ be 6 r.interval ++
       [match r.origin with
         | some n => BitVec.ofNat 8 n.toNat
         | none => 0xFF] ++ [BitVec.ofNat 8 r.tag.toNat] ++ be 4 r.missedCount ++
       [(0 : BitVec 3) ++ bit r.flags.degraded ++ bit r.flags.unplaced ++ bit r.flags.unstamped ++ bit r.flags.lost ++
         bit r.flags.noStop]) ∧
     (∀ r : StampResult, (Result.timestamp r).bytes =
       be 6 r.stamp.toNat ++ be 4 r.seqNo.toNat ++ be 5 r.count.toNat ++ be 4 r.gapCount ++
       [(0 : BitVec 6) ++ bit r.degraded ++ bit r.gap]) ∧
     (∀ r : PublishResult, (Result.publish r).bytes =
       be 6 r.edge.toNat ++
       [match r.outcome with
         | .taken => (0 : Byte)
         | .refused => 1
         | .unheard => 2
         | .stale => 3
         | .dropped => 4] ++ be 3 r.delay.toNat ++ be 4 r.gapCount ++ [(0 : BitVec 6) ++ bit r.degraded ++ bit r.gap]))

/-- READ STATUS reports 532 bytes of the station as it stands, in every station state; with the clear option the counters
are 0 afterwards, and nothing else ever changes (R172, R135).
The contents of the READ STATUS body, group by group (12.6): station and timebase, faults, events, eight bytes of each task,
the queue's head, three bytes of each slot, nine of each peer, sixteen of each gate, the counters in the order of R134. An absent
field is sent as zeros beside its presence bit; a name without a code of its own is coded by its order (log 15). -/
def Obligations.ReadStatusReportsTheStation : Prop :=
  (∀ (s : State) (dt : Nat) (options : Byte), awaitsRequest s →
     let d := atTime dt s
     let body := statusBody d.front.tb d.gates d.eng
     body.length = 532 ∧
     exec (.readStatus dt options) s = goesTo s (replied 0x0A [options] .ok body
       (if options.getLsbD 0 then withCtl d { d.eng.ctl with counters := ⟨0, 0, 0, 0, 0, 0, 0, 0, 0, 0, 0, 0⟩ } else d))) ∧
  (∀ (d : Station), d.eng.queue.length ≤ 16 →
     let e := d.eng
     let c := e.ctl
     let n := c.counters
     let body := statusBody d.front.tb d.gates e
     let slice := fun (i n : Nat) => (body.drop i).take n
     let bit := BitVec.ofBool
     let two := fun (v : BitVec 16) => [v.extractLsb' 8 8, v.extractLsb' 0 8]
     let six := fun (t : Option Stamp) => (List.range 6).map (fun i => (t.getD 0).extractLsb' (40 - 8 * i) 8)
     let reason := fun (r : Option HaltReason) => BitVec.ofNat 2 ((r.map HaltReason.code).getD 0)
     let head := e.queue.head?
     slice 0 3 = [(0 : BitVec 2) ++ bit e.tx.mute ++ bit c.longUnit ++ c.stationNo,
       (0 : BitVec 1) ++ reason c.haltOwed ++ bit c.haltOwed.isSome ++ BitVec.ofNat 2 c.departure.code ++
         BitVec.ofNat 2 c.state.code,
       (0 : BitVec 5) ++ bit d.front.tb.degraded ++ BitVec.ofNat 2 d.front.tb.monitor.code] ∧
     slice 3 10 = [(0 : BitVec 5) ++ bit c.haltCause.isSome ++ bit c.faultRecord.isSome ++ bit c.faultHold,
         BitVec.ofNat 8 ((c.faultRecord.map (fun r => r.cls.code)).getD 0)] ++ six (c.faultRecord.map (fun r => r.stamp)) ++
       [(c.faultRecord.map (fun r => r.detail)).getD 0, BitVec.ofNat 8 ((c.haltCause.map HaltCause.code).getD 0)] ∧
     slice 13 2 = [e.pendingEvents.setWidth 8, c.mask.setWidth 8] ∧
     (∀ t : TaskId, let k := e.tasks.get t
       slice (15 + 8 * t.val) 8 = [BitVec.ofNat 8 k.state.code, BitVec.ofNat 8 k.cause.code] ++
         two (BitVec.ofNat 16 k.resultsInRun) ++ [BitVec.ofNat 8 k.failCount,
         bit k.endCause.isSome ++ (0 : BitVec 4) ++ BitVec.ofNat 3 ((k.endCause.map EndCause.code).getD 0),
         (0 : BitVec 7) ++ bit k.rearmPending,
         bit k.heldBlock.isSome ++ (0 : BitVec 2) ++ BitVec.ofNat 5 (e.queue.filter (fun b => b.task == t)).length]) ∧
     slice 79 4 = [BitVec.ofNat 8 e.queue.length,
       bit head.isSome ++ (0 : BitVec 4) ++ BitVec.ofNat 3 ((head.map (fun b => b.task.val)).getD 0)] ++
       two ((head.map (fun b => b.number)).getD 0) ∧
     (∀ i : SlotId,
       (e.slots.get i = none → slice (83 + 3 * i.val) 3 = [0, 0, 0]) ∧
       (∀ y, e.slots.get i = some y → slice (83 + 3 * i.val) 3 =
         [(1 : BitVec 1) ++ (0 : BitVec 4) ++ BitVec.ofNat 3 y.task.val, y.source ++ y.tag, BitVec.ofNat 8 y.arrival])) ∧
     slice 107 1 = [BitVec.ofNat 8 e.tx.queue.length] ∧
     (∀ i : StationNo, let p := e.peers.get i
       slice (108 + 9 * i.toNat) 9 = [(0 : BitVec 1) ++ bit p.lastAnnounce.isSome ++ bit p.position.isSome ++
           bit p.haltReason.isSome ++ reason p.haltReason ++ BitVec.ofNat 2 p.state.code] ++
         two ((0 : BitVec 5) ++ p.position.getD 0) ++ six p.lastAnnounce) ∧
     (∀ i : BitVec 4, let g := d.gates.get i
       slice (252 + 16 * i.toNat) 16 = [(0 : BitVec 3) ++ bit g.closer.isSome ++ bit g.closeTime.isSome ++ bit g.opener.isSome ++
           bit g.openTime.isSome ++ BitVec.ofNat 1 g.state.code,
           (0 : BitVec 4) ++ bit g.negative ++ bit g.reopened ++ bit g.orphaned ++ bit g.unplaced] ++
         six (g.openTime.map (fun t => t.stamp)) ++ [g.opener.getD 0 ++ g.closer.getD 0] ++ six g.closeTime ++ [g.generation]) ∧
     slice 508 24 = [n.sent, n.arbLosses, n.stale, n.dropped, n.ownRefused, n.ownUnheard, n.damaged, n.truncated, n.unknownKind,
       n.unclaimed, n.refusalsGiven, n.strayCloses].flatMap two)

/-- READ TIME reports the stamp at which it is taken in six bytes, then DEGRADED and the monitor state, in every station
state, and changes nothing (R8). -/
def Obligations.ReadTimeReportsTheStamp : Prop :=
  ∀ (s : State) (dt : Nat), awaitsRequest s →
    let t := (atTime dt s).now
    let monitor : BitVec 7 := match s.dev.front.tb.monitor with
      | .present => 0
      | .absent => 1
      | .returning => 2
    exec (.readTime dt) s = goesTo s (replied 0x0B [] .ok
      [t.extractLsb' 40 8, t.extractLsb' 32 8, t.extractLsb' 24 8, t.extractLsb' 16 8, t.extractLsb' 8 8,
       t.extractLsb' 0 8, monitor ++ BitVec.ofBool s.dev.front.tb.degraded] (atTime dt s))

/-- SET EVENTS replaces the enable mask; ACK EVENTS clears the latched events it names, never a level event, and reports
the pending set after it; both in every station state (R170, R171).
INT# is low exactly while some event is pending and enabled, and released while RESET# is low (R170, R171, R165). -/
def Obligations.EventsAndTheInterrupt : Prop :=
  (∀ (s : State) (dt : Nat) (b : Byte), awaitsRequest s →
     let d := atTime dt s
     let l := d.eng.ctl.latched
     let left : Latched :=
       { taskEnded := l.taskEnded && !b.getLsbD 3, peerChanged := l.peerChanged && !b.getLsbD 4,
         markerLoss := l.markerLoss && !b.getLsbD 5, timebase := l.timebase && !b.getLsbD 6 }
     let pending : Byte := (0 : BitVec 1) ++ BitVec.ofBool left.timebase ++ BitVec.ofBool left.markerLoss ++
       BitVec.ofBool left.peerChanged ++ BitVec.ofBool left.taskEnded ++ BitVec.ofBool (d.eng.ctl.state == .halted) ++
       BitVec.ofBool d.eng.ctl.faultHold ++ BitVec.ofBool (!d.eng.queue.isEmpty)
     exec (.setEvents dt b) s =
       goesTo s (replied 0x0C [b] .ok [] (withCtl d { d.eng.ctl with mask := b.extractLsb' 0 7 })) ∧
     exec (.ackEvents dt b) s =
       goesTo s (replied 0x0D [b] .ok [pending] (withCtl d { d.eng.ctl with latched := left }))) ∧
  (∀ d : Station, d.intLow = (!d.held &&
     ((!d.eng.queue.isEmpty && d.eng.ctl.mask.getLsbD 0) || (d.eng.ctl.faultHold && d.eng.ctl.mask.getLsbD 1) ||
      (d.eng.ctl.state == .halted && d.eng.ctl.mask.getLsbD 2) ||
      (d.eng.ctl.latched.taskEnded && d.eng.ctl.mask.getLsbD 3) ||
      (d.eng.ctl.latched.peerChanged && d.eng.ctl.mask.getLsbD 4) ||
      (d.eng.ctl.latched.markerLoss && d.eng.ctl.mask.getLsbD 5) ||
      (d.eng.ctl.latched.timebase && d.eng.ctl.mask.getLsbD 6))))

/-- CLEAR FAULT (R169): the hold becomes clear and the record absent, and nothing else changes; refused HALTED in HALTED
and BAD_STATE while the hold is clear. -/
def Obligations.ClearFaultReleasesTheHold : Prop :=
  ∀ (s : State) (dt : Nat), awaitsRequest s →
    let d := atTime dt s
    exec (.clearFault dt) s = goesTo s (
      if s.dev.eng.ctl.state = .halted then replied 0x0E [] .halted [] d
      else if s.dev.eng.ctl.faultHold = false then replied 0x0E [] .badState [] d
      else replied 0x0E [] .ok [] (withCtl d { d.eng.ctl with faultHold := false, faultRecord := none }))

/-- RETIRE ends every run in progress with cause RETIRE and owes a HALT, which goes to the head of the outgoing queue; a full
queue first loses its EDGE or GATE entry nearest the tail, dropped and counted (R122); muted, the station is HALTED at once
without one (R163, R162, R140). A task with no run in progress is left alone, but for one whose final block, offered at this very
moment, gives its place in the queue up to a lower-numbered task (R152). -/
def Obligations.RetireEndsEveryRun : Prop :=
  ∀ (s : State) (dt : Nat), awaitsRequest s → (s.dev.eng.ctl.state = .joining ∨ s.dev.eng.ctl.state = .live) →
    s.dev.eng.ctl.departure = .none →
    let d := atTime dt s
    let e0 : Engine := { d.eng with ctl := { d.eng.ctl with departure := .retire, haltCause := some .retired } }
    let e := taskIds.foldl (fun e t => e.endRun d.now t .retire) e0
    let halt : OutEntry := { kind := .halt, tag := 0, origin := none, originTask := none, inTransmission := false,
                             removeAtEnd := false, payload := (0b01 : BitVec 2) ++ (0 : BitVec 22) }
    let own := { e.peers.get e.ctl.stationNo with state := .halted, haltReason := some .retired }
    (∀ t, (s.dev.eng.tasks.get t).runContinues = true →
      ((e.tasks.get t).state = .done ∧ (e.tasks.get t).endCause = some .retire) ∨
      ((e.tasks.get t).state = .stalled ∧ (e.tasks.get t).runEndPending = some .retire)) ∧
    (∀ t, (s.dev.eng.tasks.get t).runContinues = false →
      let k := s.dev.eng.tasks.get t
      e.tasks.get t = k ∨ ∃ x ∈ s.dev.eng.queue, x.task = t ∧ x.final = true ∧ x.offered = some ⟨d.now, false⟩ ∧
        e.tasks.get t = { k with state := .stalled, cause := .stalled, heldBlock := some { x with offered := none },
                                 runEndPending := k.endCause, endCause := none }) ∧
    (s.dev.eng.tx.mute = false → s.dev.eng.tx.haltSent = false → s.dev.eng.tx.queue.length < 8 →
      (∀ m ∈ s.dev.eng.tx.queue, m.kind ≠ .halt) →
      exec (.retire dt) s = goesTo s (replied 0x0F [] .ok [] { d with eng :=
        { e with ctl := { e.ctl with haltOwed := some .retired }, tx := { e.tx with queue := halt :: e.tx.queue } } })) ∧
    (s.dev.eng.tx.mute = false → s.dev.eng.tx.haltSent = false →
      ∀ pre m post, e.tx.queue = pre ++ m :: post → 8 ≤ e.tx.queue.length → m.kind ≠ .halt → m.kind ≠ .announce →
      m.originTask = none → (∀ x ∈ pre, x.kind ≠ .halt) → (∀ x ∈ post, x.kind = .announce) →
      exec (.retire dt) s = goesTo s (replied 0x0F [] .ok [] { d with eng :=
        { e with
          tx := { e.tx with queue := halt :: (pre ++ post) },
          ctl := { e.ctl with
            haltOwed := some .retired, counters := { e.ctl.counters with dropped := bumpBy 1 e.ctl.counters.dropped },
            latched := { e.ctl.latched with markerLoss := true } } } })) ∧
    (s.dev.eng.tx.mute = true →
      exec (.retire dt) s = goesTo s (replied 0x0F [] .ok [] { d with eng :=
        { e with ctl := { e.ctl with state := .halted, departure := .none, haltOwed := none },
                 peers := e.peers.set e.ctl.stationNo own } }))

/-- The RESET request (R164): due at once in UNSET, in HALTED and while muted; without effect while a reset waits; else a
departure with a deadline of 2^24 TU and a HALT with reason RESET owed and offered (R162). A HALT already queued, that of a
RETIRE, takes the new reason unless it is in transmission; a full queue loses its EDGE or GATE entry nearest the tail as
DROPPED, which its origin task learns (R122). -/
def Obligations.ResetRequestOwesTheHalt : Prop :=
  ∀ (s : State) (dt : Nat), awaitsRequest s →
    let d := atTime dt s
    let leads := fun e => exec (.reset dt) s = goesTo s (replied 0x10 [] .ok [] { d with eng := e })
    let c := d.eng.ctl
    let payload : BitVec 24 := (0b10 : BitVec 2) ++ (0 : BitVec 22)
    let halt : OutEntry := { kind := .halt, tag := 0, origin := none, originTask := none, inTransmission := false,
                             removeAtEnd := false, payload := payload }
    let leaving : Control := { c with departure := .reset, resetDeadline := some (d.now + BitVec.ofNat 48 (2 ^ 24)),
                                      haltOwed := some .reset }
    let queued := fun (e : Engine) q => { e with tx := { e.tx with queue := q } }
    (c.state = .unset ∨ c.state = .halted ∨ d.eng.tx.mute = true →
      leads { d.eng with ctl := { c with resetDue := true } }) ∧
    (c.state = .joining ∨ c.state = .live → d.eng.tx.mute = false →
      (c.departure = .reset → leads d.eng) ∧
      (c.departure ≠ .reset → d.eng.tx.haltSent = false →
        ((∃ m ∈ d.eng.tx.queue, m.kind = .halt) →
          leads (queued { d.eng with ctl := leaving } (d.eng.tx.queue.map (fun m =>
            if m.kind = .halt ∧ m.inTransmission = false then { m with payload := payload } else m)))) ∧
        ((∀ m ∈ d.eng.tx.queue, m.kind ≠ .halt) → d.eng.tx.queue.length < 8 →
          leads (queued { d.eng with ctl := leaving } (halt :: d.eng.tx.queue))) ∧
        (∀ pre m post, d.eng.tx.queue = pre ++ m :: post → 8 ≤ d.eng.tx.queue.length → m.kind ≠ .halt →
          m.kind ≠ .announce → (∀ x ∈ pre, x.kind ≠ .halt) → (∀ x ∈ post, x.kind = .announce) →
          let counted := { leaving with
            counters := { c.counters with dropped := bumpBy 1 c.counters.dropped },
            latched := { c.latched with markerLoss := true } }
          let e := queued { d.eng with ctl := counted } (pre ++ post)
          (m.originTask = none → leads (queued e (halt :: e.tx.queue))) ∧
          (∀ t o, m.originTask = some t → m.origin = some o →
            let told := e.giveOutcome d.front t ⟨o, .dropped, 0⟩
            (∀ x ∈ told.tx.queue, x.kind ≠ .halt) → leads (queued told (halt :: told.tx.queue))))))

/-! ## Reading results -/

/-- A completed READ RESULT takes the head from the queue. Where its task is neither PAUSED on it nor waiting to re-arm
and no task is STALLED, nothing else changes but the port (R155).
The place a read frees goes to the STALLED task of the lowest number: its held block enters at the tail, and a task
whose run end is pending takes its end (R153, R41).
A STALLED task whose run continues takes the freed place: PACED, it becomes PAUSED on its block (R153, R45); else it
returns to RUNNING and catches up (R39), before the task of the block that was read may resume.
Several STALLED tasks (R153): the free places, that of the block read among them, go to the STALLED tasks in ascending
number, one to each while places last; every held block has entered before the tasks that returned to RUNNING catch up, in
ascending number; then the task PAUSED on the block that was read resumes, and a re-arm it waited for takes place (R155).
A FINAL head whose task waits to re-arm, with a STALLED task waiting for the place (R153, R155): the place is handed on
first, and then the task of the block re-arms, or loses its re-arm where a check of ARM TASK fails (R44). That a FINAL block of
an earlier run does so too is the model's choice, deduced (log 50). -/
def Obligations.CompletedReadFreesAPlace : Prop :=
  (∀ (s : State) (dt : Nat) (pins : ReleasePins) (b : Block) (rest : List Block) (body : List Byte),
     s.dev.held = false → s.dev.port.phase = .reply → s.dev.port.kind = some 0x09 → s.dev.port.reply = some ⟨.ok, body⟩ →
     s.dev.eng.ctl.resetDue = false → s.dev.eng.queue = b :: rest →
     (∀ t, (s.dev.eng.tasks.get t).state ≠ .stalled) →
     ¬((s.dev.eng.tasks.get b.task).state = .paused ∧ (s.dev.eng.tasks.get b.task).pausedOn = some b.number) →
     ¬(b.final = true ∧ (s.dev.eng.tasks.get b.task).state = .done ∧ (s.dev.eng.tasks.get b.task).rearmPending = true) →
     unitSettled (atTime dt s).now s.dev.eng →
     let d := atTime dt s
     exec (.replyCompleted dt pins) s =
       goesTo s (withPort { d with eng := { d.eng with queue := rest } } { d.port with phase := .done })) ∧
  (∀ (s : State) (dt : Nat) (pins : ReleasePins) (b h : Block) (rest : List Block) (body : List Byte) (t : TaskId)
     (cause : EndCause),
     s.dev.held = false → s.dev.port.phase = .reply → s.dev.port.kind = some 0x09 → s.dev.port.reply = some ⟨.ok, body⟩ →
     s.dev.eng.ctl.resetDue = false → s.dev.eng.queue = b :: rest → rest.length = 15 →
     (s.dev.eng.tasks.get t).state = .stalled → (s.dev.eng.tasks.get t).heldBlock = some h →
     (s.dev.eng.tasks.get t).runEndPending = some cause → (∀ u, u < t → (s.dev.eng.tasks.get u).state ≠ .stalled) →
     ¬((s.dev.eng.tasks.get b.task).state = .paused ∧ (s.dev.eng.tasks.get b.task).pausedOn = some b.number) →
     b.final = false → unitSettled (atTime dt s).now s.dev.eng →
     let d := atTime dt s
     let k := { d.eng.tasks.get t with
       heldBlock := none, state := endsAs cause, endCause := some cause, runEndPending := none, cause := .none }
     exec (.replyCompleted dt pins) s =
       goesTo s (withPort { d with eng := { d.eng with queue := rest ++ [h], tasks := d.eng.tasks.set t k } }
         { d.port with phase := .done })) ∧
  (∀ (s : State) (dt : Nat) (pins : ReleasePins) (b h : Block) (rest : List Block) (body : List Byte) (t : TaskId)
     (td : TaskDef),
     s.dev.held = false → s.dev.port.phase = .reply → s.dev.port.kind = some 0x09 → s.dev.port.reply = some ⟨.ok, body⟩ →
     s.dev.eng.ctl.resetDue = false → s.dev.eng.queue = b :: rest → rest.length = 15 → b.final = false →
     (s.dev.eng.tasks.get t).state = .stalled → (s.dev.eng.tasks.get t).heldBlock = some h → h.final = false →
     (s.dev.eng.tasks.get t).defn = some td → (s.dev.eng.tasks.get t).runEndPending = none →
     (∀ u, u < t → (s.dev.eng.tasks.get u).state ≠ .stalled) →
     let d := atTime dt s
     let k := { d.eng.tasks.get t with heldBlock := none }
     let entered := fun (k : TaskRec) => { d.eng with queue := rest ++ [h], tasks := d.eng.tasks.set t k }
     let leads := fun (e : Engine) =>
       exec (.replyCompleted dt pins) s =
         goesTo s (withPort { d with eng := e.arbitrate d.now } { d.port with phase := .done })
     (td.continuation = .paced →
       ¬((s.dev.eng.tasks.get b.task).state = .paused ∧ (s.dev.eng.tasks.get b.task).pausedOn = some b.number) →
       ¬(b.task = t ∧ b.number = h.number) →
       leads (entered { k with state := .paused, cause := .paused, pausedOn := some h.number })) ∧
     (td.continuation ≠ .paced →
       leads (((entered { k with state := .running, cause := .none }).catchUp d.front t).resumePaused d.front b))) ∧
  (∀ (s : State) (dt : Nat) (pins : ReleasePins) (b : Block) (rest : List Block) (body : List Byte),
     s.dev.held = false → s.dev.port.phase = .reply → s.dev.port.kind = some 0x09 → s.dev.port.reply = some ⟨.ok, body⟩ →
     s.dev.eng.ctl.resetDue = false → s.dev.eng.queue = b :: rest →
     (∀ t, (s.dev.eng.tasks.get t).state = .stalled → (s.dev.eng.tasks.get t).heldBlock ≠ none) →
     let d := atTime dt s
     let served := (taskIds.filter (fun t => (d.eng.tasks.get t).state == .stalled)).take (16 - rest.length)
     let pauses := fun (k : TaskRec) (h : Block) =>
       k.runEndPending = none ∧ h.final = false ∧ ∃ td, k.defn = some td ∧ td.continuation = .paced
     ∃ e : Engine,
       e.queue = rest ++ served.filterMap (fun t => (d.eng.tasks.get t).heldBlock) ∧
       (∀ t, t ∉ served → e.tasks.get t = d.eng.tasks.get t) ∧
       (∀ t h, t ∈ served → (d.eng.tasks.get t).heldBlock = some h →
         let k := { d.eng.tasks.get t with heldBlock := none }
         (∀ cause, k.runEndPending = some cause → e.tasks.get t =
           { k with state := endsAs cause, endCause := some cause, runEndPending := none, cause := .none }) ∧
         (pauses k h → e.tasks.get t = { k with state := .paused, cause := .paused, pausedOn := some h.number }) ∧
         (k.runEndPending = none → ¬pauses k h → e.tasks.get t = { k with state := .running, cause := .none })) ∧
       e.unit = d.eng.unit ∧ e.tx = d.eng.tx ∧ e.slots = d.eng.slots ∧ e.peers = d.eng.peers ∧ e.ctl = d.eng.ctl ∧
       exec (.replyCompleted dt pins) s = goesTo s (withPort
         { d with eng := (((((served.filter (fun t => (e.tasks.get t).state == .running)).foldl
           (fun e t => e.catchUp d.front t) e).resumePaused d.front b).rearmOnRead d.front b).arbitrate d.now) }
         { d.port with phase := .done })) ∧
  (∀ (s : State) (dt : Nat) (pins : ReleasePins) (b h : Block) (rest : List Block) (body : List Byte) (t : TaskId)
     (cause : EndCause) (td : TaskDef),
     s.dev.held = false → s.dev.port.phase = .reply → s.dev.port.kind = some 0x09 → s.dev.port.reply = some ⟨.ok, body⟩ →
     s.dev.eng.ctl.resetDue = false → s.dev.eng.queue = b :: rest → rest.length = 15 → b.final = true →
     (s.dev.eng.tasks.get t).state = .stalled → (s.dev.eng.tasks.get t).heldBlock = some h →
     (s.dev.eng.tasks.get t).runEndPending = some cause → (∀ u, u < t → (s.dev.eng.tasks.get u).state ≠ .stalled) →
     (s.dev.eng.tasks.get b.task).state = .done → (s.dev.eng.tasks.get b.task).rearmPending = true →
     (s.dev.eng.tasks.get b.task).defn = some td → unitSettled (atTime dt s).now s.dev.eng →
     let d := atTime dt s
     let placed := d.eng.tasks.set t { d.eng.tasks.get t with
       heldBlock := none, state := endsAs cause, endCause := some cause, runEndPending := none, cause := .none }
     let k := d.eng.tasks.get b.task
     let leads := fun (k' : TaskRec) => exec (.replyCompleted dt pins) s = goesTo s (withPort
       { d with eng := { d.eng with queue := rest ++ [h], tasks := placed.set b.task k' } } { d.port with phase := .done })
     (d.eng.armRefusal d.front td = none → leads (k.started d.front td)) ∧
     (d.eng.armRefusal d.front td ≠ none → leads { k with rearmPending := false }))

/-- A completed read wakes the block's task: PAUSED on it, it returns to RUNNING and catches up (R45, R39); DONE with re-arm
pending and the block FINAL, it starts a new run if the checks of ARM TASK from NOT_LIVE on pass, and loses its re-arm
if one fails (R44). That a FINAL block of an earlier run does so too is the model's choice, deduced (log 50).
Catching up on a ring (R39, R24, R25), with nothing to do for a task that takes no entries. A TIMESTAMP task adds the
entries lost to it to its gap count and takes the retained ones in index order, one result each (R84). A PUBLISH task passes
over what came meanwhile, counting it in the gap, and takes its deferred outcomes, oldest first (R88). -/
def Obligations.CompletedReadWakesItsTask : Prop :=
  (∀ (s : State) (dt : Nat) (pins : ReleasePins) (b : Block) (rest : List Block) (body : List Byte) (td : TaskDef),
     s.dev.held = false → s.dev.port.phase = .reply → s.dev.port.kind = some 0x09 → s.dev.port.reply = some ⟨.ok, body⟩ →
     s.dev.eng.ctl.resetDue = false → s.dev.eng.queue = b :: rest →
     (∀ t, (s.dev.eng.tasks.get t).state ≠ .stalled) → (s.dev.eng.tasks.get b.task).defn = some td →
     let d := atTime dt s
     let k := d.eng.tasks.get b.task
     let leads := fun (e : Engine) =>
       exec (.replyCompleted dt pins) s = goesTo s (withPort { d with eng := e } { d.port with phase := .done })
     let with_ := fun (k : TaskRec) => { d.eng with queue := rest, tasks := d.eng.tasks.set b.task k }
     let running : TaskRec := { k with state := .running, cause := .none, pausedOn := none }
     (k.state = .paused → k.pausedOn = some b.number → b.final = false →
       leads (((with_ running).catchUp d.front b.task).arbitrate d.now)) ∧
     (b.final = true → k.state = .done → k.rearmPending = true → unitSettled d.now d.eng →
       (d.eng.armRefusal d.front td = none → leads (with_ (k.started d.front td))) ∧
       (d.eng.armRefusal d.front td ≠ none → leads (with_ { k with rearmPending := false })))) ∧
  (∀ (fr : Front) (e : Engine) (t : TaskId) (td : TaskDef) (c : Nat),
     (e.tasks.get t).defn = some td → (e.tasks.get t).cursor = some c →
     let k := e.tasks.get t
     let goes := fun (k : TaskRec) => { e with tasks := e.tasks.set t k }
     let cap := fun (n : Nat) => min n (2 ^ 32 - 1)
     (e.takes t = false → e.catchUp fr t = e) ∧
     (∀ ch gap, e.takes t = true → td.fields = .timestamp ch → k.run = .timestamp gap → RingLaw (fr.ring ch) →
       let ring := fr.ring ch
       let total := cap (gap + (ring.oldest - c))
       ((∀ x ∈ ring.entries, x.index < c) →
         e.catchUp fr t = goes { k with cursor := some (max c ring.oldest), run := .timestamp total }) ∧
       (∀ x ∈ ring.entries, x.index = max c ring.oldest →
         e.catchUp fr t = (Engine.takeResult fr.now t (.timestamp
           { stamp := x.stamp, seqNo := x.seqNo, count := x.count, gapCount := total, gap := decide (total ≠ 0),
             degraded := fr.tb.stampDegraded ⟨x.stamp, false⟩ }) 1
           (goes { k with cursor := some (x.index + 1), run := .timestamp 0 })).catchUp fr t)) ∧
     (∀ p run, e.takes t = true → td.fields = .publish p → k.run = .publish run →
       let next := (fr.ring p.channel).nextIndex
       let total := cap (run.gap + (next - c))
       let passed := fun (r : PublishRun) => goes { k with cursor := some next, run := .publish r }
       (run.deferred = [] → e.catchUp fr t = passed { run with gap := total }) ∧
       (∀ x xs, run.deferred = x :: xs →
         e.catchUp fr t = (Engine.takeResult fr.now t (.publish
           { edge := x.edge.stamp, outcome := x.outcome, delay := x.delay, gapCount := total, gap := decide (total ≠ 0),
             degraded := fr.tb.stampDegraded x.edge }) 1 (passed { run with gap := 0, deferred := xs })).catchUp fr t)))

/-! ## The timebase -/

/-- The loss of the reference, declared in PRESENT only (R3, R6, R166): ABSENT, DEGRADED, a new span from the last edge with
the oldest of four folded into the floor, TIMEBASE latched, and the station fault held while the hold is clear. In HALTED
the fault changes nothing. In another state of the monitor the command is no occasion for one (log 3).
A reference event in a state it does not belong to, or a qualification before its millisecond is over, is no occasion:
only the time passes. That such an event does nothing is the model's choice (log 3). -/
def Obligations.ReferenceLossIsDeclared : Prop :=
  (∀ (s : State) (dt : Nat) (lastEdge : Stamp), s.dev.held = false →
     let d := atTime dt s
     let tb := d.front.tb
     let opened : Span := ⟨⟨lastEdge, false⟩, none⟩
     let lost : Timebase :=
       { now := tb.now, monitor := .absent, degraded := true, qualifyFrom := none,
         spans := (if tb.spans.length < 4 then tb.spans else tb.spans.tail) ++ [opened],
         floor := if tb.spans.length < 4 then tb.floor else tb.spans.head?.bind Span.stop }
     let leads := fun (c : Control) =>
       exec (.referenceLost dt lastEdge) s =
         goesTo s { d with front := { d.front with tb := lost }, eng := { d.eng with ctl := c } }
     let latched := { d.eng.ctl.latched with timebase := true }
     (tb.monitor ≠ .present → exec (.referenceLost dt lastEdge) s = goesTo s d) ∧
     (tb.monitor = .present → d.eng.ctl.state = .halted → leads { d.eng.ctl with latched := latched }) ∧
     (tb.monitor = .present → d.eng.ctl.state ≠ .halted → d.eng.ctl.faultHold = false →
       leads { d.eng.ctl with latched := latched, faultHold := true, faultRecord := some ⟨.referenceLost, tb.now, 0⟩ })) ∧
  (∀ (s : State) (dt : Nat), s.dev.held = false →
     let d := atTime dt s
     let tb := d.front.tb
     let nothing := fun (c : Instr) => exec c s = goesTo s d
     (tb.monitor ≠ .absent → nothing (.referenceEdgeReturns dt)) ∧
     (tb.monitor ≠ .returning → nothing (.returningSilence dt)) ∧
     (∀ t, tb.qualifyFrom = some t → reached tb.now (plus t 8000000) = false → nothing (.referenceQualified dt)) ∧
     (tb.monitor ≠ .returning → nothing (.referenceQualified dt)))

/-- A station fault while the hold is set halts the station (R166, R167): REFERENCE_LOST, LINE_STUCK, and IDENTITY_CLASH
(R114), whose mute drops what is not in transmission (R127), each lead to the halt of their class; that the mute comes before
the fault is the model's choice, deduced (log 10). With the loss of
the reference: HALTED with the fault as its cause and the first fault's record kept, every defined task FAULTED and nothing
of a run left (R49), no marker queued but one in transmission and the HALT (R126), and the HALT owed unless none can be sent;
then the own peer entry is HALTED at once (R140, R162).
What a station halt takes, whatever the fault (R167): the runs end with cause HALT, a task already FAULTED keeping its end
cause (R49, R40); the last blocks of the tasks are offered in ascending number to the places the result queue has left, an open
block taking its number only as it enters (R157); the slots are FREE, waiting jobs withdrawn and the one in progress discarded;
markers not in transmission are dropped, one in transmission keeps its place for its frame only (R126); a departure by RESET
stays (R164), and the HALT is owed and queued, or, where none can be sent, the own peer entry is HALTED (R140, R162).
Task faults, as a result is taken in a run that goes on (R37, R46, R47, R48): an ORPHANED result takes PEER_LOST, a failed one
that brings the failure count to F takes FAILURE_RUN and sets the count to 0. Under KEEP the run ends with the fault as its
cause; under RAISE one ESCALATED is handed up for the result, with the task's number and the time: the hold is set, or, set
already, the station halts. That the failure count is 0 in that halt too, where R48 stops the work of R37, is the model's
choice, deduced (log 35). -/
def Obligations.SecondFaultHaltsTheStation : Prop :=
  (∀ (s : State) (dt : Nat), s.dev.held = false → s.dev.eng.ctl.state ≠ .halted → s.dev.eng.ctl.faultHold = true →
     let d := atTime dt s
     let c := d.eng.ctl
     let tb := d.front.tb
     let lost := fun (lastEdge : Stamp) => ({
         now := tb.now, monitor := .absent, degraded := true, qualifyFrom := none,
         spans := (if tb.spans.length < 4 then tb.spans else tb.spans.tail) ++ [⟨⟨lastEdge, false⟩, none⟩],
         floor := if tb.spans.length < 4 then tb.floor else tb.spans.head?.bind Span.stop } : Timebase)
     (∀ lastEdge, tb.monitor = .present →
       ∃ e, exec (.referenceLost dt lastEdge) s =
           goesTo s { d with front := { d.front with tb := lost lastEdge }, eng := e } ∧
         e = { d.eng.stationHalt .referenceLost with
           ctl := { (d.eng.stationHalt .referenceLost).ctl with
             latched := { (d.eng.stationHalt .referenceLost).ctl.latched with timebase := true } } } ∧
         e.ctl.state = .halted ∧ e.ctl.haltCause = some (.fault .referenceLost) ∧ e.ctl.faultHold = true ∧
         e.ctl.faultRecord = c.faultRecord ∧
         (∀ t, ((s.dev.eng.tasks.get t).state ≠ .empty → (e.tasks.get t).state = .faulted ∧ (e.tasks.get t).run = .none ∧
             (e.tasks.get t).openBlock = none ∧ (e.tasks.get t).heldBlock = none ∧ (e.tasks.get t).cursor = none) ∧
           ((s.dev.eng.tasks.get t).state = .empty → e.tasks.get t = s.dev.eng.tasks.get t)) ∧
         (∀ m ∈ e.tx.queue, m.kind = .halt ∨ m.inTransmission = true) ∧
         (c.state ≠ .unset → d.eng.tx.mute = false →
           e.ctl.haltOwed = some .fault ∧ e.tx.queue.any (fun m => m.kind == .halt) = true) ∧
         (c.state = .unset ∨ d.eng.tx.mute = true →
           e.ctl.haltOwed = none ∧ (e.peers.get e.ctl.stationNo).state = .halted ∧
           (e.peers.get e.ctl.stationNo).haltReason = some .fault)) ∧
     (∀ t, d.rx.state = .stuck → d.rx.episodeReported = false → d.rx.episodeStart = some t →
       reached d.now (plus t (2000 * d.lu)) = true →
       exec (.lineStuck dt) s = goesTo s { withRx d { d.rx with episodeReported := true } with
         eng := d.eng.stationHalt .lineStuck }) ∧
     (∀ pins attention, d.rx.state = .frame → d.rx.attention = some attention → d.rx.judged = false →
       d.rx.bits.length = 40 → d.rx.ownPart ≠ .sending → checkRight (wordOfBits d.rx.bits) = true →
       wordSource (wordOfBits d.rx.bits) = c.stationNo → markerKindOf (wordKind (wordOfBits d.rx.bits)) ≠ none →
       d.eng.tx.mute = false → c.departure ≠ .reset ∨ c.haltOwed = none → (∀ m ∈ d.eng.tx.queue, m.originTask = none) →
       let gone := d.eng.tx.queue.filter (fun m => !m.inTransmission)
       exec (.markerReceived dt pins) s = goesTo s { withRx d { d.rx with judged := true } with
         eng := Engine.stationHalt .identityClash { d.eng with
           tx := { d.eng.tx with mute := true, queue := d.eng.tx.queue.filter (fun m => m.inTransmission) },
           ctl := { c with
             counters := { c.counters with
               dropped := if gone = [] then c.counters.dropped else bumpBy gone.length c.counters.dropped },
             latched := { c.latched with markerLoss := true } } } })) ∧
  (∀ (cls : FaultClass) (e : Engine),
     let h := e.stationHalt cls
     let c := e.ctl
     let defined := fun (t : TaskId) => decide ((e.tasks.get t).state ≠ .empty)
     let silent := c.state = .unset ∨ e.tx.mute = true
     let last := fun (t : TaskId) =>
       let k := e.tasks.get t
       if k.state = .empty then ([] : List Block) else match k.defn, k.heldBlock, k.openBlock with
         | some td, some b, _ => [{ b with final := true, short := decide (b.results.length < td.blockSize) }]
         | some td, none, some (r :: rs) =>
           [{ task := t, kind := td.fields.kind, number := k.nextBlock, final := true,
              short := decide (rs.length + 1 < td.blockSize), results := r :: rs }]
         | _, _, _ => []
     let places := 16 - e.queue.length
     let ahead := fun (t : TaskId) => ((taskIds.filter (fun u => decide (u < t))).flatMap last).length
     let kept := (e.tx.queue.filter (fun m => m.inTransmission)).map (fun m =>
       { m with removeAtEnd := true, originTask := if m.originTask.any defined then none else m.originTask })
     let dropped := (e.tx.queue.filter (fun m => !m.inTransmission)).length
     let halt : OutEntry := { kind := .halt, tag := 0, origin := none, originTask := none, inTransmission := false,
                              removeAtEnd := false, payload := (0b11 : BitVec 2) ++ (0 : BitVec 22) }
     let own := { e.peers.get c.stationNo with state := .halted, haltReason := some .fault }
     h.queue = e.queue ++ (taskIds.flatMap last).take places ∧
     (∀ t, let k := e.tasks.get t
       (k.state = .empty → h.tasks.get t = k) ∧
       (k.state ≠ .empty → h.tasks.get t = { releasedRecord e t with
         heldBlock := none, state := .faulted, endCause := if k.state = .faulted then k.endCause else some .halt,
         cause := .none, runEndPending := none, rearmPending := false,
         nextBlock := if k.heldBlock = none ∧ last t ≠ [] ∧ ahead t < places then k.nextBlock + 1 else k.nextBlock })) ∧
     (∀ i, (e.slots.get i = none → h.slots.get i = none) ∧ ∀ y, e.slots.get i = some y →
       (defined y.task = true → h.slots.get i = none) ∧
       (defined y.task = false → ∃ n, h.slots.get i = some { y with arrival := n })) ∧
     h.unit = { waiting := e.unit.waiting.filter (fun w => !defined w.task),
                current := e.unit.current.map (fun j => { j with discarded := j.discarded || defined j.task }) } ∧
     h.tx = { e.tx with queue := if silent ∨ kept.any (fun m => m.kind == .halt) = true then kept else halt :: kept } ∧
     h.peers = (if silent then e.peers.set c.stationNo own else e.peers) ∧
     h.ctl = { c with
       state := .halted, haltCause := some (.fault cls), departure := if c.departure = .reset then .reset else .none,
       haltOwed := if silent then none else some .fault,
       counters := { c.counters with dropped := if dropped = 0 then c.counters.dropped else bumpBy dropped c.counters.dropped },
       latched := { c.latched with
         taskEnded := c.latched.taskEnded || taskIds.any (fun t => (e.tasks.get t).runContinues),
         markerLoss := c.latched.markerLoss || decide (dropped ≠ 0) } }) ∧
  (∀ (now : Stamp) (t : TaskId) (td : TaskDef) (r : Result) (n : Nat) (rs : List Result) (e : Engine),
     e.takes t = true → (e.tasks.get t).defn = some td → (e.tasks.get t).openBlock = some rs →
     let k := e.tasks.get t
     let total := if td.runLength = 0 then min (k.resultsInRun + n) 65535 else k.resultsInRun + n
     let fails := if r.failed then min (k.failCount + 1) 255 else 0
     let joined := fun (fails : Nat) =>
       { e with tasks := e.tasks.set t { k with openBlock := some (rs ++ [r]), resultsInRun := total, failCount := fails } }
     let taken := e.takeResult now t r n
     let goesOn := (td.runLength = 0 ∨ total < td.runLength) ∧ rs.length + 1 < td.blockSize
     let failureRun := td.failLimit ≠ 0 ∧ td.failLimit ≤ fails
     let raised := fun (e : Engine) => { e with ctl := { e.ctl with
       faultHold := true, faultRecord := some ⟨.escalated, now, BitVec.ofNat 8 t.val⟩ } }
     let live := e.ctl.state ≠ .halted
     (r.orphaned = false → ¬failureRun → goesOn → taken = joined fails) ∧
     (r.orphaned = true → td.onPeerLost = .keep → taken = runEnded now t td .peerLost (joined fails)) ∧
     (r.orphaned = true → td.onPeerLost = .raise → live →
       (e.ctl.faultHold = true → taken = (joined fails).stationHalt .escalated) ∧
       (e.ctl.faultHold = false →
         (¬failureRun → goesOn → taken = raised (joined fails)) ∧
         (failureRun → td.onFailureRun = .raise → goesOn → taken = raised (joined 0)) ∧
         (failureRun → td.onFailureRun = .keep → taken = runEnded now t td .failureRun (raised (joined 0))))) ∧
     (r.orphaned = false → failureRun →
       (td.onFailureRun = .keep → taken = runEnded now t td .failureRun (joined 0)) ∧
       (td.onFailureRun = .raise → live →
         (e.ctl.faultHold = true → taken = (joined 0).stationHalt .escalated) ∧
         (e.ctl.faultHold = false → goesOn → taken = raised (joined 0)))))

/-- How the monitor leaves ABSENT and RETURNING (R4): the first edge, 2 µs of silence, and 1 ms without one, which closes
the newest span at the current stamp, clears DEGRADED and latches TIMEBASE. -/
def Obligations.ReferenceReturns : Prop :=
  ∀ (s : State) (dt : Nat), s.dev.held = false →
    let d := atTime dt s
    let tb := d.front.tb
    let leads := fun (c : Instr) (tb : Timebase) (l : Latched) =>
      exec c s = goesTo s { d with front := { d.front with tb := tb }, eng := { d.eng with ctl := { d.eng.ctl with latched := l } } }
    let l := d.eng.ctl.latched
    (tb.monitor = .absent →
      leads (.referenceEdgeReturns dt) { tb with monitor := .returning, qualifyFrom := some tb.now } l) ∧
    (tb.monitor = .returning → leads (.returningSilence dt) { tb with monitor := .absent, qualifyFrom := none } l) ∧
    (∀ t older newest, tb.monitor = .returning → tb.qualifyFrom = some t → tb.spans = older ++ [newest] →
      reached tb.now (plus t 8000000) = true →
      leads (.referenceQualified dt)
        { tb with monitor := .present, degraded := false, qualifyFrom := none,
                  spans := older ++ [⟨newest.start, some tb.now⟩] } { l with timebase := true })

/-- The oldest span leaves once its end lies more than 2^46 TU behind, and so does the floor (R6); an end that does not, or a
span without one, stays.
The degraded test (R7, R100): at or before the floor, or inside a span; a long-past stamp with a floor, or with a span
whose start is long past. -/
def Obligations.DegradedHistory : Prop :=
  (∀ (s : State) (dt : Nat), s.dev.held = false →
     let d := atTime dt s
     let tb := d.front.tb
     let leads := fun (c : Instr) (tb : Timebase) => exec c s = goesTo s { d with front := { d.front with tb := tb } }
     let elapsed := fun (t : Stamp) => reached tb.now (plus t (2 ^ 46 + 1)) = true
     (∀ sp rest t, tb.spans = sp :: rest → sp.stop = some t → elapsed t → leads (.degradedSpanAged dt) { tb with spans := rest }) ∧
     (∀ sp rest, tb.spans = sp :: rest → (∀ t, sp.stop = some t → ¬elapsed t) → leads (.degradedSpanAged dt) tb) ∧
     (∀ t, tb.floor = some t → elapsed t → leads (.floorAged dt) { tb with floor := none }) ∧
     (∀ t, tb.floor = some t → ¬elapsed t → leads (.floorAged dt) tb) ∧
     (tb.floor = none → leads (.floorAged dt) tb)) ∧
  (∀ (tb : Timebase) (t : Stamp),
     (tb.stampDegraded ⟨t, false⟩ = true ↔
       (∃ f, tb.floor = some f ∧ later t f = false) ∨
       ∃ sp ∈ tb.spans, (sp.start.longPast = true ∨ later sp.start.stamp t = false) ∧
         (∀ e, sp.stop = some e → later t e = false)) ∧
     (tb.stampDegraded ⟨t, true⟩ = true ↔
       tb.floor ≠ none ∨ ∃ sp ∈ tb.spans, sp.start.longPast = true ∨
         reached tb.now (plus sp.start.stamp (2 ^ 46 + 1)) = true))

/-- KEPT_TIME_LONG_PAST marks every kept time whose moment, its stamp + 2^46 + 1, the current time has reached, and changes
nothing else (R100): span starts, the times of the channels, quiet since, the open times of OPEN gates (R145), arm times,
the times in every kind state and waiting result, slots and outgoing origins. The record of a ring has its own row (R21).
The model's choices, deduced: the open time a TIMED gate is formed from carries no mark, the ages of the gate times are counted
whole (log 11); the search time and the window end of a start are kept and marked on their own (log 33); the model's own notes of the moments of
offers are marked too (log 53). -/
def Obligations.KeptTimesAreMarked : Prop :=
  ∀ (s : State) (dt : Nat), s.dev.held = false →
    let d := atTime dt s
    let mark := fun (k : Kept) => (⟨k.stamp, k.longPast || reached d.now (plus k.stamp (2 ^ 46 + 1))⟩ : Kept)
    let gate := fun (g : GateSpan) => { g with opened := mark g.opened, closed := mark g.closed }
    let start := fun (x : Start) => (⟨mark x.time, mark x.searchFrom, mark x.windowEnd⟩ : Start)
    let run := fun (r : RunState) => match r with
      | .none => RunState.none
      | .frequency r => .frequency { r with
          followed := r.followed.map (fun w => { w with opened := mark w.opened }), ended := r.ended.map gate,
          missed := r.missed.map gate, later := r.later.map (fun m => { m with opened := mark m.opened }) }
      | .phase r => .phase { r with
          newestRef := r.newestRef.map mark,
          pending := r.pending.map (fun x => { x with longPast := (mark ⟨x.entry.stamp, x.longPast⟩).longPast }) }
      | .interval r => .interval { r with pending := r.pending.map start }
      | .timestamp gap => .timestamp gap
      | .publish r => .publish { r with deferred := r.deferred.map (fun x => { x with edge := mark x.edge }) }
    let waiting := fun (w : Partial) => match w with
      | .frequency g edges span e1 e2 short => Partial.frequency (gate g) edges span (mark e1) (mark e2) short
      | .phase x period r1 r2 => .phase (mark x) period (mark r1) (mark r2)
    exec (.keptTimeLongPast dt) s = goesTo s { d with
      front := {
        tb := { d.front.tb with spans := d.front.tb.spans.map (fun sp => { sp with start := mark sp.start }) },
        chans := d.front.chans.map (fun c =>
          { c with deadUntil := c.deadUntil.map mark, configuredAt := c.configuredAt.map mark }) },
      rx := { d.rx with quietSince := d.rx.quietSince.map mark },
      gates := d.gates.map (fun g =>
        { g with openTime := if g.state = .opened then g.openTime.map mark else g.openTime }),
      eng := { d.eng with
        tasks := d.eng.tasks.map (fun k =>
          { k with armTime := k.armTime.map mark, run := run k.run, waitingResult := k.waitingResult.map waiting }),
        slots := d.eng.slots.map (fun o => o.map (fun x =>
          { x with attention := mark x.attention, start := start x.start })),
        queue := d.eng.queue.map (fun b => { b with offered := b.offered.map mark }),
        tx := { d.eng.tx with queue := d.eng.tx.queue.map (fun m =>
          { m with origin := m.origin.map mark, offered := m.offered.map (fun o => { o with time := mark o.time }) }) } } }

/-! ## Channels and rings -/

/-- A level change on a pin. A pulse shorter than 13 TU vanishes with both its edges (R9); the pairing of its edges is the
model's choice (log 7, log 39). A channel that is disabled, or of a station in reset, follows the level and sees nothing
else. A change not later than the channel's configuration makes no edge, and its level is taken as the accepted one (R16;
the latter the model's choice, log 38). A pending change that has persisted W coarse ticks is qualified first. Then with W > 0
the change is recorded as pending, or drops the pending one when the pin returns to the accepted level; with W = 0 a change
away from the accepted level is qualified at once, as EDGE_QUALIFIED does, and a return does nothing (R9). -/
def Obligations.PinChangesAreFiltered : Prop :=
  ∀ (s : State) (dt : Nat) (ch : Chan) (persists : Nat),
    let d := if s.dev.held then s.dev else atTime dt s
    let c := d.front.chan ch
    let goes := fun (d : Station) => exec (.pinLevelChange dt ch persists) s = goesTo s d
    let leads := fun (c : Channel) => goes (withChan d ch c)
    let moved : Channel := { c with pinLevel := !c.pinLevel }
    let toggled : State := { s with dev := withChan s.dev ch moved }
    let pendsOr := fun (accepted : Bool) => if (!c.pinLevel) = accepted then none else some d.now
    let due := fun raw => reached d.now (plus raw (c.glitch.val * 32))
    let later := ∀ t, c.configuredAt = some t → (⟨d.now, false⟩ : Kept).laterThan t = true
    (c.inShortPulse = true → leads { moved with inShortPulse := false }) ∧
    (c.inShortPulse = false →
      (persists < 13 → leads { moved with inShortPulse := true }) ∧
      (13 ≤ persists →
        (c.enabled = false ∨ s.dev.held = true → leads moved) ∧
        (c.enabled = true → s.dev.held = false →
          (∀ t, c.configuredAt = some t → (⟨d.now, false⟩ : Kept).laterThan t = false →
            (∀ raw, c.pendingChange = some raw → due raw = false) → leads { moved with accepted := !c.pinLevel }) ∧
          (later →
            (∀ raw, c.pendingChange = some raw → due raw = true → c.glitch ≠ 0 →
              ∃ q, exec (.edgeQualified dt ch) toggled = goesTo s q ∧
                goes (withChan q ch { q.front.chan ch with pendingChange := pendsOr (!c.accepted) })) ∧
            ((∀ raw, c.pendingChange = some raw → due raw = false) → c.glitch ≠ 0 →
              leads { moved with pendingChange := pendsOr c.accepted }) ∧
            (c.glitch = 0 → c.pendingChange = none →
              ((!c.pinLevel) = c.accepted → leads moved) ∧
              ((!c.pinLevel) ≠ c.accepted → exec (.pinLevelChange dt ch persists) s =
                exec (.edgeQualified 0 ch) { s with dev := withChan d ch { moved with pendingChange := some d.now } }))))))

/-- A pending change is qualified once it has persisted W coarse ticks (R10 to R14, R18, R19): the accepted level moves; a
selected edge counts; one whose count is a multiple of N and whose time is not before dead until is stamped, enters the
ring as its newest entry, a full ring losing its oldest, and is offered to the tasks. That the record the lost entry leaves is
marked as it is written where its moment has passed (R21), the ring not being empty, is the model's choice, deduced (log 41). -/
def Obligations.QualifiedEdgeIsStamped : Prop :=
  ∀ (s : State) (dt : Nat) (ch : Chan) (raw : Stamp), s.dev.held = false → (s.dev.front.chan ch).enabled = true →
    (s.dev.front.chan ch).pendingChange = some raw →
    let d := atTime dt s
    let c := d.front.chan ch
    let rising := !c.accepted
    let selected : Bool := match c.edgeSelect with
      | .rising => rising
      | .falling => !rising
      | .both => true
    let settled : Channel := { c with accepted := rising, pendingChange := none }
    let counted : Channel := { settled with count := c.count + 1 }
    let attempted := decide ((c.count + 1).toNat % (c.prescaleField.toNat + 1) = 0)
    let dead := c.deadUntil.any (fun t => !t.longPast && later t.stamp raw)
    let x : Entry := ⟨c.ring.nextIndex, c.seqNo + 1, raw, c.count + 1⟩
    let ring : Ring := match c.ring.entries with
      | e :: es => if 64 ≤ (e :: es).length
          then ⟨es ++ [x], c.ring.nextIndex + 1, true, some ⟨e.index, (⟨e.stamp, false⟩ : Kept).mark d.now⟩⟩
          else { c.ring with entries := (e :: es) ++ [x], nextIndex := c.ring.nextIndex + 1 }
      | [] => { c.ring with entries := [x], nextIndex := c.ring.nextIndex + 1 }
    let stamped := withChan d ch
      { counted with seqNo := c.seqNo + 1, deadUntil := some ⟨raw + 64, false⟩, ring := ring }
    let leads := fun t => exec (.edgeQualified dt ch) s = goesTo s t
    (reached d.now (plus raw (c.glitch.val * 32)) = false → leads d) ∧
    (reached d.now (plus raw (c.glitch.val * 32)) = true →
      (selected = false → leads (withChan d ch settled)) ∧
      (selected = true → attempted = false ∨ dead = true → leads (withChan d ch counted)) ∧
      (selected = true → attempted = true → dead = false →
        leads { stamped with eng := stamped.eng.arrival stamped.front ch x }))

/-- The oldest entry ages once its stamp lies 2^46 + 1 TU behind and becomes the last-removed record; the record is marked
long past at its own such moment (R20, R21). That it is so marked where the ring still holds entries, where R21 speaks of an
empty ring, is the model's choice, deduced (log 41). -/
def Obligations.RingAgesItsOldestEntry : Prop :=
  ∀ (s : State) (dt : Nat) (ch : Chan), s.dev.held = false →
    let d := atTime dt s
    let c := d.front.chan ch
    let r := d.front.ring ch
    let old := fun (t : Stamp) => reached d.now (plus t (2 ^ 46 + 1))
    let leads := fun i (r : Ring) => exec i s = goesTo s (withChan d ch { c with ring := r })
    (∀ e es, r.entries = e :: es → old e.stamp = true →
      leads (.ringAging dt ch) ⟨es, r.nextIndex, true, some ⟨e.index, ⟨e.stamp, true⟩⟩⟩) ∧
    ((∀ e es, r.entries = e :: es → old e.stamp = false) → leads (.ringAging dt ch) r) ∧
    leads (.recordLongPast dt ch)
      { r with lastRemoved := r.lastRemoved.map (fun x => ⟨x.index, ⟨x.stamp.stamp, x.stamp.longPast || old x.stamp.stamp⟩⟩) }

/-! ## Arrivals at the tasks -/

/-- A TIMESTAMP task that takes entries takes an arrival at its cursor as one result, with the gap accumulator as its gap
count (R26, R84, R37); the L-th result ends the run with its block FINAL, a full open block completes into the queue, and
under PACED the task is then PAUSED on it (R45, R152). A block completed stands in the queue at its place among the
offers of the moment.
Blocks offered at one moment are taken in ascending task number, also where commands of their own bring them (R152): a block
stands before those that higher-numbered tasks offered at this moment; in a full queue the last of these gives its place up, and
its task is STALLED with it (R41), unless that task has gone on since (the model's choice, log 53). Two offers in either order
come to the same. -/
def Obligations.ArrivalBecomesATimestamp : Prop :=
  (∀ (fr : Front) (ch : Chan) (x : Entry) (e : Engine) (t : TaskId) (td : TaskDef) (gap : Nat) (rs : List Result),
     (∀ u, u ≠ t → e.takes u = false) → unitSettled fr.now e → e.takes t = true → (e.tasks.get t).defn = some td →
     td.fields = .timestamp ch → (e.tasks.get t).cursor = some x.index → (e.tasks.get t).run = .timestamp gap →
     (e.tasks.get t).openBlock = some rs →
     let r : Result := .timestamp { stamp := x.stamp, seqNo := x.seqNo, count := x.count, gapCount := gap,
                                    gap := decide (gap ≠ 0), degraded := fr.tb.stampDegraded ⟨x.stamp, false⟩ }
     let n := (e.tasks.get t).resultsInRun
     let k : TaskRec := { e.tasks.get t with
       cursor := some (x.index + 1), run := .timestamp 0, openBlock := some (rs ++ [r]), failCount := 0,
       resultsInRun := if td.runLength = 0 then min (n + 1) 65535 else n + 1 }
     let b : Block := { task := t, kind := .timestamp, number := k.nextBlock, final := false, short := false,
                        results := rs ++ [r] }
     let taken := { e with tasks := e.tasks.set t k }
     let goesOn := td.runLength = 0 ∨ n + 1 < td.runLength
     (goesOn → rs.length + 1 < td.blockSize → e.arrival fr ch x = taken) ∧
     let entered : TaskRec := { k with
       nextBlock := k.nextBlock + 1, openBlock := some [],
       state := if td.continuation = .paced then .paused else .running,
       cause := if td.continuation = .paced then .paused else .none,
       pausedOn := if td.continuation = .paced then some k.nextBlock else k.pausedOn }
     let held : TaskRec := { k with
       nextBlock := k.nextBlock + 1, openBlock := some [], state := .stalled, cause := .stalled, heldBlock := some b }
     let before := fun (y : Block) => t < y.task ∧ y.offered = some ⟨fr.now, false⟩
     (goesOn → td.blockSize ≤ rs.length + 1 → e.arrival fr ch x = e.offerBlock fr.now t b entered held) ∧
     (goesOn → td.blockSize ≤ rs.length + 1 → (∀ y ∈ e.queue, ¬before y) →
       (e.queue.length < 16 → e.arrival fr ch x = { e with
         queue := e.queue ++ [{ b with offered := some ⟨fr.now, false⟩ }], tasks := e.tasks.set t entered }) ∧
       (16 ≤ e.queue.length → e.arrival fr ch x = { e with tasks := e.tasks.set t held })) ∧
     (td.runLength ≠ 0 → td.runLength ≤ n + 1 → e.arrival fr ch x = runEnded fr.now t td .length taken)) ∧
  ((∀ (now : Stamp) (t : TaskId) (b : Block) (entered held : TaskRec) (e : Engine),
      let before := fun (y : Block) => t < y.task ∧ y.offered = some ⟨now, false⟩
      let gives := fun (y : Block) =>
        let k := e.tasks.get y.task
        before y ∧ k.nextBlock = y.number + 1 ∧ k.heldBlock = none ∧
        (y.final = true → (k.state = .done ∨ k.state = .faulted) ∧ k.endCause ≠ none) ∧
        (y.final = false → k.runContinues = true ∧ k.openBlock = some [] ∧
          (k.cause = .none ∨ (k.cause = .paused ∧ k.pausedOn = some y.number)))
      let placed : Block := { b with offered := some ⟨now, false⟩ }
      let goes := fun (q : List Block) (tasks : Per8 TaskRec) =>
        e.offerBlock now t b entered held = { e with queue := q, tasks := tasks }
      (∀ pre post, e.queue.length < 16 → e.queue = pre ++ post → (∀ y ∈ pre, ¬before y) → (∀ y, post.head? = some y → before y) →
        goes (pre ++ placed :: post) (e.tasks.set t entered)) ∧
      (16 ≤ e.queue.length → (∀ y ∈ e.queue, ¬gives y) → goes e.queue (e.tasks.set t held)) ∧
      (∀ p x q pre post, 16 ≤ e.queue.length → e.queue = p ++ x :: q → gives x → (∀ y ∈ q, ¬gives y) → p ++ q = pre ++ post →
        (∀ y ∈ pre, ¬before y) → (∀ y, post.head? = some y → before y) →
        let k := e.tasks.get x.task
        let h : TaskRec := { k with state := .stalled, cause := .stalled, heldBlock := some { x with offered := none } }
        goes (pre ++ placed :: post)
          ((e.tasks.set x.task (if x.final = true then { h with runEndPending := k.endCause, endCause := none }
            else { h with pausedOn := none })).set t entered))) ∧
   (∀ (now : Stamp) (t u : TaskId) (b c : Block) (tEntered tHeld uEntered uHeld : TaskRec) (e : Engine),
      t < u → b.task = t → c.task = u →
      let offerT := fun (e : Engine) => e.offerBlock now t b tEntered tHeld
      let offerU := fun (e : Engine) => e.offerBlock now u c uEntered uHeld
      (e.queue.length < 15 → offerT (offerU e) = offerU (offerT e)) ∧
      (e.queue.length = 15 → (∀ y ∈ e.queue, y.offered ≠ some ⟨now, false⟩) → uEntered.canHold c = true →
        uHeld = uEntered.holding c →
        offerT (offerU e) = offerU (offerT e) ∧
        offerT (offerU e) = { e with queue := e.queue ++ [{ b with offered := some ⟨now, false⟩ }],
                                     tasks := (e.tasks.set u uHeld).set t tEntered })))

/-- A PUBLISH task that takes entries publishes every D-th entry of its channel (R26, R85, R86, R121): the others advance the
divider count; the D-th is offered as an EDGE marker with its stamp as origin, and an offer answered DROPPED is counted and
gives its result at once (R87, R90). A marker queued stands at its place among the offers of the
moment.
EDGE offers made at one moment are answered in ascending origin task number, also where commands of their own bring them
(R121): a marker stands before those that higher-numbered tasks offered at this moment; in a full queue the last of these is
answered DROPPED after it, counted, its outcome given to its origin task (R87, R136). Two offers in either order come to the
same. A marker whose attempt has begun keeps its place (the model's choice, log 53). -/
def Obligations.ArrivalIsPublished : Prop :=
  (∀ (fr : Front) (x : Entry) (e : Engine) (t : TaskId) (td : TaskDef) (p : PublishFields) (run : PublishRun),
     (∀ u, u ≠ t → e.takes u = false) → unitSettled fr.now e → e.takes t = true → (e.tasks.get t).defn = some td →
     td.fields = .publish p → (e.tasks.get t).cursor = some x.index → (e.tasks.get t).run = .publish run →
     let k := { e.tasks.get t with cursor := some (x.index + 1) }
     let taken := fun (r : PublishRun) => { e with tasks := e.tasks.set t { k with run := .publish r } }
     let marker : OutEntry :=
       { kind := .edge, tag := p.tag, origin := some ⟨x.stamp, false⟩, originTask := some t, payload := 0,
         inTransmission := false, removeAtEnd := false }
     let before := fun (m : OutEntry) =>
       m.inTransmission = false ∧ ∃ o, m.offered = some o ∧ o.time = ⟨fr.now, false⟩ ∧ t < o.task
     let r : PublishResult :=
       { edge := x.stamp, outcome := .dropped, delay := 0, gapCount := run.gap, gap := decide (run.gap ≠ 0),
         degraded := fr.tb.stampDegraded ⟨x.stamp, false⟩ }
     (run.dividerCount + 1 < p.dividerField.toNat + 1 →
       e.arrival fr p.channel x = taken { run with dividerCount := run.dividerCount + 1 }) ∧
     (p.dividerField.toNat ≤ run.dividerCount →
       e.arrival fr p.channel x =
         ((taken { run with dividerCount := 0 }).offerEdge fr t marker).arbitrate fr.now ∧
       (e.tx.mute = false → e.tx.haltSent = false → e.tx.queue.length < 8 → (∀ m ∈ e.tx.queue, ¬before m) →
         e.arrival fr p.channel x =
           { taken { run with dividerCount := 0 } with tx := { e.tx with
             queue := e.tx.queue ++ [{ marker with offered := some ⟨t, ⟨fr.now, false⟩⟩ }] } }) ∧
       (e.tx.mute = true ∨ e.tx.haltSent = true ∨ (8 ≤ e.tx.queue.length ∧ ∀ m ∈ e.tx.queue, ¬before m) →
         e.arrival fr p.channel x = (Engine.takeResult fr.now t (.publish r) 1
           { taken { run with dividerCount := 0, gap := 0 } with
             ctl := { e.ctl with
               counters := { e.ctl.counters with dropped := bumpBy 1 e.ctl.counters.dropped },
               latched := { e.ctl.latched with markerLoss := true } } }).arbitrate fr.now))) ∧
  ((∀ (fr : Front) (t : TaskId) (m : OutEntry) (e : Engine), e.tx.mute = false → e.tx.haltSent = false →
      let before := fun (y : OutEntry) =>
        y.inTransmission = false ∧ ∃ o, y.offered = some o ∧ o.time = ⟨fr.now, false⟩ ∧ t < o.task
      let placed : OutEntry := { m with offered := some ⟨t, ⟨fr.now, false⟩⟩ }
      let queued := fun (q : List OutEntry) => { e with tx := { e.tx with queue := q } }
      (∀ pre post, e.tx.queue.length < 8 → e.tx.queue = pre ++ post → (∀ y ∈ pre, ¬before y) →
        (∀ y, post.head? = some y → before y) → e.offerEdge fr t m = queued (pre ++ placed :: post)) ∧
      (∀ p x q pre post, 8 ≤ e.tx.queue.length → e.tx.queue = p ++ x :: q → before x → (∀ y ∈ q, ¬before y) →
        p ++ q = pre ++ post → (∀ y ∈ pre, ¬before y) → (∀ y, post.head? = some y → before y) →
        let dropped : Engine := { queued (pre ++ placed :: post) with ctl := { e.ctl with
          counters := { e.ctl.counters with dropped := bumpBy 1 e.ctl.counters.dropped },
          latched := { e.ctl.latched with markerLoss := true } } }
        (x.originTask = none → e.offerEdge fr t m = dropped) ∧
        (∀ u o, x.originTask = some u → x.origin = some o → e.offerEdge fr t m = dropped.giveOutcome fr u ⟨o, .dropped, 0⟩))) ∧
   (∀ (fr : Front) (t u : TaskId) (m n : OutEntry) (e : Engine), t < u → e.tx.mute = false → e.tx.haltSent = false →
      m.inTransmission = false → n.inTransmission = false →
      let offerT := fun (e : Engine) => e.offerEdge fr t m
      let offerU := fun (e : Engine) => e.offerEdge fr u n
      (e.tx.queue.length < 7 → offerT (offerU e) = offerU (offerT e)) ∧
      (e.tx.queue.length = 7 → (∀ y ∈ e.tx.queue, ∀ o, y.offered = some o → o.time ≠ ⟨fr.now, false⟩) →
        offerT (offerU e) = offerU (offerT e))))

/-- An arrival on the stop channel judges the local start that waits for it (R76, R77, R82): VALID with the interval from
start to stop, NO_STOP past the window, UNSTAMPED or LOST by the certainty of the stop found. An arrival on the start
channel with nothing to stop it waits, as the sixteenth start at most, and is missed beyond that (R74, R80).
A WINDOW whose start channel is its stop channel (R78): an arrival first judges the start that waits as a stop, its
result taken, and is then a new start itself, which waits for a later entry (R74); a task that the result suspended or ended
takes no new start.
The judgement of a start by its search on the stop ring (R76): the certainty of the stop found comes before the window;
while nothing is found it waits until its window horizon. -/
def Obligations.ArrivalStopsOrStarts : Prop :=
  (∀ (fr : Front) (ch : Chan) (x : Entry) (e : Engine) (t : TaskId) (td : TaskDef) (f : IntervalFields) (run : IntervalRun),
     (∀ u, u ≠ t → (e.tasks.get u).runContinues = false) → unitSettled fr.now e → e.takes t = true → (e.tasks.get t).defn = some td →
     td.fields = .interval f → f.source = .localStart → f.startChannel ≠ f.stopChannel →
     (e.tasks.get t).run = .interval run → (∀ i y, e.slots.get i = some y → y.task ≠ t) →
     let stop := fr.ring f.stopChannel
     let k := e.tasks.get t
     (∀ y s c, ch = f.stopChannel → run.pending = [y] → y.searchFrom.laterThan ⟨x.stamp, false⟩ = false →
       stop.firstAtOrAfter y.searchFrom = .found s c →
       let late := c = .certain ∧ (⟨s.stamp, false⟩ : Kept).laterThan y.windowEnd = true
       let valid := c = .certain ∧ (⟨s.stamp, false⟩ : Kept).laterThan y.windowEnd = false
       let r : IntervalResult :=
         { start := y.time.stamp, interval := if valid then since s.stamp y.time.stamp else 0, origin := none, tag := 0,
           missedCount := run.missed,
           flags := { noStop := decide late, lost := decide (c = .lost), unstamped := decide (c = .unstamped),
                      unplaced := false, degraded := fr.tb.anyDegraded [y.time, ⟨s.stamp, false⟩] } }
       e.arrival fr ch x = (Engine.takeResult fr.now t (.interval r) 1
         { e with tasks := e.tasks.set t { k with run := .interval { run with pending := [], missed := 0 } } }
         ).arbitrate fr.now) ∧
     (ch = f.startChannel → k.cursor = some x.index →
       let start : Start := { time := ⟨x.stamp, false⟩, searchFrom := ⟨plus x.stamp f.holdoff, false⟩,
                              windowEnd := ⟨plus x.stamp f.window, false⟩ }
       stop.firstAtOrAfter start.searchFrom = .pending →
       reached fr.now (plus start.windowEnd.stamp ((fr.chan f.stopChannel).glitch.val * 32 + 1)) = false →
       e.arrival fr ch x = { e with tasks := e.tasks.set t { k with
         cursor := some (x.index + 1),
         run := .interval (if run.pending.length < 16 then { run with pending := run.pending ++ [start] }
                           else { run with missed := min (run.missed + 1) (2 ^ 32 - 1) }) } })) ∧
  (∀ (fr : Front) (ch : Chan) (x : Entry) (e : Engine) (t : TaskId) (td : TaskDef) (f : IntervalFields) (run : IntervalRun),
     (∀ u, u ≠ t → (e.tasks.get u).runContinues = false) → unitSettled fr.now e → e.takes t = true → (e.tasks.get t).defn = some td →
     td.fields = .interval f → f.source = .localStart → f.startChannel = ch → f.stopChannel = ch →
     (e.tasks.get t).run = .interval run → (∀ i y, e.slots.get i = some y → y.task ≠ t) →
     (e.tasks.get t).cursor = some x.index →
     let k := e.tasks.get t
     let start : Start := { time := ⟨x.stamp, false⟩, searchFrom := ⟨plus x.stamp f.holdoff, false⟩,
                            windowEnd := ⟨plus x.stamp f.window, false⟩ }
     (fr.ring ch).firstAtOrAfter start.searchFrom = .pending →
     reached fr.now (plus start.windowEnd.stamp ((fr.chan ch).glitch.val * 32 + 1)) = false →
     ((∀ z ∈ run.pending, z.searchFrom.laterThan ⟨x.stamp, false⟩ = true ∨ judgeStart fr f z = .waits) →
       e.arrival fr ch x = { e with tasks := e.tasks.set t { k with
         cursor := some (x.index + 1),
         run := .interval (if run.pending.length < 16 then { run with pending := run.pending ++ [start] }
                           else { run with missed := min (run.missed + 1) (2 ^ 32 - 1) }) } }) ∧
     (∀ y, run.pending = [y] → y.searchFrom.laterThan ⟨x.stamp, false⟩ = false → judgeStart fr f y ≠ .waits →
       let e1 := Engine.takeResult fr.now t
         (.interval (intervalResult fr.tb y.time none 0 false y.time run.missed (judgeStart fr f y))) 1
         { e with tasks := e.tasks.set t { k with run := .interval ⟨[], 0⟩ } }
       e.arrival fr ch x = (if e1.takes t = true
         then { e1 with tasks := e1.tasks.set t { e1.tasks.get t with
           cursor := some (x.index + 1), run := .interval ⟨[start], 0⟩ } }
         else e1).arbitrate fr.now)) ∧
  (∀ (fr : Front) (f : IntervalFields) (s : Start),
     let answer := (fr.ring f.stopChannel).firstAtOrAfter s.searchFrom
     let due := s.time.longPast || s.windowEnd.longPast ||
       reached fr.now (plus s.windowEnd.stamp ((fr.chan f.stopChannel).glitch.val * 32 + 1))
     (∀ x, answer = .found x .lost → judgeStart fr f s = .lost (some x)) ∧
     (∀ x, answer = .found x .unstamped → judgeStart fr f s = .unstamped x) ∧
     (∀ x, answer = .found x .certain → judgeStart fr f s =
       if (⟨x.stamp, false⟩ : Kept).laterThan s.windowEnd = true then .noStop (some x) else .valid x) ∧
     (answer = .gone → judgeStart fr f s = .lost none) ∧
     (answer = .pending → judgeStart fr f s = if due = true then .noStop none else .waits))

/-- An arrival on the reference channel resolves the pending signal entry it is later than (R66, R68, R93): the two reference
entries around it give a job, which starts at once on a free divider, or a failed result. A signal entry with no later
reference waits, as the sixteenth at most, and joins the gap beyond that (R67).
A PHASE task that catches up (R39, R71) first gives NO_SIGNAL for the pending entries whose limit has passed, oldest first
(R69). Then it reads its reference cursor to the end and resolves what is now resolvable, oldest first (R66, R68), a job
suspending it. Then it takes its signal entries in index order, each as an arrival (R26, R67), an overrun joining the gap; that one whose own
limit has passed by then waits, or joins the gap, all the same is the model's choice (log 48). -/
def Obligations.ArrivalResolvesTheSignal : Prop :=
  (∀ (fr : Front) (x : Entry) (e : Engine) (t : TaskId) (td : TaskDef) (f : PhaseFields) (run : PhaseRun),
     (∀ u, u ≠ t → (e.tasks.get u).runContinues = false) → e.unit = ⟨[], none⟩ → e.takes t = true →
     (e.tasks.get t).defn = some td → td.fields = .phase f → f.reference ≠ f.signal → (e.tasks.get t).run = .phase run →
     let k := e.tasks.get t
     let ring := fr.ring f.reference
     (∀ y, run.pending = [y] → k.refCursor = some x.index → (⟨x.stamp, false⟩ : Kept).laterThan ⟨y.entry.stamp, y.longPast⟩ = true →
       let signal : Kept := ⟨y.entry.stamp, y.longPast⟩
       let seen := { run with newestRef := some ⟨x.stamp, false⟩, pending := [] }
       let moved := { k with refCursor := some (x.index + 1) }
       let failed := fun (noSignal lost unstamped : Bool) (refs : List Entry) =>
         (Engine.takeResult fr.now t (.phase
           { signal := signal.stamp, period := 0, phase := 0, gapCount := run.gap,
             flags := { noSignal := noSignal, lost := lost, unstamped := unstamped, gap := decide (run.gap ≠ 0),
                        degraded := fr.tb.anyDegraded (signal :: refs.map (fun r => ⟨r.stamp, false⟩)) } }) 1
           { e with tasks := e.tasks.set t { moved with run := .phase { seen with gap := 0 } } }).arbitrate fr.now
       (∀ r1 r2, ring.lastAtOrBefore signal = .found r1 → ring.at? (r1.index + 1) = some r2 →
         (r2.count - r1.count = 1 → k.jobDiscarded = false →
           let offset := since signal.stamp r1.stamp
           let period := since r2.stamp r1.stamp
           e.arrival fr f.reference x = { e with
             unit := ⟨[], some ⟨t, .phase offset period, fr.now, false, true⟩⟩,
             tasks := e.tasks.set t { moved with
               run := .phase seen, job := .inProgress, cause := .job,
               waitingResult := some (.phase signal period ⟨r1.stamp, false⟩ ⟨r2.stamp, false⟩) } }) ∧
         (r2.count - r1.count ≠ 1 → e.arrival fr f.reference x = failed false false true [r1, r2])) ∧
       (ring.lastAtOrBefore signal = .lost → e.arrival fr f.reference x = failed false true false []) ∧
       (ring.lastAtOrBefore signal = .none → e.arrival fr f.reference x = failed true false false [])) ∧
     (k.cursor = some x.index → (∀ n, run.newestRef = some n → n.laterThan ⟨x.stamp, false⟩ = false) →
       e.arrival fr f.signal x = { e with tasks := e.tasks.set t { k with
         cursor := some (x.index + 1),
         run := .phase (if run.pending.length < 16 then { run with pending := run.pending ++ [⟨x, false⟩] }
                        else { run with gap := min (run.gap + 1) (2 ^ 32 - 1) }) } })) ∧
  (∀ (fr : Front) (e : Engine) (t : TaskId) (td : TaskDef) (f : PhaseFields) (run : PhaseRun), e.takes t = true →
     (e.tasks.get t).defn = some td → td.fields = .phase f → f.reference ≠ f.signal → (e.tasks.get t).run = .phase run →
     run.pending.length ≤ 16 → RingLaw (fr.ring f.reference) → RingLaw (fr.ring f.signal) →
     let k := e.tasks.get t
     let refs := fr.ring f.reference
     let old := fun (x : PendingSignal) => x.longPast || reached fr.now (plus x.entry.stamp (2 ^ 40))
     let passed := fun (x : PendingSignal) =>
       old x = true ∧ ∀ n, run.newestRef = some n → n.laterThan ⟨x.entry.stamp, x.longPast⟩ = false
     let failed := fun (k : TaskRec) (r : PhaseRun) (x : PendingSignal) (noSignal lost unstamped : Bool) (refs : List Entry) =>
       (Engine.takeResult fr.now t (.phase
         { signal := x.entry.stamp, period := 0, phase := 0, gapCount := run.gap,
           flags := { noSignal := noSignal, lost := lost, unstamped := unstamped, gap := decide (run.gap ≠ 0),
                      degraded := fr.tb.anyDegraded (⟨x.entry.stamp, x.longPast⟩ :: refs.map (fun r => ⟨r.stamp, false⟩)) } })
         1 { e with tasks := e.tasks.set t { k with run := .phase { r with gap := 0 } } }).catchUp fr t
     (∀ pre x post, run.pending = pre ++ x :: post → (∀ y ∈ pre, ¬passed y) → passed x →
       e.catchUp fr t = failed k { run with pending := pre ++ post } x true false false []) ∧
     (∀ c, k.refCursor = some c → (∀ x ∈ run.pending, old x = false) →
       let newest := match (refs.entries.filter (fun x => decide (c ≤ x.index))).getLast? with
         | some x => some ⟨x.stamp, false⟩
         | none => run.newestRef
       let seen := { run with newestRef := newest }
       let moved := { k with refCursor := some refs.nextIndex }
       let later := fun (x : PendingSignal) => ∃ n, newest = some n ∧ n.laterThan ⟨x.entry.stamp, x.longPast⟩ = true
       (∀ x xs, run.pending = x :: xs → later x →
         let signal : Kept := ⟨x.entry.stamp, x.longPast⟩
         let left := { seen with pending := xs }
         (∀ r1 r2, refs.lastAtOrBefore signal = .found r1 → refs.at? (r1.index + 1) = some r2 →
           (r2.count - r1.count = 1 → k.jobDiscarded = false →
             let offset := since signal.stamp r1.stamp
             let period := since r2.stamp r1.stamp
             e.catchUp fr t = { e with
               unit := { e.unit with waiting := e.unit.waiting ++ [⟨t, .phase offset period⟩] },
               tasks := e.tasks.set t { moved with
                 run := .phase left, job := .waiting, cause := .job,
                 waitingResult := some (.phase signal period ⟨r1.stamp, false⟩ ⟨r2.stamp, false⟩) } }) ∧
           (r2.count - r1.count ≠ 1 → e.catchUp fr t = failed moved left x false false true [r1, r2])) ∧
         (refs.lastAtOrBefore signal = .lost → e.catchUp fr t = failed moved left x false true false []) ∧
         (refs.lastAtOrBefore signal = .none → e.catchUp fr t = failed moved left x true false false [])) ∧
       (∀ cs, (∀ x, run.pending.head? = some x → ¬later x) → k.cursor = some cs →
         let ring := fr.ring f.signal
         e.catchUp fr t =
           (ring.entries.filter (fun x => decide (cs ≤ x.index))).foldl (fun e x => e.taskArrival fr f.signal x t)
             { e with tasks := e.tasks.set t { moved with
               cursor := some (max cs ring.oldest),
               run := .phase { seen with
                 gap := if cs < ring.oldest then min (run.gap + (ring.oldest - cs)) (2 ^ 32 - 1) else run.gap } } })))

/-! ## Moments of the tasks -/

/-- The evaluation moment of a TIMED gate, the one run in progress (R52, R56, R57, R91, R93): not come, nothing happens; a
suspended task counts the gate as passed; a valid gate becomes a job, which starts at once on a free divider; a gate
without an entry at or before its close gives NO_SIGNAL.
What the evaluation of a gate finds, and says of it (R56, R57, R58): a NEGATIVE gate is not searched for; two distinct
entries within the gate make it valid; it is LOST where the ring lost what stood at or before its close and has something
to show for it, else NO_SIGNAL. That a NO_SIGNAL gate with one stamp is SHORTENED too where its first search is LOST is the
model's choice, deduced (log 13).
A TIMED task that catches up takes its missed gates in index order (R39, R61, R63): gates that are LOST one after another
give one LOST result, capped by the run length; a valid gate becomes a job, which suspends the task; another gives its result,
and the task goes on while it takes entries. The model's choices, deduced: SHORTENED of a NO_SIGNAL gate with one stamp (log 13),
DEGRADED over the entries found on NO_SIGNAL, but over the arm time alone in a LOST stretch (log 14), and the ages of the missed gates' times, counted whole (log 11). -/
def Obligations.TimedGateIsEvaluated : Prop :=
  (∀ (s : State) (dt : Nat) (t : TaskId) (td : TaskDef) (f : FreqFields) (run : FreqRun),
     s.dev.held = false → onlyRuns t s.dev → (s.dev.eng.tasks.get t).runContinues = true →
     (s.dev.eng.tasks.get t).defn = some td → td.fields = .frequency f → f.source = .timed →
     (s.dev.eng.tasks.get t).run = .frequency run → s.dev.eng.unit = ⟨[], none⟩ →
     let d := atTime dt s
     let k := d.eng.tasks.get t
     let ring := d.front.ring f.input
     let due := reached d.now (plus run.gateOpen (f.gateLength + ((d.front.chan f.input).glitch.val * 32 + 1)))
     let g : GateSpan := timedGate d.now run.gateOpen f.gateLength 0
     let next : FreqRun := { run with gateOpen := plus run.gateOpen f.gateLength }
     let leads := fun (e : Engine) => exec (.timedGateEvaluation dt) s = goesTo s { d with eng := e }
     (due = false → leads d.eng) ∧
     (due = true → k.takes = false →
       leads { d.eng with tasks := d.eng.tasks.set t { k with run := .frequency { next with passed := run.passed + 1 } } }) ∧
     (∀ e1 c1 e2, due = true → k.takes = true → ring.firstAtOrAfter g.opened = .found e1 c1 →
       ring.lastAtOrBefore g.closed = .found e2 → g.opened.laterThan ⟨e2.stamp, false⟩ = false → e1.index ≠ e2.index →
       k.jobDiscarded = false →
       let edges := (e2.count - e1.count).toNat
       let span := since e2.stamp e1.stamp
       leads { d.eng with
         unit := ⟨[], some ⟨t, .frequency edges span f.shift run.smoothing, d.now, false, true⟩⟩,
         tasks := d.eng.tasks.set t { k with
           run := .frequency next, job := .inProgress, cause := .job,
           waitingResult := some (.frequency g edges span ⟨e1.stamp, false⟩ ⟨e2.stamp, false⟩
             (c1 == .lost && ring.everRemoved)) } }) ∧
     (due = true → k.takes = true → ring.lastAtOrBefore g.closed = .none → ring.firstAtOrAfter g.opened = .pending →
       td.runLength = 0 ∨ k.resultsInRun < td.runLength →
       leads ((Engine.takeResult d.now t (.frequency
         { gateIndex := run.nextGate, openTime := g.opened.stamp, edges := 0, span := 0, frequency := 0,
           smoothed := heldSmoothed run.smoothing, represented := 1,
           flags := { noSignal := true, shortened := false, lost := false, clamped := false, orphaned := false,
                      unplaced := false, degraded := d.front.tb.anyDegraded k.armTime.toList, saturated := false } }) 1
         { d.eng with tasks := d.eng.tasks.set t { k with run := .frequency { next with nextGate := run.nextGate + 1 } } }
         ).arbitrate d.now))) ∧
  (∀ (r : Ring) (g : GateSpan),
     let first := r.firstAtOrAfter g.opened
     let last := r.lastAtOrBefore g.closed
     let e1 : Option Entry := match first with
       | .found e _ => some e
       | _ => none
     (g.negative = true → r.evaluateGate g = ⟨.noSignal, none, none, false⟩) ∧
     (g.negative = false →
       (∀ e c e2, first = .found e c → last = .found e2 → g.opened.laterThan ⟨e2.stamp, false⟩ = false →
         r.evaluateGate g =
           ⟨if e.index = e2.index then .noSignal else .valid, some e, some e2, c == .lost && r.everRemoved⟩) ∧
       (∀ e2, last = .found e2 → g.opened.laterThan ⟨e2.stamp, false⟩ = true →
         r.evaluateGate g = ⟨.noSignal, e1, some e2, false⟩) ∧
       (last = .none → r.evaluateGate g = ⟨.noSignal, e1, none, false⟩) ∧
       (last = .lost → r.evaluateGate g = ⟨if first = .pending then .noSignal else .lost, e1, none, false⟩))) ∧
  (∀ (fr : Front) (e : Engine) (t : TaskId) (td : TaskDef) (f : FreqFields) (run : FreqRun), e.takes t = true →
     (e.tasks.get t).defn = some td → td.fields = .frequency f → f.source = .timed → (e.tasks.get t).run = .frequency run →
     td.runLength = 0 ∨ (e.tasks.get t).resultsInRun < td.runLength →
     let k := e.tasks.get t
     let gate := fun i => timedGate fr.now run.gateOpen f.gateLength (run.passed - i)
     let judged := fun i => (fr.ring f.input).evaluateGate (gate i)
     let goes := fun (k : TaskRec) => { e with tasks := e.tasks.set t k }
     let taken := fun (n shown : Nat) (lost noSignal shortened : Bool) (stamps : List Kept) =>
       (Engine.takeResult fr.now t (.frequency
         { gateIndex := run.nextGate, openTime := (gate 0).opened.stamp, edges := 0, span := 0, frequency := 0,
           smoothed := heldSmoothed run.smoothing, represented := shown,
           flags := { noSignal := noSignal || run.smoothing.isNone, shortened := shortened, lost := lost, clamped := false,
                      orphaned := false, unplaced := false, degraded := fr.tb.anyDegraded (stamps ++ k.armTime.toList),
                      saturated := false } }) shown
         (goes { k with run := .frequency { run with passed := run.passed - n,
                                                     nextGate := run.nextGate + BitVec.ofNat 32 shown } })).catchUp fr t
     let capped := fun n => if td.runLength = 0 then min n (2 ^ 32 - 1)
       else min (min n (2 ^ 32 - 1)) (td.runLength - k.resultsInRun)
     (run.passed = 0 → e.catchUp fr t = e) ∧
     (∀ n, 1 ≤ n → n ≤ run.passed → (∀ i, i < n → (judged i).outcome = .lost) →
       n = run.passed ∨ (judged n).outcome ≠ .lost →
       e.catchUp fr t = taken n (capped n) true false false []) ∧
     (∀ e1 e2 shortened, 1 ≤ run.passed → judged 0 = ⟨.valid, some e1, some e2, shortened⟩ → k.jobDiscarded = false →
       let edges := (e2.count - e1.count).toNat
       let span := since e2.stamp e1.stamp
       e.catchUp fr t = { e with
         unit := { e.unit with waiting := e.unit.waiting ++ [⟨t, .frequency edges span f.shift run.smoothing⟩] },
         tasks := e.tasks.set t { k with
           run := .frequency { run with passed := run.passed - 1 }, job := .waiting, cause := .job,
           waitingResult := some (.frequency (gate 0) edges span ⟨e1.stamp, false⟩ ⟨e2.stamp, false⟩ shortened) } }) ∧
     (∀ a, 1 ≤ run.passed → judged 0 = a → a.outcome = .noSignal →
       e.catchUp fr t = taken 1 1 false true a.shortened ((a.e1.toList ++ a.e2.toList).map (fun x => ⟨x.stamp, false⟩))))

/-- A followed LINE gate still open 2^40 − 1 TU after its open time is cut there and awaits its evaluation; before that
nothing happens (R55).
An ended LINE gate at its evaluation moment (R54): a suspended task keeps the first whole as its missed gate, and of later
ones their count and the union of their flags (R62). A NEGATIVE gate gives NO_SIGNAL without a search (R56), with its flags
(R59) and the smoothed frequency held (R60). Of the others a valid one becomes a job, which starts at once on a free divider,
and one that is not gives its result (R57, R59). The model's choices: SHORTENED of a NO_SIGNAL gate with one stamp (log 13),
DEGRADED over the entries found on NO_SIGNAL (log 14), both deduced, and that a gate missed after the first was handed on joins
the later ones (log 47).
A LINE task that catches up (R39, R62, R63): its first missed gate is evaluated like an ended gate; LOST, it joins the
later ones in one LOST result; else it gives its job or its result, and the later ones follow as one LOST result, when the
task takes entries again. A merged result counts what it represents, capped by the run length; capped to the first gate
alone it shows that gate's flags only, else the union of all of them (the model's choice where the cap falls between, log
44); its CLAMPED is that of the gate kept whole (log 45), and SHORTENED and DEGRADED of a NO_SIGNAL gate are those of logs 13
and 14; DEGRADED of the merged result tests the gates' times and no entry found (log 14, deduced). -/
def Obligations.LineGatesAreCutAndEvaluated : Prop :=
  (∀ (s : State) (dt : Nat) (t : TaskId) (run : FreqRun) (w : Followed),
     s.dev.held = false → onlyRuns t s.dev → (s.dev.eng.tasks.get t).runContinues = true →
     (s.dev.eng.tasks.get t).run = .frequency run → run.lineState = .following → run.followed = some w →
     run.ended = none → unitSettled (atTime dt s).now s.dev.eng →
     let d := atTime dt s
     let k := d.eng.tasks.get t
     let due := w.opened.longPast || reached d.now (plus w.opened.stamp (2 ^ 40 - 1))
     let g : GateSpan := { opened := w.opened, closed := ⟨plus w.opened.stamp (2 ^ 40 - 1), false⟩, unplaced := w.unplaced,
                           orphaned := false, reopened := false, negative := false, clamped := true }
     exec (.lineGateCut dt) s = goesTo s { d with eng := if due = true
       then { d.eng with tasks := d.eng.tasks.set t { k with
                run := .frequency { run with lineState := .cut, followed := none, ended := some g } } }
       else d.eng }) ∧
  (∀ (s : State) (dt : Nat) (t : TaskId) (td : TaskDef) (f : FreqFields) (run : FreqRun) (g : GateSpan),
     s.dev.held = false → onlyRuns t s.dev → (s.dev.eng.tasks.get t).runContinues = true →
     (s.dev.eng.tasks.get t).defn = some td → td.fields = .frequency f → f.source = .line →
     (s.dev.eng.tasks.get t).run = .frequency run → run.ended = some g → unitSettled (atTime dt s).now s.dev.eng →
     let d := atTime dt s
     let k := d.eng.tasks.get t
     let due := g.closed.longPast || reached d.now (plus g.closed.stamp ((d.front.chan f.input).glitch.val * 32 + 1))
     let judged := (d.front.ring f.input).evaluateGate g
     let leads := fun (e : Engine) => exec (.lineGateEvaluation dt) s = goesTo s { d with eng := e }
     (due = false → leads d.eng) ∧
     (due = true → k.takes = false → run.missed = none → run.later = none →
       leads { d.eng with tasks := d.eng.tasks.set t { k with
         run := .frequency { run with ended := none, missed := some g } } }) ∧
     (due = true → k.takes = false → (run.missed.isSome = true ∨ run.later.isSome = true) →
       let m := run.later.getD ⟨0, g.opened, false, false, false, false, false, false⟩
       leads { d.eng with tasks := d.eng.tasks.set t { k with
         run := .frequency { run with
           ended := none,
           later := some { count := min (m.count + 1) (2 ^ 32 - 1), opened := m.opened, unplaced := m.unplaced || g.unplaced,
                           orphaned := m.orphaned || g.orphaned, reopened := m.reopened || g.reopened,
                           negative := m.negative || g.negative, clamped := m.clamped || g.clamped,
                           degraded := m.degraded || d.front.tb.anyDegraded [g.opened, g.closed] } } } }) ∧
     (∀ e1 e2 shortened, due = true → k.takes = true → judged = ⟨.valid, some e1, some e2, shortened⟩ →
       d.eng.unit = ⟨[], none⟩ → k.jobDiscarded = false →
       let edges := (e2.count - e1.count).toNat
       let span := since e2.stamp e1.stamp
       leads { d.eng with
         unit := ⟨[], some ⟨t, .frequency edges span f.shift run.smoothing, d.now, false, true⟩⟩,
         tasks := d.eng.tasks.set t { k with
           run := .frequency { run with ended := none }, job := .inProgress, cause := .job,
           waitingResult := some (.frequency g edges span ⟨e1.stamp, false⟩ ⟨e2.stamp, false⟩ shortened) } }) ∧
     (due = true → k.takes = true → judged.outcome ≠ .valid → td.runLength = 0 ∨ k.resultsInRun < td.runLength →
       leads ((Engine.takeResult d.now t (.frequency
         { gateIndex := run.nextGate, openTime := g.opened.stamp, edges := 0, span := 0, frequency := 0,
           smoothed := heldSmoothed run.smoothing, represented := 1,
           flags := { noSignal := judged.outcome == .noSignal || run.smoothing.isNone, shortened := judged.shortened,
                      lost := judged.outcome == .lost, clamped := g.clamped, orphaned := g.orphaned, unplaced := g.unplaced,
                      saturated := false, degraded := d.front.tb.anyDegraded
                        (((judged.e1.toList ++ judged.e2.toList).map fun x => ⟨x.stamp, false⟩) ++ [g.opened, g.closed]) } }) 1
         { d.eng with tasks := d.eng.tasks.set t { k with
             run := .frequency { run with ended := none, nextGate := run.nextGate + 1 } } }).arbitrate d.now)) ∧
     (due = true → k.takes = true → g.negative = true → td.runLength = 0 ∨ k.resultsInRun < td.runLength →
       leads ((Engine.takeResult d.now t (.frequency
         { gateIndex := run.nextGate, openTime := g.opened.stamp, edges := 0, span := 0, frequency := 0,
           smoothed := heldSmoothed run.smoothing, represented := 1,
           flags := { noSignal := true, shortened := false, lost := false, clamped := g.clamped, orphaned := g.orphaned,
                      unplaced := g.unplaced, degraded := d.front.tb.anyDegraded [g.opened, g.closed],
                      saturated := false } }) 1
         { d.eng with tasks := d.eng.tasks.set t { k with
             run := .frequency { run with ended := none, nextGate := run.nextGate + 1 } } }).arbitrate d.now))) ∧
  (∀ (fr : Front) (e : Engine) (t : TaskId) (td : TaskDef) (f : FreqFields) (run : FreqRun), e.takes t = true →
     (e.tasks.get t).defn = some td → td.fields = .frequency f → f.source = .line → (e.tasks.get t).run = .frequency run →
     td.runLength = 0 ∨ (e.tasks.get t).resultsInRun < td.runLength →
     let k := e.tasks.get t
     let judged := fun g => (fr.ring f.input).evaluateGate g
     let goes := fun (r : FreqRun) => { e with tasks := e.tasks.set t { k with run := .frequency r } }
     let taken := fun (r : FreqRun) (openTime : Stamp) (shown : Nat) (flags : FreqFlags) => Engine.takeResult fr.now t (.frequency
       { gateIndex := run.nextGate, openTime := openTime, edges := 0, span := 0, frequency := 0,
         smoothed := heldSmoothed run.smoothing, represented := shown, flags := flags }) shown
       (goes { r with nextGate := run.nextGate + BitVec.ofNat 32 shown })
     let capped := fun n => if td.runLength = 0 then min n (2 ^ 32 - 1)
       else min (min n (2 ^ 32 - 1)) (td.runLength - k.resultsInRun)
     let none_ : FreqRun := { run with missed := none, later := none }
     let degraded := fun stamps => fr.tb.anyDegraded stamps
     let lost := fun (clamped orphaned unplaced degraded : Bool) =>
       ({ noSignal := run.smoothing.isNone, shortened := false, lost := true, clamped := clamped, orphaned := orphaned,
          unplaced := unplaced, degraded := degraded, saturated := false } : FreqFlags)
     (run.missed = none → run.later = none → e.catchUp fr t = e) ∧
     (∀ m, run.missed = none → run.later = some m → 1 ≤ m.count →
       e.catchUp fr t = taken none_ m.opened.stamp (capped m.count)
         (lost false m.orphaned m.unplaced (degraded [m.opened] || m.degraded))) ∧
     (∀ g, run.missed = some g → (judged g).outcome = .lost →
       (run.later = none → e.catchUp fr t = taken none_ g.opened.stamp 1
         (lost g.clamped g.orphaned g.unplaced (degraded [g.opened, g.closed]))) ∧
       (∀ m, run.later = some m → 1 ≤ m.count →
         (capped (m.count + 1) = 1 → e.catchUp fr t = taken none_ g.opened.stamp 1
           (lost g.clamped g.orphaned g.unplaced (degraded [g.opened, g.closed]))) ∧
         (capped (m.count + 1) ≠ 1 → e.catchUp fr t = taken none_ g.opened.stamp (capped (m.count + 1))
           (lost g.clamped (g.orphaned || m.orphaned) (g.unplaced || m.unplaced)
             (degraded [g.opened, g.closed, m.opened] || m.degraded))))) ∧
     (∀ g e1 e2 shortened, run.missed = some g → judged g = ⟨.valid, some e1, some e2, shortened⟩ → k.jobDiscarded = false →
       let edges := (e2.count - e1.count).toNat
       let span := since e2.stamp e1.stamp
       e.catchUp fr t = { e with
         unit := { e.unit with waiting := e.unit.waiting ++ [⟨t, .frequency edges span f.shift run.smoothing⟩] },
         tasks := e.tasks.set t { k with
           run := .frequency { run with missed := none }, job := .waiting, cause := .job,
           waitingResult := some (.frequency g edges span ⟨e1.stamp, false⟩ ⟨e2.stamp, false⟩ shortened) } }) ∧
     (∀ g a, run.missed = some g → judged g = a → a.outcome = .noSignal →
       e.catchUp fr t = (taken { run with missed := none } g.opened.stamp 1
         { noSignal := true, shortened := a.shortened, lost := false, clamped := g.clamped, orphaned := g.orphaned,
           unplaced := g.unplaced, saturated := false, degraded := degraded
             ((a.e1.toList ++ a.e2.toList).map (fun x => ⟨x.stamp, false⟩) ++ [g.opened, g.closed]) }).catchUp fr t))

/-- A pending signal entry with no later reference entry taken gives NO_SIGNAL 2^40 TU after its stamp, not before (R69,
R70); a suspended task leaves it.
A local start whose search "first at or after s + H" of the stop ring, with or without entries before that, is PENDING
gives NO_STOP at its window horizon, s + window + W × 32 + 1, not before (R76, R77, R82); a suspended task leaves it.
Starts that one moment resolves give their results in start-time order, each before the next is judged, while the task takes
entries (R77, R79, R82): two pending local starts, or the slots of a REMOTE task (R75), one or two, with equal times by their
arrival numbers. A slot is freed as its result is taken, and its result names source, tag and UNPLACED (R133).
An INTERVAL task that catches up (R39, R80). LOCAL: it reads its start cursor forward, what left the ring counted as missed,
judges the starts that wait and those read, in order, and keeps those that still wait, sixteen at most, the others missed; a
result that suspends it leaves the starts just read to the list. REMOTE: it judges its slots. -/
def Obligations.LimitsGiveNoAnswer : Prop :=
  (∀ (s : State) (dt : Nat) (t : TaskId) (run : PhaseRun) (x : PendingSignal),
     s.dev.held = false → (∀ u, u ≠ t → (s.dev.eng.tasks.get u).run = .none) →
     (s.dev.eng.tasks.get t).run = .phase run → run.pending = [x] →
     (∀ n, run.newestRef = some n → n.laterThan ⟨x.entry.stamp, x.longPast⟩ = false) → unitSettled (atTime dt s).now s.dev.eng →
     let d := atTime dt s
     let k := d.eng.tasks.get t
     let due := x.longPast || reached d.now (plus x.entry.stamp (2 ^ 40))
     let r : PhaseResult :=
       { signal := x.entry.stamp, period := 0, phase := 0, gapCount := run.gap,
         flags := { noSignal := true, lost := false, unstamped := false, gap := decide (run.gap ≠ 0),
                    degraded := d.front.tb.anyDegraded [⟨x.entry.stamp, x.longPast⟩] } }
     let leads := fun (e : Engine) => exec (.phaseNoSignalLimit dt) s = goesTo s { d with eng := e }
     (due = false ∨ k.takes = false → leads d.eng) ∧
     (due = true → k.takes = true →
       leads ((Engine.takeResult d.now t (.phase r) 1
         { d.eng with tasks := d.eng.tasks.set t { k with
             run := .phase { run with pending := [], gap := 0 } } }).arbitrate d.now))) ∧
  (∀ (s : State) (dt : Nat) (t : TaskId) (td : TaskDef) (f : IntervalFields) (run : IntervalRun) (x : Start),
     s.dev.held = false → onlyRuns t s.dev → (s.dev.eng.tasks.get t).defn = some td → td.fields = .interval f →
     (s.dev.eng.tasks.get t).run = .interval run → run.pending = [x] →
     (s.dev.front.ring f.stopChannel).firstAtOrAfter x.searchFrom = .pending →
     (∀ i y, s.dev.eng.slots.get i = some y → y.task ≠ t) → unitSettled (atTime dt s).now s.dev.eng →
     let d := atTime dt s
     let k := d.eng.tasks.get t
     let due := x.time.longPast || x.windowEnd.longPast ||
       reached d.now (plus x.windowEnd.stamp ((d.front.chan f.stopChannel).glitch.val * 32 + 1))
     let r : IntervalResult :=
       { start := x.time.stamp, interval := 0, origin := none, tag := 0, missedCount := run.missed,
         flags := { noStop := true, lost := false, unstamped := false, unplaced := false,
                    degraded := d.front.tb.anyDegraded [x.time] } }
     let leads := fun (e : Engine) => exec (.windowHorizon dt) s = goesTo s { d with eng := e }
     (due = false ∨ k.takes = false → leads d.eng) ∧
     (due = true → k.takes = true →
       leads ((Engine.takeResult d.now t (.interval r) 1
         { d.eng with tasks := d.eng.tasks.set t { k with
             run := .interval { run with pending := [], missed := 0 } } }).arbitrate d.now))) ∧
  (∀ (s : State) (dt : Nat) (t : TaskId) (td : TaskDef) (f : IntervalFields) (run : IntervalRun),
     s.dev.held = false → onlyRuns t s.dev → (s.dev.eng.tasks.get t).takes = true → (s.dev.eng.tasks.get t).defn = some td →
     td.fields = .interval f → (s.dev.eng.tasks.get t).run = .interval run →
     let d := atTime dt s
     let due := fun (x : Start) => judgeStart d.front f x ≠ .waits ∧ (x.time.longPast || x.windowEnd.longPast ||
       reached d.now (plus x.windowEnd.stamp ((d.front.chan f.stopChannel).glitch.val * 32 + 1))) = true
     let with_ := fun (e : Engine) (r : IntervalRun) =>
       { e with tasks := e.tasks.set t { e.tasks.get t with run := .interval r } }
     let ofLocal := fun (x : Start) (missed : Nat) (e : Engine) => e.takeResult d.now t
       (.interval (intervalResult d.front.tb x.time none 0 false x.time missed (judgeStart d.front f x))) 1
     let ofSlot := fun (y : Slot) (missed : Nat) (e : Engine) => e.takeResult d.now t (.interval (intervalResult d.front.tb
       y.start.time (some y.source) y.tag y.unplaced y.attention missed (judgeStart d.front f y.start))) 1
     let leads := fun (e : Engine) => exec (.windowHorizon dt) s = goesTo s { d with eng := e.arbitrate d.now }
     (∀ x y, run.pending = [x, y] → (∀ i z, s.dev.eng.slots.get i = some z → z.task ≠ t) → due x → due y →
       let e := ofLocal x run.missed (with_ d.eng ⟨[y], 0⟩)
       leads (if e.takes t = true then ofLocal y 0 (with_ e ⟨[], 0⟩) else e)) ∧
     (run.pending = [] → ∀ i y, d.eng.slots.get i = some y → y.task = t → due y.start →
       let e := ofSlot y run.missed (with_ (d.eng.freeSlot i) ⟨[], 0⟩)
       ((∀ k z, k ≠ i → d.eng.slots.get k = some z → z.task ≠ t) → leads e) ∧
       (∀ j z, j ≠ i → d.eng.slots.get j = some z → z.task = t → due z.start →
         (∀ k w, k ≠ i → k ≠ j → d.eng.slots.get k = some w → w.task ≠ t) →
         y.start.time.laterThan z.start.time = false →
         z.start.time.laterThan y.start.time = true ∨ y.arrival < z.arrival →
         leads (if e.takes t = true then ofSlot z 0 (with_ (e.freeSlot j) ⟨[], 0⟩) else e)))) ∧
  (∀ (fr : Front) (e : Engine) (t : TaskId) (td : TaskDef) (f : IntervalFields) (run : IntervalRun), e.takes t = true →
     (e.tasks.get t).defn = some td → td.fields = .interval f → (e.tasks.get t).run = .interval run →
     let k := e.tasks.get t
     let waits := fun x => judgeStart fr f x = .waits
     let cap := fun (n : Nat) => min n (2 ^ 32 - 1)
     let ofLocal := fun (x : Start) (missed : Nat) (e : Engine) => e.takeResult fr.now t
       (.interval (intervalResult fr.tb x.time none 0 false x.time missed (judgeStart fr f x))) 1
     (∀ c, f.source = .localStart → k.cursor = some c → RingLaw (fr.ring f.startChannel) → run.pending.length ≤ 16 →
       (∀ i y, e.slots.get i = some y → y.task ≠ t) →
       let ring := fr.ring f.startChannel
       let missed := cap (run.missed + (ring.oldest - c))
       let news := (ring.entries.filter (fun x => decide (c ≤ x.index))).map (fun x =>
         ({ time := ⟨x.stamp, false⟩, searchFrom := ⟨plus x.stamp f.holdoff, false⟩,
            windowEnd := ⟨plus x.stamp f.window, false⟩ } : Start))
       let read := fun (r : IntervalRun) =>
         { e with tasks := e.tasks.set t { k with cursor := some ring.nextIndex, run := .interval r } }
       ((∀ x ∈ run.pending ++ news, waits x) → e.catchUp fr t = read
         ⟨(run.pending ++ news).take 16, cap (missed + (run.pending.length + news.length - 16))⟩) ∧
       (∀ pre x post, run.pending = pre ++ x :: post → news = [] → (∀ y ∈ pre, waits y) → ¬waits x →
         e.catchUp fr t = (ofLocal x missed (read ⟨pre ++ post, 0⟩)).catchUp fr t) ∧
       (∀ x, news = [x] → (∀ y ∈ run.pending, waits y) → ¬waits x →
         e.catchUp fr t = ofLocal x missed (read ⟨run.pending, 0⟩)) ∧
       (∀ x, run.pending = [x] → ¬waits x →
         let taken := ofLocal x missed (read ⟨[], 0⟩)
         taken.takes t = false → (taken.tasks.get t).run = .interval ⟨[], 0⟩ →
         e.catchUp fr t = { taken with tasks := taken.tasks.set t { taken.tasks.get t with
           run := .interval ⟨news.take 16, cap (news.length - 16)⟩ } })) ∧
     (f.source = .remoteStart → run.pending = [] → ∀ i y, e.slots.get i = some y → y.task = t →
       (∀ j z, j ≠ i → e.slots.get j = some z → z.task ≠ t) →
       (waits y.start → e.catchUp fr t = e) ∧
       (¬waits y.start → e.catchUp fr t = Engine.takeResult fr.now t (.interval (intervalResult fr.tb y.start.time
           (some y.source) y.tag y.unplaced y.attention run.missed (judgeStart fr f y.start))) 1
         { e.freeSlot i with tasks := e.tasks.set t { k with run := .interval ⟨[], 0⟩ } })))

/-- The job in progress finishes 3,200 TU after its start (R93, R94): its answer completes the waiting result, the task takes
it and catches up; a discarded job only frees the divider and its record.
At a finish with jobs waiting, or one held back behind a discarded job (R92, R94), the arbiter starts the waiting job of
the lowest-numbered task, and only then is the answer handed back (R93).
The arbiter where jobs were handed over (R93): a free divider starts the job of the lowest-numbered task, and a job handed
over at that same moment gives way to one of a lower number, so the jobs of one moment enter the list first. That a job whose
answer is discarded at the moment of its start stays is the model's choice (log 30). -/
def Obligations.JobFinishes : Prop :=
  (∀ (s : State) (dt : Nat) (j : CurrentJob), s.dev.held = false → s.dev.eng.unit = ⟨[], some j⟩ →
     let d := atTime dt s
     let k := d.eng.tasks.get j.task
     let leads := fun (e : Engine) => exec (.jobFinish dt) s = goesTo s { d with eng := e }
     let free : ArithUnit := ⟨[], none⟩
     (reached d.now (plus j.start 3200) = false → leads d.eng) ∧
     (reached d.now (plus j.start 3200) = true → j.discarded = true → k.heldBackJob = none →
       leads { d.eng with unit := free, tasks := d.eng.tasks.set j.task { k with
         jobDiscarded := false, job := if k.job = .inProgress then .none else k.job } }) ∧
     (∀ edges span shift state g e1 e2 shortened run td f, reached d.now (plus j.start 3200) = true →
       j.discarded = false → j.ops = .frequency edges span shift state →
       k.waitingResult = some (.frequency g edges span e1 e2 shortened) → k.run = .frequency run → k.defn = some td →
       td.fields = .frequency f → td.runLength = 0 ∨ k.resultsInRun < td.runLength →
       let gate := if f.source = .timed then k.armTime.toList else [g.opened, g.closed]
       let freq := frequencyOf edges span
       let smooth := newSmoothing state shift freq
       leads (((Engine.takeResult d.now j.task (.frequency
         { gateIndex := run.nextGate, openTime := g.opened.stamp, edges := edges, span := span, frequency := freq,
           smoothed := smoothedOf smooth, represented := 1,
           flags := { noSignal := false, shortened := shortened, lost := false, clamped := g.clamped,
                      orphaned := g.orphaned, unplaced := g.unplaced,
                      degraded := d.front.tb.anyDegraded (e1 :: e2 :: gate),
                      saturated := saturates edges span } }) 1
         { d.eng with unit := free, tasks := d.eng.tasks.set j.task { k with
             job := .none, cause := .none, waitingResult := none,
             run := .frequency { run with smoothing := some smooth, nextGate := run.nextGate + 1 } } }
         ).catchUp d.front j.task).arbitrate d.now)) ∧
     (∀ offset period x r1 r2 run, reached d.now (plus j.start 3200) = true → j.discarded = false →
       j.ops = .phase offset period → k.waitingResult = some (.phase x period r1 r2) → k.run = .phase run →
       leads (((Engine.takeResult d.now j.task (.phase
         { signal := x.stamp, period := period, phase := phaseOf offset period, gapCount := run.gap,
           flags := { noSignal := false, lost := false, unstamped := false, gap := decide (run.gap ≠ 0),
                      degraded := d.front.tb.anyDegraded [x, r1, r2] } }) 1
         { d.eng with unit := free, tasks := d.eng.tasks.set j.task { k with
             job := .none, cause := .none, waitingResult := none, run := .phase { run with gap := 0 } } }
         ).catchUp d.front j.task).arbitrate d.now))) ∧
  (∀ (s : State) (dt : Nat) (ws : List WaitingJob) (j : CurrentJob) (w : WaitingJob), s.dev.held = false →
     s.dev.eng.unit = ⟨ws, some j⟩ → reached (atTime dt s).now (plus j.start 3200) = true →
     let d := atTime dt s
     let k := d.eng.tasks.get j.task
     let all := ws ++ (if j.discarded then k.heldBackJob.toList.map (fun ops => ⟨j.task, ops⟩) else [])
     w ∈ all → (∀ v ∈ all, v = w ∨ w.task < v.task) →
     let unit : ArithUnit := ⟨all.filter (fun v => v.task ≠ w.task), some ⟨w.task, w.ops, d.now, false, false⟩⟩
     let started := fun (tasks : Per8 TaskRec) =>
       { d.eng with unit := unit, tasks := tasks.set w.task { tasks.get w.task with job := .inProgress } }
     let taken := fun (k : TaskRec) =>
       { started d.eng.tasks with tasks := (started d.eng.tasks).tasks.set j.task k }
     let leads := fun (e : Engine) => exec (.jobFinish dt) s = goesTo s { d with eng := e }
     (j.discarded = true → leads (started (d.eng.tasks.set j.task { k with
       jobDiscarded := false, heldBackJob := none, job := if k.job = .inProgress then .none else k.job }))) ∧
     (∀ edges span shift state g e1 e2 shortened run td f, j.discarded = false → w.task ≠ j.task →
       j.ops = .frequency edges span shift state →
       k.waitingResult = some (.frequency g edges span e1 e2 shortened) → k.run = .frequency run → k.defn = some td →
       td.fields = .frequency f → td.runLength = 0 ∨ k.resultsInRun < td.runLength →
       let gate := if f.source = .timed then k.armTime.toList else [g.opened, g.closed]
       let freq := frequencyOf edges span
       let smooth := newSmoothing state shift freq
       leads (((Engine.takeResult d.now j.task (.frequency
         { gateIndex := run.nextGate, openTime := g.opened.stamp, edges := edges, span := span, frequency := freq,
           smoothed := smoothedOf smooth, represented := 1,
           flags := { noSignal := false, shortened := shortened, lost := false, clamped := g.clamped,
                      orphaned := g.orphaned, unplaced := g.unplaced,
                      degraded := d.front.tb.anyDegraded (e1 :: e2 :: gate),
                      saturated := saturates edges span } }) 1
         (taken { k with job := .none, cause := .none, waitingResult := none,
                         run := .frequency { run with smoothing := some smooth, nextGate := run.nextGate + 1 } })
         ).catchUp d.front j.task).arbitrate d.now)) ∧
     (∀ offset period x r1 r2 run, j.discarded = false → w.task ≠ j.task →
       j.ops = .phase offset period → k.waitingResult = some (.phase x period r1 r2) → k.run = .phase run →
       leads (((Engine.takeResult d.now j.task (.phase
         { signal := x.stamp, period := period, phase := phaseOf offset period, gapCount := run.gap,
           flags := { noSignal := false, lost := false, unstamped := false, gap := decide (run.gap ≠ 0),
                      degraded := d.front.tb.anyDegraded [x, r1, r2] } }) 1
         (taken { k with job := .none, cause := .none, waitingResult := none, run := .phase { run with gap := 0 } })
         ).catchUp d.front j.task).arbitrate d.now))) ∧
  (∀ (e : Engine) (now : Stamp) (w : WaitingJob), w ∈ e.unit.waiting →
     (∀ v ∈ e.unit.waiting, v = w ∨ w.task < v.task) →
     let others := fun (ws : List WaitingJob) => ws.filter (fun v => v.task ≠ w.task)
     let new : CurrentJob := ⟨w.task, w.ops, now, false, true⟩
     let starts := fun (tasks : Per8 TaskRec) => tasks.set w.task { tasks.get w.task with job := .inProgress }
     (e.unit.current = none →
       e.arbitrate now = { e with unit := ⟨others e.unit.waiting, some new⟩, tasks := starts e.tasks }) ∧
     (∀ j, e.unit.current = some j →
       (j.handed = true → j.discarded = false → j.start = now → w.task < j.task →
         e.arbitrate now = { e with
           unit := ⟨others (e.unit.waiting ++ [⟨j.task, j.ops⟩]), some new⟩,
           tasks := starts (e.tasks.set j.task { e.tasks.get j.task with job := .waiting }) }) ∧
       (j.handed = false ∨ j.discarded = true ∨ j.start ≠ now ∨ ¬w.task < j.task → e.arbitrate now = e)))

/-! ## The line receiver -/

/-- Falls and rises of LINE outside STUCK (R106, R107): an idle fall sets low since; the rise of a low shorter than 3 LU, or
of one that a frame left behind (the model's choice, log 17), starts quiet; that of 3 to 6 LU is an attention and starts a frame,
which the station sends if the attempt in progress began that low, and takes no part in otherwise (R111); a rise inside a frame
ends its low. A station that drives LINE sees no rise.
A stuck line (R110, R166): a low of more than 6 LU enters STUCK, a frame in progress counted as truncated; in STUCK the edges
move low since and quiet since; 4 LU of high end the episode; at 2,000 LU it hands LINE_STUCK up once. That a low enters STUCK at
6 LU exactly is the model's choice, deduced (log 36); the model's choices too are bit cell 0 as the cell position outside a frame
(log 40) and a response-cell hold that runs on past the frame (log 42). Said for a station with no attempt in progress and no fault held.
A STUCK entry ends the station's own attempt (R110, R113): not wholly sampled it is CUT, its entry stays, and one marked
by a station halt leaves as DROPPED (R126), an owed HALT being offered again (R162); wholly sampled it goes on. The model's
choices: a low is stuck at 6 LU exactly (deduced, log 36), bit cell 0 outside a frame (log 40), a response-cell hold that runs on
past the frame (log 42). -/
def Obligations.LineEdgesAndStuckEpisodes : Prop :=
  (∀ (s : State) (dt : Nat), s.dev.held = false →
     let d := atTime dt s
     let r := d.rx
     let leads := fun (i : Instr) (r : Receiver) => exec i s = goesTo s (withRx d r)
     (r.state = .idle → r.lowSince = none →
       leads (.lineFall dt) { r with lowSince := some d.now, quietSince := none }) ∧
     (r.state ≠ .idle ∨ r.lowSince ≠ none → leads (.lineFall dt) r) ∧
     (r.lowSince = none ∨ d.drivesLine = true → leads (.lineRise dt) r) ∧
     (∀ low, r.lowSince = some low → d.drivesLine = false → since d.now low ≤ 6 * d.lu →
       (r.state = .idle → r.lowFromFrame = true ∨ since d.now low < 3 * d.lu →
         leads (.lineRise dt) { r with
           lowSince := none, quietSince := some ⟨d.now, false⟩, lowFromFrame := false, holdFrom := none }) ∧
       (r.state = .idle → r.lowFromFrame = false → 3 * d.lu ≤ since d.now low →
         leads (.lineRise dt)
           { state := .frame, lowSince := none, quietSince := none, attention := some low, cellPos := .bit 0, bits := [],
             ownPart := if d.eng.tx.attempt.map Attempt.attention = some low then .sending else .none, answer := .none,
             episodeStart := r.episodeStart, episodeReported := r.episodeReported, openCell := none,
             waitFrom := some d.now, judged := false, holdFrom := none, lowFromFrame := false }) ∧
       (r.state = .frame → leads (.lineRise dt) { r with lowSince := none }))) ∧
  (∀ (s : State) (dt : Nat), s.dev.held = false → s.dev.eng.tx.attempt = none →
     let d := atTime dt s
     let r := d.rx
     let leads := fun (i : Instr) (r : Receiver) (c : Control) => exec i s = goesTo s (withCtl (withRx d r) c)
     let c := d.eng.ctl
     let hold := if r.holdFrom.any (fun t => decide (since d.now t < 2 * d.lu)) then r.holdFrom else none
     let truncated : Control :=
       { c with counters := { c.counters with truncated := bumpBy 1 c.counters.truncated } }
     (∀ low, r.lowSince = some low → r.state ≠ .stuck → 6 * d.lu ≤ since d.now low →
       leads (.stuckEntry dt)
         { state := .stuck, lowSince := some low, quietSince := none, attention := none, cellPos := .bit 0, bits := [],
           ownPart := .none, answer := .none, episodeStart := some low, episodeReported := false, openCell := none,
           waitFrom := none, judged := false, holdFrom := hold, lowFromFrame := false }
         (if r.state = .frame then truncated else c)) ∧
     (∀ low, r.lowSince = some low → r.state ≠ .stuck → d.drivesLine = false → 6 * d.lu < since d.now low →
       leads (.lineRise dt)
         { state := .stuck, lowSince := none, quietSince := some ⟨d.now, false⟩, attention := none, cellPos := .bit 0, bits := [],
           ownPart := .none, answer := .none, episodeStart := some low, episodeReported := false, openCell := none,
           waitFrom := none, judged := false, holdFrom := none, lowFromFrame := false }
         (if r.state = .frame then truncated else c)) ∧
     (∀ low, r.lowSince = some low → since d.now low < 6 * d.lu → leads (.stuckEntry dt) r c) ∧
     (r.state = .stuck → r.lowSince ≠ none → d.drivesLine = false →
       leads (.stuckLineEdge dt true)
         { r with lowSince := none, quietSince := some ⟨d.now, false⟩, lowFromFrame := false, holdFrom := none } c) ∧
     (r.state = .stuck → r.lowSince = none →
       leads (.stuckLineEdge dt false) { r with lowSince := some d.now, quietSince := none } c) ∧
     (∀ rising, r.state ≠ .stuck → leads (.stuckLineEdge dt rising) r c) ∧
     (∀ q, r.state = .stuck → r.quietSince = some q →
       leads (.stuckEnd dt) (if (q.longPast || reached d.now (plus q.stamp (4 * d.lu))) = true
         then { r with state := .idle, episodeStart := none, episodeReported := false } else r) c) ∧
     (∀ t, r.state = .stuck → r.episodeStart = some t →
       (reached d.now (plus t (2000 * d.lu)) = false ∨ r.episodeReported = true → leads (.lineStuck dt) r c) ∧
       (reached d.now (plus t (2000 * d.lu)) = true → r.episodeReported = false →
         (c.state = .halted → leads (.lineStuck dt) { r with episodeReported := true } c) ∧
         (c.state ≠ .halted → c.faultHold = false →
           leads (.lineStuck dt) { r with episodeReported := true }
             { c with faultHold := true, faultRecord := some ⟨.lineStuck, plus t (2000 * d.lu), 0⟩ })))) ∧
  (∀ (s : State) (dt : Nat) (low : Stamp) (a : Attempt), s.dev.held = false → s.dev.rx.lowSince = some low →
     s.dev.rx.state ≠ .stuck → s.dev.eng.tx.attempt = some a →
     let d := atTime dt s
     let r := d.rx
     let hold := if r.holdFrom.any (fun t => decide (since d.now t < 2 * d.lu)) then r.holdFrom else none
     let stuck : Receiver :=
       { state := .stuck, lowSince := some low, quietSince := none, attention := none, cellPos := .bit 0, bits := [],
         ownPart := .none, answer := .none, episodeStart := some low, episodeReported := false, openCell := none,
         waitFrom := none, judged := false, holdFrom := hold, lowFromFrame := false }
     let risen : Receiver := { stuck with lowSince := none, quietSince := some ⟨d.now, false⟩, holdFrom := none }
     let c := d.eng.ctl
     let counters := if r.state = .frame then { c.counters with truncated := bumpBy 1 c.counters.truncated } else c.counters
     let gone := d.eng.tx.queue.filter (fun m => m.inTransmission && m.removeAtEnd)
     let stay := (d.eng.tx.queue.filter (fun m => !(m.inTransmission && m.removeAtEnd))).map
       (fun m => { m with inTransmission := false })
     let queue := match c.haltOwed with
       | some w => if stay.any (fun m => m.kind == .halt) then stay else haltEntry w :: stay
       | none => stay
     let cut : Engine := { d.eng with
       ctl := { c with
         counters := { counters with
           dropped := if gone = [] then c.counters.dropped else bumpBy gone.length c.counters.dropped },
         latched := { c.latched with markerLoss := c.latched.markerLoss || decide (gone ≠ []) } },
       tx := { d.eng.tx with attempt := none, queue := queue } }
     let whole : Engine := { d.eng with ctl := { c with counters := counters } }
     let leads := fun (e : Engine) =>
       (6 * d.lu ≤ since d.now low → exec (.stuckEntry dt) s = goesTo s { withRx d stuck with eng := e }) ∧
       (6 * d.lu < since d.now low → d.drivesLine = false →
         exec (.lineRise dt) s = goesTo s { withRx d risen with eng := e })
     (a.allSampled = true → leads whole) ∧
     (a.allSampled = false → (∀ m ∈ gone, m.originTask = none) →
       c.haltOwed = none ∨ (d.eng.tx.mute = false ∧ d.eng.tx.haltSent = false ∧ stay.length < 8) → leads cut))

/-- The cells of a frame (R104, R113, R115): a falling edge with no cell open begins the next cell, and a station that
answers holds its response cell from that edge; a bit cell is sampled 1.5 LU after its edge, high for a one; the sender
samples its response cells 126.5 and 129.5 LU after its own attention stamp, also while its receiver, having left that frame, is
in another. That an edge exactly at the sample point of the
TAKEN cell starts the REFUSED cell is the model's choice (log 52). -/
def Obligations.CellsAreReadByTheirEdges : Prop :=
  ∀ (s : State) (dt : Nat) (othersLow : Bool), s.dev.held = false →
    let d := atTime dt s
    let r := d.rx
    let half := d.lu / 2
    let edge := fun (r : Receiver) => exec (.cellEdge dt) s = goesTo s (withRx d r)
    let sample := fun (r : Receiver) (a : Option Attempt) =>
      exec (.cellSample dt othersLow) s = goesTo s { withRx d r with eng := { d.eng with tx := { d.eng.tx with attempt := a } } }
    let low := othersLow || d.drivesLine
    let mayAnswer := d.eng.tx.mute = false ∧ (d.eng.ctl.state = .joining ∨ d.eng.ctl.state = .live) ∧ r.ownPart ≠ .sending
    let elapsed := fun (t : Stamp) => reached d.now (plus t (3 * half))
    (r.state ≠ .frame ∨ r.lowSince ≠ none → edge r) ∧
    (r.state = .frame → r.lowSince = none → r.openCell ≠ none → edge { r with lowSince := some d.now }) ∧
    (r.state = .frame → r.lowSince = none → r.openCell = none →
      (∀ k, r.cellPos = .bit k → edge { r with
        lowSince := some d.now, openCell := some d.now, waitFrom := some d.now,
        cellPos := if k < 39 then .bit (k + 1) else .takenCell }) ∧
      (r.cellPos = .takenCell → edge { r with
        lowSince := some d.now, waitFrom := some d.now, cellPos := .refusedCell,
        holdFrom := if mayAnswer ∧ r.answer = .taken then some d.now else r.holdFrom }) ∧
      (∀ w, r.cellPos = .refusedCell → r.waitFrom = some w →
        (elapsed w = false → edge { r with lowSince := some d.now }) ∧
        (elapsed w = true → edge { r with
          lowSince := some d.now, waitFrom := some d.now, cellPos := .noMore,
          holdFrom := if mayAnswer ∧ r.answer = .refused then some d.now else r.holdFrom }))) ∧
    (∀ t, r.state = .frame → r.openCell = some t → d.eng.tx.attempt = none →
      (elapsed t = true → sample { r with bits := r.bits ++ [!low], openCell := none } none) ∧
      (elapsed t = false → sample r none)) ∧
    (∀ t a, r.state = .frame → r.openCell = some t → d.eng.tx.attempt = some a → a.allSampled = false → elapsed t = true →
      let bits := r.bits ++ [!low]
      sample { r with bits := bits, openCell := none }
        (some { a with allSampled := r.ownPart == .sending && bits.length == 40 && wordOfBits bits == a.word })) ∧
    (∀ a, d.eng.tx.attempt = some a → a.allSampled = true →
      let age := since d.now a.attention
      let answered : Attempt := { a with
        takenLow := if age = 253 * half then some low else a.takenLow,
        refusedLow := if age = 259 * half then some low else a.refusedLow }
      (r.state ≠ .frame ∨ (∀ t, r.openCell = some t → elapsed t = false) → sample r (some answered)) ∧
      (∀ t, r.state = .frame → r.openCell = some t → elapsed t = true →
        sample { r with bits := r.bits ++ [!low], openCell := none } (some answered)))

/-- A lost or cut attempt leaves its entry where it stands (R107, R112, R113, R125): the contender that reads a zero where it
sent a one drops out, counted; a frame whose next cell edge does not come within 4 LU is truncated and counted, the receiver
idle with the line quiet from then on. An entry that a station halt found in transmission is then removed as DROPPED (R126),
and an owed HALT with no HALT queued is offered again, at the head (R162). That such a truncated frame ends the own attempt,
as CUT, is the model's choice, deduced (log 16), and so is the rise of a low it leaves behind (log 17); that the cell position
is bit cell 0 after it (log 40) and that a response-cell hold runs on past it (log 42) are the model's choices too. -/
def Obligations.BrokenFramesKeepTheirEntry : Prop :=
  ∀ (s : State) (dt : Nat) (a : Attempt), s.dev.held = false → s.dev.rx.state = .frame →
    let d := atTime dt s
    let r := d.rx
    let c := d.eng.ctl
    let gone := d.eng.tx.queue.filter (fun m => m.inTransmission && m.removeAtEnd)
    let stay := (d.eng.tx.queue.filter (fun m => !(m.inTransmission && m.removeAtEnd))).map
      (fun m => { m with inTransmission := false })
    let queue := match c.haltOwed with
      | some w => if stay.any (fun m => m.kind == .halt) then stay else haltEntry w :: stay
      | none => stay
    let offers := c.haltOwed = none ∨ (d.eng.tx.mute = false ∧ d.eng.tx.haltSent = false ∧ stay.length < 8)
    let ended := fun (i : Instr) (r : Receiver) (n : Counters) =>
      (∀ m ∈ gone, m.originTask = none) → offers →
      exec i s = goesTo s { withRx d r with eng := { d.eng with
        ctl := { c with
          counters := { n with dropped := if gone = [] then c.counters.dropped else bumpBy gone.length c.counters.dropped },
          latched := { c.latched with markerLoss := c.latched.markerLoss || decide (gone ≠ []) } },
        tx := { d.eng.tx with attempt := none, queue := queue } } }
    let leads := fun (i : Instr) (r : Receiver) (n : Counters) =>
      exec i s = goesTo s { withRx d r with eng := { d.eng with ctl := { c with counters := n } } }
    let hold := if r.holdFrom.any (fun t => decide (since d.now t < 2 * d.lu)) then r.holdFrom else none
    let idle : Receiver :=
      { state := .idle, lowSince := r.lowSince, quietSince := if r.lowSince = none then some ⟨d.now, false⟩ else none,
        attention := none, cellPos := .bit 0, bits := [], ownPart := .none, answer := .none, episodeStart := r.episodeStart,
        episodeReported := r.episodeReported, openCell := none, waitFrom := none, judged := false, holdFrom := hold,
        lowFromFrame := decide (r.lowSince ≠ none) }
    (∀ bits, r.ownPart = .sending → d.eng.tx.attempt = some a → a.allSampled = false → r.openCell = none →
      r.bits = bits ++ [false] → cellBit a.word bits.length = true →
      ended (.arbitrationLoss dt) { r with ownPart := .lost }
        { c.counters with arbLosses := bumpBy 1 c.counters.arbLosses }) ∧
    (∀ bits b, r.openCell = none → d.eng.tx.attempt = some a → r.bits = bits ++ [b] → b = true ∨ cellBit a.word bits.length = false →
      leads (.arbitrationLoss dt) r c.counters) ∧
    (∀ w, r.waitFrom = some w → r.cellPos ≠ .noMore → reached d.now (plus w (4 * d.lu)) = true →
      (d.eng.tx.attempt = none →
        leads (.frameTruncated dt) idle { c.counters with truncated := bumpBy 1 c.counters.truncated }) ∧
      (d.eng.tx.attempt = some a → a.allSampled = false →
        ended (.frameTruncated dt) idle { c.counters with truncated := bumpBy 1 c.counters.truncated })) ∧
    (∀ w, r.waitFrom = some w → reached d.now (plus w (4 * d.lu)) = false → leads (.frameTruncated dt) r c.counters) ∧
    (r.cellPos = .noMore → leads (.frameTruncated dt) r c.counters)

/-! ## Markers received -/

/-- The whole word of a frame is judged once (R108, R114, R116, R119, R127): damaged, the station's own, of unknown kind, or
without effect in UNSET and HALTED. An own number heard from elsewhere is an identity clash: the transmitter is muted and drops
what it has not begun to send, each DROPPED to its PUBLISH task (R87), the fault is held (R166), or halts the station where one is
held already (R167), and an owed HALT will not be sent (R140, R162), which ends a retirement (R163) and makes a waiting reset
take effect (R164). The model's choices, deduced: a word of unknown kind with the own number is counted and is a clash as
well (log 26); the mute comes before the fault, and the fault before the end of a retirement (log 10); a reset that the mute lets take effect
makes the fault moot (log 24) and cuts its own reply where this is still being clocked out (log 51).
ANNOUNCE and HALT from another station move its peer entry and latch PEER_CHANGED when state, position or reason change
(R138, R141); JOINING and LIVE stations answer TAKEN (R116). A LIVE station with a position answers a joining ANNOUNCE with its
own, not joining, unless one is queued, the line is muted or the HALT is sent (R139, R121); a full queue makes room (R122). The
ANNOUNCE closes its source's OPEN gates (R146), and the tasks then act in ascending number, each on the DROPPED outcome of its
displaced marker and on the gates' close notices before the next (R147, R152; each whole is deduced, log 9); the reply is queued
before they act (deduced, log 10). Where no gate closes and the displaced marker is no task's, the whole next state is written
out; so is that of a HALT of such a source. -/
def Obligations.WordsAndPeers : Prop :=
  (∀ (s : State) (dt : Nat) (pins : ReleasePins) (attention : Stamp), s.dev.held = false → s.dev.rx.state = .frame →
     s.dev.rx.attention = some attention →
     let d := atTime dt s
     let r := d.rx
     let w := wordOfBits r.bits
     let c := d.eng.ctl
     let tx := d.eng.tx
     let no := c.stationNo
     let goes := fun (e : Engine) => exec (.markerReceived dt pins) s =
       goesTo s { withRx d { r with judged := true } with eng := e }
     let leads := fun (c : Control) => goes { d.eng with ctl := c }
     let online := c.state = .joining ∨ c.state = .live
     let unknown : Control := { c with counters := { c.counters with unknownKind := bumpBy 1 c.counters.unknownKind } }
     (r.judged = true ∨ r.bits.length ≠ 40 → exec (.markerReceived dt pins) s = goesTo s d) ∧
     (r.judged = false → r.bits.length = 40 →
       (checkRight w = false → leads { c with counters := { c.counters with damaged := bumpBy 1 c.counters.damaged } }) ∧
       (checkRight w = true → wordSource w = no →
         let heard := if markerKindOf (wordKind w) = none ∧ online then unknown else c
         (r.ownPart = .sending → leads c) ∧
         (r.ownPart ≠ .sending → tx.mute = true ∨ c.state = .halted → leads heard) ∧
         (r.ownPart ≠ .sending → tx.mute = false → c.state ≠ .halted →
           let owed := c.haltOwed
           let own := d.eng.peers.get no
           let peers := match owed with
             | some reason => d.eng.peers.set no { own with state := .halted, haltReason := some reason }
             | none => d.eng.peers
           let gone := tx.queue.filter (fun m => !m.inTransmission)
           let muted : Transmitter := { tx with mute := true, queue := tx.queue.filter (fun m => m.inTransmission) }
           let told : Control := { heard with
             counters := { heard.counters with
               dropped := if gone = [] then c.counters.dropped else bumpBy gone.length c.counters.dropped },
             latched := { c.latched with markerLoss := true } }
           let retires := c.departure = .retire ∧ owed ≠ none
           let after : Control := { told with
             haltOwed := none, state := if retires then .halted else c.state, departure := if retires then .none else c.departure }
           let record : FaultRecord := ⟨.identityClash, d.now, no.setWidth 8⟩
           (c.departure = .reset → owed ≠ none → exec (.markerReceived dt pins) s =
             goesTo s (Station.released pins (s.dev.front.chans.map Channel.pinLevel) s.dev.port.csLow)) ∧
           (c.departure ≠ .reset ∨ owed = none → (∀ m ∈ tx.queue, m.originTask = none) →
             (c.faultHold = false → goes { d.eng with
               tx := muted, ctl := { after with faultHold := true, faultRecord := some record }, peers := peers }) ∧
             (c.faultHold = true → goes (Engine.stationHalt .identityClash { d.eng with tx := muted, ctl := told }))) ∧
           (∀ m t o run, owed = none → tx.queue = [m] → m.inTransmission = false → m.originTask = some t →
             m.origin = some o → (d.eng.tasks.get t).run = .publish run → (d.eng.tasks.get t).runContinues = true →
             let k := d.eng.tasks.get t
             let with_ := fun (r : PublishRun) =>
               { d.eng with tx := muted, ctl := told, tasks := d.eng.tasks.set t { k with run := .publish r } }
             (k.takes = false → c.faultHold = false →
               goes { with_ { run with deferred := run.deferred ++ [⟨o, .dropped, 0⟩] } with
                 ctl := { told with faultHold := true, faultRecord := some record } }) ∧
             (k.takes = true →
               let r : PublishResult :=
                 { edge := o.stamp, outcome := .dropped, delay := 0, gapCount := run.gap, gap := decide (run.gap ≠ 0),
                   degraded := d.front.tb.stampDegraded o }
               let e := Engine.takeResult d.now t (.publish r) 1 (with_ { run with gap := 0 })
               goes (Engine.stationFault .identityClash d.now (no.setWidth 8) { e with
                 ctl := { e.ctl with latched := { e.ctl.latched with markerLoss := true } } }))))) ∧
       (checkRight w = true → wordSource w ≠ no →
         (markerKindOf (wordKind w) = none → online → leads unknown) ∧
         (¬online → (∀ k, markerKindOf (wordKind w) = some k → k ≠ .announce ∧ k ≠ .halt) → leads c)))) ∧
  (∀ (s : State) (dt : Nat) (pins : ReleasePins) (attention : Stamp), s.dev.held = false → s.dev.rx.state = .frame →
     s.dev.rx.attention = some attention → s.dev.rx.judged = false → s.dev.rx.bits.length = 40 →
     let d := atTime dt s
     let w := wordOfBits d.rx.bits
     let c := d.eng.ctl
     let p := d.eng.peers.get (wordSource w)
     let answer : CellAnswer := if c.state = .joining ∨ c.state = .live then .taken else d.rx.answer
     let goes := fun (e : Engine) => exec (.markerReceived dt pins) s =
       goesTo s { withRx d { d.rx with judged := true, answer := answer } with eng := e }
     let moved := fun (p : Peer) (changed : Bool) => { d.eng with
       peers := d.eng.peers.set (wordSource w) p,
       ctl := { c with latched := { c.latched with peerChanged := c.latched.peerChanged || changed } } }
     let gatesClosed := ∀ g, (d.gates.get g).opener = some (wordSource w) → (d.gates.get g).state = .closed
     checkRight w = true → wordSource w ≠ c.stationNo →
     (markerKindOf (wordKind w) = some .announce →
       let e := moved { state := .live, position := some (wordPosition w), haltReason := none, lastAnnounce := some attention }
         (decide (p.state ≠ .live ∨ p.position ≠ some (wordPosition w)))
       let own := (d.eng.peers.get c.stationNo).position
       let q := d.eng.tx.queue
       let lost : Control := { e.ctl with
         counters := { c.counters with dropped := bumpBy 1 c.counters.dropped },
         latched := { e.ctl.latched with markerLoss := true } }
       let time := attention - BitVec.ofNat 48 (match own with
         | some a => max a.toNat (wordPosition w).toNat - min a.toNat (wordPosition w).toNat
         | none => 0)
       let closes := fun g : Gate => decide (g.state = .opened ∧ g.opener = some (wordSource w))
       let early := fun g : Gate => g.openTime.any (fun o => !o.longPast && later o.stamp time)
       let close := fun g : Gate => if early g then (g.openTime.map Kept.stamp).getD time else time
       let notes := nibbles.flatMap (fun i =>
         let g := d.gates.get i
         if closes g then g.openTime.toList.map (fun o => (i, Notice.closed g.generation o (fresh (close g))
           (g.unplaced || own.isNone) true g.reopened (g.negative || early g))) else [])
       let answered := fun (done : (TaskId → Engine → Engine) → Engine → Prop) =>
         (c.state ≠ .live ∨ own = none → done (fun _ x => x) e) ∧
         (∀ place, c.state = .live → own = some place →
           let reply : OutEntry := { kind := .announce, tag := 0, origin := none, originTask := none, inTransmission := false,
                                     removeAtEnd := false, payload := (place ++ (0 : BitVec 1)) ++ (0 : BitVec 12) }
           (d.eng.tx.mute = true ∨ d.eng.tx.haltSent = true → done (fun _ x => x) { e with ctl := lost }) ∧
           (d.eng.tx.mute = false → d.eng.tx.haltSent = false →
             ((∃ m ∈ q, m.kind = .announce) → done (fun _ x => x) e) ∧
             ((∀ m ∈ q, m.kind ≠ .announce) → q.length < 8 →
               done (fun _ x => x) { e with tx := { d.eng.tx with queue := q ++ [reply] } }) ∧
             (∀ pre m post, (∀ m ∈ q, m.kind ≠ .announce) → q = pre ++ m :: post → 8 ≤ q.length → m.kind ≠ .halt →
               (∀ x ∈ post, x.kind = .halt) →
               done (fun t x => match m.originTask, m.origin with
                 | some u, some o => if u = t then x.giveOutcome d.front u ⟨o, .dropped, 0⟩ else x
                 | _, _ => x) { e with ctl := lost, tx := { d.eng.tx with queue := pre ++ post ++ [reply] } })))
       (wordJoining w = false → goes e) ∧
       (wordJoining w = true →
         (gatesClosed → unitSettled d.now d.eng → answered (fun given e => (∀ t x, given t x = x) → goes e)) ∧
         answered (fun given e => ∃ gates : Per16 Gate,
           (∀ i, let g := d.gates.get i
             gates.get i = if closes g then { g with
                 state := .closed, closeTime := some (close g), closer := some (wordSource w),
                 unplaced := g.unplaced || own.isNone, negative := g.negative || early g, orphaned := true }
               else g) ∧
           exec (.markerReceived dt pins) s =
             goesTo s { withRx d { d.rx with judged := true, answer := answer } with
               gates := gates
               eng := (taskIds.foldl (fun x t => notes.foldl (fun x n => x.notifyTask d.front n.1 n.2 t) (given t x)) e).arbitrate
                 d.now }))) ∧
     (markerKindOf (wordKind w) = some .halt → gatesClosed → unitSettled d.now d.eng →
       goes (moved { p with state := .halted, haltReason := some (wordReason w) }
         (decide (p.state ≠ .halted ∨ p.haltReason ≠ some (wordReason w))))))

/-- Which listen entry decides a marker (R129): the lowest-numbered one whose source, class and tag tests hold. -/
def Obligations.ListenEntriesMatch : Prop :=
  ∀ (listen : Per8 ListenEntry) (k : MarkerKind) (source : StationNo) (tag : Tag) (l : ListenEntry),
    let fits := fun (i : Fin 8) =>
      let x := listen.get i
      ((x.mode = .one ∧ source = x.bound) ∨
        (x.mode = .upto ∧ source.toNat ≤ x.bound.toNat ∧ (i = 0 ∨ (listen.get (i - 1)).bound.toNat < source.toNat))) ∧
      ((k = .edge ∧ x.cls ≠ .gate) ∨ ((k = .gateOpen ∨ k = .gateClose) ∧ x.cls ≠ .edge)) ∧
      (∀ b, b < 4 → x.tagMask.getLsbD b = true → tag.getLsbD b = x.tagValue.getLsbD b)
    (decidingEntry listen k source tag = some l ↔ ∃ i, l = listen.get i ∧ fits i ∧ ∀ j, j < i → ¬fits j) ∧
    (decidingEntry listen k source tag = none ↔ ∀ i, ¬fits i)

/-- An EDGE marker in JOINING or LIVE meets the entry that decides it (R130, R131, R132, R134, R136): passed over, refused,
unclaimed, or taken into the lowest free slot with the attention stamp less the delay and the propagation as its remote
time (R142). A task that takes entries judges the start at once (R75): one that resolves gives its result with the slot freed
again; one that waits keeps its slot, as does one whose task is suspended.
Slots freed (R131, R133): the slot is FREE, every other stays as it is but for the arrival numbers above the freed one, which
close up by one. The slots of a task freed together leave the slots of other tasks held, with arrival numbers no higher. -/
def Obligations.TakenEdgeFillsASlot : Prop :=
  (∀ (s : State) (dt : Nat) (pins : ReleasePins) (attention : Stamp), s.dev.held = false → s.dev.rx.state = .frame →
     s.dev.rx.attention = some attention → s.dev.rx.judged = false → s.dev.rx.bits.length = 40 →
     let d := atTime dt s
     let w := wordOfBits d.rx.bits
     let c := d.eng.ctl
     let source := wordSource w
     let own := (d.eng.peers.get c.stationNo).position
     let theirs := if (d.eng.peers.get source).state = .absent then none else (d.eng.peers.get source).position
     let propagation := match own, theirs with
       | some a, some b => max a.toNat b.toNat - min a.toNat b.toNat
       | _, _ => 0
     let time := attention - BitVec.ofNat 48 (wordDelay w) - BitVec.ofNat 48 propagation
     let refused : Control := { c with
       counters := { c.counters with refusalsGiven := bumpBy 1 c.counters.refusalsGiven },
       latched := { c.latched with markerLoss := true } }
     let leads := fun (a : CellAnswer) (c : Control) (slots : Per8 (Option Slot)) => exec (.markerReceived dt pins) s =
       goesTo s { withRx d { d.rx with judged := true, answer := a } with eng := { d.eng with ctl := c, slots := slots } }
     checkRight w = true → source ≠ c.stationNo → markerKindOf (wordKind w) = some .edge →
     c.state = .joining ∨ c.state = .live →
     (decidingEntry d.listen .edge source (wordTag w) = none → leads d.rx.answer c d.eng.slots) ∧
     (∀ l, decidingEntry d.listen .edge source (wordTag w) = some l →
       let k := d.eng.tasks.get l.task
       let fit := fun f => k.runContinues = true ∧ ∃ td, k.defn = some td ∧ td.fields = .interval f ∧ f.source = .remoteStart
       (l.action = .pass → leads d.rx.answer c d.eng.slots) ∧
       (l.action = .refuse → leads .refused refused d.eng.slots) ∧
       (l.action = .take → (∀ f, ¬fit f) →
         leads d.rx.answer { c with counters := { c.counters with unclaimed := bumpBy 1 c.counters.unclaimed } } d.eng.slots) ∧
       (∀ f, l.action = .take → fit f → (∀ i, d.eng.slots.get i ≠ none) → leads .refused refused d.eng.slots) ∧
       (∀ f i, l.action = .take → fit f → d.eng.slots.get i = none → (∀ j, j < i → d.eng.slots.get j ≠ none) →
         let y : Slot :=
           { source := source, tag := wordTag w, attention := ⟨attention, false⟩, task := l.task,
             start := { time := ⟨time, false⟩, searchFrom := ⟨time + BitVec.ofNat 48 f.holdoff, false⟩,
                        windowEnd := ⟨time + BitVec.ofNat 48 f.window, false⟩ },
             unplaced := own.isNone || theirs.isNone,
             arrival := (taskIds.filter (fun i => (d.eng.slots.get i).isSome)).length + 1 }
         let filled := d.eng.slots.set i (some y)
         let v := judgeStart d.front f y.start
         (k.takes = false ∨ (∀ run, k.run ≠ .interval run) ∨ v = .waits → leads .taken c filled) ∧
         (∀ run, k.takes = true → k.run = .interval run → v ≠ .waits → exec (.markerReceived dt pins) s =
           goesTo s { withRx d { d.rx with judged := true, answer := .taken } with
             eng := Engine.takeResult d.now l.task (.interval (intervalResult d.front.tb y.start.time (some source) y.tag
                 y.unplaced y.attention run.missed v)) 1
               { { d.eng with slots := filled }.freeSlot i with
                 tasks := d.eng.tasks.set l.task { k with run := .interval { run with missed := 0 } } } })))) ∧
  (∀ (e : Engine) (i : SlotId) (y : Slot), e.slots.get i = some y →
     let shut := fun (z : Slot) => { z with arrival := if y.arrival < z.arrival then z.arrival - 1 else z.arrival }
     (∃ slots, e.freeSlot i = { e with slots := slots } ∧ slots.get i = none ∧
       ∀ j, j ≠ i → slots.get j = (e.slots.get j).map shut) ∧
     (∃ slots, e.freeSlotsOf y.task = { e with slots := slots } ∧
       (∀ j, e.slots.get j = none → slots.get j = none) ∧
       (∀ j z, e.slots.get j = some z → z.task = y.task → slots.get j = none) ∧
       (∀ j z, e.slots.get j = some z → z.task ≠ y.task → ∃ n, n ≤ z.arrival ∧ slots.get j = some { z with arrival := n })) ∧
     ((∀ j z, j ≠ i → e.slots.get j = some z → z.task ≠ y.task) → e.freeSlotsOf y.task = e.freeSlot i))

/-- A GATE marker that an entry takes moves the gate's record (R130, R144, R145, R142): an open, an open of an OPEN gate, a
close, one that would be earlier than the open time, and a stray close. The notices of it reach the tasks, for a reopen the
close of the old generation before the open of the new one, and the arbiter then chooses (R147, R152, R93); a stray close
issues none. Where no run follows a line gate, the notices touch nothing.
A HALT of a station, and its ANNOUNCE with the joining flag, close every gate it opened and that is OPEN, with ORPHANED, at
the attention stamp less the propagation (R146, R142), the position that of the ANNOUNCE itself; every other record stays. At a
HALT each gate closed so issues its close notice, all of them reach the tasks in ascending number, and the arbiter then chooses
(R147, R152, R93), once the peer entry has moved (R141); at an ANNOUNCE they come as the statement about peers says. -/
def Obligations.GateRecordsFollowTheirMarkers : Prop :=
  (∀ (s : State) (dt : Nat) (pins : ReleasePins) (attention : Stamp) (l : ListenEntry) (kind : MarkerKind),
     s.dev.held = false → s.dev.rx.state = .frame →
     s.dev.rx.attention = some attention → s.dev.rx.judged = false → s.dev.rx.bits.length = 40 →
     let d := atTime dt s
     let w := wordOfBits d.rx.bits
     let c := d.eng.ctl
     let source := wordSource w
     let placed := d.eng.propagation source
     let time := attention - BitVec.ofNat 48 (wordDelay w) - BitVec.ofNat 48 (placed.getD 0)
     let g := d.gates.get (wordTag w)
     let told := fun (ns : List Notice) => (d.eng.notify d.front (ns.map (fun n => (wordTag w, n)))).arbitrate d.now
     let leads := fun (g : Gate) (ns : List Notice) => exec (.markerReceived dt pins) s =
       goesTo s { withRx d { d.rx with judged := true, answer := .taken } with
         gates := d.gates.set (wordTag w) g, eng := told ns }
     let opened : Gate :=
       { state := .opened, openTime := some ⟨time, false⟩, opener := some source, closeTime := none, closer := none,
         generation := g.generation + 1, unplaced := placed.isNone, orphaned := false, reopened := decide (g.state = .opened),
         negative := false }
     let openNotice : Notice := .opened (g.generation + 1) ⟨time, false⟩ placed.isNone
     checkRight w = true → source ≠ c.stationNo → markerKindOf (wordKind w) = some kind →
     c.state = .joining ∨ c.state = .live → decidingEntry d.listen kind source (wordTag w) = some l → l.action = .take →
     (kind = .gateOpen → g.state = .closed → leads opened [openNotice]) ∧
     (kind = .gateClose → g.state = .closed → exec (.markerReceived dt pins) s =
       goesTo s { withRx d { d.rx with judged := true, answer := .taken } with
         eng := { d.eng with ctl := { c with counters := { c.counters with strayCloses := bumpBy 1 c.counters.strayCloses } } } }) ∧
     (∀ o, g.state = .opened → g.openTime = some o →
       let early := !o.longPast && later o.stamp time
       let close := if early then o.stamp else time
       let closeNotice := fun (re : Bool) =>
         Notice.closed g.generation o ⟨close, false⟩ (g.unplaced || placed.isNone) g.orphaned re (g.negative || early)
       (kind = .gateClose →
         leads { g with state := .closed, closeTime := some close, closer := some source,
                        unplaced := g.unplaced || placed.isNone, negative := g.negative || early } [closeNotice g.reopened]) ∧
       (kind = .gateOpen → leads opened [closeNotice true, openNotice])) ∧
     (g.openTime = none → g.state = .opened → kind = .gateOpen → leads opened [openNotice]) ∧
     ((∀ t td f, (s.dev.eng.tasks.get t).runContinues = true → (s.dev.eng.tasks.get t).defn = some td →
         td.fields = .frequency f → f.source ≠ .line) → unitSettled d.now d.eng → ∀ ns, told ns = d.eng)) ∧
  (∀ (s : State) (dt : Nat) (pins : ReleasePins) (attention : Stamp), s.dev.held = false → s.dev.rx.state = .frame →
     s.dev.rx.attention = some attention → s.dev.rx.judged = false → s.dev.rx.bits.length = 40 →
     let w := wordOfBits s.dev.rx.bits
     let source := wordSource w
     let own := (s.dev.eng.peers.get s.dev.eng.ctl.stationNo).position
     let announced := markerKindOf (wordKind w) = some .announce
     let theirs := if announced then some (wordPosition w) else (s.dev.eng.peers.get source).position
     let propagation := match own, theirs with
       | some a, some b => max a.toNat b.toNat - min a.toNat b.toNat
       | _, _ => 0
     let time := attention - BitVec.ofNat 48 propagation
     checkRight w = true → source ≠ s.dev.eng.ctl.stationNo →
     markerKindOf (wordKind w) = some .halt ∨ (announced ∧ wordJoining w = true) →
     let d := atTime dt s
     let c := d.eng.ctl
     let early := fun (o : Kept) => !o.longPast && later o.stamp time
     ∃ t, exec (.markerReceived dt pins) s = goesTo s t ∧
       (∀ i,
         let g := s.dev.gates.get i
         (g.state = .closed ∨ g.opener ≠ some source → t.gates.get i = g) ∧
         (∀ o, g.state = .opened → g.opener = some source → g.openTime = some o →
           t.gates.get i = { g with
             state := .closed, closeTime := some (if early o then o.stamp else time), closer := some source,
             unplaced := g.unplaced || own.isNone || theirs.isNone, negative := g.negative || early o, orphaned := true })) ∧
       (¬announced →
         let p := d.eng.peers.get source
         let halted : Engine := { d.eng with
           peers := d.eng.peers.set source { p with state := .halted, haltReason := some (wordReason w) },
           ctl := { c with latched := { c.latched with
             peerChanged := c.latched.peerChanged || decide (p.state ≠ .halted ∨ p.haltReason ≠ some (wordReason w)) } } }
         let notices := nibbles.flatMap (fun i =>
           let g := d.gates.get i
           if g.state = .opened ∧ g.opener = some source then g.openTime.toList.map (fun o =>
             (i, Notice.closed g.generation o ⟨if early o then o.stamp else time, false⟩
               (g.unplaced || own.isNone || theirs.isNone) true g.reopened (g.negative || early o)))
           else [])
         t = { withRx d { d.rx with
               judged := true, answer := if c.state = .joining ∨ c.state = .live then .taken else d.rx.answer } with
           gates := t.gates, eng := (halted.notify d.front notices).arbitrate d.now }))

/-- The notices of a gate reach the FREQUENCY task that follows it (R36, R53, R54, R147): an open notice starts its following
and makes an ARMED task RUNNING. The close notice of the followed generation ends the gate: before its evaluation moment it
waits to be evaluated; at or past that moment, as its notice comes (R54), a suspended task keeps it as a missed gate (R62), and a
task that takes entries hands over a job for a valid gate (R57, R92), held back behind a discarded job, and else takes the
NO_SIGNAL or LOST result (R56, R57, R59, R60). A close notice of another generation, or before an open, does nothing. The
model's choices: a gate still awaiting its moment as another ends is missed (deduced, log 31); SHORTENED and DEGRADED of a
gate with no job (deduced, logs 13, 14); a gate missed after the first was handed on joins the later ones (log 47). -/
def Obligations.NoticesReachTheirTask : Prop :=
  ∀ (fr : Front) (e : Engine) (t : TaskId) (td : TaskDef) (f : FreqFields) (run : FreqRun) (gate : BitVec 4)
    (gen : BitVec 8) (o c : Kept) (un orph re neg : Bool),
    (∀ u, u ≠ t → (e.tasks.get u).runContinues = false) → (e.tasks.get t).runContinues = true →
    (e.tasks.get t).defn = some td → td.fields = .frequency f → f.source = .line → f.gate.toNat = gate.toNat →
    (e.tasks.get t).run = .frequency run →
    let k := e.tasks.get t
    let withRun := fun (r : FreqRun) (st : TaskState) => { e with tasks := e.tasks.set t { k with state := st, run := .frequency r } }
    let close : Notice := .closed gen o c un orph re neg
    let missedBy := fun (g : GateSpan) (r : FreqRun) =>
      let m := r.later.getD ⟨0, g.opened, false, false, false, false, false, false⟩
      if r.missed = none ∧ r.later = none then { r with missed := some g }
      else { r with
        later := some {
          count := min (m.count + 1) (2 ^ 32 - 1), opened := m.opened, unplaced := m.unplaced || g.unplaced,
          orphaned := m.orphaned || g.orphaned, reopened := m.reopened || g.reopened, negative := m.negative || g.negative,
          clamped := m.clamped || g.clamped, degraded := m.degraded || fr.tb.anyDegraded [g.opened, g.closed] } }
    e.notify fr [(gate, .opened gen o un)] =
      withRun { run with lineState := .following, followed := some ⟨gen, o, un⟩ } (if k.state = .armed then .running else k.state) ∧
    (∀ w, k.state ≠ .armed → run.lineState = .following → run.followed = some w → w.generation = gen →
      let g : GateSpan := { opened := w.opened, closed := c, unplaced := w.unplaced || un, orphaned := orph, reopened := re,
                            negative := neg, clamped := false }
      let due := c.longPast || reached fr.now (plus c.stamp ((fr.chan f.input).glitch.val * 32 + 1))
      let judged := (fr.ring f.input).evaluateGate g
      let closed : FreqRun := { run with lineState := .waitingOpen, followed := none, ended := none }
      let ended := match run.ended with
        | some old => missedBy old closed
        | none => closed
      let tells := fun (e' : Engine) => e.notify fr [(gate, close)] = e'
      (due = false → tells (withRun { ended with ended := some g } k.state)) ∧
      (due = true → k.takes = false → tells (withRun (missedBy g ended) k.state)) ∧
      (∀ e1 e2 shortened, due = true → k.takes = true → judged = ⟨.valid, some e1, some e2, shortened⟩ →
        let edges := (e2.count - e1.count).toNat
        let span := since e2.stamp e1.stamp
        let job := JobOps.frequency edges span f.shift run.smoothing
        let waits := { k with
          run := .frequency ended, job := .waiting, cause := .job,
          waitingResult := some (.frequency g edges span ⟨e1.stamp, false⟩ ⟨e2.stamp, false⟩ shortened) }
        (k.jobDiscarded = false →
          tells { e with unit := { e.unit with waiting := e.unit.waiting ++ [⟨t, job⟩] }, tasks := e.tasks.set t waits }) ∧
        (k.jobDiscarded = true → tells { e with tasks := e.tasks.set t { waits with heldBackJob := some job } })) ∧
      (due = true → k.takes = true → judged.outcome ≠ .valid → td.runLength = 0 ∨ k.resultsInRun < td.runLength →
        tells (Engine.takeResult fr.now t (.frequency
          { gateIndex := run.nextGate, openTime := g.opened.stamp, edges := 0, span := 0, frequency := 0,
            smoothed := heldSmoothed run.smoothing, represented := 1,
            flags := { noSignal := judged.outcome == .noSignal || run.smoothing.isNone, shortened := judged.shortened,
                       lost := judged.outcome == .lost, clamped := false, orphaned := orph, unplaced := g.unplaced,
                       saturated := false, degraded := fr.tb.anyDegraded
                         (((judged.e1.toList ++ judged.e2.toList).map fun x => ⟨x.stamp, false⟩) ++ [g.opened, c]) } }) 1
          (withRun { ended with nextGate := run.nextGate + 1 } k.state))) ∧
      (neg = true → judged = ⟨.noSignal, none, none, false⟩)) ∧
    (∀ w, run.followed = some w → w.generation ≠ gen → e.notify fr [(gate, close)] = e) ∧
    (k.state = .armed ∨ run.lineState ≠ .following → e.notify fr [(gate, close)] = e) ∧
    (∀ other, other ≠ gate → ∀ n, e.notify fr [(other, n)] = e)

/-! ## The marker transmitter -/

/-- FRAME_END (R107, R113, R125, R140, R161, R163, R164, R149): 131 LU after its attention stamp the receiver leaves its
frame, in the same step as the sender's attempt completes: the entry leaves the queue and the frame is counted with its
outcome. An EDGE marker's outcome goes to its PUBLISH task (R87): a result of a task that takes entries, deferred by a
suspended one, given to no one after the run. An ANNOUNCE makes a JOINING station LIVE. A HALT drops the rest of the queue,
ends a retirement or resets (also while the reply to the RESET is being clocked out: deduced, log 51). A gate marker moves the
station's own record, and its notices reach the tasks (R144, R145, R147). An attempt not wholly sent at 131 LU is cut; that it is so in IDLE's return is the model's choice (log 16). The model's choices
of the receiver left there: where LINE is low, quiet since is not set to that moment, as R107 has it, but absent until the rise
of that low, which is no attention (deduced, log 17); a response-cell hold runs on past the frame (log 42); the cell position is
bit cell 0 (log 40). -/
def Obligations.FrameEndCompletesTheAttempt : Prop :=
  ∀ (s : State) (dt : Nat) (pins : ReleasePins), s.dev.held = false →
    let d := atTime dt s
    let r := d.rx
    let c := d.eng.ctl
    let due := fun (t : Stamp) => reached d.now (plus t (131 * d.lu))
    let hold := if r.holdFrom.any (fun t => decide (since d.now t < 2 * d.lu)) then r.holdFrom else none
    let idle : Receiver :=
      { state := .idle, lowSince := r.lowSince, quietSince := if r.lowSince = none then some ⟨d.now, false⟩ else none,
        attention := none, cellPos := .bit 0, bits := [], ownPart := .none, answer := .none, episodeStart := r.episodeStart,
        episodeReported := r.episodeReported, openCell := none, waitFrom := none, judged := false, holdFrom := hold,
        lowFromFrame := decide (r.lowSince ≠ none) }
    let leaves := r.state = .frame ∧ r.attention.any due = true
    let q := withRx d (if leaves then idle else r)
    let goes := fun (d : Station) => exec (.frameEnd dt pins) s = goesTo s d
    (d.eng.tx.attempt = none → goes q) ∧
    (∀ a, d.eng.tx.attempt = some a → a.allSampled = false →
      (¬leaves → goes d) ∧
      (leaves → c.haltOwed = none → (∀ m ∈ d.eng.tx.queue, m.removeAtEnd = false) →
        goes { q with eng := { d.eng with tx := { d.eng.tx with
          attempt := none, queue := d.eng.tx.queue.map (fun m => { m with inTransmission := false }) } } })) ∧
    (∀ a, d.eng.tx.attempt = some a → a.allSampled = true → due a.attention = false → goes q) ∧
    (∀ a m, d.eng.tx.attempt = some a → a.allSampled = true → due a.attention = true →
      d.eng.tx.queue.find? (fun x => x.inTransmission) = some m →
      let o : Outcome5 := if a.refusedLow = some true then .refused else if a.takenLow = some true then .taken else .unheard
      let counted : Control := { c with
        counters := { c.counters with
          sent := bumpBy 1 c.counters.sent,
          ownRefused := if o = .refused then bumpBy 1 c.counters.ownRefused else c.counters.ownRefused,
          ownUnheard := if o = .unheard then bumpBy 1 c.counters.ownUnheard else c.counters.ownUnheard },
        latched := { c.latched with markerLoss := c.latched.markerLoss || decide (o = .refused) } }
      let left := d.eng.tx.queue.filter (fun x => !x.inTransmission)
      let tx : Transmitter := { d.eng.tx with queue := left, attempt := none }
      let e : Engine := { d.eng with ctl := counted, tx := tx }
      let leads := fun (e : Engine) => goes { q with eng := e }
      let own := d.eng.peers.get c.stationNo
      (m.kind = .edge → m.originTask = none → leads e) ∧
      (∀ t origin, m.kind = .edge → m.originTask = some t → m.origin = some origin →
        let k := d.eng.tasks.get t
        let with_ := fun (r : PublishRun) => { e with tasks := e.tasks.set t { k with run := .publish r } }
        (k.runContinues = false ∨ (∀ run, k.run ≠ .publish run) → leads e) ∧
        (∀ run, k.run = .publish run → k.runContinues = true →
          (k.takes = false → leads (with_ { run with deferred := run.deferred ++ [⟨origin, o, wordPayload a.word⟩] })) ∧
          (k.takes = true → leads (Engine.takeResult d.now t (.publish
            { edge := origin.stamp, outcome := o, delay := wordPayload a.word, gapCount := run.gap,
              gap := decide (run.gap ≠ 0), degraded := d.front.tb.stampDegraded origin }) 1 (with_ { run with gap := 0 }))))) ∧
      (m.kind = .announce → leads { e with
        ctl := { counted with state := if c.state = .joining then .live else c.state },
        peers := d.eng.peers.set c.stationNo { own with lastAnnounce := some a.attention } }) ∧
      (m.kind = .halt → c.departure = .reset →
        goes (Station.released pins (s.dev.front.chans.map Channel.pinLevel) s.dev.port.csLow)) ∧
      (m.kind = .halt → c.departure ≠ .reset → (∀ x ∈ left, x.originTask = none) → leads { e with
        ctl := { counted with
          counters := { counted.counters with
            dropped := if left = [] then c.counters.dropped else bumpBy left.length c.counters.dropped },
          latched := { counted.latched with markerLoss := counted.latched.markerLoss || decide (left ≠ []) },
          haltOwed := none, state := if c.departure = .retire then .halted else c.state, departure := .none },
        tx := { tx with queue := [], haltSent := true },
        peers := d.eng.peers.set c.stationNo { own with state := .halted, haltReason := some (wordReason a.word) } }) ∧
      (∀ origin, m.kind = .gateOpen ∨ m.kind = .gateClose → m.origin = some origin →
        let g := d.gates.get m.tag
        let reopens := decide (g.state = .opened)
        let opened : Gate :=
          { state := .opened, openTime := some ⟨origin.stamp, false⟩, opener := some c.stationNo, closeTime := none,
            closer := none, generation := g.generation + 1, unplaced := false, orphaned := false, reopened := reopens,
            negative := false }
        let openNotice : Notice := .opened (g.generation + 1) ⟨origin.stamp, false⟩ false
        let notified := fun (g : Gate) (ns : List Notice) => goes { q with
          gates := d.gates.set m.tag g, eng := (e.notify d.front (ns.map (fun n => (m.tag, n)))).arbitrate d.now }
        (m.kind = .gateOpen → g.state = .closed → notified opened [openNotice]) ∧
        (m.kind = .gateClose → g.state = .closed → leads { e with ctl := { counted with
          counters := { counted.counters with strayCloses := bumpBy 1 c.counters.strayCloses } } }) ∧
        (∀ w, g.state = .opened → g.openTime = some w →
          let early := !w.longPast && later w.stamp origin.stamp
          let time := if early then w.stamp else origin.stamp
          let closeNotice := fun (re : Bool) =>
            Notice.closed g.generation w ⟨time, false⟩ g.unplaced g.orphaned re (g.negative || early)
          (m.kind = .gateClose → notified
            { g with state := .closed, closeTime := some time, closer := some c.stationNo, negative := g.negative || early }
            [closeNotice g.reopened]) ∧
          (m.kind = .gateOpen → notified opened [closeNotice true, openNotice]))))

/-- ATTEMPT_START (R103, R111, R116, R123, R124): with a marker the station may send at the head, no mute, no attempt, and the
line idle and quiet for 4 LU, the transmitter begins attention and fixes the word with the delay from the origin; otherwise
only time passes. A stale head leaves first, counted; a HALTED station sends its HALT only.
Stale heads at an attempt (R123): every stale entry at the head leaves, counted, MARKER_LOSS latched; an outcome STALE
goes to its origin task (R87), taken as a result, deferred while the task is suspended, given to no one after the run, several
in ascending task number (R152). Attention then begins with the first entry that passes, of any kind, its word carrying the
delay from its own origin (R124); a queue the removal empties sends nothing. -/
def Obligations.AttemptStartBeginsAttention : Prop :=
  (∀ (s : State) (dt lead : Nat), s.dev.held = false →
     let d := atTime dt s
     let r := d.rx
     let c := d.eng.ctl
     let attention := d.now - BitVec.ofNat 48 lead
     let quiet := r.state = .idle ∧ r.lowSince = none ∧
       ∃ q, r.quietSince = some q ∧ (q.longPast = true ∨ reached d.now (plus q.stamp (4 * d.lu)) = true)
     let maySend := fun (m : OutEntry) => c.state = .joining ∨ c.state = .live ∨ (c.state = .halted ∧ m.kind = .halt)
     let stale := fun (m : OutEntry) => m.kind ≠ .halt ∧ m.kind ≠ .announce ∧
       ∃ o, m.origin = some o ∧ (o.longPast = true ∨ 2 ^ 24 ≤ since d.now o.stamp)
     let begins := fun (m : OutEntry) (rest : List OutEntry) (c : Control) (payload : BitVec 24) =>
       exec (.attemptStart dt lead) s = goesTo s
         { withRx d { r with lowSince := some attention, quietSince := none } with
           eng := { d.eng with ctl := c, tx := { d.eng.tx with
             queue := { m with inTransmission := true } :: rest,
             attempt := some { began := d.now, attention := attention, word := markerWord m.kind c.stationNo m.tag payload,
                               allSampled := false, takenLow := none, refusedLow := none } } } }
     (d.eng.tx.queue = [] ∨ (∃ m rest, d.eng.tx.queue = m :: rest ∧ ¬maySend m) ∨ d.eng.tx.mute = true ∨
       d.eng.tx.attempt ≠ none ∨ ¬quiet → exec (.attemptStart dt lead) s = goesTo s d) ∧
     (∀ m rest, d.eng.tx.mute = false → d.eng.tx.attempt = none → quiet → d.eng.tx.queue = m :: rest → maySend m → ¬stale m →
       (m.kind = .halt ∨ m.kind = .announce → begins m rest c m.payload) ∧
       (∀ o, m.kind ≠ .halt → m.kind ≠ .announce → m.origin = some o →
         begins m rest c (if later o.stamp attention = true then 0 else (attention - o.stamp).setWidth 24))) ∧
     (∀ old m rest, d.eng.tx.mute = false → d.eng.tx.attempt = none → quiet → d.eng.tx.queue = old :: m :: rest → maySend old →
       stale old → old.originTask = none → m.kind = .halt ∨ m.kind = .announce → maySend m →
       begins m rest { c with counters := { c.counters with stale := bumpBy 1 c.counters.stale },
                              latched := { c.latched with markerLoss := true } } m.payload)) ∧
  (∀ (s : State) (dt lead : Nat) (old : OutEntry) (olds rest : List OutEntry), s.dev.held = false →
     let d := atTime dt s
     let r := d.rx
     let c := d.eng.ctl
     let attention := d.now - BitVec.ofNat 48 lead
     let quiet := r.state = .idle ∧ r.lowSince = none ∧
       ∃ q, r.quietSince = some q ∧ (q.longPast = true ∨ reached d.now (plus q.stamp (4 * d.lu)) = true)
     let maySend := fun (c : Control) (m : OutEntry) =>
       c.state = .joining ∨ c.state = .live ∨ (c.state = .halted ∧ m.kind = .halt)
     let stale := fun (m : OutEntry) => m.kind ≠ .halt ∧ m.kind ≠ .announce ∧
       ∃ o, m.origin = some o ∧ (o.longPast = true ∨ 2 ^ 24 ≤ since d.now o.stamp)
     let payload := fun (m : OutEntry) => match m.origin with
       | some o => if m.kind = .halt ∨ m.kind = .announce then m.payload
                   else if later o.stamp attention = true then 0 else (attention - o.stamp).setWidth 24
       | none => if m.kind = .halt ∨ m.kind = .announce then m.payload else 0
     let goes := fun (d : Station) => exec (.attemptStart dt lead) s = goesTo s d
     let continues := fun (e : Engine) =>
       (e.tx.queue = [] → goes { d with eng := e }) ∧
       (∀ m more, e.tx.queue = m :: more →
         (¬maySend e.ctl m → goes { d with eng := e }) ∧
         (maySend e.ctl m → goes { withRx d { r with lowSince := some attention, quietSince := none } with
           eng := { e with tx := { e.tx with
             queue := { m with inTransmission := true } :: more,
             attempt := some { began := d.now, attention := attention,
                               word := markerWord m.kind e.ctl.stationNo m.tag (payload m),
                               allSampled := false, takenLow := none, refusedLow := none } } } }))
     let outcomes : List (TaskId × Deferred) := (old :: olds).filterMap (fun m =>
       match m.originTask, m.origin with
       | some t, some o => some (t, ⟨o, .stale, 0⟩)
       | _, _ => none)
     let counted : Engine := { d.eng with
       ctl := { c with
         counters := { c.counters with stale := bumpBy (olds.length + 1) c.counters.stale },
         latched := { c.latched with markerLoss := true } },
       tx := { d.eng.tx with queue := rest } }
     d.eng.tx.mute = false → d.eng.tx.attempt = none → quiet → d.eng.tx.queue = old :: olds ++ rest → maySend c old →
     (∀ m ∈ old :: olds, stale m) → (∀ m more, rest = m :: more → ¬stale m) →
     (outcomes = [] → continues counted) ∧
     (∀ t x, outcomes = [(t, x)] →
       let k := d.eng.tasks.get t
       let with_ := fun (run : PublishRun) => { counted with tasks := d.eng.tasks.set t { k with run := .publish run } }
       (k.runContinues = false ∨ (∀ run, k.run ≠ .publish run) → continues counted) ∧
       (∀ run, k.run = .publish run → k.runContinues = true →
         (k.takes = false → continues (with_ { run with deferred := run.deferred ++ [x] })) ∧
         (k.takes = true → continues (Engine.takeResult d.now t (.publish
           { edge := x.edge.stamp, outcome := .stale, delay := 0, gapCount := run.gap, gap := decide (run.gap ≠ 0),
             degraded := d.front.tb.stampDegraded x.edge }) 1 (with_ { run with gap := 0 }))))) ∧
     continues (taskIds.foldl (fun e t =>
       (outcomes.filter (fun p => p.1 == t)).foldl (fun e p => e.giveOutcome d.front t p.2) e) counted))

/-! ## Searches, words and numbers -/

/-- The searches of a ring (R27, R28, R29): "first at or after t" finds the first entry that is not earlier than t, with the
certainty of its count; "last at or before t" the last that is not later; with none found the last-removed record and the
ever-removed flag decide.
A forward read (R24, R25): the retained entry at the cursor, WAIT at or beyond the next index, and an OVERRUN below the
oldest index, with how many were missed, 2^32 − 1 at most, and where to resume. -/
def Obligations.RingsAnswerTheirReaders : Prop :=
  (∀ (r : Ring) (t : Kept), RingLaw r → (∀ e ∈ r.entries, 1 ≤ e.index) →
     let later := fun (e : Entry) => t.laterThan ⟨e.stamp, false⟩ = true
     let beyond := fun (e : Entry) => (⟨e.stamp, false⟩ : Kept).laterThan t = true
     (∀ e c, r.firstAtOrAfter t = .found e c →
       ∃ before after, r.entries = before ++ e :: after ∧ (∀ x ∈ before, later x) ∧ ¬later e ∧
         let first := e.index = 1 ∧ e.count = 1
         (c = .certain ↔ first ∨ ∃ p ∈ before, p.index + 1 = e.index ∧ e.count - p.count = 1) ∧
         (c = .lost ↔ ¬first ∧ before = [])) ∧
     ((∃ e c, r.firstAtOrAfter t = .found e c) ↔ ∃ e ∈ r.entries, ¬later e) ∧
     (r.firstAtOrAfter t = .gone ↔ r.entries = [] ∧
       ∃ x, r.lastRemoved = some x ∧ x.stamp.longPast = false ∧ t.laterThan x.stamp = false) ∧
     (∀ e, r.lastAtOrBefore t = .found e →
       ∃ before after, r.entries = before ++ e :: after ∧ ¬beyond e ∧ ∀ x ∈ after, beyond x) ∧
     ((∃ e, r.lastAtOrBefore t = .found e) ↔ ∃ e ∈ r.entries, ¬beyond e) ∧
     (r.lastAtOrBefore t = .lost ↔ r.everRemoved = true ∧ ∀ e ∈ r.entries, beyond e)) ∧
  (∀ (r : Ring) (cursor : Nat), RingLaw r →
     (cursor < r.oldest → r.read cursor = .overrun (min (r.oldest - cursor) (2 ^ 32 - 1)) r.oldest) ∧
     (r.oldest ≤ cursor → cursor < r.nextIndex → ∃ e ∈ r.entries, e.index = cursor ∧ r.read cursor = .entry e) ∧
     (r.nextIndex ≤ cursor → r.read cursor = .wait))

/-- The marker word (R118, R119): its fields and its 40 cells read back, payloads too; it is whole, and no longer so with any
one bit inverted. -/
def Obligations.MarkerWordsReadBack : Prop :=
  (∀ (k : MarkerKind) (source : StationNo) (tag : Tag) (payload : BitVec 24),
    let w := markerWord k source tag payload
    checkRight w = true ∧ markerKindOf (wordKind w) = some k ∧ wordSource w = source ∧ wordTag w = tag ∧
    wordPayload w = payload ∧ wordDelay w = payload.toNat) ∧
  (∀ (source : StationNo) (tag : Tag) (position : BitVec 11) (joining : Bool),
    let w := markerWord .announce source tag (announcePayload position joining)
    wordPosition w = position ∧ wordJoining w = joining) ∧
  (∀ (source : StationNo) (tag : Tag) (r : HaltReason), wordReason (markerWord .halt source tag (haltPayload r)) = r) ∧
  (∀ w : BitVec 40, wordOfBits ((List.range 40).map (cellBit w)) = w) ∧
  (∀ (w : BitVec 40) (i : Nat), i < 40 → checkRight w = true → checkRight (w ^^^ BitVec.twoPow 40 i) = false)

/-- The answers of the arithmetic unit (R96, R97, R98, R99): the frequency in mHz is edges over span to the nearest, an exact
half up, or the greatest one where that exceeds it; a smoothing step is the difference over 2^shift, rounded toward minus
infinity, and never leaves the range of the old state and the new frequency; the smoothed frequency is the state to the
nearest, a half up; the phase is truncated. -/
def Obligations.AnswersAreTheNearest : Prop :=
  (∀ edges span, 0 < span →
    (saturates edges span = true ↔ 2 ^ 40 * (2 * span) ≤ 2 * edges * 8000000000000 + span) ∧
    (saturates edges span = true → frequencyOf edges span = 2 ^ 40 - 1) ∧
    (saturates edges span = false → let f := frequencyOf edges span
      f < 2 ^ 40 ∧
      2 * f * span ≤ 2 * edges * 8000000000000 + span ∧ 2 * edges * 8000000000000 < 2 * f * span + span)) ∧
  (∀ shift f, newSmoothing none shift f = 256 * f) ∧
  (∀ old shift f, let new := newSmoothing (some old) shift f
    min old (256 * f) ≤ new ∧ new ≤ max old (256 * f) ∧ (shift = 0 → new = 256 * f) ∧
    let whole : Int := (256 * f : Nat) - (old : Int)
    let step : Int := (new : Int) - old
    step * 2 ^ shift ≤ whole ∧ whole < (step + 1) * 2 ^ shift) ∧
  (∀ state, 256 * smoothedOf state ≤ state + 128 ∧ state + 128 < 256 * smoothedOf state + 256) ∧
  (∀ offset period, 0 < period → offset < period →
    phaseOf offset period < 65536 ∧ phaseOf offset period * period ≤ offset * 65536 ∧
    offset * 65536 < (phaseOf offset period + 1) * period)

/-! ## Headlines -/

/-- Decoding the frame of a request gives the request back, with every field at every value (12.3, R175).
The table's words for requests (log 27: the model's choice, since the table gives its rows no bits): the word that holds the
frame of a request, its kind byte in bits 7 to 0 and each further byte in the eight bits above, spells the request. -/
def Obligations.RequestFramesRoundTrip : Prop :=
  (∀ c : Instr, c.wellFormed = true → isRequest c = true →
     ∃ frame, encodeFrame c = some frame ∧ decodeFrame c.dt frame = some c) ∧
  (∀ (c : Instr) (frame : List Byte), c.wellFormed = true → c.dt = 0 → encodeFrame c = some frame →
     decodeTableWord (8 * frame.length) (frame.foldr (fun b w => b.toNat + 256 * w) 0) = some c)

/-- Every step keeps the laws of the timebase, the channels with their rings and the gate records (R4, R6, R14, R18, R21,
R22, R143, R145), whatever the command and the state. -/
def Obligations.StationLawKept : Prop :=
  ∀ s t : State, StationLaw s.dev → step s = .next t → StationLaw t.dev

/-- The laws hold after reset. -/
def Obligations.StationLawAtReset : Prop :=
  StationLaw State.reset.dev

/-- Only a reset changes a station's number and line unit, unmutes it, lets it forget its HALT or leave HALTED; and no step
takes the result queue beyond 16 blocks (R121, R127, R152, R159, R173). -/
def Obligations.StandingKept : Prop :=
  ∀ s t : State, step s = .next t → JustReset t.dev ∨ Keeps s.dev.eng t.dev.eng
end

