-- ==== Sys2Proof/Laws/Tables.lean ====
section
/-!
SUPPORT. Reading and writing the plain tables `Per4`, `Per8`, `Per16`.
-/

namespace Sys2Proof

variable {α β : Type}

/-! ## Four channels -/

@[simp] theorem Per4.get_fill (v : α) (i : Chan) : (Per4.fill v).get i = v := by cases i <;> rfl

@[simp] theorem Per4.get_set_same (p : Per4 α) (i : Chan) (v : α) : (p.set i v).get i = v := by cases i <;> rfl

theorem Per4.get_set_ne (p : Per4 α) {i j : Chan} (v : α) (h : j ≠ i) : (p.set i v).get j = p.get j := by
  cases i <;> cases j <;> first | rfl | exact absurd rfl h

theorem Per4.get_set (p : Per4 α) (i j : Chan) (v : α) : (p.set i v).get j = if j = i then v else p.get j := by
  by_cases h : j = i
  · simp [h]
  · simp [h, Per4.get_set_ne]

@[simp] theorem Per4.set_get (p : Per4 α) (i : Chan) : p.set i (p.get i) = p := by cases i <;> rfl

@[simp] theorem Per4.set_set (p : Per4 α) (i : Chan) (v w : α) : (p.set i v).set i w = p.set i w := by
  cases i <;> rfl

@[simp] theorem Per4.get_map (f : α → β) (p : Per4 α) (i : Chan) : (p.map f).get i = f (p.get i) := by
  cases i <;> rfl

/-! ## Eight records -/

/-- The eight numbers, one by one. -/
theorem fin8_cases (i : Fin 8) : i = 0 ∨ i = 1 ∨ i = 2 ∨ i = 3 ∨ i = 4 ∨ i = 5 ∨ i = 6 ∨ i = 7 := by omega

theorem mem_taskIds (t : TaskId) : t ∈ taskIds := by revert t; decide

@[simp] theorem Per8.get_fill (v : α) (i : Fin 8) : (Per8.fill v).get i = v := by
  rcases fin8_cases i with rfl | rfl | rfl | rfl | rfl | rfl | rfl | rfl <;> rfl

@[simp] theorem Per8.get_set_same (p : Per8 α) (i : Fin 8) (v : α) : (p.set i v).get i = v := by
  rcases fin8_cases i with rfl | rfl | rfl | rfl | rfl | rfl | rfl | rfl <;> rfl

theorem Per8.get_set_ne (p : Per8 α) {i j : Fin 8} (v : α) (h : j ≠ i) : (p.set i v).get j = p.get j := by
  rcases fin8_cases i with rfl | rfl | rfl | rfl | rfl | rfl | rfl | rfl <;>
  rcases fin8_cases j with rfl | rfl | rfl | rfl | rfl | rfl | rfl | rfl <;>
  first | rfl | exact absurd rfl h

theorem Per8.get_set (p : Per8 α) (i j : Fin 8) (v : α) : (p.set i v).get j = if j = i then v else p.get j := by
  by_cases h : j = i
  · simp [h]
  · simp [h, Per8.get_set_ne]

@[simp] theorem Per8.set_get (p : Per8 α) (i : Fin 8) : p.set i (p.get i) = p := by
  rcases fin8_cases i with rfl | rfl | rfl | rfl | rfl | rfl | rfl | rfl <;> rfl

@[simp] theorem Per8.set_set (p : Per8 α) (i : Fin 8) (v w : α) : (p.set i v).set i w = p.set i w := by
  rcases fin8_cases i with rfl | rfl | rfl | rfl | rfl | rfl | rfl | rfl <;> rfl

@[simp] theorem Per8.get_map (f : α → β) (p : Per8 α) (i : Fin 8) : (p.map f).get i = f (p.get i) := by
  rcases fin8_cases i with rfl | rfl | rfl | rfl | rfl | rfl | rfl | rfl <;> rfl

/-! ## Sixteen records -/

/-- A 4-bit number is given by its top bit and its place in the half. -/
theorem low3_inj {i j : BitVec 4} (hm : i.msb = j.msb) (hl : low3 i = low3 j) : i = j := by
  revert i j; decide

theorem mem_nibbles (i : BitVec 4) : i ∈ nibbles := by revert i; decide

@[simp] theorem Per16.get_fill (v : α) (i : BitVec 4) : (Per16.fill v).get i = v := by
  unfold Per16.get Per16.fill; split <;> simp

@[simp] theorem Per16.get_set_same (p : Per16 α) (i : BitVec 4) (v : α) : (p.set i v).get i = v := by
  unfold Per16.get Per16.set; split <;> simp

theorem Per16.get_set_ne (p : Per16 α) {i j : BitVec 4} (v : α) (h : j ≠ i) : (p.set i v).get j = p.get j := by
  unfold Per16.get Per16.set
  cases hi : i.msb <;> cases hj : j.msb <;> simp <;>
  exact Per8.get_set_ne _ _ (fun he => h (low3_inj (hj.trans hi.symm) he))

theorem Per16.get_set (p : Per16 α) (i j : BitVec 4) (v : α) : (p.set i v).get j = if j = i then v else p.get j := by
  by_cases h : j = i
  · simp [h]
  · simp [h, Per16.get_set_ne]

@[simp] theorem Per16.set_get (p : Per16 α) (i : BitVec 4) : p.set i (p.get i) = p := by
  unfold Per16.get Per16.set; split <;> simp

@[simp] theorem Per16.get_map (f : α → β) (p : Per16 α) (i : BitVec 4) : (p.map f).get i = f (p.get i) := by
  unfold Per16.get Per16.map; split <;> simp

end Sys2Proof
end

