-- ==== Sys2Proof/Laws/State.lean ====
section
/-!
SUPPORT. What each update of the state leaves in each field: one lemma for a field and an update, true by
definition, so that no later proof unfolds a record update.
-/

namespace Sys2Proof.Machine

/-! ## The engine -/

@[simp] theorem Engine.setTask_tasks (t : TaskId) (k : TaskRec) (e : Engine) : (e.setTask t k).tasks = e.tasks.set t k := rfl

@[simp] theorem Engine.setTask_unit (t : TaskId) (k : TaskRec) (e : Engine) : (e.setTask t k).unit = e.unit := rfl

@[simp] theorem Engine.setTask_tx (t : TaskId) (k : TaskRec) (e : Engine) : (e.setTask t k).tx = e.tx := rfl

@[simp] theorem Engine.setTask_slots (t : TaskId) (k : TaskRec) (e : Engine) : (e.setTask t k).slots = e.slots := rfl

@[simp] theorem Engine.setTask_queue (t : TaskId) (k : TaskRec) (e : Engine) : (e.setTask t k).queue = e.queue := rfl

@[simp] theorem Engine.setTask_peers (t : TaskId) (k : TaskRec) (e : Engine) : (e.setTask t k).peers = e.peers := rfl

@[simp] theorem Engine.setTask_ctl (t : TaskId) (k : TaskRec) (e : Engine) : (e.setTask t k).ctl = e.ctl := rfl

@[simp] theorem Engine.modTask_tasks (t : TaskId) (f : TaskRec → TaskRec) (e : Engine) : (e.modTask t f).tasks = e.tasks.set t (f (e.tasks.get t)) := rfl

@[simp] theorem Engine.modTask_unit (t : TaskId) (f : TaskRec → TaskRec) (e : Engine) : (e.modTask t f).unit = e.unit := rfl

@[simp] theorem Engine.modTask_tx (t : TaskId) (f : TaskRec → TaskRec) (e : Engine) : (e.modTask t f).tx = e.tx := rfl

@[simp] theorem Engine.modTask_slots (t : TaskId) (f : TaskRec → TaskRec) (e : Engine) : (e.modTask t f).slots = e.slots := rfl

@[simp] theorem Engine.modTask_queue (t : TaskId) (f : TaskRec → TaskRec) (e : Engine) : (e.modTask t f).queue = e.queue := rfl

@[simp] theorem Engine.modTask_peers (t : TaskId) (f : TaskRec → TaskRec) (e : Engine) : (e.modTask t f).peers = e.peers := rfl

@[simp] theorem Engine.modTask_ctl (t : TaskId) (f : TaskRec → TaskRec) (e : Engine) : (e.modTask t f).ctl = e.ctl := rfl

@[simp] theorem Engine.modCtl_tasks (f : Control → Control) (e : Engine) : (e.modCtl f).tasks = e.tasks := rfl

@[simp] theorem Engine.modCtl_unit (f : Control → Control) (e : Engine) : (e.modCtl f).unit = e.unit := rfl

@[simp] theorem Engine.modCtl_tx (f : Control → Control) (e : Engine) : (e.modCtl f).tx = e.tx := rfl

@[simp] theorem Engine.modCtl_slots (f : Control → Control) (e : Engine) : (e.modCtl f).slots = e.slots := rfl

@[simp] theorem Engine.modCtl_queue (f : Control → Control) (e : Engine) : (e.modCtl f).queue = e.queue := rfl

@[simp] theorem Engine.modCtl_peers (f : Control → Control) (e : Engine) : (e.modCtl f).peers = e.peers := rfl

@[simp] theorem Engine.modCtl_ctl (f : Control → Control) (e : Engine) : (e.modCtl f).ctl = f e.ctl := rfl

@[simp] theorem Engine.modOutgoing_tasks (f : List OutEntry → List OutEntry) (e : Engine) : (e.modOutgoing f).tasks = e.tasks := rfl

@[simp] theorem Engine.modOutgoing_unit (f : List OutEntry → List OutEntry) (e : Engine) : (e.modOutgoing f).unit = e.unit := rfl

@[simp] theorem Engine.modOutgoing_tx (f : List OutEntry → List OutEntry) (e : Engine) : (e.modOutgoing f).tx = { e.tx with queue := f e.tx.queue } := rfl

@[simp] theorem Engine.modOutgoing_slots (f : List OutEntry → List OutEntry) (e : Engine) : (e.modOutgoing f).slots = e.slots := rfl

@[simp] theorem Engine.modOutgoing_queue (f : List OutEntry → List OutEntry) (e : Engine) : (e.modOutgoing f).queue = e.queue := rfl

@[simp] theorem Engine.modOutgoing_peers (f : List OutEntry → List OutEntry) (e : Engine) : (e.modOutgoing f).peers = e.peers := rfl

@[simp] theorem Engine.modOutgoing_ctl (f : List OutEntry → List OutEntry) (e : Engine) : (e.modOutgoing f).ctl = e.ctl := rfl

@[simp] theorem Engine.count_tasks (f : Counters → Counters) (e : Engine) : (e.count f).tasks = e.tasks := rfl

@[simp] theorem Engine.count_unit (f : Counters → Counters) (e : Engine) : (e.count f).unit = e.unit := rfl

@[simp] theorem Engine.count_tx (f : Counters → Counters) (e : Engine) : (e.count f).tx = e.tx := rfl

@[simp] theorem Engine.count_slots (f : Counters → Counters) (e : Engine) : (e.count f).slots = e.slots := rfl

@[simp] theorem Engine.count_queue (f : Counters → Counters) (e : Engine) : (e.count f).queue = e.queue := rfl

@[simp] theorem Engine.count_peers (f : Counters → Counters) (e : Engine) : (e.count f).peers = e.peers := rfl

@[simp] theorem Engine.count_ctl (f : Counters → Counters) (e : Engine) : (e.count f).ctl = { e.ctl with counters := f e.ctl.counters } := rfl

@[simp] theorem Engine.latchTaskEnded_tasks  (e : Engine) : (e.latchTaskEnded).tasks = e.tasks := rfl

@[simp] theorem Engine.latchTaskEnded_unit  (e : Engine) : (e.latchTaskEnded).unit = e.unit := rfl

@[simp] theorem Engine.latchTaskEnded_tx  (e : Engine) : (e.latchTaskEnded).tx = e.tx := rfl

@[simp] theorem Engine.latchTaskEnded_slots  (e : Engine) : (e.latchTaskEnded).slots = e.slots := rfl

@[simp] theorem Engine.latchTaskEnded_queue  (e : Engine) : (e.latchTaskEnded).queue = e.queue := rfl

@[simp] theorem Engine.latchTaskEnded_peers  (e : Engine) : (e.latchTaskEnded).peers = e.peers := rfl

@[simp] theorem Engine.latchTaskEnded_ctl  (e : Engine) : (e.latchTaskEnded).ctl = { e.ctl with latched := { e.ctl.latched with taskEnded := true } } := rfl

@[simp] theorem Engine.latchPeerChanged_tasks (b : Bool) (e : Engine) : (e.latchPeerChanged b).tasks = e.tasks := rfl

@[simp] theorem Engine.latchPeerChanged_unit (b : Bool) (e : Engine) : (e.latchPeerChanged b).unit = e.unit := rfl

@[simp] theorem Engine.latchPeerChanged_tx (b : Bool) (e : Engine) : (e.latchPeerChanged b).tx = e.tx := rfl

@[simp] theorem Engine.latchPeerChanged_slots (b : Bool) (e : Engine) : (e.latchPeerChanged b).slots = e.slots := rfl

@[simp] theorem Engine.latchPeerChanged_queue (b : Bool) (e : Engine) : (e.latchPeerChanged b).queue = e.queue := rfl

@[simp] theorem Engine.latchPeerChanged_peers (b : Bool) (e : Engine) : (e.latchPeerChanged b).peers = e.peers := rfl

@[simp] theorem Engine.latchPeerChanged_ctl (b : Bool) (e : Engine) : (e.latchPeerChanged b).ctl = { e.ctl with latched := { e.ctl.latched with peerChanged := e.ctl.latched.peerChanged || b } } := rfl

@[simp] theorem Engine.latchMarkerLoss_tasks  (e : Engine) : (e.latchMarkerLoss).tasks = e.tasks := rfl

@[simp] theorem Engine.latchMarkerLoss_unit  (e : Engine) : (e.latchMarkerLoss).unit = e.unit := rfl

@[simp] theorem Engine.latchMarkerLoss_tx  (e : Engine) : (e.latchMarkerLoss).tx = e.tx := rfl

@[simp] theorem Engine.latchMarkerLoss_slots  (e : Engine) : (e.latchMarkerLoss).slots = e.slots := rfl

@[simp] theorem Engine.latchMarkerLoss_queue  (e : Engine) : (e.latchMarkerLoss).queue = e.queue := rfl

@[simp] theorem Engine.latchMarkerLoss_peers  (e : Engine) : (e.latchMarkerLoss).peers = e.peers := rfl

@[simp] theorem Engine.latchMarkerLoss_ctl  (e : Engine) : (e.latchMarkerLoss).ctl = { e.ctl with latched := { e.ctl.latched with markerLoss := true } } := rfl

@[simp] theorem Engine.latchTimebase_tasks  (e : Engine) : (e.latchTimebase).tasks = e.tasks := rfl

@[simp] theorem Engine.latchTimebase_unit  (e : Engine) : (e.latchTimebase).unit = e.unit := rfl

@[simp] theorem Engine.latchTimebase_tx  (e : Engine) : (e.latchTimebase).tx = e.tx := rfl

@[simp] theorem Engine.latchTimebase_slots  (e : Engine) : (e.latchTimebase).slots = e.slots := rfl

@[simp] theorem Engine.latchTimebase_queue  (e : Engine) : (e.latchTimebase).queue = e.queue := rfl

@[simp] theorem Engine.latchTimebase_peers  (e : Engine) : (e.latchTimebase).peers = e.peers := rfl

@[simp] theorem Engine.latchTimebase_ctl  (e : Engine) : (e.latchTimebase).ctl = { e.ctl with latched := { e.ctl.latched with timebase := true } } := rfl

@[simp] theorem Engine.withdrawJob_tx (t : TaskId) (e : Engine) : (e.withdrawJob t).tx = e.tx := rfl

@[simp] theorem Engine.withdrawJob_slots (t : TaskId) (e : Engine) : (e.withdrawJob t).slots = e.slots := rfl

@[simp] theorem Engine.withdrawJob_queue (t : TaskId) (e : Engine) : (e.withdrawJob t).queue = e.queue := rfl

@[simp] theorem Engine.withdrawJob_peers (t : TaskId) (e : Engine) : (e.withdrawJob t).peers = e.peers := rfl

@[simp] theorem Engine.withdrawJob_ctl (t : TaskId) (e : Engine) : (e.withdrawJob t).ctl = e.ctl := rfl

@[simp] theorem Engine.enterJob_tasks (t : TaskId) (ops : JobOps) (e : Engine) : (e.enterJob t ops).tasks = e.tasks := rfl

@[simp] theorem Engine.enterJob_unit (t : TaskId) (ops : JobOps) (e : Engine) : (e.enterJob t ops).unit = { e.unit with waiting := e.unit.waiting ++ [⟨t, ops⟩] } := rfl

@[simp] theorem Engine.enterJob_tx (t : TaskId) (ops : JobOps) (e : Engine) : (e.enterJob t ops).tx = e.tx := rfl

@[simp] theorem Engine.enterJob_slots (t : TaskId) (ops : JobOps) (e : Engine) : (e.enterJob t ops).slots = e.slots := rfl

@[simp] theorem Engine.enterJob_queue (t : TaskId) (ops : JobOps) (e : Engine) : (e.enterJob t ops).queue = e.queue := rfl

@[simp] theorem Engine.enterJob_peers (t : TaskId) (ops : JobOps) (e : Engine) : (e.enterJob t ops).peers = e.peers := rfl

@[simp] theorem Engine.enterJob_ctl (t : TaskId) (ops : JobOps) (e : Engine) : (e.enterJob t ops).ctl = e.ctl := rfl

@[simp] theorem Engine.takePlace_unit (t : TaskId) (b : Block) (e : Engine) : (e.takePlace t b).unit = e.unit := rfl

@[simp] theorem Engine.takePlace_tx (t : TaskId) (b : Block) (e : Engine) : (e.takePlace t b).tx = e.tx := rfl

@[simp] theorem Engine.takePlace_slots (t : TaskId) (b : Block) (e : Engine) : (e.takePlace t b).slots = e.slots := rfl

@[simp] theorem Engine.takePlace_queue (t : TaskId) (b : Block) (e : Engine) : (e.takePlace t b).queue = e.queue ++ [b] := rfl

@[simp] theorem Engine.takePlace_peers (t : TaskId) (b : Block) (e : Engine) : (e.takePlace t b).peers = e.peers := rfl

@[simp] theorem Engine.takePlace_ctl (t : TaskId) (b : Block) (e : Engine) : (e.takePlace t b).ctl = e.ctl := rfl

@[simp] theorem Engine.removeBlocksOf_tasks (t : TaskId) (e : Engine) : (e.removeBlocksOf t).tasks = e.tasks := rfl

@[simp] theorem Engine.removeBlocksOf_unit (t : TaskId) (e : Engine) : (e.removeBlocksOf t).unit = e.unit := rfl

@[simp] theorem Engine.removeBlocksOf_tx (t : TaskId) (e : Engine) : (e.removeBlocksOf t).tx = e.tx := rfl

@[simp] theorem Engine.removeBlocksOf_slots (t : TaskId) (e : Engine) : (e.removeBlocksOf t).slots = e.slots := rfl

@[simp] theorem Engine.removeBlocksOf_queue (t : TaskId) (e : Engine) : (e.removeBlocksOf t).queue = e.queue.filter (fun b => !(b.task == t)) := rfl

@[simp] theorem Engine.removeBlocksOf_peers (t : TaskId) (e : Engine) : (e.removeBlocksOf t).peers = e.peers := rfl

@[simp] theorem Engine.removeBlocksOf_ctl (t : TaskId) (e : Engine) : (e.removeBlocksOf t).ctl = e.ctl := rfl

@[simp] theorem Engine.ownHalted_tasks (r : HaltReason) (e : Engine) : (e.ownHalted r).tasks = e.tasks := rfl

@[simp] theorem Engine.ownHalted_unit (r : HaltReason) (e : Engine) : (e.ownHalted r).unit = e.unit := rfl

@[simp] theorem Engine.ownHalted_tx (r : HaltReason) (e : Engine) : (e.ownHalted r).tx = e.tx := rfl

@[simp] theorem Engine.ownHalted_slots (r : HaltReason) (e : Engine) : (e.ownHalted r).slots = e.slots := rfl

@[simp] theorem Engine.ownHalted_queue (r : HaltReason) (e : Engine) : (e.ownHalted r).queue = e.queue := rfl

@[simp] theorem Engine.ownHalted_ctl (r : HaltReason) (e : Engine) : (e.ownHalted r).ctl = e.ctl := rfl

@[simp] theorem Engine.removeSent_tasks  (e : Engine) : (e.removeSent).tasks = e.tasks := rfl

@[simp] theorem Engine.removeSent_unit  (e : Engine) : (e.removeSent).unit = e.unit := rfl

@[simp] theorem Engine.removeSent_tx  (e : Engine) : (e.removeSent).tx = { e.tx with queue := e.tx.queue.filter (fun m => !m.inTransmission), attempt := none } := rfl

@[simp] theorem Engine.removeSent_slots  (e : Engine) : (e.removeSent).slots = e.slots := rfl

@[simp] theorem Engine.removeSent_queue  (e : Engine) : (e.removeSent).queue = e.queue := rfl

@[simp] theorem Engine.removeSent_peers  (e : Engine) : (e.removeSent).peers = e.peers := rfl

@[simp] theorem Engine.removeSent_ctl  (e : Engine) : (e.removeSent).ctl = e.ctl := rfl

@[simp] theorem Engine.modAttempt_tasks (f : Attempt → Attempt) (e : Engine) : (e.modAttempt f).tasks = e.tasks := rfl

@[simp] theorem Engine.modAttempt_unit (f : Attempt → Attempt) (e : Engine) : (e.modAttempt f).unit = e.unit := rfl

@[simp] theorem Engine.modAttempt_tx (f : Attempt → Attempt) (e : Engine) : (e.modAttempt f).tx = { e.tx with attempt := e.tx.attempt.map f } := rfl

@[simp] theorem Engine.modAttempt_slots (f : Attempt → Attempt) (e : Engine) : (e.modAttempt f).slots = e.slots := rfl

@[simp] theorem Engine.modAttempt_queue (f : Attempt → Attempt) (e : Engine) : (e.modAttempt f).queue = e.queue := rfl

@[simp] theorem Engine.modAttempt_peers (f : Attempt → Attempt) (e : Engine) : (e.modAttempt f).peers = e.peers := rfl

@[simp] theorem Engine.modAttempt_ctl (f : Attempt → Attempt) (e : Engine) : (e.modAttempt f).ctl = e.ctl := rfl

/-! ## The station -/

@[simp] theorem Station.modEng_front (f : Engine → Engine) (d : Station) : (d.modEng f).front = d.front := rfl

@[simp] theorem Station.modEng_rx (f : Engine → Engine) (d : Station) : (d.modEng f).rx = d.rx := rfl

@[simp] theorem Station.modEng_listen (f : Engine → Engine) (d : Station) : (d.modEng f).listen = d.listen := rfl

@[simp] theorem Station.modEng_gates (f : Engine → Engine) (d : Station) : (d.modEng f).gates = d.gates := rfl

@[simp] theorem Station.modEng_eng (f : Engine → Engine) (d : Station) : (d.modEng f).eng = f d.eng := rfl

@[simp] theorem Station.modEng_port (f : Engine → Engine) (d : Station) : (d.modEng f).port = d.port := rfl

@[simp] theorem Station.modEng_held (f : Engine → Engine) (d : Station) : (d.modEng f).held = d.held := rfl

@[simp] theorem Station.modRx_front (f : Receiver → Receiver) (d : Station) : (d.modRx f).front = d.front := rfl

@[simp] theorem Station.modRx_rx (f : Receiver → Receiver) (d : Station) : (d.modRx f).rx = f d.rx := rfl

@[simp] theorem Station.modRx_listen (f : Receiver → Receiver) (d : Station) : (d.modRx f).listen = d.listen := rfl

@[simp] theorem Station.modRx_gates (f : Receiver → Receiver) (d : Station) : (d.modRx f).gates = d.gates := rfl

@[simp] theorem Station.modRx_eng (f : Receiver → Receiver) (d : Station) : (d.modRx f).eng = d.eng := rfl

@[simp] theorem Station.modRx_port (f : Receiver → Receiver) (d : Station) : (d.modRx f).port = d.port := rfl

@[simp] theorem Station.modRx_held (f : Receiver → Receiver) (d : Station) : (d.modRx f).held = d.held := rfl

@[simp] theorem Station.modPort_front (f : HostPort → HostPort) (d : Station) : (d.modPort f).front = d.front := rfl

@[simp] theorem Station.modPort_rx (f : HostPort → HostPort) (d : Station) : (d.modPort f).rx = d.rx := rfl

@[simp] theorem Station.modPort_listen (f : HostPort → HostPort) (d : Station) : (d.modPort f).listen = d.listen := rfl

@[simp] theorem Station.modPort_gates (f : HostPort → HostPort) (d : Station) : (d.modPort f).gates = d.gates := rfl

@[simp] theorem Station.modPort_eng (f : HostPort → HostPort) (d : Station) : (d.modPort f).eng = d.eng := rfl

@[simp] theorem Station.modPort_port (f : HostPort → HostPort) (d : Station) : (d.modPort f).port = f d.port := rfl

@[simp] theorem Station.modPort_held (f : HostPort → HostPort) (d : Station) : (d.modPort f).held = d.held := rfl

@[simp] theorem Station.modTb_front (f : Timebase → Timebase) (d : Station) : (d.modTb f).front = { d.front with tb := f d.front.tb } := rfl

@[simp] theorem Station.modTb_rx (f : Timebase → Timebase) (d : Station) : (d.modTb f).rx = d.rx := rfl

@[simp] theorem Station.modTb_listen (f : Timebase → Timebase) (d : Station) : (d.modTb f).listen = d.listen := rfl

@[simp] theorem Station.modTb_gates (f : Timebase → Timebase) (d : Station) : (d.modTb f).gates = d.gates := rfl

@[simp] theorem Station.modTb_eng (f : Timebase → Timebase) (d : Station) : (d.modTb f).eng = d.eng := rfl

@[simp] theorem Station.modTb_port (f : Timebase → Timebase) (d : Station) : (d.modTb f).port = d.port := rfl

@[simp] theorem Station.modTb_held (f : Timebase → Timebase) (d : Station) : (d.modTb f).held = d.held := rfl

@[simp] theorem Station.modChan_front (ch : Chan) (f : Channel → Channel) (d : Station) : (d.modChan ch f).front = { d.front with chans := d.front.chans.set ch (f (d.front.chans.get ch)) } := rfl

@[simp] theorem Station.modChan_rx (ch : Chan) (f : Channel → Channel) (d : Station) : (d.modChan ch f).rx = d.rx := rfl

@[simp] theorem Station.modChan_listen (ch : Chan) (f : Channel → Channel) (d : Station) : (d.modChan ch f).listen = d.listen := rfl

@[simp] theorem Station.modChan_gates (ch : Chan) (f : Channel → Channel) (d : Station) : (d.modChan ch f).gates = d.gates := rfl

@[simp] theorem Station.modChan_eng (ch : Chan) (f : Channel → Channel) (d : Station) : (d.modChan ch f).eng = d.eng := rfl

@[simp] theorem Station.modChan_port (ch : Chan) (f : Channel → Channel) (d : Station) : (d.modChan ch f).port = d.port := rfl

@[simp] theorem Station.modChan_held (ch : Chan) (f : Channel → Channel) (d : Station) : (d.modChan ch f).held = d.held := rfl

@[simp] theorem Station.answer_front (a : CellAnswer) (d : Station) : (d.answer a).front = d.front := rfl

@[simp] theorem Station.answer_rx (a : CellAnswer) (d : Station) : (d.answer a).rx = { d.rx with answer := a } := rfl

@[simp] theorem Station.answer_listen (a : CellAnswer) (d : Station) : (d.answer a).listen = d.listen := rfl

@[simp] theorem Station.answer_gates (a : CellAnswer) (d : Station) : (d.answer a).gates = d.gates := rfl

@[simp] theorem Station.answer_eng (a : CellAnswer) (d : Station) : (d.answer a).eng = d.eng := rfl

@[simp] theorem Station.answer_port (a : CellAnswer) (d : Station) : (d.answer a).port = d.port := rfl

@[simp] theorem Station.answer_held (a : CellAnswer) (d : Station) : (d.answer a).held = d.held := rfl

@[simp] theorem Station.notify_front (ns : List (BitVec 4 × Notice)) (d : Station) : (d.notify ns).front = d.front := rfl

@[simp] theorem Station.notify_rx (ns : List (BitVec 4 × Notice)) (d : Station) : (d.notify ns).rx = d.rx := rfl

@[simp] theorem Station.notify_listen (ns : List (BitVec 4 × Notice)) (d : Station) : (d.notify ns).listen = d.listen := rfl

@[simp] theorem Station.notify_gates (ns : List (BitVec 4 × Notice)) (d : Station) : (d.notify ns).gates = d.gates := rfl

@[simp] theorem Station.notify_eng (ns : List (BitVec 4 × Notice)) (d : Station) : (d.notify ns).eng = (d.eng.notify d.front ns).arbitrate d.now := rfl

@[simp] theorem Station.notify_port (ns : List (BitVec 4 × Notice)) (d : Station) : (d.notify ns).port = d.port := rfl

@[simp] theorem Station.notify_held (ns : List (BitVec 4 × Notice)) (d : Station) : (d.notify ns).held = d.held := rfl

@[simp] theorem Station.orphanWith_front (xs : List (TaskId × Deferred)) (attention : Stamp) (source : StationNo) (d : Station) : (d.orphanWith xs attention source).front = d.front := rfl

@[simp] theorem Station.orphanWith_rx (xs : List (TaskId × Deferred)) (attention : Stamp) (source : StationNo) (d : Station) : (d.orphanWith xs attention source).rx = d.rx := rfl

@[simp] theorem Station.orphanWith_listen (xs : List (TaskId × Deferred)) (attention : Stamp) (source : StationNo) (d : Station) : (d.orphanWith xs attention source).listen = d.listen := rfl

@[simp] theorem Station.orphanWith_port (xs : List (TaskId × Deferred)) (attention : Stamp) (source : StationNo) (d : Station) : (d.orphanWith xs attention source).port = d.port := rfl

@[simp] theorem Station.orphanWith_held (xs : List (TaskId × Deferred)) (attention : Stamp) (source : StationNo) (d : Station) : (d.orphanWith xs attention source).held = d.held := rfl

@[simp] theorem Station.countTruncated_front  (d : Station) : (d.countTruncated).front = d.front := rfl

@[simp] theorem Station.countTruncated_rx  (d : Station) : (d.countTruncated).rx = d.rx := rfl

@[simp] theorem Station.countTruncated_listen  (d : Station) : (d.countTruncated).listen = d.listen := rfl

@[simp] theorem Station.countTruncated_gates  (d : Station) : (d.countTruncated).gates = d.gates := rfl

@[simp] theorem Station.countTruncated_eng  (d : Station) : (d.countTruncated).eng = d.eng.count (fun c => { c with truncated := bumpBy 1 c.truncated }) := rfl

@[simp] theorem Station.countTruncated_port  (d : Station) : (d.countTruncated).port = d.port := rfl

@[simp] theorem Station.countTruncated_held  (d : Station) : (d.countTruncated).held = d.held := rfl

@[simp] theorem Station.cutAttempt_front  (d : Station) : (d.cutAttempt).front = d.front := rfl

@[simp] theorem Station.cutAttempt_rx  (d : Station) : (d.cutAttempt).rx = d.rx := rfl

@[simp] theorem Station.cutAttempt_listen  (d : Station) : (d.cutAttempt).listen = d.listen := rfl

@[simp] theorem Station.cutAttempt_gates  (d : Station) : (d.cutAttempt).gates = d.gates := rfl

@[simp] theorem Station.cutAttempt_eng  (d : Station) : (d.cutAttempt).eng = d.eng.attemptCut d.front := rfl

@[simp] theorem Station.cutAttempt_port  (d : Station) : (d.cutAttempt).port = d.port := rfl

@[simp] theorem Station.cutAttempt_held  (d : Station) : (d.cutAttempt).held = d.held := rfl

/-! ## Time -/

/-- Held in reset, no time passes (R165). -/
theorem Station.elapse_held (dt : Nat) {d : Station} (h : d.held = true) : d.elapse dt = d := by
  simp [Station.elapse, h]

/-- Otherwise the counter alone moves (R1). -/
theorem Station.elapse_running (dt : Nat) {d : Station} (h : d.held = false) :
    d.elapse dt = { d with front := { d.front with tb := { d.front.tb with now := d.front.tb.now + BitVec.ofNat 48 dt } } } := by
  simp [Station.elapse, h, Timebase.elapse, plus]

@[simp] theorem Station.elapse_rx (dt : Nat) (d : Station) : (d.elapse dt).rx = d.rx := by
  unfold Station.elapse; split <;> rfl

@[simp] theorem Station.elapse_listen (dt : Nat) (d : Station) : (d.elapse dt).listen = d.listen := by
  unfold Station.elapse; split <;> rfl

@[simp] theorem Station.elapse_gates (dt : Nat) (d : Station) : (d.elapse dt).gates = d.gates := by
  unfold Station.elapse; split <;> rfl

@[simp] theorem Station.elapse_eng (dt : Nat) (d : Station) : (d.elapse dt).eng = d.eng := by
  unfold Station.elapse; split <;> rfl

@[simp] theorem Station.elapse_port (dt : Nat) (d : Station) : (d.elapse dt).port = d.port := by
  unfold Station.elapse; split <;> rfl

@[simp] theorem Station.elapse_held_field (dt : Nat) (d : Station) : (d.elapse dt).held = d.held := by
  unfold Station.elapse; split <;> rfl

@[simp] theorem Station.elapse_chans (dt : Nat) (d : Station) : (d.elapse dt).front.chans = d.front.chans := by
  unfold Station.elapse; split <;> rfl

/-! ## How commands act -/

/-- A command acts after its time; it answers a next state and leaves the queue. -/
theorem State.acting_eq (dt : Nat) (f : Station → Station) (s : State) :
    s.acting dt f = .next { s with dev := f (s.dev.elapse dt) } := rfl

/-- In reset a command that needs the station running changes nothing (R165). -/
theorem State.running_held (dt : Nat) (f : Station → Station) {s : State} (h : s.dev.held = true) :
    s.running dt f = .next s := by
  simp [State.running, State.acting, Station.elapse_held dt h, h]

/-- Out of reset it acts on the station after its time. -/
theorem State.running_out (dt : Nat) (f : Station → Station) {s : State} (h : s.dev.held = false) :
    s.running dt f = .next { s with dev := f (s.dev.elapse dt) } := by
  simp [State.running, State.acting, h]

/-- A request with no transaction waiting for one: only time passes (log 19). -/
theorem State.request_idle (dt : Nat) (kind : Byte) (body : List Byte) (judge : Station → Station × Reply) {s : State}
    (h : s.dev.held = false) (hp : s.dev.port.takesRequest = false) :
    s.request dt kind body judge = .next { s with dev := s.dev.elapse dt } := by
  simp [State.request, State.running_out dt _ h, Station.takeRequest, hp]

@[simp] theorem beBytes_length (n v : Nat) : (beBytes n v).length = n := by
  induction n generalizing v <;> simp [beBytes, *]

/-- A kind byte with no request assigned has no body (R175). -/
@[simp] theorem bodyLength_unassigned {kind : Byte} (h : kindAssigned kind = false) : bodyLength kind = 0 := by
  revert h; revert kind; decide

theorem HostPort.clockIn_list (bs : List Byte) (p : HostPort) (h : p.phase = .body) :
    bs.foldl HostPort.clockIn p = { p with body := p.body ++ bs } := by
  induction bs generalizing p with
  | nil => simp
  | cons b bs ih => rw [List.foldl_cons, ih _ (by simp [HostPort.clockIn, h])]; simp [HostPort.clockIn, h]

/-- A frame clocked in: BODY with the kind byte and the whole body (R174). -/
theorem HostPort.receive_eq (kind : Byte) (body : List Byte) (p : HostPort) :
    p.receive kind body = { p with phase := .body, kind := some kind, body := body } := by
  rw [HostPort.receive, List.foldl_cons, HostPort.clockIn_list _ _ rfl]; simp [HostPort.clockIn]

/-- It is complete exactly with as many body bytes as its kind byte fixes (R175). -/
theorem HostPort.receive_complete (kind : Byte) (body : List Byte) (p : HostPort) :
    (p.receive kind body).requestComplete = (body.length == bodyLength kind) := by
  simp [HostPort.receive_eq, HostPort.requestComplete]

/-- No judgement touches the port: what a taken request leaves of it comes from the frame and the reply (R174). -/
theorem State.request_taken (dt : Nat) (kind : Byte) (body : List Byte) (judge : Station → Station × Reply) {s : State}
    (h : s.dev.held = false) (hp : s.dev.port.takesRequest = true) :
    s.request dt kind body judge = .next { s with dev :=
      { (judge (s.dev.elapse dt)).1 with port :=
        { s.dev.port with
          phase := .fill, kind := some kind, body := body, reply := some (judge (s.dev.elapse dt)).2 } } } := by
  simp [State.request, State.running_out dt _ h, Station.takeRequest, hp, HostPort.receive_eq]

end Sys2Proof.Machine
end

