-- ==== Sys2Proof/Laws/Ops.lean ====
section
/-!
SUPPORT. What the shared operations can do, said once for each: freeing slots, the end of a run, the arbiter, a
station fault, offers to the transmitter.
-/

namespace Sys2Proof.Machine

open Sys2Proof.Safety

/-! ## The station at the time of a command -/

section
variable (dt : Nat) (s : State)

@[simp] theorem atTime_rx : (atTime dt s).rx = s.dev.rx := rfl
@[simp] theorem atTime_listen : (atTime dt s).listen = s.dev.listen := rfl
@[simp] theorem atTime_gates : (atTime dt s).gates = s.dev.gates := rfl
@[simp] theorem atTime_eng : (atTime dt s).eng = s.dev.eng := rfl
@[simp] theorem atTime_port : (atTime dt s).port = s.dev.port := rfl
@[simp] theorem atTime_held : (atTime dt s).held = s.dev.held := rfl
@[simp] theorem atTime_chans : (atTime dt s).front.chans = s.dev.front.chans := rfl

end

/-- Out of reset, the time of a command passes. -/
theorem elapse_atTime (dt : Nat) {s : State} (h : s.dev.held = false) : s.dev.elapse dt = atTime dt s := by
  simp [Station.elapse, h, atTime, Timebase.elapse, plus]

/-- A command of a station out of reset leads to the station it makes of the one at its time. -/
theorem running_goesTo (dt : Nat) (f : Station → Station) {s : State} (h : s.dev.held = false) :
    s.running dt f = goesTo s (f (atTime dt s)) := by
  rw [State.running_out _ _ h, elapse_atTime _ h]; rfl

/-- So does a command that acts in reset too. -/
theorem acting_goesTo (dt : Nat) (f : Station → Station) {s : State} (h : s.dev.held = false) :
    s.acting dt f = goesTo s (f (atTime dt s)) := by
  rw [State.acting_eq, elapse_atTime _ h]; rfl

/-- A request that a transaction waits for: what its judgement makes of the station, its reply kept. -/
theorem request_goesTo (dt : Nat) (kind : Byte) (body : List Byte) (judge : Station → Station × Reply) {s : State}
    (h : awaitsRequest s) :
    s.request dt kind body judge = goesTo s
      { (judge (atTime dt s)).1 with port :=
        { s.dev.port with
          phase := .fill, kind := some kind, body := body, reply := some (judge (atTime dt s)).2 } } := by
  rw [State.request_taken _ _ _ _ h.1 h.2, elapse_atTime _ h.1]; rfl

/-! ## Slots (R133) -/

/-- Freeing a slot changes the slots only. -/
theorem Engine.freeSlot_frame (i : SlotId) (e : Engine) : e.freeSlot i = { e with slots := (e.freeSlot i).slots } := by
  unfold Engine.freeSlot; split <;> rfl

/-- What it makes of the slots depends on the slots only. -/
theorem Engine.freeSlot_slots (i : SlotId) {e e' : Engine} (h : e.slots = e'.slots) :
    (e.freeSlot i).slots = (e'.freeSlot i).slots := by
  unfold Engine.freeSlot; rw [h]; split <;> simp_all

/-- A list of slots freed for a task, one after another. -/
theorem Engine.freeList_frame (t : TaskId) (is : List SlotId) (e : Engine) :
    is.foldl (fun e i => if e.slotOf t i then e.freeSlot i else e) e =
      { e with slots := (is.foldl (fun e i => if e.slotOf t i then e.freeSlot i else e) e).slots } := by
  induction is generalizing e with
  | nil => rfl
  | cons i is ih =>
    simp only [List.foldl_cons]
    rw [ih]; split
    · rw [Engine.freeSlot_frame]
    · rfl

theorem Engine.freeList_slots (t : TaskId) (is : List SlotId) {e e' : Engine} (h : e.slots = e'.slots) :
    (is.foldl (fun e i => if e.slotOf t i then e.freeSlot i else e) e).slots =
      (is.foldl (fun e i => if e.slotOf t i then e.freeSlot i else e) e').slots := by
  induction is generalizing e e' with
  | nil => exact h
  | cons i is ih =>
    simp only [List.foldl_cons]
    have hs : e.slotOf t i = e'.slotOf t i := by simp [Engine.slotOf, h]
    apply ih; rw [hs]; split
    · exact Engine.freeSlot_slots i h
    · exact h

/-- Freeing a task's slots changes the slots only. -/
theorem Engine.freeSlotsOf_frame (t : TaskId) (e : Engine) :
    e.freeSlotsOf t = { e with slots := (e.freeSlotsOf t).slots } := Engine.freeList_frame t taskIds e

/-- What it makes of the slots depends on the slots only. -/
theorem Engine.freeSlotsOf_slots (t : TaskId) {e e' : Engine} (h : e.slots = e'.slots) :
    (e.freeSlotsOf t).slots = (e'.freeSlotsOf t).slots := Engine.freeList_slots t taskIds h

/-! ## The end of a run (R40, R41) -/

/-- The job in progress is discarded where it is the task's. -/
theorem discard_current (t : TaskId) (c : Option CurrentJob) :
    c.map (fun j => if j.task = t then { j with discarded := true } else j) =
      c.map (fun j => { j with discarded := j.discarded || j.task == t }) := by
  cases c with
  | none => rfl
  | some j =>
    by_cases h : j.task = t
    · simp [h]
    · have hb : (j.task == t) = false := by simpa using h
      simp [h]
      rw [hb, Bool.or_false]

/-- What a run releases. -/
theorem Engine.releaseRun_eq (t : TaskId) (e : Engine) :
    e.releaseRun t = { e with
      tasks := e.tasks.set t { releasedRecord e t with openBlock := (e.tasks.get t).openBlock },
      unit := unitLeft t e.unit, slots := (e.freeSlotsOf t).slots,
      tx := { e.tx with queue := markersLeft t e.tx.queue } } := by
  unfold Engine.releaseRun
  rw [Engine.freeSlotsOf_frame]
  simp only [Engine.withdrawJob, Engine.detachMarkers, Engine.modOutgoing, Engine.modTask, Engine.setTask,
    Per8.get_set_same, Per8.set_set, discard_current, releasedRecord, unitLeft, markersLeft]
  have hw : ∀ ws : List WaitingJob, ws.filter (fun w => !(w.task == t)) = ws.filter (fun w => w.task ≠ t) := by
    intro ws; congr 1; funext w; by_cases h : w.task = t <;> simp [h]
  simp only [hw]
  cases e.unit.current <;> rfl

/-! ## Offers of one moment (R121, R152) -/

section
variable {α : Type}

/-- Where no element of a list follows, a placed one stands at the tail. -/
theorem placeBefore_tail {follows : α → Bool} {a : α} {q : List α} (h : ∀ x ∈ q, follows x = false) :
    placeBefore follows a q = q ++ [a] := by
  unfold placeBefore
  induction q with
  | nil => rfl
  | cons x q ih =>
    have hx := h x (by simp)
    have := ih (fun y hy => h y (by simp [hy]))
    simp [hx, this]

/-- Otherwise it stands before the first that follows. -/
theorem placeBefore_mid {follows : α → Bool} {a x : α} {pre post : List α} (h : ∀ y ∈ pre, follows y = false)
    (hx : follows x = true) : placeBefore follows a (pre ++ x :: post) = pre ++ a :: x :: post := by
  unfold placeBefore
  induction pre with
  | nil => simp [hx]
  | cons y pre ih =>
    have hy := h y (by simp)
    have := ih (fun z hz => h z (by simp [hz]))
    simp [hy, this]

/-- The list is one longer. -/
@[simp] theorem placeBefore_length (follows : α → Bool) (a : α) (q : List α) :
    (placeBefore follows a q).length = q.length + 1 := by
  unfold placeBefore
  rw [List.length_append, List.length_cons, ← Nat.add_assoc, ← List.length_append, List.takeWhile_append_dropWhile]

/-- What stands in it are the old elements and the new one. -/
theorem mem_placeBefore {follows : α → Bool} {a x : α} {q : List α} : x ∈ placeBefore follows a q ↔ x = a ∨ x ∈ q := by
  have hq : x ∈ q ↔ x ∈ q.takeWhile (fun x => !follows x) ∨ x ∈ q.dropWhile (fun x => !follows x) := by
    rw [← List.mem_append, List.takeWhile_append_dropWhile]
  rw [hq]
  simp only [placeBefore, List.mem_append, List.mem_cons]
  exact or_left_comm

/-- It answers nothing just where no element is picked. -/
theorem takeLast_none {picks : α → Bool} {q : List α} : takeLast picks q = none ↔ ∀ x ∈ q, picks x = false := by
  induction q with
  | nil => simp [takeLast]
  | cons x q ih =>
    unfold takeLast
    cases hq : takeLast picks q with
    | some p =>
      have : ¬ ∀ x ∈ q, picks x = false := fun h => by rw [ih.2 h] at hq; cases hq
      simp only [List.mem_cons, reduceCtorEq, false_iff]
      exact fun h => this (fun y hy => h y (.inr hy))
    | none => simpa using fun _ => ih.1 hq

/-- The last one picked leaves the others in their order. -/
theorem takeLast_mid {picks : α → Bool} {x : α} {pre post : List α} (hx : picks x = true)
    (h : ∀ y ∈ post, picks y = false) : takeLast picks (pre ++ x :: post) = some (x, pre ++ post) := by
  induction pre with
  | nil => simp [takeLast, takeLast_none.2 h, hx]
  | cons y pre ih => simp [takeLast, ih]

/-- What `takeLast` answers. -/
theorem takeLast_spec {picks : α → Bool} {x : α} {q rest : List α} (h : takeLast picks q = some (x, rest)) :
    ∃ pre post, q = pre ++ x :: post ∧ rest = pre ++ post ∧ picks x = true ∧ ∀ y ∈ post, picks y = false := by
  induction q generalizing rest with
  | nil => cases h
  | cons y q ih =>
    unfold takeLast at h
    cases hq : takeLast picks q with
    | some p =>
      rw [hq] at h; simp only [Option.some.injEq, Prod.mk.injEq] at h
      obtain ⟨rfl, rfl⟩ := h
      obtain ⟨pre, post, h1, h2, h3, h4⟩ := ih hq
      exact ⟨y :: pre, post, by rw [h1]; rfl, by rw [h2]; rfl, h3, h4⟩
    | none =>
      rw [hq] at h
      by_cases hy : picks y = true
      · simp only [if_pos hy, Option.some.injEq, Prod.mk.injEq] at h
        obtain ⟨rfl, rfl⟩ := h
        exact ⟨[], q, rfl, rfl, hy, takeLast_none.1 hq⟩
      · simp [if_neg hy] at h

end

/-- What the offer of a block does: the block enters a queue with a place, takes the place that a higher-numbered task's block
of the same moment gives up, or finds the queue full (R152). -/
theorem Engine.offerBlock_cases (now : Stamp) (t : TaskId) (b : Block) (entered held : TaskRec) (e : Engine) :
    (e.queue.length < 16 ∧ e.offerBlock now t b entered held = { e with
      queue := placeBefore (Block.follows now t) { b with offered := some (fresh now) } e.queue,
      tasks := e.tasks.set t entered }) ∨
    (16 ≤ e.queue.length ∧ ∃ x pre post, e.queue = pre ++ x :: post ∧ t < x.task ∧
      (e.tasks.get x.task).canHold x = true ∧
      e.offerBlock now t b entered held = { e with
        queue := placeBefore (Block.follows now t) { b with offered := some (fresh now) } (pre ++ post),
        tasks := (e.tasks.set x.task ((e.tasks.get x.task).holding x)).set t entered }) ∨
    (16 ≤ e.queue.length ∧ e.offerBlock now t b entered held = e.setTask t held) := by
  unfold Engine.offerBlock Engine.placeFor queueDepth
  by_cases hl : e.queue.length < 16
  · exact .inl ⟨hl, by rw [if_pos hl]⟩
  · refine .inr ?_
    rw [if_neg hl]
    cases hq : takeLast (fun x => x.follows now t && (e.tasks.get x.task).canHold x) e.queue with
    | none => exact .inr ⟨by omega, rfl⟩
    | some p =>
      obtain ⟨x, rest⟩ := p
      obtain ⟨pre, post, h1, rfl, h3, -⟩ := takeLast_spec hq
      simp only [Block.follows, Bool.and_eq_true, decide_eq_true_eq] at h3
      exact .inl ⟨by omega, x, pre, post, h1, h3.1.2, h3.2, rfl⟩

/-- It changes the queue and the records only. -/
theorem Engine.offerBlock_frame (now : Stamp) (t : TaskId) (b : Block) (entered held : TaskRec) (e : Engine) :
    e.offerBlock now t b entered held = { e with
      queue := (e.offerBlock now t b entered held).queue, tasks := (e.offerBlock now t b entered held).tasks } := by
  rcases Engine.offerBlock_cases now t b entered held e with ⟨-, h⟩ | ⟨-, x, pre, post, -, -, -, h⟩ | ⟨-, h⟩ <;> rw [h] <;> rfl

/-- The offering task has one of its two records after it. -/
theorem Engine.offerBlock_task (now : Stamp) (t : TaskId) (b : Block) (entered held : TaskRec) (e : Engine) :
    (e.offerBlock now t b entered held).tasks.get t = entered ∨ (e.offerBlock now t b entered held).tasks.get t = held := by
  rcases Engine.offerBlock_cases now t b entered held e with ⟨-, h⟩ | ⟨-, x, pre, post, -, -, -, h⟩ | ⟨-, h⟩ <;> rw [h]
  · exact .inl (by simp)
  · exact .inl (by simp)
  · exact .inr (by simp)

/-- Another task keeps its record, or holds the block whose place it gave up. -/
theorem Engine.offerBlock_tasks_ne {now : Stamp} {t u : TaskId} (b : Block) (entered held : TaskRec) (e : Engine) (h : u ≠ t) :
    (e.offerBlock now t b entered held).tasks.get u = e.tasks.get u ∨
    ∃ x, (e.tasks.get u).canHold x = true ∧ (e.offerBlock now t b entered held).tasks.get u = (e.tasks.get u).holding x := by
  rcases Engine.offerBlock_cases now t b entered held e with ⟨-, hh⟩ | ⟨-, x, pre, post, -, -, hc, hh⟩ | ⟨-, hh⟩ <;> rw [hh]
  · exact .inl (by simp only []; rw [Per8.get_set_ne _ _ h])
  · simp only []
    rw [Per8.get_set_ne _ _ h]
    by_cases hx : u = x.task
    · subst hx; exact .inr ⟨x, hc, by simp⟩
    · exact .inl (by rw [Per8.get_set_ne _ _ hx])
  · exact .inl (by rw [Engine.setTask_tasks, Per8.get_set_ne _ _ h])

/-- A queue of 16 places stays one. -/
theorem Engine.offerBlock_length {now : Stamp} {t : TaskId} {b : Block} {entered held : TaskRec} {e : Engine}
    (h : e.queue.length ≤ 16) : (e.offerBlock now t b entered held).queue.length ≤ 16 := by
  rcases Engine.offerBlock_cases now t b entered held e with ⟨hl, hh⟩ | ⟨-, x, pre, post, hq, -, -, hh⟩ | ⟨-, hh⟩ <;> rw [hh]
  · rw [placeBefore_length]; omega
  · rw [placeBefore_length]; rw [hq] at h; simp at h ⊢; omega
  · exact h

/-- A task that holds its block instead is STALLED, with the kind state of its run as it was (R38, R152). -/
theorem TaskRec.holding_facts (x : Block) (k : TaskRec) :
    (k.holding x).state = .stalled ∧ (k.holding x).run = k.run ∧ (k.holding x).defn = k.defn := by
  unfold TaskRec.holding; simp only []; split <;> exact ⟨rfl, rfl, rfl⟩

/-- The engine of a run that is over, whatever became of its block. -/
theorem runEnded_frame (now : Stamp) (t : TaskId) (td : TaskDef) (cause : EndCause) (e : Engine) :
    runEnded now t td cause e = { e with
      tasks := (runEnded now t td cause e).tasks, queue := (runEnded now t td cause e).queue,
      unit := unitLeft t e.unit, slots := (e.freeSlotsOf t).slots,
      tx := { e.tx with queue := markersLeft t e.tx.queue },
      ctl := { e.ctl with latched := { e.ctl.latched with taskEnded := true } } } := by
  unfold runEnded
  simp only []
  split
  · rfl
  · split
    · rfl
    · rw [Engine.offerBlock_frame]

/-- A run in progress ends as R40 and R41 describe it. -/
theorem Engine.endRun_running {now : Stamp} {t : TaskId} {td : TaskDef} (cause : EndCause) {e : Engine}
    (hr : (e.tasks.get t).runContinues = true) (hd : (e.tasks.get t).defn = some td) :
    e.endRun now t cause = runEnded now t td cause e := by
  have hse : endsAs cause = cause.endState := by cases cause <;> rfl
  unfold Engine.endRun
  simp only [hr, hd]
  rw [Engine.releaseRun_eq]
  unfold Engine.closeRun runEnded
  simp only [Engine.latchTaskEnded, Engine.modCtl, Per8.get_set_same, hse]
  have hb : (releasedRecord e t).openBlock = none := rfl
  cases hs : (releasedRecord e t).state <;> cases ho : (e.tasks.get t).openBlock with
  | none => simp [hb, Engine.setTask] <;> (try rfl)
  | some rs =>
    cases rs <;>
      simp [hb, Engine.setTask, TaskRec.blockNow] <;> rfl

/-- A run in progress of a record without definition, which no reachable state has (log 34), ends without a block. -/
theorem Engine.endRun_undefined {now : Stamp} {t : TaskId} (cause : EndCause) {e : Engine}
    (hr : (e.tasks.get t).runContinues = true) (hd : (e.tasks.get t).defn = none) :
    e.endRun now t cause = ((e.releaseRun t).latchTaskEnded).modTask t (fun k =>
      { k with openBlock := none, heldBlock := none, state := cause.endState, endCause := some cause, cause := .none }) := by
  unfold Engine.endRun; simp only [hr, hd]

/-- Where no run continues, nothing ends. -/
theorem Engine.endRun_idle {now : Stamp} {t : TaskId} (cause : EndCause) {e : Engine}
    (hr : (e.tasks.get t).runContinues = false) : e.endRun now t cause = e := by
  unfold Engine.endRun; rw [hr]

/-- The three ways `endRun` can go. -/
theorem Engine.endRun_cases (now : Stamp) (t : TaskId) (cause : EndCause) (e : Engine) :
    ((e.tasks.get t).runContinues = false ∧ e.endRun now t cause = e) ∨
    ((e.tasks.get t).runContinues = true ∧ ∃ td, (e.tasks.get t).defn = some td ∧ e.endRun now t cause = runEnded now t td cause e) ∨
    ((e.tasks.get t).runContinues = true ∧ (e.tasks.get t).defn = none ∧
      e.endRun now t cause = ((e.releaseRun t).latchTaskEnded).modTask t (fun k =>
        { k with openBlock := none, heldBlock := none, state := cause.endState, endCause := some cause, cause := .none })) := by
  cases hr : (e.tasks.get t).runContinues with
  | false => exact .inl ⟨rfl, Engine.endRun_idle cause hr⟩
  | true =>
    cases hd : (e.tasks.get t).defn with
    | some td => exact .inr (.inl ⟨rfl, td, rfl, Engine.endRun_running cause hr hd⟩)
    | none => exact .inr (.inr ⟨rfl, rfl, Engine.endRun_undefined cause hr hd⟩)

/-- The task's own record after a run that is over: DONE or FAULTED, or STALLED with the run end pending. -/
theorem runEnded_task (now : Stamp) (t : TaskId) (td : TaskDef) (cause : EndCause) (e : Engine) :
    let k := (runEnded now t td cause e).tasks.get t
    k.run = .none ∧
    ((k.state = endsAs cause ∧ k.endCause = some cause) ∨ (k.state = .stalled ∧ k.runEndPending = some cause)) := by
  have off : ∀ (b : Block) (k1 k2 : TaskRec) (e : Engine), (k1.run = .none ∧ k1.state = endsAs cause ∧ k1.endCause = some cause) →
      (k2.run = .none ∧ k2.state = .stalled ∧ k2.runEndPending = some cause) →
      let k := (e.offerBlock now t b k1 k2).tasks.get t
      k.run = .none ∧
      ((k.state = endsAs cause ∧ k.endCause = some cause) ∨ (k.state = .stalled ∧ k.runEndPending = some cause)) := by
    intro b k1 k2 e h1 h2
    simp only []
    rcases Engine.offerBlock_task now t b k1 k2 e with h | h <;> rw [h]
    · exact ⟨h1.1, .inl h1.2⟩
    · exact ⟨h2.1, .inr h2.2⟩
  unfold runEnded
  simp only []
  split
  · rename_i hs
    simp only [Engine.setTask_tasks, Per8.get_set_same]
    exact ⟨rfl, .inr ⟨hs, trivial⟩⟩
  · split
    · simp only [Engine.setTask_tasks, Per8.get_set_same]; exact ⟨rfl, .inl ⟨trivial, trivial⟩⟩
    · exact off _ _ _ _ ⟨rfl, rfl, rfl⟩ ⟨rfl, rfl, rfl⟩

/-- The end of one task's run leaves another's record, unless that task gives up its block's place. -/
theorem Engine.endRun_tasks_ne {t u : TaskId} (now : Stamp) (cause : EndCause) (e : Engine) (h : u ≠ t) :
    (e.endRun now t cause).tasks.get u = e.tasks.get u ∨
    ∃ x, (e.tasks.get u).canHold x = true ∧ (e.endRun now t cause).tasks.get u = (e.tasks.get u).holding x := by
  rcases Engine.endRun_cases now t cause e with ⟨-, he⟩ | ⟨-, td, -, he⟩ | ⟨-, -, he⟩ <;> rw [he]
  · exact .inl rfl
  · unfold runEnded
    simp only []
    split
    · exact .inl (by simp only [Engine.setTask_tasks]; rw [Per8.get_set_ne _ _ h, Per8.get_set_ne _ _ h])
    · split
      · exact .inl (by simp only [Engine.setTask_tasks]; rw [Per8.get_set_ne _ _ h, Per8.get_set_ne _ _ h])
      · have key : ∀ (e' : Engine), e'.tasks.get u = e.tasks.get u → ∀ b k1 k2,
            (e'.offerBlock now t b k1 k2).tasks.get u = e.tasks.get u ∨
            ∃ x, (e.tasks.get u).canHold x = true ∧ (e'.offerBlock now t b k1 k2).tasks.get u = (e.tasks.get u).holding x := by
          intro e' he' b k1 k2
          have := Engine.offerBlock_tasks_ne (now := now) b k1 k2 e' h
          rw [he'] at this; exact this
        exact key _ (by simp only []; rw [Per8.get_set_ne _ _ h]) _ _ _
  · refine .inl ?_
    rw [Engine.releaseRun_eq]
    simp only [Engine.modTask_tasks, Engine.latchTaskEnded_tasks]
    rw [Per8.get_set_ne _ _ h, Per8.get_set_ne _ _ h]

/-- After it, the task is DONE or FAULTED with the end cause, or STALLED with the run end pending. -/
theorem Engine.endRun_task {now : Stamp} {t : TaskId} (cause : EndCause) {e : Engine}
    (hr : (e.tasks.get t).runContinues = true) :
    (((e.endRun now t cause).tasks.get t).state = endsAs cause ∧ ((e.endRun now t cause).tasks.get t).endCause = some cause) ∨
    (((e.endRun now t cause).tasks.get t).state = .stalled ∧ ((e.endRun now t cause).tasks.get t).runEndPending = some cause) := by
  have hse : endsAs cause = cause.endState := by cases cause <;> rfl
  rcases Engine.endRun_cases now t cause e with ⟨h, -⟩ | ⟨-, td, -, he⟩ | ⟨-, -, he⟩
  · rw [hr] at h; cases h
  · rw [he]; exact (runEnded_task now t td cause e).2
  · rw [he]; simp [Engine.modTask, Engine.setTask, hse]

/-- So its run is no longer in progress. -/
theorem Engine.endRun_stops (now : Stamp) (t : TaskId) (cause : EndCause) (e : Engine) :
    ((e.endRun now t cause).tasks.get t).runContinues = false := by
  cases hr : (e.tasks.get t).runContinues with
  | false => rw [Engine.endRun_idle cause hr]; exact hr
  | true =>
    rcases Engine.endRun_task (now := now) cause hr with ⟨hs, -⟩ | ⟨hs, hp⟩
    · have : endsAs cause = .done ∨ endsAs cause = .faulted := by cases cause <;> simp [endsAs]
      rcases this with h | h <;> simp [TaskRec.runContinues, hs, h]
    · simp [TaskRec.runContinues, hs, hp]

/-- What the end of a run leaves of the transmitter, the peers and station control. -/
theorem Engine.endRun_rest (now : Stamp) (t : TaskId) (cause : EndCause) (e : Engine) :
    ((e.endRun now t cause).tx = e.tx ∨ (e.endRun now t cause).tx = { e.tx with queue := markersLeft t e.tx.queue }) ∧
    (e.endRun now t cause).peers = e.peers ∧
    ((e.endRun now t cause).ctl = e.ctl ∨
      (e.endRun now t cause).ctl = { e.ctl with latched := { e.ctl.latched with taskEnded := true } }) := by
  rcases Engine.endRun_cases now t cause e with ⟨-, he⟩ | ⟨-, td, -, he⟩ | ⟨-, -, he⟩ <;> rw [he]
  · exact ⟨.inl rfl, rfl, .inl rfl⟩
  · rw [runEnded_frame]; exact ⟨.inr rfl, rfl, .inr rfl⟩
  · rw [Engine.releaseRun_eq]; exact ⟨.inr rfl, rfl, .inr rfl⟩

end Sys2Proof.Machine
end

