-- ==== Sys2Proof/Laws/Engine.lean ====
section
/-!
SUPPORT. What the operations of the engine can do to the tasks they are not about: the arbiter with nothing to
choose, a station halt, a result taken, and a fold over the tasks in which one of them acts.
-/

namespace Sys2Proof.Machine

open Sys2Proof.Safety

/-! ## The arbiter (R93) -/

/-- A job found lowest waits. -/
theorem mem_of_lowestJob {ws : List WaitingJob} {w : WaitingJob} (h : lowestJob ws = some w) : w ∈ ws := by
  unfold lowestJob at h
  obtain ⟨t, -, ht⟩ := List.exists_of_findSome?_eq_some h
  exact List.mem_of_find?_eq_some ht

/-- With a job in progress that no waiting one displaces, or none waiting, the arbiter has no choice to make. -/
theorem Engine.arbitrate_settled {now : Stamp} {e : Engine} (h : unitSettled now e) : e.arbitrate now = e := by
  unfold Engine.arbitrate
  rcases h with ⟨j, hj, hw⟩ | h
  · rw [hj]
    cases hl : lowestJob e.unit.waiting with
    | none => rfl
    | some w => simp [hw w (mem_of_lowestJob hl)]
  · rw [h]
    have : lowestJob [] = none := by decide
    rw [this]; cases e.unit.current <;> rfl

/-- The lowest of one waiting job is that job. -/
theorem lowestJob_one (w : WaitingJob) : lowestJob [w] = some w := by
  unfold lowestJob
  rw [List.findSome?_eq_some_iff]
  obtain ⟨l1, hl⟩ : ∃ l1, taskIds = l1 ++ w.task :: taskIds.drop (w.task.val + 1) ∧ w.task ∉ l1 :=
    ⟨taskIds.take w.task.val, by generalize w.task = t; revert t; decide⟩
  refine ⟨l1, w.task, _, hl.1, by simp, fun u hu => ?_⟩
  simp only [List.find?_cons, List.find?_nil]
  have : (w.task == u) = false := beq_eq_false_iff_ne.2 (fun h => hl.2 (h ▸ hu))
  rw [this]

/-- A waiting job of a lower number than every other is the lowest. -/
theorem lowestJob_of_least {ws : List WaitingJob} {w : WaitingJob} (h : w ∈ ws) (least : ∀ v ∈ ws, v = w ∨ w.task < v.task) :
    lowestJob ws = some w := by
  unfold lowestJob
  rw [List.findSome?_eq_some_iff]
  have hsplit : ∀ t : TaskId, taskIds = taskIds.take t.val ++ t :: taskIds.drop (t.val + 1) ∧
      ∀ u ∈ taskIds.take t.val, u < t := by decide
  obtain ⟨hl, hlow⟩ := hsplit w.task
  refine ⟨_, w.task, _, hl, ?_, fun u hu => ?_⟩
  · cases hf : ws.find? (fun v => v.task == w.task) with
    | none => rw [List.find?_eq_none] at hf; exact absurd (beq_self_eq_true w.task) (hf w h)
    | some v =>
      have hv := List.mem_of_find?_eq_some hf
      have ht : v.task = w.task := by simpa using List.find?_some hf
      rcases least v hv with rfl | hlt
      · rfl
      · exact absurd hlt (by rw [ht]; exact Nat.lt_irrefl _)
  · rw [List.find?_eq_none]
    intro v hv hvu
    have hu' : v.task = u := by simpa using hvu
    rcases least v hv with rfl | hlt
    · exact Nat.lt_irrefl _ (hu' ▸ hlow u hu)
    · exact Nat.lt_asymm hlt (hu' ▸ hlow u hu)

/-- The arbiter on a free divider starts the lowest waiting job. -/
theorem Engine.arbitrate_free {now : Stamp} {e : Engine} {w : WaitingJob} (hc : e.unit.current = none)
    (hw : lowestJob e.unit.waiting = some w) : e.arbitrate now = e.startJob now true w := by
  unfold Engine.arbitrate; rw [hc, hw]

/-- With no job waiting there is no next one at a finish. -/
theorem Engine.chooseNext_idle {now : Stamp} {e : Engine} (h : e.unit.waiting = []) : e.chooseNext now = e := by
  unfold Engine.chooseNext
  rw [h]
  have : lowestJob [] = none := by decide
  rw [this]; cases e.unit.current <;> rfl

/-- The end of a run leaves the arbiter with no choice where it had none: its job is withdrawn or discarded. -/
theorem unitSettled_unitLeft {now : Stamp} {t : TaskId} {e e' : Engine} (h : unitSettled now e)
    (he : e'.unit = unitLeft t e.unit) : unitSettled now e' := by
  unfold unitSettled
  rw [he]
  rcases h with ⟨j, hj, hw⟩ | h
  · refine .inl ⟨{ j with discarded := j.discarded || j.task == t }, by simp [unitLeft, hj], fun w hm => ?_⟩
    have hg := hw w (List.mem_filter.1 hm).1
    unfold CurrentJob.givesWay at *
    cases hd : j.discarded <;> simp [hd] at hg ⊢
    intro h1 _ h3
    exact hg h1 h3
  · exact .inr (by simp [unitLeft, h])

/-! ## One task of many acts -/

/-- The tasks are a list in which each stands once. -/
theorem taskIds_split (t : TaskId) : ∃ before after, taskIds = before ++ t :: after ∧ t ∉ before ∧ t ∉ after := by
  obtain ⟨l1, l2, hl⟩ := List.append_of_mem (mem_taskIds t)
  have hnd : taskIds.Nodup := by decide
  rw [hl, List.nodup_append] at hnd
  exact ⟨l1, l2, hl, fun hx => hnd.2.2 t hx t (by simp) rfl, (List.nodup_cons.1 hnd.2.1).1⟩

/-- A fold over tasks of which none acts changes nothing. -/
theorem fold_idle {α : Type} (f : TaskId → α → α) (e : α) (ts : List TaskId) (h : ∀ t ∈ ts, f t e = e) :
    ts.foldl (fun e t => f t e) e = e := by
  induction ts with
  | nil => rfl
  | cons t ts ih => rw [List.foldl_cons, h t (by simp), ih (fun u hu => h u (by simp [hu]))]

/-- A fold over the tasks in which only one acts, before and after its act. -/
theorem fold_one {α : Type} (f : TaskId → α → α) (t : TaskId) (e : α) (h0 : ∀ u, u ≠ t → f u e = e)
    (h1 : ∀ u, u ≠ t → f u (f t e) = f t e) : taskIds.foldl (fun e t => f t e) e = f t e := by
  obtain ⟨l1, l2, hl, n1, n2⟩ := taskIds_split t
  rw [hl, List.foldl_append, fold_idle f e l1 (fun u hu => h0 u (fun h => n1 (h ▸ hu))), List.foldl_cons,
    fold_idle f (f t e) l2 (fun u hu => h1 u (fun h => n2 (h ▸ hu)))]

/-! ## Other tasks -/

/-- What a station fault may do to a task: nothing, or, at a station halt, the end of its run in FAULTED. -/
def HaltsOr (k k' : TaskRec) : Prop := k' = k ∨ (k'.state = .faulted ∧ k'.run = .none)

/-- What an operation on one task may do to another: nothing, the loss of its block's place in the queue, which makes it
STALLED (R152), or, at a station halt, the end of its run in FAULTED. -/
def LeavesOr (k k' : TaskRec) : Prop :=
  k' = k ∨ (k'.state = .stalled ∧ (k'.run = k.run ∨ k'.run = .none)) ∨ (k'.state = .faulted ∧ k'.run = .none)

theorem HaltsOr.leaves {k k' : TaskRec} (h : HaltsOr k k') : LeavesOr k k' := h.imp_right .inr

theorem LeavesOr.trans {a b c : TaskRec} (h : LeavesOr a b) (h' : LeavesOr b c) : LeavesOr a c := by
  rcases h' with rfl | ⟨h1, h2⟩ | h'
  · exact h
  · rcases h with rfl | ⟨-, h4⟩ | ⟨-, h4⟩
    · exact .inr (.inl ⟨h1, h2⟩)
    · exact .inr (.inl ⟨h1, h2.elim (fun h => h4.imp h.trans h.trans) .inr⟩)
    · exact .inr (.inl ⟨h1, .inr (h2.elim (fun h => h.trans h4) id)⟩)
  · exact .inr (.inr h')

/-- A task keeps its record, or holds the block whose place it gave up. -/
theorem LeavesOr.of_holding {k k' : TaskRec} (h : k' = k ∨ ∃ x, k.canHold x = true ∧ k' = k.holding x) : LeavesOr k k' :=
  h.imp_right fun ⟨x, _, hk⟩ => .inl (hk ▸ ⟨(TaskRec.holding_facts x k).1, (.inl (TaskRec.holding_facts x k).2.1)⟩)

theorem Engine.releaseRun_tasks_ne {t u : TaskId} (e : Engine) (h : u ≠ t) :
    (e.releaseRun t).tasks.get u = e.tasks.get u := by
  rw [Engine.releaseRun_eq]; simp only []; rw [Per8.get_set_ne _ _ h]

/-- A task's last block at a station halt: its record gains a block number at most. -/
theorem Engine.offerHaltBlock_task (t u : TaskId) (d : TaskDef) (e : Engine) :
    (e.offerHaltBlock t d).tasks.get u = e.tasks.get u ∨
      u = t ∧ (e.offerHaltBlock t d).tasks.get u = { e.tasks.get u with nextBlock := (e.tasks.get u).nextBlock + 1 } := by
  unfold Engine.offerHaltBlock
  simp only []
  split
  · split <;> exact .inl rfl
  · split
    · by_cases h : u = t
      · subst h; exact .inr ⟨rfl, by simp⟩
      · exact .inl (by simp only []; rw [Per8.get_set_ne _ _ h])
    · exact .inl rfl
  · exact .inl rfl

theorem Engine.haltTask_tasks_ne {t u : TaskId} (e : Engine) (h : u ≠ t) :
    (e.haltTask t).tasks.get u = e.tasks.get u := by
  unfold Engine.haltTask
  split
  · rfl
  · have ho : ∀ td, ((e.releaseRun t).offerHaltBlock t td).tasks.get u = e.tasks.get u := by
      intro td
      rcases Engine.offerHaltBlock_task t u td (e.releaseRun t) with h' | ⟨h', -⟩
      · rw [h', Engine.releaseRun_tasks_ne _ h]
      · exact absurd h' h
    simp only [Engine.modTask_tasks]
    rw [Per8.get_set_ne _ _ h]
    cases ((e.releaseRun t).tasks.get t).defn with
    | none => simp only []; split <;> simp [Engine.releaseRun_tasks_ne _ h]
    | some td => simp only []; split <;> simp [ho td]

/-- A task at a station halt: EMPTY it stays, any other is FAULTED with nothing of a run left (R49). -/
theorem Engine.haltTask_task (t : TaskId) (e : Engine) :
    ((e.tasks.get t).state = .empty → e.haltTask t = e) ∧
    ((e.tasks.get t).state ≠ .empty →
      ((e.haltTask t).tasks.get t).state = .faulted ∧ ((e.haltTask t).tasks.get t).run = .none ∧
      ((e.haltTask t).tasks.get t).openBlock = none ∧ ((e.haltTask t).tasks.get t).heldBlock = none ∧
      ((e.haltTask t).tasks.get t).cursor = none) := by
  constructor
  · intro h; unfold Engine.haltTask; rw [if_pos h]
  · intro h; unfold Engine.haltTask; rw [if_neg h]
    have hr : ((e.releaseRun t).tasks.get t).run = .none ∧ ((e.releaseRun t).tasks.get t).cursor = none := by
      rw [Engine.releaseRun_eq]; simp [releasedRecord]
    have ho : ∀ td, (((e.releaseRun t).offerHaltBlock t td).tasks.get t).run = .none ∧
        (((e.releaseRun t).offerHaltBlock t td).tasks.get t).cursor = none := by
      intro td
      rcases Engine.offerHaltBlock_task t t td (e.releaseRun t) with h' | ⟨-, h'⟩ <;> rw [h'] <;> exact hr
    have key : ∀ e2 : Engine, (e2.tasks.get t).run = .none ∧ (e2.tasks.get t).cursor = none → ∀ ended : Bool,
        let k := ((if ended then e2.latchTaskEnded else e2).modTask t TaskRec.halted).tasks.get t
        k.state = .faulted ∧ k.run = .none ∧ k.openBlock = none ∧ k.heldBlock = none ∧ k.cursor = none := by
      intro e2 h2 ended; cases ended <;> simp [TaskRec.halted, h2]
    refine key _ ?_ _
    split
    · exact ho _
    · exact hr

theorem Engine.haltTasks_ne (ts : List TaskId) (u : TaskId) (e : Engine) (h : u ∉ ts) :
    (ts.foldl (fun e t => e.haltTask t) e).tasks.get u = e.tasks.get u := by
  induction ts generalizing e with
  | nil => rfl
  | cons t ts ih =>
    rw [List.mem_cons, not_or] at h
    rw [List.foldl_cons, ih _ h.2, Engine.haltTask_tasks_ne _ h.1]

/-- Every task after the halt of all (R49). -/
theorem Engine.haltTasks_task (t : TaskId) (e : Engine) :
    ((e.tasks.get t).state = .empty → (taskIds.foldl (fun e t => e.haltTask t) e).tasks.get t = e.tasks.get t) ∧
    ((e.tasks.get t).state ≠ .empty →
      let k := (taskIds.foldl (fun e t => e.haltTask t) e).tasks.get t
      k.state = .faulted ∧ k.run = .none ∧ k.openBlock = none ∧ k.heldBlock = none ∧ k.cursor = none) := by
  obtain ⟨l1, l2, hl, n1, n2⟩ := taskIds_split t
  rw [hl, List.foldl_append, List.foldl_cons, Engine.haltTasks_ne _ _ _ n2]
  have h1 : (l1.foldl (fun e t => e.haltTask t) e).tasks.get t = e.tasks.get t := Engine.haltTasks_ne _ _ _ n1
  have hh := Engine.haltTask_task t (l1.foldl (fun e t => e.haltTask t) e)
  rw [h1] at hh
  exact ⟨fun h => by rw [hh.1 h, h1], hh.2⟩

theorem Engine.clearOutgoing_tasks (e : Engine) : e.clearOutgoing.tasks = e.tasks := by
  unfold Engine.clearOutgoing Engine.countDropped; simp only []; split <;> rfl

theorem Engine.placeHalt_tasks (r : HaltReason) (e : Engine) : (e.placeHalt r).tasks = e.tasks := by
  unfold Engine.placeHalt; split <;> rfl

/-- The tasks after a station halt. -/
theorem Engine.stationHalt_tasks (cls : FaultClass) (e : Engine) :
    (e.stationHalt cls).tasks = (taskIds.foldl (fun e t => e.haltTask t) e).tasks := by
  unfold Engine.stationHalt
  simp only []
  split
  · simp [Engine.clearOutgoing_tasks]
  · simp [Engine.placeHalt_tasks, Engine.clearOutgoing_tasks]

/-- A station fault leaves a task as it is or ends its run in FAULTED. -/
theorem Engine.stationFault_other (cls : FaultClass) (stamp : Stamp) (detail : Byte) (u : TaskId) (e : Engine) :
    HaltsOr (e.tasks.get u) ((e.stationFault cls stamp detail).tasks.get u) := by
  unfold Engine.stationFault
  split
  · exact .inl rfl
  · split
    · rw [Engine.stationHalt_tasks]
      by_cases h : (e.tasks.get u).state = .empty
      · exact .inl ((Engine.haltTasks_task u e).1 h)
      · exact .inr ⟨((Engine.haltTasks_task u e).2 h).1, ((Engine.haltTasks_task u e).2 h).2.1⟩
    · exact .inl rfl

theorem Engine.completeFull_other {now : Stamp} {t u : TaskId} (d : TaskDef) (rs : List Result) (e : Engine) (h : u ≠ t) :
    LeavesOr (e.tasks.get u) ((e.completeFull now t d rs).tasks.get u) :=
  .of_holding (Engine.offerBlock_tasks_ne _ _ _ e h)

theorem Engine.endRun_other {now : Stamp} {t u : TaskId} (cause : EndCause) (e : Engine) (h : u ≠ t) :
    LeavesOr (e.tasks.get u) ((e.endRun now t cause).tasks.get u) := .of_holding (Engine.endRun_tasks_ne now cause e h)

/-- A task that takes a result leaves every other as it is, but for a block's place that another gives up to it (R152) and for a
station halt that it brings about (R37, R48). -/
theorem Engine.takeResult_other {t u : TaskId} (now : Stamp) (r : Result) (n : Nat) (e : Engine) (h : u ≠ t) :
    LeavesOr (e.tasks.get u) ((e.takeResult now t r n).tasks.get u) := by
  unfold Engine.takeResult
  split
  · exact .inl rfl
  · rename_i d hd
    have h1 : LeavesOr (e.tasks.get u) ((e.modTask t (TaskRec.addResult d r n)).tasks.get u) :=
      .inl (by simp only [Engine.modTask_tasks]; rw [Per8.get_set_ne _ _ h])
    refine h1.trans ?_
    generalize e.modTask t (TaskRec.addResult d r n) = e
    have h2 : LeavesOr (e.tasks.get u) ((e.takePeerLost now t d r).tasks.get u) := by
      unfold Engine.takePeerLost
      split
      · split
        · exact Engine.endRun_other _ _ h
        · exact (Engine.stationFault_other _ _ _ u e).leaves
      · exact .inl rfl
    refine h2.trans ?_
    generalize e.takePeerLost now t d r = e
    have h3 : LeavesOr (e.tasks.get u) ((e.takeFailureRun now t d r).tasks.get u) := by
      unfold Engine.takeFailureRun
      have hm : ∀ f, (e.modTask t f).tasks.get u = e.tasks.get u := fun f => by
        simp only [Engine.modTask_tasks]; rw [Per8.get_set_ne _ _ h]
      split
      · simp only []
        split
        · exact by rw [← hm (fun k => { k with failCount := 0 })]; exact Engine.endRun_other _ _ h
        · split
          · exact .inl (hm _)
          · have := Engine.stationFault_other .escalated now (BitVec.ofNat 8 t.val) u (e.modTask t (fun k => { k with failCount := 0 }))
            rw [hm] at this; exact this.leaves
      · exact .inl rfl
    refine h3.trans ?_
    generalize e.takeFailureRun now t d r = e
    unfold Engine.finishTaking
    simp only []
    split
    · exact .inl rfl
    · split
      · exact Engine.endRun_other _ _ h
      · split
        · split
          · exact Engine.completeFull_other _ _ _ h
          · exact .inl rfl
        · exact .inl rfl

/-! ## The kind state of the task itself -/

/-- A block that completes in a run leaves what the task reads from. -/
theorem Engine.completeFull_reads (now : Stamp) (t : TaskId) (d : TaskDef) (rs : List Result) (e : Engine) :
    let k := (e.completeFull now t d rs).tasks.get t
    k.defn = (e.tasks.get t).defn ∧ k.cursor = (e.tasks.get t).cursor ∧ k.refCursor = (e.tasks.get t).refCursor ∧
    k.run = (e.tasks.get t).run ∧ (e.completeFull now t d rs).slots = e.slots := by
  have key : ∀ (b : Block) (k1 k2 : TaskRec),
      (k1.defn = (e.tasks.get t).defn ∧ k1.cursor = (e.tasks.get t).cursor ∧ k1.refCursor = (e.tasks.get t).refCursor ∧
        k1.run = (e.tasks.get t).run) →
      (k2.defn = (e.tasks.get t).defn ∧ k2.cursor = (e.tasks.get t).cursor ∧ k2.refCursor = (e.tasks.get t).refCursor ∧
        k2.run = (e.tasks.get t).run) →
      let e' := e.offerBlock now t b k1 k2
      (e'.tasks.get t).defn = (e.tasks.get t).defn ∧ (e'.tasks.get t).cursor = (e.tasks.get t).cursor ∧
      (e'.tasks.get t).refCursor = (e.tasks.get t).refCursor ∧ (e'.tasks.get t).run = (e.tasks.get t).run ∧
      e'.slots = e.slots := by
    intro b k1 k2 h1 h2
    have hs : (e.offerBlock now t b k1 k2).slots = e.slots := by rw [Engine.offerBlock_frame]
    rcases Engine.offerBlock_task now t b k1 k2 e with h | h <;> simp only [h, hs]
    · exact ⟨h1.1, h1.2.1, h1.2.2.1, h1.2.2.2, trivial⟩
    · exact ⟨h2.1, h2.2.1, h2.2.2.1, h2.2.2.2, trivial⟩
  exact key _ _ _ (by split <;> exact ⟨rfl, rfl, rfl, rfl⟩) ⟨rfl, rfl, rfl, rfl⟩

/-- A run's kind state is kept, or gone with the run. -/
def KeepsRun (k k' : TaskRec) : Prop := k'.run = k.run ∨ k'.run = .none

theorem KeepsRun.trans {a b c : TaskRec} (h : KeepsRun a b) (h' : KeepsRun b c) : KeepsRun a c := by
  rcases h' with h' | h'
  · rcases h with h | h
    · exact .inl (h'.trans h)
    · exact .inr (h'.trans h)
  · exact .inr h'

theorem Engine.endRun_run (now : Stamp) (t : TaskId) (cause : EndCause) (e : Engine) :
    KeepsRun (e.tasks.get t) ((e.endRun now t cause).tasks.get t) := by
  rcases Engine.endRun_cases now t cause e with ⟨-, he⟩ | ⟨-, td, -, he⟩ | ⟨-, -, he⟩ <;> rw [he]
  · exact .inl rfl
  · exact .inr (runEnded_task now t td cause e).1
  · refine .inr ?_
    rw [Engine.releaseRun_eq]; simp [releasedRecord]

/-- A task that takes a result keeps the kind state of its run, unless the run ends with it (R37, R40). -/
theorem Engine.takeResult_run (t : TaskId) (now : Stamp) (r : Result) (n : Nat) (e : Engine) :
    KeepsRun (e.tasks.get t) ((e.takeResult now t r n).tasks.get t) := by
  have ho : ∀ {k k' : TaskRec}, HaltsOr k k' → KeepsRun k k' := by
    intro k k' h
    rcases h with rfl | h
    · exact .inl rfl
    · exact .inr h.2
  unfold Engine.takeResult
  split
  · exact .inl rfl
  · rename_i d hd
    have h1 : KeepsRun (e.tasks.get t) ((e.modTask t (TaskRec.addResult d r n)).tasks.get t) :=
      .inl (by simp [TaskRec.addResult])
    refine h1.trans ?_
    generalize e.modTask t (TaskRec.addResult d r n) = e
    have h2 : KeepsRun (e.tasks.get t) ((e.takePeerLost now t d r).tasks.get t) := by
      unfold Engine.takePeerLost
      split
      · split
        · exact Engine.endRun_run _ _ _ _
        · exact ho (Engine.stationFault_other _ _ _ t e)
      · exact .inl rfl
    refine h2.trans ?_
    generalize e.takePeerLost now t d r = e
    have h3 : KeepsRun (e.tasks.get t) ((e.takeFailureRun now t d r).tasks.get t) := by
      unfold Engine.takeFailureRun
      have hm : KeepsRun (e.tasks.get t) ((e.modTask t (fun k => { k with failCount := 0 })).tasks.get t) := .inl (by simp)
      split
      · simp only []
        split
        · exact hm.trans (Engine.endRun_run _ _ _ _)
        · split
          · exact hm
          · exact hm.trans (ho (Engine.stationFault_other _ _ _ t _))
      · exact .inl rfl
    refine h3.trans ?_
    generalize e.takeFailureRun now t d r = e
    unfold Engine.finishTaking
    simp only []
    split
    · exact .inl rfl
    · split
      · exact Engine.endRun_run _ _ _ _
      · split
        · split
          · exact .inl (Engine.completeFull_reads now t d _ e).2.2.2.1
          · exact .inl rfl
        · exact .inl rfl

/-! ## What the task reads from -/

/-- Unless a task's run is over, it keeps its definition, its cursors and its kind state, and every slot stays as it is. -/
def KeepsReading (t : TaskId) (e e' : Engine) : Prop :=
  (e'.tasks.get t).runContinues = false ∨
  ((e'.tasks.get t).defn = (e.tasks.get t).defn ∧ (e'.tasks.get t).cursor = (e.tasks.get t).cursor ∧
   (e'.tasks.get t).refCursor = (e.tasks.get t).refCursor ∧ (e'.tasks.get t).run = (e.tasks.get t).run ∧
   e'.slots = e.slots)

theorem KeepsReading.refl (t : TaskId) (e : Engine) : KeepsReading t e e := .inr ⟨rfl, rfl, rfl, rfl, rfl⟩

/-- A further step that leaves a run that is over as it is. -/
theorem KeepsReading.step {t : TaskId} {e e' : Engine} {f : Engine → Engine} (h : KeepsReading t e e')
    (idle : (e'.tasks.get t).runContinues = false → f e' = e') (h' : KeepsReading t e' (f e')) :
    KeepsReading t e (f e') := by
  rcases h with h | ⟨h1, h2, h3, h4, h5⟩
  · rw [idle h]; exact .inl h
  · rcases h' with h' | ⟨g1, g2, g3, g4, g5⟩
    · exact .inl h'
    · exact .inr ⟨g1.trans h1, g2.trans h2, g3.trans h3, g4.trans h4, g5.trans h5⟩

theorem TaskRec.takes_runContinues {k : TaskRec} (h : k.takes = true) : k.runContinues = true := by
  unfold TaskRec.takes at h
  simp only [Bool.and_eq_true, beq_iff_eq] at h
  unfold TaskRec.runContinues
  rw [h.1]

/-- A run that is over stays as it is in the later steps of the taking of a result. -/
theorem Engine.takeFailureRun_idle {t : TaskId} {now : Stamp} {d : TaskDef} {r : Result} {e : Engine}
    (h : (e.tasks.get t).runContinues = false) : e.takeFailureRun now t d r = e := by
  unfold Engine.takeFailureRun
  simp [h]

theorem Engine.finishTaking_idle {now : Stamp} {t : TaskId} {d : TaskDef} {e : Engine} (h : (e.tasks.get t).runContinues = false) :
    e.finishTaking now t d = e := by
  unfold Engine.finishTaking
  simp [h]

theorem Engine.escalate_reading (now : Stamp) (t : TaskId) (e : Engine) : KeepsReading t e (e.escalate now t) := by
  rcases Engine.stationFault_other .escalated now (BitVec.ofNat 8 t.val) t e with h | ⟨h, -⟩
  · unfold Engine.escalate at *
    unfold Engine.stationFault at *
    split
    · exact KeepsReading.refl t e
    · split
      · rename_i h1 h2
        simp only [if_neg h1, if_pos h2] at h
        refine .inl ?_
        by_cases hs : (e.tasks.get t).state = .empty
        · rw [h]; unfold TaskRec.runContinues; rw [hs]
        · have := ((Engine.haltTasks_task t e).2 hs).1
          rw [Engine.stationHalt_tasks]; unfold TaskRec.runContinues; rw [this]
      · exact .inr ⟨rfl, rfl, rfl, rfl, rfl⟩
  · exact .inl (by unfold TaskRec.runContinues Engine.escalate; rw [h])

/-- A task that takes a result and still has a run goes on reading where it stood (R37, R39). -/
theorem Engine.takeResult_reading (t : TaskId) (now : Stamp) (r : Result) (n : Nat) (e : Engine) :
    KeepsReading t e (e.takeResult now t r n) := by
  have mod : ∀ (e : Engine) (f : TaskRec → TaskRec), (∀ k, (f k).defn = k.defn ∧ (f k).cursor = k.cursor ∧
      (f k).refCursor = k.refCursor ∧ (f k).run = k.run) → ∀ e', KeepsReading t (e.modTask t f) e' → KeepsReading t e e' := by
    intro e f hf e' h
    rcases h with h | ⟨h1, h2, h3, h4, h5⟩
    · exact .inl h
    · obtain ⟨g1, g2, g3, g4⟩ := hf (e.tasks.get t)
      simp only [Engine.modTask_tasks, Per8.get_set_same] at h1 h2 h3 h4
      exact .inr ⟨h1.trans g1, h2.trans g2, h3.trans g3, h4.trans g4, h5⟩
  unfold Engine.takeResult
  split
  · exact KeepsReading.refl t e
  · rename_i d hd
    refine mod e (TaskRec.addResult d r n) (fun k => ⟨rfl, rfl, rfl, rfl⟩) _ ?_
    generalize e.modTask t (TaskRec.addResult d r n) = e
    have h1 : KeepsReading t e (e.takePeerLost now t d r) := by
      unfold Engine.takePeerLost
      split
      · split
        · exact .inl (Engine.endRun_stops _ _ _ _)
        · exact Engine.escalate_reading now t e
      · exact KeepsReading.refl t e
    refine (h1.step (f := fun e => e.takeFailureRun now t d r) Engine.takeFailureRun_idle ?_).step
      (f := fun e => e.finishTaking now t d) Engine.finishTaking_idle ?_
    · generalize e.takePeerLost now t d r = e
      unfold Engine.takeFailureRun
      split
      · refine mod e (fun k => { k with failCount := 0 }) (fun k => ⟨rfl, rfl, rfl, rfl⟩) _ ?_
        simp only []
        split
        · exact .inl (Engine.endRun_stops _ _ _ _)
        · split
          · exact KeepsReading.refl t _
          · exact Engine.escalate_reading now t _
      · exact KeepsReading.refl t e
    · generalize (e.takePeerLost now t d r).takeFailureRun now t d r = e
      unfold Engine.finishTaking
      simp only []
      split
      · exact KeepsReading.refl t e
      · split
        · exact .inl (Engine.endRun_stops _ _ _ _)
        · split
          · split
            · exact .inr (Engine.completeFull_reads now t d _ e)
            · exact KeepsReading.refl t e
          · exact KeepsReading.refl t e

/-- A task that takes entries after a result stands where it stood (R39). -/
theorem Engine.takeResult_takes {t : TaskId} {now : Stamp} {r : Result} {n : Nat} {e : Engine}
    (h : (e.takeResult now t r n).takes t = true) :
    ((e.takeResult now t r n).tasks.get t).defn = (e.tasks.get t).defn ∧
    ((e.takeResult now t r n).tasks.get t).cursor = (e.tasks.get t).cursor ∧
    ((e.takeResult now t r n).tasks.get t).refCursor = (e.tasks.get t).refCursor ∧
    ((e.takeResult now t r n).tasks.get t).run = (e.tasks.get t).run ∧ (e.takeResult now t r n).slots = e.slots := by
  rcases Engine.takeResult_reading t now r n e with h' | h'
  · rw [TaskRec.takes_runContinues h] at h'; cases h'
  · exact h'

/-! ## A station halt (R49, R126, R157, R167) -/

/-- What one operation leaves of station control but for TASK_ENDED, of the transmitter but for its queue, and of
the peers. -/
def HaltFrame (e e' : Engine) : Prop :=
  (∃ b, e'.ctl = { e.ctl with latched := { e.ctl.latched with taskEnded := b } }) ∧
  (∃ q, e'.tx = { e.tx with queue := q }) ∧ e'.peers = e.peers

theorem HaltFrame.refl (e : Engine) : HaltFrame e e := ⟨⟨_, rfl⟩, ⟨_, rfl⟩, rfl⟩

theorem HaltFrame.trans {a b c : Engine} (h : HaltFrame a b) (h' : HaltFrame b c) : HaltFrame a c := by
  obtain ⟨⟨x, h1⟩, ⟨q, h2⟩, h3⟩ := h
  obtain ⟨⟨x', h1'⟩, ⟨q', h2'⟩, h3'⟩ := h'
  exact ⟨⟨x', by rw [h1', h1]⟩, ⟨q', by rw [h2', h2]⟩, h3'.trans h3⟩

theorem Engine.offerHaltBlock_frame (t : TaskId) (d : TaskDef) (e : Engine) : HaltFrame e (e.offerHaltBlock t d) := by
  unfold Engine.offerHaltBlock
  simp only []
  split
  · split <;> exact ⟨⟨_, rfl⟩, ⟨_, rfl⟩, rfl⟩
  · split <;> exact ⟨⟨_, rfl⟩, ⟨_, rfl⟩, rfl⟩
  · exact HaltFrame.refl e

theorem Engine.haltTask_frame (t : TaskId) (e : Engine) : HaltFrame e (e.haltTask t) := by
  unfold Engine.haltTask
  split
  · exact HaltFrame.refl e
  · have h1 : HaltFrame e (e.releaseRun t) := by rw [Engine.releaseRun_eq]; exact ⟨⟨_, rfl⟩, ⟨_, rfl⟩, rfl⟩
    have h2 : ∀ o : Option TaskDef, HaltFrame e (match o with
        | some d => (e.releaseRun t).offerHaltBlock t d
        | none => e.releaseRun t) := by
      intro o; cases o with
      | none => exact h1
      | some d => exact h1.trans (Engine.offerHaltBlock_frame t d _)
    have h3 : ∀ (e' : Engine) (b : Bool) (f : TaskRec → TaskRec), HaltFrame e e' →
        HaltFrame e ((if b then e'.latchTaskEnded else e').modTask t f) := by
      intro e' b f h
      refine h.trans ?_
      cases b <;> exact ⟨⟨_, rfl⟩, ⟨_, rfl⟩, rfl⟩
    exact h3 _ _ _ (h2 _)

theorem Engine.haltTasks_frame (ts : List TaskId) (e : Engine) :
    HaltFrame e (ts.foldl (fun e t => e.haltTask t) e) := by
  induction ts generalizing e with
  | nil => exact HaltFrame.refl e
  | cons t ts ih => exact (Engine.haltTask_frame t e).trans (ih _)

/-- What is left to send once a station halt has cleared the outgoing queue (R126). -/
theorem Engine.clearOutgoing_facts (e : Engine) :
    (∃ n l, e.clearOutgoing.ctl = { e.ctl with counters := n, latched := { e.ctl.latched with markerLoss := l } }) ∧
    e.clearOutgoing.tx = { e.tx with
      queue := (e.tx.queue.filter (fun m => m.inTransmission)).map (fun m => { m with removeAtEnd := true }) } ∧
    e.clearOutgoing.peers = e.peers := by
  unfold Engine.clearOutgoing Engine.countDropped
  simp only []
  split
  · exact ⟨⟨e.ctl.counters, e.ctl.latched.markerLoss, rfl⟩, rfl, rfl⟩
  · exact ⟨⟨_, _, rfl⟩, rfl, rfl⟩

/-- A HALT in its place: the queue then holds one, and no other entry changes its kind (R122). -/
theorem Engine.placeHalt_facts (r : HaltReason) (e : Engine) :
    (e.placeHalt r).ctl = e.ctl ∧ (e.placeHalt r).peers = e.peers ∧ (e.placeHalt r).queue = e.queue ∧
    (∃ q, (e.placeHalt r).tx = { e.tx with queue := q } ∧ q.any (fun m => m.kind == .halt) = true ∧
      ∀ m ∈ q, m.kind = .halt ∨ ∃ x ∈ e.tx.queue, x.kind = m.kind ∧ x.inTransmission = m.inTransmission) := by
  unfold Engine.placeHalt
  split
  · rename_i h
    refine ⟨rfl, rfl, rfl, _, rfl, ?_, ?_⟩
    · unfold Engine.haltQueued at h
      rw [List.any_eq_true] at h ⊢
      obtain ⟨m, hm, hk⟩ := h
      refine ⟨_, List.mem_map_of_mem hm, ?_⟩
      unfold OutEntry.newReason; split <;> exact hk
    · intro m hm
      obtain ⟨x, hx, rfl⟩ := List.mem_map.1 hm
      refine .inr ⟨x, hx, ?_⟩
      unfold OutEntry.newReason; split <;> exact ⟨rfl, rfl⟩
  · refine ⟨rfl, rfl, rfl, _, rfl, rfl, ?_⟩
    intro m hm
    rcases List.mem_cons.1 hm with rfl | hm
    · exact .inl rfl
    · exact .inr ⟨m, hm, rfl, rfl⟩

/-- What a station halt leaves of station control, the outgoing queue and the own peer entry. -/
theorem Engine.stationHalt_facts (cls : FaultClass) (e : Engine) :
   (∃ (n : Counters) (x : Latched) (b : Bool × Bool), (e.stationHalt cls).ctl = { e.ctl with
      counters := n, latched := x, state := .halted, haltCause := some (.fault cls),
      departure := if e.ctl.departure = .reset then .reset else .none,
      haltOwed := if e.cannotSendHalt then none else some .fault } ∧ x = { e.ctl.latched with taskEnded := b.1, markerLoss := b.2 }) ∧
   (∃ q, (e.stationHalt cls).tx = { e.tx with queue := q } ∧ (∀ m ∈ q, m.kind = .halt ∨ m.inTransmission = true) ∧
      (e.cannotSendHalt = false → q.any (fun m => m.kind == .halt) = true)) ∧
   (e.cannotSendHalt = true → ((e.stationHalt cls).peers.get e.ctl.stationNo).state = .halted ∧ ((e.stationHalt cls).peers.get e.ctl.stationNo).haltReason = some .fault) := by
  unfold Engine.stationHalt
  simp only []
  have h1 := Engine.haltTasks_frame taskIds e
  obtain ⟨⟨b, hc⟩, ⟨q, ht⟩, hp⟩ := h1
  generalize taskIds.foldl (fun e t => e.haltTask t) e = e1 at hc ht hp ⊢
  obtain ⟨⟨n, l, hc2⟩, ht2, hp2⟩ := Engine.clearOutgoing_facts e1
  generalize e1.clearOutgoing = e2 at hc2 ht2 hp2 ⊢
  have hq2 : ∀ m ∈ e2.tx.queue, m.inTransmission = true := by
    intro m hm; rw [ht2] at hm
    obtain ⟨x, hx, rfl⟩ := List.mem_map.1 hm
    exact (List.mem_filter.1 hx).2
  cases hs : e.cannotSendHalt with
  | true =>
    simp only [if_true]
    refine ⟨⟨n, _, (b, l), ?_, rfl⟩, ⟨e2.tx.queue, ?_, fun m hm => .inr (hq2 m hm), fun h => by cases h⟩, fun _ => ?_⟩
    · simp [Engine.ownHalted, Engine.modCtl, hc2, hc]
    · show e2.tx = _; rw [ht2, ht]
    · have : e2.ctl.stationNo = e.ctl.stationNo := by rw [hc2, hc]
      simp [Engine.ownHalted, Engine.modCtl, this]
  | false =>
    simp only [Bool.false_eq_true, if_false]
    obtain ⟨g1, g2, -, q', g4, g5, g6⟩ := Engine.placeHalt_facts .fault (e2.modCtl (fun c => { c with state := .halted, haltCause := some (.fault cls), departure := if c.departure = .reset then .reset else .none, haltOwed := some .fault }))
    refine ⟨⟨n, _, (b, l), ?_, rfl⟩, ⟨q', ?_, fun m hm => ?_, fun _ => g5⟩, fun h => by cases h⟩
    · rw [g1]; simp [Engine.modCtl, hc2, hc]
    · rw [g4]; show ({ e2.tx with queue := q' } : Transmitter) = _; rw [ht2, ht]
    · rcases g6 m hm with h | ⟨x, hx, -, h⟩
      · exact .inl h
      · exact .inr (h ▸ hq2 x hx)

end Sys2Proof.Machine
end

