-- ==== Sys2Proof/Laws/Transmitter.lean ====
section
/-!
SUPPORT. What room for an ANNOUNCE or a HALT can do to the outgoing queue (R122), and what outcomes and notices of one
moment do to the tasks (R87, R147, R152); the attempt in progress as the receiver meets it (R106, R113).
-/

namespace Sys2Proof.Machine

/-! ## Room in the outgoing queue (R122) -/

/-- What the station counts and latches for one marker dropped (R134, R136). -/
theorem Engine.countDropped_one (e : Engine) :
    e.countDropped 1 = { e with ctl := { e.ctl with
      counters := { e.ctl.counters with dropped := bumpBy 1 e.ctl.counters.dropped },
      latched := { e.ctl.latched with markerLoss := true } } } := by
  simp [Engine.countDropped, Engine.count, Engine.latchMarkerLoss, Engine.modCtl]

/-- The entry nearest the tail that is EDGE or GATE, and the queue without it. -/
theorem takeNearestTail_eq {q pre post : List OutEntry} {m : OutEntry} (hq : q = pre ++ m :: post) (hm : m.ordinary = true)
    (hp : ∀ x ∈ post, x.ordinary = false) : takeNearestTail q = (some m, pre ++ post) := by
  have hf : ∀ l r : List OutEntry, (∀ x ∈ l, x.ordinary = false) →
      (l ++ m :: r).find? OutEntry.ordinary = some m ∧ (l ++ m :: r).erase m = l ++ r := by
    intro l r; induction l with
    | nil => intro _; simp [hm]
    | cons a l ih =>
      intro h
      have ha := h a (by simp)
      have hne : (a == m) = false := by simp; rintro rfl; simp [hm] at ha
      have := ih (fun x hx => h x (by simp [hx]))
      simp [ha, hne, this]
  have := hf post.reverse pre.reverse (fun x hx => hp x (List.mem_reverse.1 hx))
  simp [takeNearestTail, hq, this.1, this.2]

/-- A queue with a place free stays as it is. -/
theorem Engine.roomMade_free {e : Engine} (h : e.tx.queue.length < outgoingDepth) : e.roomMade = (e, []) := if_pos h

/-- A full queue loses its EDGE or GATE entry nearest the tail, whose outcome is still to be given. -/
theorem Engine.roomMade_full {e : Engine} {pre post : List OutEntry} {m : OutEntry} (hq : e.tx.queue = pre ++ m :: post)
    (hl : outgoingDepth ≤ e.tx.queue.length) (hm : m.ordinary = true) (hp : ∀ x ∈ post, x.ordinary = false) :
    e.roomMade = ({ e with
      tx := { e.tx with queue := pre ++ post },
      ctl := { e.ctl with
        counters := { e.ctl.counters with dropped := bumpBy 1 e.ctl.counters.dropped },
        latched := { e.ctl.latched with markerLoss := true } } }, m.outcome .dropped 0) := by
  unfold Engine.roomMade
  rw [if_neg (Nat.not_lt.2 hl)]
  simp [takeNearestTail_eq hq hm hp, Engine.countDropped_one, Engine.modOutgoing]

/-- Everything room can do: nothing, or one EDGE or GATE entry leaves the queue and is counted as dropped. -/
theorem Engine.roomMade_cases (e : Engine) :
    e.roomMade = (e, []) ∨
    ∃ m q, e.roomMade = ((e.modOutgoing (fun _ => q)).countDropped 1, m.outcome .dropped 0) ∧
      (takeNearestTail e.tx.queue) = (some m, q) := by
  unfold Engine.roomMade
  split
  · exact .inl rfl
  · dsimp only; split
    · rename_i m h; exact .inr ⟨m, _, rfl, Prod.ext h rfl⟩
    · exact .inl rfl

/-- Everything the offer of an ANNOUNCE can do (R122): answered DROPPED, nothing beside a queued one, or queued at the tail
after room was made. -/
theorem Engine.announceOffer_cases (position : BitVec 11) (joining : Bool) (e : Engine) :
    (e.refusesOffers = true ∧ e.announceOffer position joining = (e.countDropped 1, [])) ∨
    e.announceOffer position joining = (e, []) ∨
    e.announceOffer position joining =
      (e.roomMade.1.modOutgoing (fun q => q ++ [announceEntry position joining]), e.roomMade.2) := by
  unfold Engine.announceOffer
  split
  · rename_i h; exact .inl ⟨h, rfl⟩
  · split
    · exact .inr (.inl rfl)
    · exact .inr (.inr rfl)

/-! ## The debt of a HALT after a mute (R162) -/

/-- Without a HALT owed a mute ends no debt. -/
theorem Engine.muteDebt_none {e : Engine} (h : e.ctl.haltOwed = none) : e.muteDebt = e := by
  unfold Engine.muteDebt; rw [h]

/-- A station that halts while muted owes no HALT, so the mute has no debt left to end (R167). -/
theorem Engine.muteDebt_stationHalt {e : Engine} (cls : FaultClass) (h : e.tx.mute = true) :
    (e.stationHalt cls).muteDebt = e.stationHalt cls := by
  refine Engine.muteDebt_none ?_
  obtain ⟨⟨n, x, b, hc, -⟩, -⟩ := Engine.stationHalt_facts cls e
  rw [hc]
  simp [Engine.cannotSendHalt, h]

/-! ## Outcomes and notices of one moment (R87, R147, R152) -/

/-- Outcomes alone are given as `giveOutcomes` gives them. -/
theorem Engine.actTogether_outcomes (fr : Front) (xs : List (TaskId × Deferred)) (e : Engine) :
    e.actTogether fr xs [] = e.giveOutcomes fr xs := rfl

/-- Notices alone reach the tasks as `notify` says. -/
theorem Engine.actTogether_notices (fr : Front) (ns : List (BitVec 4 × Notice)) (e : Engine) :
    e.actTogether fr [] ns = e.notify fr ns := rfl

/-- Without outcomes no task is touched. -/
@[simp] theorem Engine.giveOutcomes_nil (fr : Front) (e : Engine) : e.giveOutcomes fr [] = e :=
  show taskIds.foldl (fun e _ => e) e = e by induction taskIds <;> simp_all

/-- Without notices no task is touched. -/
@[simp] theorem Engine.notify_nil (fr : Front) (e : Engine) : e.notify fr [] = e :=
  show taskIds.foldl (fun e _ => e) e = e by induction taskIds <;> simp_all

/-- Orphaning without outcomes gives the gates' notices alone (R146). -/
theorem Station.orphan_eq (attention : Stamp) (source : StationNo) (d : Station) :
    d.orphan attention source = d.orphanWith [] attention source := rfl

/-- With no gate of the source OPEN the gates stay, and the outcomes alone are given. -/
theorem Station.orphanWith_none {xs : List (TaskId × Deferred)} {attention : Stamp} {source : StationNo} {d : Station}
    (h : openGatesOf source d.gates = []) :
    d.orphanWith xs attention source = { d with eng := (d.eng.giveOutcomes d.front xs).arbitrate d.now } := by
  unfold Station.orphanWith; rw [h]; rfl

/-! ## EDGE offers of one moment (R121) -/

/-- What the offer of an EDGE marker does: it is answered DROPPED, it enters a queue with a place, or it takes the place of a
marker that a higher-numbered task offered at this moment, which is answered DROPPED. -/
theorem Engine.offerEdge_cases (fr : Front) (t : TaskId) (m : OutEntry) (e : Engine) :
    (e.offerEdge fr t m = (e.countDropped 1).giveOutcomes fr (m.outcome .dropped 0)) ∨
    (e.refusesOffers = false ∧ e.tx.queue.length < 8 ∧
      e.offerEdge fr t m =
        e.modOutgoing (fun _ =>
          placeBefore (OutEntry.follows fr.now t) { m with offered := some ⟨t, fresh fr.now⟩ } e.tx.queue)) ∨
    (e.refusesOffers = false ∧ ∃ y pre post, e.tx.queue = pre ++ y :: post ∧ y.follows fr.now t = true ∧
      e.offerEdge fr t m =
        ((e.modOutgoing (fun _ =>
          placeBefore (OutEntry.follows fr.now t) { m with offered := some ⟨t, fresh fr.now⟩ } (pre ++ post))).countDropped
            1).giveOutcomes fr (y.outcome .dropped 0)) := by
  unfold Engine.offerEdge Engine.roomForEdge outgoingDepth
  cases hr : e.refusesOffers with
  | true => exact .inl rfl
  | false =>
    by_cases hl : e.tx.queue.length < 8
    · rw [if_pos hl]; exact .inr (.inl ⟨rfl, hl, rfl⟩)
    · rw [if_neg hl]
      cases hq : takeLast (OutEntry.follows fr.now t) e.tx.queue with
      | none => exact .inl rfl
      | some p =>
        obtain ⟨y, rest⟩ := p
        obtain ⟨pre, post, h1, rfl, h3, -⟩ := takeLast_spec hq
        exact .inr (.inr ⟨rfl, y, pre, post, h1, h3, rfl⟩)

/-! ## The attempt in progress (R106, R113) -/

/-- The station began driving a low just when the attempt in progress carries its stamp as the attention stamp (R103). -/
theorem Engine.beganLow_iff {low : Stamp} {e : Engine} :
    e.beganLow low = true ↔ e.tx.attempt.map Attempt.attention = some low := by
  unfold Engine.beganLow; cases e.tx.attempt <;> simp

/-- A station that is not the sender of a frame samples no response cell of its own (R113). -/
theorem Station.sampleOwn_of_not_sender {low : Bool} {d : Station} (h : d.eng.isSender = false) : d.sampleOwn low = d := by
  simp [Station.sampleOwn, h]

/-- The sender's sample writes the response cell whose moment it is, and nothing else (R113). -/
theorem Station.sampleOwn_of_sender {low : Bool} {d : Station} {a : Attempt} (ha : d.eng.tx.attempt = some a)
    (hs : a.allSampled = true) :
    d.sampleOwn low = { d with eng := { d.eng with tx := { d.eng.tx with
      attempt := some (a.sampleResponse d.now d.eng.ctl.longUnit low) } } } := by
  simp [Station.sampleOwn, Engine.isSender, ha, hs, Station.modEng, Engine.modAttempt]

end Sys2Proof.Machine
end

