-- ==== Sys2Proof/Tests/Slice0.lean ====
section
/-!
SUPPORT. The model's own tests: ill-formed commands that WellFormed refuses; worked figures of the spec; and for every
statement with hypotheses a theorem `witness_<Name>` that shows states and operands that meet them, each clause at a
boundary of its range.
-/

namespace Sys2Proof.Tests

open Sys2Proof Sys2Proof.Machine Sys2Proof.Safety

/-! ## Small states -/

/-- The machine with a station changed from its state at reset. -/
def made (f : Station → Station) : State := { State.reset with dev := f State.reset.dev }

/-- The port in a phase, CS# low. -/
def inPhase (p : Phase) (d : Station) : Station := withPort d { d.port with phase := p, csLow := true }

/-- A transaction waits for its request. -/
def asking (f : Station → Station) : State := made (fun d => inPhase .summary (f d))

def onCtl (f : Control → Control) (d : Station) : Station := withCtl d (f d.eng.ctl)
def onTx (f : Transmitter → Transmitter) (d : Station) : Station := { d with eng := { d.eng with tx := f d.eng.tx } }
def onTask (t : TaskId) (f : TaskRec → TaskRec) (d : Station) : Station := withTask d t (f (d.eng.tasks.get t))
def onChan (ch : Chan) (f : Channel → Channel) (d : Station) : Station := withChan d ch (f (d.front.chan ch))
def onTb (f : Timebase → Timebase) (d : Station) : Station := { d with front := { d.front with tb := f d.front.tb } }
def onRx (f : Receiver → Receiver) (d : Station) : Station := withRx d (f d.rx)
def withQueue (q : List Block) (d : Station) : Station := { d with eng := { d.eng with queue := q } }
def withUnit (u : ArithUnit) (d : Station) : Station := { d with eng := { d.eng with unit := u } }
def inState (st : StationState) : Station → Station := onCtl (fun c => { c with state := st })
def leaving (p : Departure) : Station → Station := onCtl (fun c => { c with departure := p })
def atStamp (t : Stamp) : Station → Station := onTb (fun tb => { tb with now := t })

/-- A definition with 4 results a block, 9 a run. -/
def defined (f : KindFields) : TaskDef :=
  { blockSize := 4, runLength := 9, continuation := .stopAtEnd, failLimit := 0, onPeerLost := .keep,
    onFailureRun := .keep, fields := f }

/-- A task with this definition in this state, a run of it underway. -/
def running (f : KindFields) (r : RunState) (k : TaskRec) : TaskRec :=
  { k with defn := some (defined f), state := .running, armTime := some ⟨0, false⟩, openBlock := some [], cursor := some 1,
           refCursor := some 1, run := r }

/-- Task 3 runs. -/
def runs (f : KindFields) (r : RunState) : Station → Station := onTask 3 (running f r)

/-- A block of task 3. -/
def block (n : BitVec 16) (final : Bool) : Block := ⟨3, .timestamp, n, final, false, [], none⟩

/-- An outgoing marker of a kind, from no task. -/
def outgoing (k : MarkerKind) (origin : Option Kept) : OutEntry :=
  { kind := k, tag := 0, origin := origin, originTask := none, payload := 0, inTransmission := false, removeAtEnd := false }

theorem awaits (f : Station → Station) (h : (f State.reset.dev).held = false) : awaitsRequest (asking f) := ⟨h, rfl⟩

theorem settled {e : Engine} (h : e.unit.waiting = []) : ∀ now, unitSettled now e := fun _ => .inr h

/-! ## WellFormed refuses -/

theorem test_timeFits_refuses : (Instr.readTime (2 ^ 46)).wellFormed = false := by decide
theorem test_timeFits_admits : (Instr.readTime (2 ^ 46 - 1)).wellFormed = true := by decide
theorem test_kindFits_refuses : (Instr.unknownRequest 0 0x10).wellFormed = false := by decide
theorem test_levelLasts_refuses : (Instr.pinLevelChange 0 .a 0).wellFormed = false := by decide
theorem test_leadFits_refuses : (Instr.attemptStart 0 1601).wellFormed = false := by decide

/-! ## Witnesses: the step, resets, the host port -/

theorem witness_StepRunsTheFrontCommand :
    ({ State.reset with pending := [.readTime 0, .readTime 1] } : State).pending = .readTime 0 :: [.readTime 1] := rfl

theorem witness_IdleStepIsOneCoarseTick : State.reset.pending = [] ∧
    (made (fun d => { d with held := true })).pending = [] ∧ (made (fun d => { d with held := true })).dev.held = true := by decide

theorem witness_CommandsWithoutAnOccasion :
    (let s := made (fun d => { d with held := true })
     s.dev.held = true ∧ actsInReset (.readTime 7) = false ∧ s.dev.port.csLow = false) ∧
    isRequest (.readTime 7) = true ∧ State.reset.dev.held = false ∧ State.reset.dev.port.takesRequest = false := by decide

theorem witness_ResetHoldsAndReleases :
    (made (fun d => { d with held := true })).dev.held = true ∧ State.reset.dev.held = false := by decide

theorem witness_WaitingResetsTakeEffect :
    (let s := made (fun d => onCtl (fun c => { c with departure := .reset, resetDeadline := some 100 }) (inState .live d))
     s.dev.held = false ∧ s.dev.eng.ctl.departure = .reset ∧ s.dev.eng.ctl.resetDeadline = some 100 ∧
     reached (atTime 100 s).now 100 = true ∧ reached (atTime 99 s).now 100 = false) ∧
    (let s := made (fun d => inPhase .reply (onCtl (fun c => { c with resetDue := true }) d))
     s.dev.held = false ∧ s.dev.port.phase = .reply ∧ s.dev.eng.ctl.resetDue = true) := by decide

theorem witness_TransactionStartSamplesTheSummary :
    State.reset.dev.held = false ∧ State.reset.dev.port.csLow = false := by decide

theorem witness_TransactionPhasesAdvance :
    (made (inPhase .fill)).dev.held = false ∧ (made (inPhase .fill)).dev.port.phase = .fill ∧
    (made (inPhase .body)).dev.port.phase ≠ .fill ∧
    (let s := made (fun d => withPort d ⟨.reply, true, none, some 0x0B, [], some ⟨.ok, [1]⟩⟩)
     s.dev.held = false ∧ s.dev.port.phase = .reply ∧ s.dev.eng.ctl.resetDue = false ∧
     ¬(s.dev.port.kind = some 0x09)) ∧
    (made (inPhase .done)).dev.port.phase = .done ∧ (made (inPhase .done)).dev.port.csLow = true ∧
    (∀ p ∈ [Phase.summary, .body, .fill, .reply],
      (made (inPhase p)).dev.port.phase = p ∧ (made (inPhase p)).dev.eng.ctl.resetDue = false) ∧
    (made (fun d => inPhase .fill (onCtl (fun c => { c with resetDue := true }) d))).dev.eng.ctl.resetDue = true := by decide

/-! ## Witnesses: host requests -/

theorem witness_SetupJoins :
    (∀ mute, (asking (onTx (fun x => { x with mute := mute }))).dev.eng.tx.mute = mute ∧
      awaitsRequest (asking (onTx (fun x => { x with mute := mute }))) ∧
      (asking (onTx (fun x => { x with mute := mute }))).dev.eng.ctl.state = .unset ∧
      (asking (onTx (fun x => { x with mute := mute }))).dev.eng.tx.queue = [] ∧
      (asking (onTx (fun x => { x with mute := mute }))).dev.eng.tx.haltSent = false) ∧
    (2047 : BitVec 16).toNat ≤ 2047 ∧ ¬(2048 : BitVec 16).toNat ≤ 2047 :=
  ⟨fun _ => ⟨rfl, ⟨rfl, rfl⟩, rfl, rfl, rfl⟩, by decide⟩

theorem witness_ChannelsAreConfigured :
    (awaitsRequest (asking id) ∧ (asking id).dev.eng.ctl.state ≠ .halted ∧ chanOf 3 = some .d ∧
      edgeSelectOf ((0b101 : Byte).extractLsb' 1 2) = some .both ∧ (63 : Byte).toNat ≤ 63 ∧ ¬(64 : Byte).toNat ≤ 63 ∧
      ∀ t td, ((asking id).dev.eng.tasks.get t).runContinues = true → ((asking id).dev.eng.tasks.get t).defn = some td →
        Chan.d ∉ td.fields.channels) ∧
    (let s := asking (runs (.timestamp .d) (.timestamp 0))
     awaitsRequest s ∧ s.dev.eng.ctl.state ≠ .halted ∧ (s.dev.eng.tasks.get 3).runContinues = true ∧
     (s.dev.eng.tasks.get 3).defn = some (defined (.timestamp .d)) ∧ Chan.d ∈ (defined (.timestamp .d)).fields.channels) :=
  ⟨⟨awaits id rfl, by decide, by decide, by decide, by decide, by decide, fun t td h => absurd h (by clear h; revert t; decide)⟩,
   awaits _ rfl, by decide⟩

theorem witness_TasksAreDefined :
    (let s := asking (inState .live)
     awaitsRequest s ∧ s.dev.eng.ctl.state ≠ .halted ∧ (7 : Byte).toNat = (7 : TaskId).val ∧
     taskDefOf 3 0 65535 2 255 3 0 = some (⟨1, 65535, .paced, 255, .raise, .raise, .timestamp .a⟩, true) ∧
     (s.dev.eng.tasks.get 7).state = .empty ∧ ∀ x ∈ s.dev.eng.queue, x.task ≠ 7) ∧
    (∀ st, st = TaskState.idle ∨ st = .done ∨ st = .faulted →
      ((asking (onTask 7 (fun k => { k with state := st }))).dev.eng.tasks.get 7).state = st) ∧
    (∃ td, taskDefOf 0 32 0 0 0 0 0x0000_000000001F3F_00_08_000000 = some (td, true) ∧
      td.fields = .frequency ⟨.a, .timed, 8000, 0, 7⟩) ∧
    (∃ td, taskDefOf 0 33 0 0 0 0 0x0001_000000000000_0F_07_000000 = some (td, true) ∧
      td.fields = .frequency ⟨.a, .line, 0, 15, 7⟩) ∧
    (∃ td, taskDefOf 1 32 0 0 0 0 0x0302_0000000000000000000000 = some (td, false) ∧ td.fields = .phase ⟨.d, .c⟩) ∧
    (∃ td, taskDefOf 2 1 0 0 0 0 0x000102_00000000_000000000000 = some (td, true) ∧
      td.fields = .interval ⟨.localStart, .b, .c, 1, 1⟩) ∧
    (∃ td, taskDefOf 4 1 0 0 0 0 0x020FFF_00000000000000000000 = some (td, false) ∧ td.fields = .publish ⟨.c, 15, 255⟩) := by
  refine ⟨⟨awaits _ rfl, by decide⟩, fun st _ => rfl, ?_⟩
  repeat' apply And.intro
  all_goals exact ⟨_, rfl, rfl⟩

/-- Task 7 defined and IDLE, all channels enabled at prescale `p`, the station in a state. -/
def armable (st : StationState) (on : Bool) (p : BitVec 16) (f : KindFields) : State :=
  asking (fun d => inState st (onTask 7 (fun k => { k with defn := some (defined f), state := .idle })
    (chans.foldl (fun d ch => onChan ch (fun c => { c with enabled := on, prescaleField := p }) d) d)))

theorem witness_RunsAreArmed :
    (let f : KindFields := .timestamp .d
     let s := armable .live true 0 f
     awaitsRequest s ∧ (7 : Byte).toNat = (7 : TaskId).val ∧ (s.dev.eng.tasks.get 7).defn = some (defined f) ∧
     (s.dev.eng.tasks.get 7).state = .idle ∧ s.dev.eng.ctl.state = .live ∧ s.dev.eng.ctl.departure = .none ∧
     ∀ ch ∈ f.channels, (s.dev.front.chan ch).enabled = true) ∧
    (let f : KindFields := .phase ⟨.a, .b⟩
     let s := armable .live true 0 f
     (∀ ch ∈ f.channels, (s.dev.front.chan ch).enabled = true) ∧ (s.dev.front.chan .a).prescaleField = 0 ∧
     (let s := armable .live true 1 f
      (∀ ch ∈ f.channels, (s.dev.front.chan ch).enabled = true) ∧ (s.dev.front.chan .a).prescaleField ≠ 0)) ∧
    (let f : KindFields := .interval ⟨.localStart, .a, .b, 1, 1⟩
     let s := armable .live true 0 f
     (∀ ch ∈ f.channels, (s.dev.front.chan ch).enabled = true) ∧ (s.dev.front.chan .b).prescaleField = 0) ∧
    ((asking id).dev.eng.tasks.get 7).defn = none ∧
    ((asking (runs (.timestamp .d) (.timestamp 0))).dev.eng.tasks.get 3).state = .running ∧
    (armable .joining true 0 (.timestamp .d)).dev.eng.ctl.state ≠ .live ∧
    (∃ ch ∈ (KindFields.timestamp .d).channels, ((armable .live false 0 (.timestamp .d)).dev.front.chan ch).enabled = false) := by
  refine ⟨⟨awaits _ rfl, by decide, rfl, by decide⟩, by decide,
    by decide, by decide, by decide, by decide, ⟨.d, by decide⟩⟩

theorem witness_TasksAreEndedAndTornDown :
    (let s := asking (runs (.timestamp .d) (.timestamp 0))
     awaitsRequest s ∧ (3 : Byte).toNat = (3 : TaskId).val ∧ s.dev.eng.ctl.state ≠ .halted ∧
     (s.dev.eng.tasks.get 3).defn = some (defined (.timestamp .d)) ∧ (s.dev.eng.tasks.get 3).state = .running ∧
     (∀ b ∈ s.dev.eng.queue, b.task ≠ 3)) ∧
    (∀ st p, (let s := asking (fun d => onTask 3 (fun k => { k with state := st, runEndPending := p })
        (runs (.timestamp .d) (.timestamp 0) d))
      (s.dev.eng.tasks.get 3).state = st ∧ (s.dev.eng.tasks.get 3).runEndPending = p)) ∧
    ((asking id).dev.eng.tasks.get 3).state = .empty ∧
    (∃ b ∈ (asking (fun d => withQueue [block 0 true] (runs (.timestamp .d) (.timestamp 0) d))).dev.eng.queue, b.task = 3) :=
  ⟨⟨awaits _ rfl, by decide, by decide, rfl, by decide⟩, fun _ _ => ⟨rfl, rfl⟩, by decide⟩

theorem witness_DefineListenEntryReplacesTheEntry :
    awaitsRequest (asking id) ∧ (asking id).dev.eng.ctl.state ≠ .halted ∧ (7 : Byte).toNat = (7 : Fin 8).val ∧
    listenModeOf 2 = some .upto ∧ listenClassOf ((0x2F : Byte).extractLsb' 4 2) = some .either ∧
    listenActionOf 2 = some .pass := ⟨awaits id rfl, by decide⟩

theorem witness_GatesArePublished :
    (let q := fun n => List.replicate n (outgoing .edge (some ⟨0, false⟩))
     let s := fun n mute => asking (fun d => onTx (fun x => { x with queue := q n, mute := mute }) (inState .live d))
     (15 : Byte).toNat < 16 ∧ (1 : Byte).toNat ≤ 1 ∧ (s 7 false).dev.eng.ctl.state = .live ∧
     (s 7 false).dev.eng.ctl.departure = .none ∧ (s 7 false).dev.eng.tx.haltSent = false ∧ (s 7 false).dev.eng.tx.mute = false ∧
     (s 7 false).dev.eng.tx.queue.length < 8 ∧ (s 0 true).dev.eng.tx.mute = true ∧ 8 ≤ (s 8 false).dev.eng.tx.queue.length) ∧
    awaitsRequest (asking (inState .live)) ∧ (asking id).dev.eng.ctl.state = .unset ∧
    (asking (inState .joining)).dev.eng.ctl.state = .joining ∧
    (let s := asking (fun d => leaving .retire (inState .live d))
     s.dev.eng.ctl.state = .live ∧ s.dev.eng.ctl.departure ≠ .none) :=
  ⟨by decide, awaits _ rfl, by decide⟩

theorem witness_RequestsAreRefused :
    awaitsRequest (asking id) ∧ (asking id).dev.eng.ctl.state ≠ .halted ∧ 3 < (4 : Byte).toNat ∧
    (0b110 : Byte).extractLsb' 1 2 = 3 ∧ 7 < (8 : Byte).toNat ∧ 4 < (5 : Byte).toNat ∧ 2 < (3 : Byte).toNat ∧
    15 < (16 : Byte).toNat ∧ 1 < (2 : Byte).toNat ∧ (0x30 : Byte).extractLsb' 4 2 = 3 ∧
    (asking (inState .joining)).dev.eng.ctl.state ≠ .unset ∧
    (let s := asking (runs (.timestamp .d) (.timestamp 0))
     (3 : Byte).toNat = (3 : TaskId).val ∧ (s.dev.eng.tasks.get 3).state = .running ∧
     (taskDefOf 3 1 0 0 0 0 0).isSome = true) ∧
    (let s := asking (withQueue [block 0 true])
     (s.dev.eng.tasks.get 3).state = .empty ∧ ∃ x ∈ s.dev.eng.queue, x.task = 3) ∧
    (asking id).dev.eng.ctl.faultHold = false ∧ (asking id).dev.eng.ctl.state = .unset :=
  ⟨awaits id rfl, by decide⟩

/-- Requests that a HALTED station refuses, with their frames; task 9 does not exist. -/
def refusedWhenHalted : List (Instr × List Byte) :=
  [(.setup 0 5, [0x01, 0, 5]), (.armTask 0 9, [0x04, 9]), (.disarmTask 0 9, [0x05, 9]), (.tearDownTask 0 9, [0x06, 9]),
   (.publishGate 0 1 2, [0x08, 1, 2]), (.clearFault 0, [0x0E]), (.retire 0, [0x0F])]

theorem witness_HaltedAndUnknownRequests :
    awaitsRequest (asking (inState .halted)) ∧ (asking (inState .halted)).dev.eng.ctl.state = .halted ∧
    (refusedWhenHalted.all fun r => r.1.wellFormed && encodeFrame r.1 == some r.2 &&
      [0x01, 0x02, 0x03, 0x04, 0x05, 0x06, 0x07, 0x08, 0x0E, 0x0F].any fun k => r.2.head? == some k) = true ∧
    (0 : Byte).toNat = 0 ∧ 16 < (17 : Byte).toNat :=
  ⟨awaits _ rfl, by decide⟩

/-- The requests without further hypotheses: READ RESULT on both queues, READ STATUS, READ TIME, SET EVENTS, ACK EVENTS. -/
theorem witness_ResultsAreShown :
    awaitsRequest (asking id) ∧ (asking id).dev.eng.queue = [] ∧
    (asking (withQueue [block 0 true])).dev.eng.queue = [block 0 true] ∧ awaitsRequest (asking (withQueue [block 0 true])) :=
  ⟨awaits id rfl, by decide, by decide, awaits _ rfl⟩

theorem witness_ReadStatusReportsTheStation : awaitsRequest (asking id) := awaits id rfl
theorem witness_ReadTimeReportsTheStamp : awaitsRequest (asking (inState .halted)) := awaits _ rfl
theorem witness_EventsAndTheInterrupt : awaitsRequest (asking (inState .halted)) := awaits _ rfl

theorem witness_ClearFaultReleasesTheHold :
    awaitsRequest (asking (inState .halted)) ∧ awaitsRequest (asking id) ∧ (asking id).dev.eng.ctl.faultHold = false ∧
    awaitsRequest (asking (onCtl (fun c => { c with faultHold := true }))) := ⟨awaits _ rfl, awaits _ rfl, rfl, awaits _ rfl⟩

theorem witness_RetireEndsEveryRun :
    (let q := List.replicate 7 (outgoing .edge (some ⟨0, false⟩))
     let s := asking (fun d => onTx (fun x => { x with queue := q }) (inState .live (runs (.timestamp .d) (.timestamp 0) d)))
     awaitsRequest s ∧ s.dev.eng.ctl.state = .live ∧ s.dev.eng.ctl.departure = .none ∧
     (s.dev.eng.tasks.get 3).runContinues = true ∧ (s.dev.eng.tasks.get 4).runContinues = false ∧
     s.dev.eng.tx.mute = false ∧ s.dev.eng.tx.haltSent = false ∧ s.dev.eng.tx.queue.length < 8 ∧
     ∀ m ∈ s.dev.eng.tx.queue, m.kind ≠ .halt) ∧
    (let s := asking (fun d => onTx (fun x => { x with mute := true }) (inState .joining d))
     s.dev.eng.ctl.state = .joining ∧ s.dev.eng.ctl.departure = .none ∧ s.dev.eng.tx.mute = true) :=
  ⟨⟨awaits _ rfl, by decide⟩, by decide⟩

theorem witness_ResetRequestOwesTheHalt :
    awaitsRequest (asking id) ∧ (asking id).dev.eng.ctl.state = .unset ∧
    (asking (inState .halted)).dev.eng.ctl.state = .halted ∧
    (asking (onTx (fun x => { x with mute := true }))).dev.eng.tx.mute = true ∧
    (let s := asking (fun d => leaving .reset (inState .joining d))
     s.dev.eng.ctl.state = .joining ∧ s.dev.eng.tx.mute = false ∧ s.dev.eng.ctl.departure = .reset) ∧
    (let s := asking (fun d => leaving .retire (inState .live d))
     s.dev.eng.ctl.state = .live ∧ s.dev.eng.tx.mute = false ∧ s.dev.eng.ctl.departure ≠ .reset ∧
     s.dev.eng.tx.haltSent = false ∧ s.dev.eng.tx.queue.length < 8 ∧ ∀ m ∈ s.dev.eng.tx.queue, m.kind ≠ .halt) :=
  ⟨awaits id rfl, by decide⟩

/-! ## Witnesses: reading results -/

/-- A READ RESULT whose reply is going out, task 3 as given, this queue. -/
def reading (q : List Block) (f : TaskRec → TaskRec) : State :=
  made (fun d => withPort (withQueue q (onTask 3 f d)) ⟨.reply, true, none, some 0x09, [], some ⟨.ok, [0]⟩⟩)

theorem witness_CompletedReadFreesAPlace :
    (let s := reading [block 0 true] id
     s.dev.held = false ∧ s.dev.port.phase = .reply ∧ s.dev.port.kind = some 0x09 ∧ s.dev.port.reply = some ⟨.ok, [0]⟩ ∧
     s.dev.eng.ctl.resetDue = false ∧ s.dev.eng.queue = block 0 true :: [] ∧
     (∀ t, (s.dev.eng.tasks.get t).state ≠ .stalled) ∧ (s.dev.eng.tasks.get 3).state ≠ .paused ∧
     (s.dev.eng.tasks.get 3).state ≠ .done) ∧
    (let s := reading (List.replicate 16 (block 0 false)) (fun k =>
        { running (.timestamp .d) .none k with state := .stalled, heldBlock := some (block 1 true), runEndPending := some .disarm })
     s.dev.held = false ∧ s.dev.port.phase = .reply ∧ s.dev.eng.ctl.resetDue = false ∧
     s.dev.eng.queue = block 0 false :: List.replicate 15 (block 0 false) ∧ (List.replicate 15 (block 0 false)).length = 15 ∧
     (s.dev.eng.tasks.get 3).state = .stalled ∧ (s.dev.eng.tasks.get 3).heldBlock = some (block 1 true) ∧
     (s.dev.eng.tasks.get 3).runEndPending = some .disarm ∧ (∀ u, u < 3 → (s.dev.eng.tasks.get u).state ≠ .stalled) ∧
     (s.dev.eng.tasks.get 3).state ≠ .paused ∧ (block 0 false).final = false) ∧
    ∀ now, unitSettled now (reading [block 0 true] id).dev.eng :=
  ⟨by decide, by decide, settled rfl⟩

theorem witness_CompletedReadWakesItsTask :
    (let s := reading [block 0 false] (fun k => { running (.timestamp .d) (.timestamp 0) k with state := .paused, pausedOn := some 0 })
     s.dev.held = false ∧ s.dev.port.phase = .reply ∧ s.dev.port.kind = some 0x09 ∧ s.dev.port.reply = some ⟨.ok, [0]⟩ ∧
     s.dev.eng.ctl.resetDue = false ∧ s.dev.eng.queue = block 0 false :: [] ∧ (∀ t, (s.dev.eng.tasks.get t).state ≠ .stalled) ∧
     (s.dev.eng.tasks.get 3).defn = some (defined (.timestamp .d)) ∧ (s.dev.eng.tasks.get 3).state = .paused ∧
     (s.dev.eng.tasks.get 3).pausedOn = some (block 0 false).number ∧ (block 0 false).final = false) ∧
    (let s := fun st on => made (fun d => inState st (onChan .d (fun c => { c with enabled := on }) (withPort (withQueue [block 0 true]
        (onTask 3 (fun k => { k with defn := some (defined (.timestamp .d)), state := .done, rearmPending := true }) d))
        ⟨.reply, true, none, some 0x09, [], some ⟨.ok, [0]⟩⟩)))
     (∀ t, ((s .live true).dev.eng.tasks.get t).state ≠ .stalled) ∧
     (block 0 true).final = true ∧ ((s .live true).dev.eng.tasks.get 3).state = .done ∧
     ((s .live true).dev.eng.tasks.get 3).rearmPending = true ∧
     (s .live true).dev.eng.armRefusal (s .live true).dev.front (defined (.timestamp .d)) = none ∧
     (s .live false).dev.eng.armRefusal (s .live false).dev.front (defined (.timestamp .d)) ≠ none) ∧
    ∀ now, unitSettled now (reading [block 0 true] id).dev.eng :=
  ⟨by decide, by decide, settled rfl⟩

/-! ## Witnesses: the timebase -/

theorem witness_ReferenceLossIsDeclared :
    (let s := fun st => made (fun d => inState st (onTb (fun tb => { tb with monitor := .present }) d))
     (s .live).dev.held = false ∧ (s .live).dev.front.tb.monitor = .present ∧ (s .live).dev.eng.ctl.state ≠ .halted ∧
     (s .live).dev.eng.ctl.faultHold = false ∧ (s .halted).dev.eng.ctl.state = .halted) ∧
    State.reset.dev.front.tb.monitor ≠ .present ∧ State.reset.dev.front.tb.monitor ≠ .returning ∧
    (let s := made (onTb (fun tb => { tb with monitor := .returning, qualifyFrom := some 0 }))
     s.dev.front.tb.monitor ≠ .absent ∧ s.dev.front.tb.qualifyFrom = some 0 ∧
     reached (atTime 7999999 s).front.tb.now (plus 0 8000000) = false) := by decide

theorem witness_SecondFaultHaltsTheStation :
    (let s := fun mute => made (fun d => onTx (fun x => { x with mute := mute }) (onCtl (fun c => { c with faultHold := true })
        (inState .live (onTb (fun tb => { tb with monitor := .present }) (runs (.timestamp .d) (.timestamp 0) d)))))
     (s false).dev.held = false ∧ (s false).dev.front.tb.monitor = .present ∧ (s false).dev.eng.ctl.state ≠ .halted ∧
     (s false).dev.eng.ctl.faultHold = true ∧ ((s false).dev.eng.tasks.get 3).state ≠ .empty ∧
     ((s false).dev.eng.tasks.get 4).state = .empty ∧ (s false).dev.eng.ctl.state ≠ .unset ∧
     (s false).dev.eng.tx.mute = false ∧ (s true).dev.eng.tx.mute = true) := by decide

theorem witness_ReferenceReturns :
    State.reset.dev.held = false ∧ State.reset.dev.front.tb.monitor = .absent ∧
    (let s := made (onTb (fun tb => { tb with monitor := .returning, qualifyFrom := some 0 }))
     (atTime 8000000 s).front.tb.monitor = .returning ∧ (atTime 8000000 s).front.tb.qualifyFrom = some 0 ∧
     (atTime 8000000 s).front.tb.spans = [] ++ [⟨⟨0, false⟩, none⟩] ∧
     reached (atTime 8000000 s).front.tb.now (plus 0 8000000) = true) := by decide

theorem witness_DegradedHistory :
    (let s := made (onTb (fun tb => { tb with spans := [⟨⟨0, false⟩, some 5⟩, ⟨⟨9, false⟩, none⟩], floor := some 5 }))
     s.dev.held = false ∧ s.dev.front.tb.spans = ⟨⟨0, false⟩, some 5⟩ :: [⟨⟨9, false⟩, none⟩] ∧ s.dev.front.tb.floor = some 5 ∧
     reached (atTime (2 ^ 46 + 6) s).front.tb.now (plus 5 (2 ^ 46 + 1)) = true ∧
     reached (atTime (2 ^ 46 + 5) s).front.tb.now (plus 5 (2 ^ 46 + 1)) = false) ∧
    (∀ t, State.reset.dev.front.tb.spans = [⟨⟨0, false⟩, none⟩] ∧ (⟨⟨0, false⟩, none⟩ : Span).stop ≠ some t) ∧
    State.reset.dev.front.tb.floor = none := by
  exact ⟨by decide, fun t => ⟨rfl, fun h => by cases h⟩, rfl⟩

theorem witness_KeptTimesAreMarked : State.reset.dev.held = false := rfl

/-- One TU before and at the moment at which a kept time becomes long past (R100). -/
theorem test_longPast_boundary :
    (Kept.mark (2 ^ 46) ⟨0, false⟩).longPast = false ∧ (Kept.mark (2 ^ 46 + 1) ⟨0, false⟩).longPast = true := by decide

/-! ## Witnesses: channels and rings -/

theorem witness_PinChangesAreFiltered :
    (∀ ip on, (made (onChan .b (fun c => { c with inShortPulse := ip, enabled := on, glitch := 63 }))).dev.held = false ∧
      ((made (onChan .b (fun c => { c with inShortPulse := ip, enabled := on, glitch := 63 }))).dev.front.chan .b).inShortPulse = ip ∧
      ((made (onChan .b (fun c => { c with inShortPulse := ip, enabled := on, glitch := 63 }))).dev.front.chan .b).enabled = on ∧
      ((made (onChan .b (fun c => { c with inShortPulse := ip, enabled := on, glitch := 63 }))).dev.front.chan .b).glitch ≠ 0) ∧
    12 < 13 ∧ 13 ≤ 13 ∧
    (let c := (made (onChan .b (fun c => { c with enabled := true, accepted := true }))).dev.front.chan .b
     c.inShortPulse = false ∧ c.enabled = true ∧ c.glitch = 0 ∧ (!c.pinLevel) = c.accepted) :=
  ⟨fun _ _ => ⟨rfl, rfl, rfl, by show (63 : Fin 64) ≠ 0; decide⟩, by decide⟩

theorem witness_QualifiedEdgeIsStamped :
    (let s := fun sel p (dead : Option Kept) => made (onChan .b (fun c => { c with
        enabled := true, edgeSelect := sel, glitch := 63, prescaleField := p, pendingChange := some 0, deadUntil := dead }))
     (s .both 0 none).dev.held = false ∧ ((s .both 0 none).dev.front.chan .b).enabled = true ∧
     ((s .both 0 none).dev.front.chan .b).pendingChange = some 0 ∧
     reached (atTime 2015 (s .both 0 none)).now (plus 0 (63 * 32)) = false ∧
     reached (atTime 2016 (s .both 0 none)).now (plus 0 (63 * 32)) = true ∧
     (!((s .falling 0 none).dev.front.chan .b).accepted) = true ∧
     (((s .both 1 none).dev.front.chan .b).count + 1).toNat % 2 ≠ 0 ∧
     (((s .both 0 none).dev.front.chan .b).count + 1).toNat % 1 = 0 ∧
     later 1 0 = true ∧ later 0 0 = false) := by decide

theorem witness_RingAgesItsOldestEntry :
    (let s := made (onChan .b (fun c => { c with ring := ⟨[⟨1, 1, 0, 1⟩], 2, false, none⟩ }))
     s.dev.held = false ∧ (s.dev.front.ring .b).entries = ⟨1, 1, 0, 1⟩ :: [] ∧
     reached (atTime (2 ^ 46 + 1) s).now (plus 0 (2 ^ 46 + 1)) = true ∧
     reached (atTime (2 ^ 46) s).now (plus 0 (2 ^ 46 + 1)) = false) ∧
    (State.reset.dev.front.ring .b).entries = [] := by decide

/-! ## Witnesses: arrivals -/

theorem witness_ArrivalBecomesATimestamp :
    (let e := fun td rs n q => (withQueue q (onTask 3 (fun k => { running (.timestamp .d) (.timestamp 0) k with
        defn := some td, openBlock := some rs, resultsInRun := n }) State.reset.dev)).eng
     let r : Result := .timestamp ⟨0, 1, 1, 0, false, false⟩
     let td := defined (.timestamp .d)
     let x := e td [r] 1 []
     (∀ u, u ≠ 3 → x.takes u = false) ∧ x.takes 3 = true ∧ (x.tasks.get 3).defn = some td ∧ td.fields = .timestamp .d ∧
     (x.tasks.get 3).cursor = some 1 ∧ (x.tasks.get 3).run = .timestamp 0 ∧ (x.tasks.get 3).openBlock = some [r] ∧
     (7 + 1 < td.runLength ∧ td.runLength ≤ 8 + 1 ∧ td.runLength ≠ 0) ∧ { td with runLength := 0 }.runLength = 0 ∧
     ([r, r].length + 1 < td.blockSize ∧ td.blockSize ≤ [r, r, r].length + 1) ∧
     ((e td [r] 1 (List.replicate 15 (block 0 false))).queue.length < 16 ∧
       16 ≤ (e td [r] 1 (List.replicate 16 (block 0 false))).queue.length)) ∧
    ∀ now, unitSettled now State.reset.dev.eng := ⟨by decide, settled rfl⟩

theorem witness_ArrivalIsPublished :
    (let p : PublishFields := ⟨.d, 15, 255⟩
     let e := fun n q mute => (onTx (fun x => { x with queue := List.replicate q (outgoing .edge none), mute := mute })
       (runs (.publish p) (.publish ⟨n, 0, []⟩) State.reset.dev)).eng
     let x := e 0 0 false
     (∀ u, u ≠ 3 → x.takes u = false) ∧ x.takes 3 = true ∧ (x.tasks.get 3).defn = some (defined (.publish p)) ∧
     (x.tasks.get 3).cursor = some 1 ∧ (x.tasks.get 3).run = .publish ⟨0, 0, []⟩ ∧
     (254 + 1 < p.dividerField.toNat + 1 ∧ p.dividerField.toNat ≤ 255) ∧
     (e 255 7 false).tx.queue.length < 8 ∧ (e 255 7 false).tx.mute = false ∧ (e 255 7 false).tx.haltSent = false ∧
     8 ≤ (e 255 8 false).tx.queue.length ∧ (e 255 0 true).tx.mute = true) ∧
    ∀ now, unitSettled now State.reset.dev.eng := ⟨by decide, settled rfl⟩

/-- A block that task 5 offered at stamp 32. -/
def blockOf5 (n : BitVec 16) (final : Bool) : Block := ⟨5, .timestamp, n, final, false, [], some ⟨32, false⟩⟩

/-- Task 5 as the append of its block `n` left it: its run goes on, or is over. -/
def went (n : BitVec 16) (ended : Bool) : Station → Station :=
  onTask 5 (fun k => { running (.timestamp .a) (.timestamp 0) k with
    nextBlock := n + 1, state := if ended then .done else .running, endCause := if ended then some .length else none,
    openBlock := if ended then none else some [] })

theorem witness_ArrivalBecomesATimestamp_oneMoment :
    (∀ ended, let e := (went 6 ended (withQueue (List.replicate 15 (block 0 false) ++ [blockOf5 6 ended]) State.reset.dev)).eng
     let k := e.tasks.get (blockOf5 6 ended).task
     16 ≤ e.queue.length ∧ e.queue = List.replicate 15 (block 0 false) ++ blockOf5 6 ended :: [] ∧
     (2 : TaskId) < (blockOf5 6 ended).task ∧ (blockOf5 6 ended).offered = some ⟨32, false⟩ ∧
     k.nextBlock = (blockOf5 6 ended).number + 1 ∧ k.heldBlock = none ∧ k.cause = .none ∧
     (ended = true → k.state = .done ∧ k.endCause ≠ none) ∧ (ended = false → k.runContinues = true ∧ k.openBlock = some []) ∧
     ∀ y ∈ List.replicate 15 (block 0 false), y.offered ≠ some ⟨32, false⟩) ∧
    (let e := (withQueue [block 0 false, blockOf5 6 false] State.reset.dev).eng
     e.queue.length < 15 ∧ e.queue = [block 0 false] ++ [blockOf5 6 false] ∧ [blockOf5 6 false].head? = some (blockOf5 6 false)) ∧
    (let k := ((went 6 false State.reset.dev).eng.tasks.get 5)
     (List.replicate 15 (block 0 false)).length = 15 ∧ k.canHold { blockOf5 6 false with offered := none } = true) := by decide

/-- R152: the block of task 2, whose arrival is a command of its own at the stamp at which task 5 has filled the queue, takes
the last place, and task 5 is STALLED with its block. -/
theorem test_blocks_of_one_moment_ascend :
    (match exec (.edgeQualified 32 .b) (made (fun d => went 6 false (withQueue (List.replicate 15 (block 0 false) ++ [blockOf5 6 false])
        (onTask 2 (fun k => { running (.timestamp .b) (.timestamp 0) k with
          defn := some { defined (.timestamp .b) with blockSize := 1 } })
        (onChan .b (fun c => { c with enabled := true, glitch := 1, pendingChange := some 0 }) d))))) with
     | .next s => ((s.dev.eng.queue.getLast?).map Block.task, s.dev.eng.queue.length, (s.dev.eng.tasks.get 5).state)
     | _ => (none, 0, .empty)) = (some 2, 16, .stalled) := by decide

/-- A marker of task 5 offered at stamp 32. -/
def markerOf5 : OutEntry := { outgoing .edge (some ⟨0, false⟩) with offered := some ⟨5, ⟨32, false⟩⟩ }

theorem witness_ArrivalIsPublished_oneMoment :
    (let q := List.replicate 7 (outgoing .edge none)
     let e := (onTx (fun x => { x with queue := q ++ [markerOf5] }) State.reset.dev).eng
     e.tx.mute = false ∧ e.tx.haltSent = false ∧ 8 ≤ e.tx.queue.length ∧ e.tx.queue = q ++ markerOf5 :: [] ∧
     markerOf5.inTransmission = false ∧ (∃ o, markerOf5.offered = some o ∧ o.time = ⟨32, false⟩ ∧ 2 < o.task) ∧
     markerOf5.originTask = none ∧ { markerOf5 with originTask := some 5 }.originTask = some 5 ∧ markerOf5.origin = some ⟨0, false⟩ ∧
     q.length = 7 ∧ (∀ m ∈ q, m.offered = none)) ∧
    (let e := (onTx (fun x => { x with queue := [outgoing .edge none, markerOf5] }) State.reset.dev).eng
     e.tx.queue.length < 7 ∧ e.tx.queue = [outgoing .edge none] ++ [markerOf5] ∧ [markerOf5].head? = some markerOf5) :=
  ⟨⟨by decide, by decide, by decide, by decide, by decide, ⟨_, rfl, rfl, by decide⟩, by decide⟩, by decide⟩

/-- R121: the marker of task 2, offered at the stamp at which task 5 has filled the outgoing queue, is queued, and task 5's
marker is answered DROPPED. -/
theorem test_markers_of_one_moment_ascend :
    (match exec (.edgeQualified 32 .b) (made (fun d =>
        onTx (fun x => { x with queue := List.replicate 7 (outgoing .edge none) ++ [markerOf5] })
        (onTask 2 (running (.publish ⟨.b, 4, 0⟩) (.publish ⟨0, 0, []⟩))
        (onChan .b (fun c => { c with enabled := true, glitch := 1, pendingChange := some 0 }) d)))) with
     | .next s => ((s.dev.eng.tx.queue.getLast?).bind OutEntry.originTask, s.dev.eng.tx.queue.length,
                   s.dev.eng.ctl.counters.dropped)
     | _ => (none, 0, 0)) = (some 2, 8, 1) := by decide

/-- A ring with these entries, numbered from 1. -/
def ringOf (xs : List (Stamp × EdgeCount)) : Ring :=
  let es := xs.foldl (fun (es : List Entry) x => es ++ [⟨es.length + 1, BitVec.ofNat 32 (es.length + 1), x.1, x.2⟩]) []
  ⟨es, es.length + 1, false, none⟩

theorem witness_ArrivalStopsOrStarts :
    (let f : IntervalFields := ⟨.localStart, .a, .b, 10, 100⟩
     let y : Start := ⟨⟨0, false⟩, ⟨10, false⟩, ⟨100, false⟩⟩
     let e := fun ps => (runs (.interval f) (.interval ⟨ps, 0⟩) State.reset.dev).eng
     let fr := fun xs => (onChan .b (fun c => { c with enabled := true, ring := ringOf xs }) State.reset.dev).front
     let s : Entry := ⟨1, 1, 100, 1⟩
     (∀ u, u ≠ 3 → ((e [y]).tasks.get u).runContinues = false) ∧ (e [y]).takes 3 = true ∧
     ((e [y]).tasks.get 3).defn = some (defined (.interval f)) ∧ f.source = .localStart ∧ f.startChannel ≠ f.stopChannel ∧
     ((e [y]).tasks.get 3).run = .interval ⟨[y], 0⟩ ∧ (∀ i, (e [y]).slots.get i = none) ∧
     y.searchFrom.laterThan ⟨10, false⟩ = false ∧
     ((fr [(100, 1)]).ring .b).firstAtOrAfter y.searchFrom = .found s .certain ∧
     (⟨100, false⟩ : Kept).laterThan y.windowEnd = false ∧ (⟨101, false⟩ : Kept).laterThan y.windowEnd = true ∧
     ((fr [(5, 1), (100, 3)]).ring .b).firstAtOrAfter y.searchFrom = .found ⟨2, 2, 100, 3⟩ .unstamped ∧
     (((fr []).ring .b).firstAtOrAfter ⟨10, false⟩ = .pending) ∧
     reached 100 (plus 100 (((fr []).chan .b).glitch.val * 32 + 1)) = false ∧
     (List.replicate 15 y).length < 16 ∧ ¬(List.replicate 16 y).length < 16) ∧
    ∀ now, unitSettled now State.reset.dev.eng :=
  ⟨by decide, settled rfl⟩

theorem witness_ArrivalResolvesTheSignal :
    (let f : PhaseFields := ⟨.a, .b⟩
     let y : PendingSignal := ⟨⟨1, 1, 50, 1⟩, false⟩
     let e := (runs (.phase f) (.phase ⟨none, [y], 0⟩) State.reset.dev).eng
     let ring := ringOf [(0, 1), (100, 2)]
     let r1 : Entry := ⟨1, 1, 0, 1⟩
     let r2 : Entry := ⟨2, 2, 100, 2⟩
     (∀ u, u ≠ 3 → (e.tasks.get u).runContinues = false) ∧ e.unit = ⟨[], none⟩ ∧ e.takes 3 = true ∧
     (e.tasks.get 3).defn = some (defined (.phase f)) ∧ f.reference ≠ f.signal ∧ (e.tasks.get 3).run = .phase ⟨none, [y], 0⟩ ∧
     (e.tasks.get 3).refCursor = some 1 ∧ (e.tasks.get 3).cursor = some 1 ∧ (e.tasks.get 3).jobDiscarded = false ∧
     (⟨51, false⟩ : Kept).laterThan ⟨50, false⟩ = true ∧ (⟨50, false⟩ : Kept).laterThan ⟨50, false⟩ = false ∧
     ring.lastAtOrBefore ⟨50, false⟩ = .found r1 ∧ ring.at? (r1.index + 1) = some r2 ∧ r2.count - r1.count = 1 ∧
     (ringOf [(0, 1), (100, 3)]).at? 2 = some ⟨2, 2, 100, 3⟩ ∧ (3 : EdgeCount) - 1 ≠ 1 ∧
     (ringOf []).lastAtOrBefore ⟨50, false⟩ = .none ∧
     { ringOf [] with everRemoved := true, lastRemoved := some ⟨0, ⟨0, false⟩⟩ }.lastAtOrBefore ⟨50, false⟩ = .lost) := by decide

/-! ## Witnesses: moments of the tasks -/

/-- A FREQUENCY run at its start. -/
def freqRun : FreqRun := ⟨0, 0, 0, .waitingOpen, none, none, none, none, none⟩

/-- Task 3 runs on a station with these entries in the ring of channel A. -/
def measuring (f : KindFields) (r : RunState) (ring : Ring) (g : TaskRec → TaskRec) : State :=
  made (fun d => onTask 3 (fun k => g (running f r k)) (onChan .a (fun c => { c with enabled := true, ring := ring }) d))

theorem witness_TimedGateIsEvaluated :
    (let f : FreqFields := ⟨.a, .timed, 8000, 0, 7⟩
     let s := measuring (.frequency f) (.frequency freqRun) (ringOf [(0, 1), (7999, 5)]) id
     let g := timedGate (atTime 8001 s).now 0 8000 0
     s.dev.held = false ∧ (∀ u, u ≠ 3 → (s.dev.eng.tasks.get u).runContinues = false) ∧
     (s.dev.eng.tasks.get 3).runContinues = true ∧ (s.dev.eng.tasks.get 3).defn = some (defined (.frequency f)) ∧
     f.source = .timed ∧ (s.dev.eng.tasks.get 3).run = .frequency freqRun ∧ s.dev.eng.unit = ⟨[], none⟩ ∧
     reached (atTime 8000 s).now (plus 0 (8000 + 1)) = false ∧ reached (atTime 8001 s).now (plus 0 (8000 + 1)) = true ∧
     (s.dev.eng.tasks.get 3).takes = true ∧ (s.dev.eng.tasks.get 3).jobDiscarded = false ∧
     (s.dev.front.ring .a).firstAtOrAfter g.opened = .found ⟨1, 1, 0, 1⟩ .certain ∧
     (s.dev.front.ring .a).lastAtOrBefore g.closed = .found ⟨2, 2, 7999, 5⟩ ∧
     g.opened.laterThan ⟨7999, false⟩ = false ∧
     (State.reset.dev.front.ring .a).lastAtOrBefore g.closed = .none ∧
     (State.reset.dev.front.ring .a).firstAtOrAfter g.opened = .pending ∧ 8 < (defined (.frequency f)).runLength ∧
     ((measuring (.frequency f) (.frequency freqRun) (ringOf []) (fun k => { k with state := .paused })).dev.eng.tasks.get 3).takes
       = false) := by decide

theorem witness_LineGatesAreCutAndEvaluated :
    (let f : FreqFields := ⟨.a, .line, 0, 15, 7⟩
     let w : Followed := ⟨1, ⟨0, false⟩, false⟩
     let run := { freqRun with lineState := .following, followed := some w }
     let s := measuring (.frequency f) (.frequency run) (ringOf []) id
     s.dev.held = false ∧ (∀ u, u ≠ 3 → (s.dev.eng.tasks.get u).runContinues = false) ∧
     (s.dev.eng.tasks.get 3).runContinues = true ∧ (s.dev.eng.tasks.get 3).run = .frequency run ∧
     run.lineState = .following ∧ run.followed = some w ∧ run.ended = none ∧
     reached (atTime (2 ^ 40 - 2) s).now (plus 0 (2 ^ 40 - 1)) = false ∧
     reached (atTime (2 ^ 40 - 1) s).now (plus 0 (2 ^ 40 - 1)) = true) ∧
    (let f : FreqFields := ⟨.a, .line, 0, 15, 7⟩
     let g : GateSpan := ⟨⟨9, false⟩, ⟨9, false⟩, false, false, false, true, false⟩
     let run := { freqRun with ended := some g }
     let s := fun st => measuring (.frequency f) (.frequency run) (ringOf []) (fun k => { k with state := st })
     (s .running).dev.held = false ∧ (∀ u, u ≠ 3 → ((s .running).dev.eng.tasks.get u).runContinues = false) ∧
     ((s .running).dev.eng.tasks.get 3).runContinues = true ∧
     ((s .running).dev.eng.tasks.get 3).defn = some (defined (.frequency f)) ∧ f.source = .line ∧
     ((s .running).dev.eng.tasks.get 3).run = .frequency run ∧ run.ended = some g ∧ g.negative = true ∧
     reached (atTime 9 (s .running)).now (plus 9 (0 * 32 + 1)) = false ∧
     reached (atTime 10 (s .running)).now (plus 9 (0 * 32 + 1)) = true ∧
     ((s .running).dev.eng.tasks.get 3).takes = true ∧ ((s .paused).dev.eng.tasks.get 3).takes = false ∧
     ((s .paused).dev.eng.tasks.get 3).runContinues = true ∧ run.missed = none ∧ run.later = none) ∧
    ∀ now, unitSettled now State.reset.dev.eng := ⟨by decide, by decide, settled rfl⟩

theorem witness_LimitsGiveNoAnswer :
    (let x : PendingSignal := ⟨⟨1, 1, 0, 1⟩, false⟩
     let s := fun st => measuring (.phase ⟨.b, .a⟩) (.phase ⟨none, [x], 0⟩) (ringOf []) (fun k => { k with state := st })
     (s .running).dev.held = false ∧ (∀ u, u ≠ 3 → ((s .running).dev.eng.tasks.get u).run = .none) ∧
     ((s .running).dev.eng.tasks.get 3).run = .phase ⟨none, [x], 0⟩ ∧
     (⟨0, false⟩ : Kept).laterThan ⟨0, false⟩ = false ∧
     reached (atTime (2 ^ 40 - 1) (s .running)).now (plus 0 (2 ^ 40)) = false ∧
     reached (atTime (2 ^ 40) (s .running)).now (plus 0 (2 ^ 40)) = true ∧
     ((s .running).dev.eng.tasks.get 3).takes = true ∧ ((s .paused).dev.eng.tasks.get 3).takes = false) ∧
    (let f : IntervalFields := ⟨.localStart, .b, .a, 10, 100⟩
     let x : Start := ⟨⟨0, false⟩, ⟨10, false⟩, ⟨100, false⟩⟩
     let s := fun st => measuring (.interval f) (.interval ⟨[x], 0⟩) (ringOf []) (fun k => { k with state := st })
     (s .running).dev.held = false ∧ (∀ u, u ≠ 3 → ((s .running).dev.eng.tasks.get u).runContinues = false) ∧
     ((s .running).dev.eng.tasks.get 3).defn = some (defined (.interval f)) ∧
     ((s .running).dev.eng.tasks.get 3).run = .interval ⟨[x], 0⟩ ∧ ((s .running).dev.front.ring .a).entries = [] ∧
     ((s .running).dev.front.ring .a).lastRemoved = none ∧ (∀ i, (s .running).dev.eng.slots.get i = none) ∧
     reached (atTime 100 (s .running)).now (plus 100 (0 * 32 + 1)) = false ∧
     reached (atTime 101 (s .running)).now (plus 100 (0 * 32 + 1)) = true ∧
     ((s .running).dev.eng.tasks.get 3).takes = true ∧ ((s .paused).dev.eng.tasks.get 3).takes = false) ∧
    ∀ now, unitSettled now State.reset.dev.eng := ⟨by decide, by decide, settled rfl⟩

/-- Task 3 waits for a job that the divider works on since stamp 0. -/
def working (f : KindFields) (r : RunState) (ops : JobOps) (w : Partial) (discarded : Bool) : State :=
  made (fun d => withUnit ⟨[], some ⟨3, ops, 0, discarded, true⟩⟩ (onTask 3 (fun k =>
    { running f r k with job := .inProgress, cause := .job, waitingResult := some w }) d))

theorem witness_JobFinishes :
    (let f : FreqFields := ⟨.a, .timed, 8000, 0, 7⟩
     let g : GateSpan := ⟨⟨0, false⟩, ⟨8000, false⟩, false, false, false, false, false⟩
     let s := working (.frequency f) (.frequency freqRun) (.frequency 4 7999 7 none)
       (.frequency g 4 7999 ⟨0, false⟩ ⟨7999, false⟩ false)
     (s false).dev.held = false ∧ (s false).dev.eng.unit = ⟨[], some ⟨3, .frequency 4 7999 7 none, 0, false, true⟩⟩ ∧
     reached (atTime 3199 (s false)).now (plus 0 3200) = false ∧ reached (atTime 3200 (s false)).now (plus 0 3200) = true ∧
     ((s true).dev.eng.tasks.get 3).heldBackJob = none ∧
     ((s false).dev.eng.tasks.get 3).waitingResult = some (.frequency g 4 7999 ⟨0, false⟩ ⟨7999, false⟩ false) ∧
     ((s false).dev.eng.tasks.get 3).run = .frequency freqRun ∧
     ((s false).dev.eng.tasks.get 3).defn = some (defined (.frequency f)) ∧
     ((s false).dev.eng.tasks.get 3).resultsInRun < (defined (.frequency f)).runLength) ∧
    (let s := working (.phase ⟨.b, .a⟩) (.phase ⟨none, [], 0⟩) (.phase 50 100) (.phase ⟨50, false⟩ 100 ⟨0, false⟩ ⟨100, false⟩) false
     s.dev.eng.unit = ⟨[], some ⟨3, .phase 50 100, 0, false, true⟩⟩ ∧
     (s.dev.eng.tasks.get 3).waitingResult = some (.phase ⟨50, false⟩ 100 ⟨0, false⟩ ⟨100, false⟩) ∧
     (s.dev.eng.tasks.get 3).run = .phase ⟨none, [], 0⟩) := by decide

/-! ## Witnesses: the line -/

/-- The line receiver in a state, LINE low since `low`. -/
def receiving (st : RxState) (low : Option Stamp) (f : Receiver → Receiver) : Station → Station :=
  onRx (fun r => f { r with state := st, lowSince := low, quietSince := none, attention := some 0, waitFrom := some 0 })

/-- A word being sent since stamp 0. -/
def attempt (w : BitVec 40) (sampled : Bool) : Attempt := ⟨0, 0, w, sampled, none, none⟩

/-- The transmitter sends the head of its queue, an entry of this kind. -/
def sending (k : MarkerKind) (origin : Option Kept) (w : BitVec 40) (sampled : Bool) : Station → Station :=
  onTx (fun x => { x with queue := [{ outgoing k origin with inTransmission := true }], attempt := some (attempt w sampled) })

theorem witness_LineEdgesAndStuckEpisodes :
    (let s := fun st low => made (receiving st low id)
     (s .idle none).dev.held = false ∧ (s .idle none).dev.rx.state = .idle ∧ (s .idle none).dev.rx.lowSince = none ∧
     (s .frame none).dev.rx.state ≠ .idle ∧ (s .idle (some 0)).dev.rx.lowSince = some 0 ∧
     (s .idle (some 0)).dev.drivesLine = false ∧ (s .idle (some 0)).dev.rx.lowFromFrame = false ∧
     (s .frame (some 0)).dev.rx.state = .frame ∧ (s .idle (some 0)).dev.eng.tx.attempt = none ∧
     since (atTime 9600 (s .idle (some 0))).now 0 ≤ 6 * 1600 ∧ since (atTime 4799 (s .idle (some 0))).now 0 < 3 * 1600 ∧
     3 * 1600 ≤ since (atTime 4800 (s .idle (some 0))).now 0 ∧ (s .idle (some 0)).dev.lu = 1600 ∧
     (made (receiving .idle (some 0) (fun r => { r with lowFromFrame := true }))).dev.rx.lowFromFrame = true) ∧
    (let s := fun st low f => made (receiving st low f)
     (s .frame (some 0) id).dev.eng.tx.attempt = none ∧ (s .frame (some 0) id).dev.rx.state ≠ .stuck ∧
     6 * 1600 ≤ since (atTime 9600 (s .frame (some 0) id)).now 0 ∧ since (atTime 9599 (s .frame (some 0) id)).now 0 < 6 * 1600 ∧
     6 * 1600 < since (atTime 9601 (s .idle (some 0) id)).now 0 ∧ (atTime 9601 (s .idle (some 0) id)).drivesLine = false ∧
     (s .stuck (some 0) id).dev.rx.lowSince ≠ none ∧ (s .stuck (some 0) id).dev.drivesLine = false ∧
     (s .stuck none id).dev.rx.state = .stuck ∧
     State.reset.dev.rx.quietSince = some ⟨0, false⟩ ∧ State.reset.dev.rx.state = .stuck ∧
     State.reset.dev.rx.episodeStart = some 0 ∧ State.reset.dev.rx.episodeReported = false ∧
     reached (atTime 6400 State.reset).now (plus 0 (4 * 1600)) = true ∧
     reached (atTime 6399 State.reset).now (plus 0 (4 * 1600)) = false ∧
     reached (atTime 3200000 State.reset).now (plus 0 (2000 * 1600)) = true ∧
     reached (atTime 3199999 State.reset).now (plus 0 (2000 * 1600)) = false ∧
     State.reset.dev.eng.ctl.state ≠ .halted ∧ State.reset.dev.eng.ctl.faultHold = false ∧
     (made (inState .halted)).dev.eng.ctl.state = .halted) := by decide

/-- The receiver enters FRAME as the sender only at the rise of the low its own attempt began (R106, R111); a foreign low of 3.5 LU
from 127 LU, while an attempt whose receiver has left the frame runs on to 131 LU, starts a frame of another. -/
theorem test_lineRise_own_part :
    let entered := fun (low : Stamp) (dt : Nat) =>
      match exec (.lineRise dt) (made (fun d => sending .edge none 5 true (receiving .idle (some low) id d))) with
      | .next s => (s.dev.rx.state, s.dev.rx.attention, s.dev.rx.ownPart)
      | _ => (.stuck, none, .lost)
    entered 0 6400 = (.frame, some 0, .sending) ∧
    entered (127 * 1600) (261 * 800) = (.frame, some (127 * 1600), .none) := by decide

theorem witness_CellsAreReadByTheirEdges :
    (let s := fun pos cell low => made (receiving .frame low (fun r => { r with cellPos := pos, openCell := cell }))
     (s (.bit 39) none none).dev.held = false ∧ (s (.bit 39) none none).dev.rx.state = .frame ∧
     (s (.bit 39) none none).dev.rx.lowSince = none ∧ (s (.bit 39) none none).dev.rx.openCell = none ∧
     (s (.bit 39) none none).dev.rx.cellPos = .bit 39 ∧ 38 < 39 ∧ (s (.bit 39) none (some 0)).dev.rx.lowSince ≠ none ∧
     (s (.bit 1) (some 0) none).dev.rx.openCell ≠ none ∧ (s .takenCell none none).dev.rx.cellPos = .takenCell ∧
     (s .refusedCell none none).dev.rx.cellPos = .refusedCell ∧ (s .refusedCell none none).dev.rx.waitFrom = some 0 ∧
     reached (atTime 2399 (s .refusedCell none none)).now (plus 0 (3 * (1600 / 2))) = false ∧
     reached (atTime 2400 (s .refusedCell none none)).now (plus 0 (3 * (1600 / 2))) = true ∧
     (s (.bit 1) (some 0) none).dev.rx.openCell = some 0 ∧ (s (.bit 1) (some 0) none).dev.eng.tx.attempt = none) ∧
    (let s := fun b => made (fun d => sending .edge none 5 b (receiving .frame none (fun r => { r with openCell := some 0 }) d))
     (s false).dev.rx.state = .frame ∧ (s false).dev.rx.openCell = some 0 ∧
     (s false).dev.eng.tx.attempt = some (attempt 5 false) ∧ (attempt 5 false).allSampled = false ∧
     (attempt 5 true).allSampled = true ∧ (s true).dev.eng.tx.attempt = some (attempt 5 true) ∧
     reached (atTime (253 * 800) (s true)).now (plus 0 (3 * (1600 / 2))) = true ∧
     (made (sending .edge none 5 true)).dev.rx.openCell = none ∧
     since (atTime (253 * 800) (s true)).now (attempt 5 true).attention = 253 * (1600 / 2) ∧
     since (atTime (259 * 800) (s true)).now (attempt 5 true).attention = 259 * (1600 / 2)) := by decide

theorem witness_BrokenFramesKeepTheirEntry :
    (let s := fun bits => made (fun d => sending .edge none (2 ^ 39) false (receiving .frame none (fun r =>
        { r with ownPart := .sending, bits := bits, cellPos := .bit 1 }) d))
     (s [false]).dev.held = false ∧ (s [false]).dev.rx.state = .frame ∧ (s [false]).dev.eng.ctl.haltOwed = none ∧
     (∀ m ∈ (s [false]).dev.eng.tx.queue, m.removeAtEnd = false) ∧ (s [false]).dev.rx.ownPart = .sending ∧
     (s [false]).dev.eng.tx.attempt = some (attempt (2 ^ 39) false) ∧ (s [false]).dev.rx.openCell = none ∧
     (s [false]).dev.rx.bits = [] ++ [false] ∧ cellBit (2 ^ 39) 0 = true ∧ (s [true]).dev.rx.bits = [] ++ [true] ∧
     cellBit (2 ^ 39) 1 = false ∧
     (s []).dev.rx.waitFrom = some 0 ∧ (s []).dev.rx.cellPos ≠ .noMore ∧
     reached (atTime 6400 (s [])).now (plus 0 (4 * 1600)) = true ∧ reached (atTime 6399 (s [])).now (plus 0 (4 * 1600)) = false) ∧
    (made (receiving .frame none (fun r => { r with cellPos := .noMore }))).dev.rx.cellPos = .noMore ∧
    (made (receiving .frame none id)).dev.eng.tx.attempt = none := by decide

/-! ## Witnesses: markers received -/

/-- The 40 cells of a word. -/
def cells (w : BitVec 40) : List Bool := (List.range 40).map (cellBit w)

/-- A frame whose 40 cells carry the word, its attention at stamp 2^30. -/
def heard (w : BitVec 40) (f : Station → Station) : State :=
  made (fun d => f (onRx (fun r => { r with state := .frame, attention := some 0x40000000, bits := cells w }) d))

/-- The hypotheses of the statements about a received word, for a word of another station. -/
def hears (s : State) (k : Option MarkerKind) : Prop :=
  s.dev.held = false ∧ s.dev.rx.state = .frame ∧ s.dev.rx.attention = some 0x40000000 ∧ s.dev.rx.judged = false ∧
  s.dev.rx.bits.length = 40 ∧ checkRight (wordOfBits s.dev.rx.bits) = true ∧
  wordSource (wordOfBits s.dev.rx.bits) ≠ s.dev.eng.ctl.stationNo ∧ markerKindOf (wordKind (wordOfBits s.dev.rx.bits)) = k

set_option maxRecDepth 8000 in
theorem witness_WordsAndPeers :
    (let s := fun w st => heard w (inState st)
     (s 0 .live).dev.held = false ∧ (s 0 .live).dev.rx.state = .frame ∧ (s 0 .live).dev.rx.judged = false ∧
     (s 0 .live).dev.rx.bits.length = 40 ∧ checkRight (wordOfBits (s 0 .live).dev.rx.bits) = false ∧
     (let own := wordOfBits (s 0x400000000B .live).dev.rx.bits
      checkRight own = true ∧ wordSource own = (s 0 .live).dev.eng.ctl.stationNo ∧ markerKindOf (wordKind own) ≠ none ∧
      (s 0 .live).dev.rx.ownPart ≠ .sending ∧ (s 0 .live).dev.eng.tx.mute = false ∧ (s 0 .live).dev.eng.ctl.haltOwed = none ∧
      (s 0 .live).dev.eng.ctl.faultHold = false ∧ (s 0 .live).dev.eng.tx.queue = []) ∧
     (s 0 .halted).dev.eng.ctl.state = .halted ∧ (s 0 .joining).dev.eng.ctl.state = .joining) ∧
    hears (heard 0x5200000008 (inState .live)) none ∧ hears (heard 0x4270079E04 id) (some .edge) ∧
    (made (receiving .frame none id)).dev.rx.bits.length ≠ 40 ∧
    (hears (heard (markerWord .announce 2 0 (announcePayload 2047 false)) id) (some .announce) ∧
      wordJoining (markerWord .announce 2 0 (announcePayload 2047 false)) = false) ∧
    hears (heard (markerWord .halt 2 0 (haltPayload .reset)) id) (some .halt) ∧
    (∀ g, (State.reset.dev.gates.get g).state = .closed) ∧ ∀ now, unitSettled now State.reset.dev.eng :=
  ⟨by decide, by unfold hears; decide, by unfold hears; decide, by decide, by unfold hears; decide, by unfold hears; decide,
   by decide, settled rfl⟩

/-- Listen entry 7 takes, refuses or passes every EDGE and GATE marker of station 2, for task 3. -/
def listening (a : ListenAction) (d : Station) : Station :=
  { d with listen := d.listen.set 7 ⟨.one, 2, .either, 0, 0, a, 3⟩ }

/-- Gate 15 with this record. -/
def gated (g : Gate) (d : Station) : Station := { d with gates := d.gates.set 15 g }

/-- A gate opened by station 2. -/
def gateOpenSince (t : Stamp) : Gate :=
  { Gate.afterReset with state := .opened, openTime := some ⟨t, false⟩, opener := some 2 }

set_option maxRecDepth 8000 in
theorem witness_TakenEdgeFillsASlot :
    (let f : IntervalFields := ⟨.remoteStart, .a, .b, 1, 100⟩
     let s := fun a (st : TaskState) full => heard 0x4270079E04 (fun d =>
       { (listening a (inState .live (onTask 3 (fun k => { running (.interval f) (.interval ⟨[], 0⟩) k with state := st }) d))) with
         eng := { (inState .live (onTask 3 (fun k => { running (.interval f) (.interval ⟨[], 0⟩) k with state := st }) d)).eng with
           slots := if full then Per8.fill (some ⟨1, 0, ⟨0, false⟩, ⟨⟨0, false⟩, ⟨0, false⟩, ⟨0, false⟩⟩, false, 0, 1⟩) else Per8.fill none } })
     hears (s .take .paused false) (some .edge) ∧ (s .take .paused false).dev.eng.ctl.state = .live ∧
     decidingEntry State.reset.dev.listen .edge 2 7 = none ∧
     (∀ a, a = .take ∨ a = .refuse ∨ a = .pass →
       decidingEntry (s a .paused false).dev.listen .edge 2 7 = some ⟨.one, 2, .either, 0, 0, a, 3⟩) ∧
     ((s .take .paused false).dev.eng.tasks.get 3).runContinues = true ∧
     ((s .take .paused false).dev.eng.tasks.get 3).defn = some (defined (.interval f)) ∧ f.source = .remoteStart ∧
     ((s .take .paused false).dev.eng.tasks.get 3).takes = false ∧
     (s .take .paused false).dev.eng.slots.get 0 = none ∧ (∀ i, (s .take .paused true).dev.eng.slots.get i ≠ none) ∧
     ((s .take .idle false).dev.eng.tasks.get 3).runContinues = false) := by
  refine ⟨by unfold hears; decide, by decide, by decide, ?_, by decide⟩
  intro a h; rcases h with rfl | rfl | rfl <;> decide

set_option maxRecDepth 8000 in
theorem witness_GateRecordsFollowTheirMarkers :
    (let s := fun k gate => heard (markerWord k 2 15 0) (fun d => gated gate (listening .take (inState .live d)))
     let open_ := gateOpenSince
     hears (s .gateOpen Gate.afterReset) (some .gateOpen) ∧ hears (s .gateClose Gate.afterReset) (some .gateClose) ∧
     (s .gateOpen Gate.afterReset).dev.eng.ctl.state = .live ∧
     (∀ k, k = .gateOpen ∨ k = .gateClose →
       decidingEntry (s k Gate.afterReset).dev.listen k 2 15 = some ⟨.one, 2, .either, 0, 0, .take, 3⟩) ∧
     ((s .gateClose Gate.afterReset).dev.gates.get 15).state = .closed ∧
     ((s .gateClose (open_ 0)).dev.gates.get 15).state = .opened ∧
     ((s .gateClose (open_ 0)).dev.gates.get 15).openTime = some ⟨0, false⟩ ∧
     later 0 0x40000000 = false ∧ later 0x40000001 0x40000000 = true ∧
     (∀ t, ((s .gateOpen Gate.afterReset).dev.eng.tasks.get t).runContinues = false)) ∧
    (let s := heard (markerWord .halt 2 0 (haltPayload .fault)) (gated (gateOpenSince 0))
     hears s (some .halt) ∧ (s.dev.gates.get 15).opener = some 2 ∧ (s.dev.gates.get 15).openTime = some ⟨0, false⟩ ∧
     (s.dev.gates.get 0).state = .closed) ∧
    ∀ now, unitSettled now State.reset.dev.eng := by
  refine ⟨⟨by unfold hears; decide, by unfold hears; decide, by decide, ?_, by decide⟩, ⟨by unfold hears; decide, by decide⟩, settled rfl⟩
  intro k h; rcases h with rfl | rfl <;> decide

theorem witness_NoticesReachTheirTask :
    (let f : FreqFields := ⟨.a, .line, 0, 15, 7⟩
     let w : Followed := ⟨1, ⟨0, false⟩, false⟩
     let s := fun st l fo => measuring (.frequency f) (.frequency { freqRun with lineState := l, followed := fo }) (ringOf [])
       (fun k => { k with state := st })
     let e := (s .armed .waitingOpen none).dev.eng
     let e2 := (s .running .following (some w)).dev.eng
     (∀ u, u ≠ 3 → (e.tasks.get u).runContinues = false) ∧ (e.tasks.get 3).runContinues = true ∧
     (e.tasks.get 3).defn = some (defined (.frequency f)) ∧ f.source = .line ∧ f.gate.toNat = (15 : BitVec 4).toNat ∧
     (e.tasks.get 3).run = .frequency { freqRun with lineState := .waitingOpen, followed := none } ∧
     (e.tasks.get 3).state = .armed ∧ (e2.tasks.get 3).state ≠ .armed ∧
     (e2.tasks.get 3).run = .frequency { freqRun with lineState := .following, followed := some w } ∧
     w.generation = 1 ∧ w.generation ≠ 2 ∧ (14 : BitVec 4) ≠ 15 ∧
     endedGateDue 100 ((s .running .following (some w)).dev.front.chan .a) ⟨⟨0, false⟩, ⟨100, false⟩, false, false, false, false, false⟩ = false) := by decide

/-! ## Witnesses: the transmitter, rings, headlines -/

theorem witness_FrameEndCompletesTheAttempt :
    (let s := made (receiving .frame none id)
     s.dev.held = false ∧ s.dev.eng.tx.attempt = none ∧ s.dev.rx.state = .frame ∧ s.dev.rx.attention = some 0 ∧
     reached (atTime (131 * 1600) s).now (plus 0 (131 * 1600)) = true ∧
     reached (atTime (131 * 1600 - 1) s).now (plus 0 (131 * 1600)) = false) ∧
    (∀ k, k = MarkerKind.edge ∨ k = .announce ∨ k = .halt ∨ k = .gateOpen →
      let s := made (sending k (some ⟨0, false⟩) 5 true)
      s.dev.eng.tx.attempt = some (attempt 5 true) ∧ (attempt 5 true).allSampled = true ∧ s.dev.rx.state ≠ .frame ∧
      reached (atTime (131 * 1600) s).now (plus (attempt 5 true).attention (131 * 1600)) = true ∧
      s.dev.eng.tx.queue.find? (fun x => x.inTransmission) = some { outgoing k (some ⟨0, false⟩) with inTransmission := true } ∧
      s.dev.eng.tx.queue.filter (fun x => !x.inTransmission) = []) ∧
    (made (fun d => leaving .reset (sending .halt none 5 true d))).dev.eng.ctl.departure = .reset ∧
    (State.reset.dev.gates.get 0).state = .closed ∧ (∀ t, (State.reset.dev.eng.tasks.get t).runContinues = false) ∧
    ∀ now, unitSettled now State.reset.dev.eng := by
  refine ⟨by decide, ?_, by decide, by decide, by decide, settled rfl⟩
  intro k h; rcases h with rfl | rfl | rfl | rfl <;> decide

theorem witness_AttemptStartBeginsAttention :
    (let s := fun st q => made (fun d => onTx (fun x => { x with queue := q }) (inState st (onRx (fun r => { r with state := .idle }) d)))
     let m := outgoing .announce none
     let x := outgoing .edge (some ⟨0, false⟩)
     (s .live [m]).dev.held = false ∧ (s .live [m]).dev.rx.state = .idle ∧ (s .live [m]).dev.rx.lowSince = none ∧
     (s .live [m]).dev.rx.quietSince = some ⟨0, false⟩ ∧ reached (atTime 6400 (s .live [m])).now (plus 0 (4 * 1600)) = true ∧
     reached (atTime 6399 (s .live [m])).now (plus 0 (4 * 1600)) = false ∧
     (s .live [m]).dev.eng.tx.mute = false ∧ (s .live [m]).dev.eng.tx.attempt = none ∧ (s .live [m]).dev.eng.tx.queue = [m] ∧
     (s .live [m]).dev.eng.ctl.state = .live ∧ x.origin = some ⟨0, false⟩ ∧
     since (atTime (2 ^ 24 - 1) (s .live [x])).now 0 < 2 ^ 24 ∧ 2 ^ 24 ≤ since (atTime (2 ^ 24) (s .live [x])).now 0 ∧
     (s .live [x, m]).dev.eng.tx.queue = x :: m :: [] ∧ x.originTask = none ∧ m.kind = .announce ∧
     (s .halted [outgoing .halt none]).dev.eng.ctl.state = .halted ∧ (s .unset [m]).dev.eng.ctl.state = .unset ∧
     later 1 0 = true ∧ later 0 0 = false) := by decide

theorem witness_RingsAnswerTheirReaders :
    (let r := { ringOf [(0, 1), (100, 3)] with everRemoved := false }
     RingLaw r ∧ (∀ e ∈ r.entries, 1 ≤ e.index) ∧ 0 < r.oldest ∧ r.oldest ≤ 1 ∧ 2 < r.nextIndex ∧ r.nextIndex ≤ 3) :=
  ⟨⟨by decide, by decide, rfl, fun x h => by cases h⟩, by decide⟩

theorem witness_MarkerWordsReadBack : 39 < 40 ∧ checkRight 0x4270079E04 = true := by decide

theorem witness_AnswersAreTheNearest :
    0 < 7999 ∧ saturates 4 7999 = false ∧ saturates 2000000000000 1 = true ∧ 0 < 100 ∧ 99 < 100 := by decide

theorem witness_RequestFramesRoundTrip :
    (Instr.setup (2 ^ 46 - 1) 65535).wellFormed = true ∧ isRequest (.setup (2 ^ 46 - 1) 65535) = true := by decide


/-- A station with a lawful ring of two entries on channel A and gate 15 open, and a command waiting. -/
def lawful : State :=
  { made (fun d => gated (gateOpenSince 0) (onChan .a (fun c =>
      { c with enabled := true, seqNo := 2, count := 3, ring := ringOf [(0, 1), (100, 3)] }) d)) with pending := [.readTime 7] }

theorem witness_StationLawKept : StationLaw lawful.dev ∧ ∃ t, step lawful = .next t := by
  refine ⟨⟨⟨⟨by decide, by decide, by decide⟩, fun ch => ?_⟩, fun i => ?_⟩, ⟨_, rfl⟩⟩
  · cases ch <;> exact ⟨⟨by decide, by decide, by decide, fun x h => by cases h⟩, by decide⟩
  · have h : lawful.dev.gates.get i = gateOpenSince 0 ∨ lawful.dev.gates.get i = Gate.afterReset := by
      revert i; decide
    rcases h with h | h <;> rw [h]
    · exact ⟨fun _ => (by decide), fun o c _ hc => (by cases hc)⟩
    · exact ⟨fun hs => (by cases hs), fun o c ho => (by cases ho)⟩

theorem witness_StandingKept : ∃ t, step { State.reset with pending := [.readTime 7] } = .next t := ⟨_, rfl⟩

/-! ## Further witnesses: the port and the reads -/
/-- The frames of 12.3 at their shortest and longest; a port in each phase, and in REPLY with a body of one byte. -/
theorem witness_TransactionPhasesAdvance_bytes :
    encodeFrame (.retire 0) = some (0x0F :: []) ∧ (Instr.retire 0).kindFits = true ∧
    encodeFrame (.setup 0 65535) = some (0x01 :: [0xFF, 0xFF]) ∧ (Instr.setup 0 65535).kindFits = true ∧
    (∀ p ∈ [Phase.idle, .summary, .body, .fill, .reply, .done],
      (made (inPhase p)).dev.port.phase = p ∧ (made (inPhase p)).dev.port.csLow = true ∧ (made (inPhase p)).dev.held = false) ∧
    (reading [] id).dev.port.reply = some ⟨.ok, [0]⟩ ∧ (reading [] id).dev.port.phase = .reply ∧ 0 < [(0 : Byte)].length := by decide

/-- R174: after the header 0xA5 and the status code a READ RESULT's body follows, then 0x00; nothing is driven with CS# high. -/
theorem test_sdo_bytes :
    ((List.range 4).map (reading [] id).dev.sdo, State.reset.dev.sdo 0, (made (inPhase .fill)).dev.sdo 7) =
    ([some 0xA5, some 0, some 0, some 0], none, some 0) := by decide

theorem witness_CompletedReadFreesAPlace_run :
    ∀ c ∈ [Continuation.paced, .stopAtEnd, .rearmOnRead],
    let td := { defined (.timestamp .d) with continuation := c }
    let s := reading (List.replicate 16 (block 0 false)) (fun k => { running (.timestamp .d) (.timestamp 0) k with
      defn := some td, state := .stalled, heldBlock := some (block 1 false) })
    s.dev.held = false ∧ s.dev.port.phase = .reply ∧ s.dev.port.kind = some 0x09 ∧ s.dev.port.reply = some ⟨.ok, [0]⟩ ∧
    s.dev.eng.ctl.resetDue = false ∧ s.dev.eng.queue = block 0 false :: List.replicate 15 (block 0 false) ∧
    (block 0 false).final = false ∧ (s.dev.eng.tasks.get 3).state = .stalled ∧
    (s.dev.eng.tasks.get 3).heldBlock = some (block 1 false) ∧ (s.dev.eng.tasks.get 3).defn = some td ∧
    (s.dev.eng.tasks.get 3).runEndPending = none ∧ (∀ u, u < 3 → (s.dev.eng.tasks.get u).state ≠ .stalled) ∧
    (s.dev.eng.tasks.get 3).state ≠ .paused ∧ (block 0 false).number ≠ (block 1 false).number ∧
    td.continuation = c := by decide

/-- A ring that has lost its entries 1 to 4. -/
def agedRing : Ring := ⟨[⟨5, 5, 100, 5⟩, ⟨6, 6, 200, 6⟩], 7, true, some ⟨4, ⟨50, false⟩⟩⟩

/-- Task 3 with a cursor, on a station with this ring in channel D. -/
def catching (f : KindFields) (r : RunState) (c : Nat) (ring : Ring) : Station :=
  onTask 3 (fun k => { running f r k with cursor := some c }) (onChan .d (fun ch => { ch with enabled := true, ring := ring })
    State.reset.dev)

/-- An overrun, the oldest entry, and a cursor past the newest. -/
theorem witness_CompletedReadWakesItsTask_catchUp :
    (∀ c ∈ [1, 5, 7], let d := catching (.timestamp .d) (.timestamp 0) c agedRing
      (d.eng.tasks.get 3).defn = some (defined (.timestamp .d)) ∧ (d.eng.tasks.get 3).cursor = some c ∧ d.eng.takes 3 = true ∧
      (d.eng.tasks.get 3).run = .timestamp 0 ∧ RingLaw (d.front.ring .d)) ∧
    (∀ x ∈ agedRing.entries, x.index < 7) ∧ (⟨5, 5, 100, 5⟩ ∈ agedRing.entries ∧ 5 = max 1 agedRing.oldest) ∧
    (∀ xs ∈ [[], [⟨⟨0, false⟩, .taken, 0⟩]], let p : PublishFields := ⟨.d, 15, 255⟩
      let d := catching (.publish p) (.publish ⟨0, 2 ^ 32 - 1, xs⟩) 1 agedRing
      d.eng.takes 3 = true ∧ (d.eng.tasks.get 3).defn = some (defined (.publish p)) ∧
      (d.eng.tasks.get 3).run = .publish ⟨0, 2 ^ 32 - 1, xs⟩) ∧
    State.reset.dev.eng.takes 3 = false := by
  refine ⟨?_, by decide⟩
  intro c h
  simp only [List.mem_cons, List.not_mem_nil, or_false] at h
  rcases h with rfl | rfl | rfl <;> exact ⟨rfl, rfl, rfl, rfl, by decide, by decide, rfl, fun x h => by cases h; rfl⟩

/-- R84: an overrun of four entries enters the gap count of the next result. -/
theorem test_overrun_joins_the_gap :
    (match ((catching (.timestamp .d) (.timestamp 0) 1 agedRing).eng.catchUp
        (catching (.timestamp .d) (.timestamp 0) 1 agedRing).front 3).tasks.get 3 with
     | k => (k.openBlock.getD []).map (fun r => match r with
       | .timestamp r => (r.stamp, r.gapCount, r.gap)
       | _ => (0, 0, false))) = [(100, 4, true), (200, 0, false)] := by decide

/-- Eight entries, the EDGE nearest the tail before an ANNOUNCE. -/
theorem witness_RetireEndsEveryRun_fullQueue :
    let x := outgoing .edge (some ⟨0, false⟩)
    let q := List.replicate 6 x ++ x :: [outgoing .announce none]
    let s := asking (fun d => onTx (fun t => { t with queue := q }) (inState .live d))
    s.dev.eng.tx.queue = q ∧ 8 ≤ q.length ∧ x.kind ≠ .halt ∧ x.kind ≠ .announce ∧ x.originTask = none ∧
    s.dev.eng.tx.mute = false ∧ s.dev.eng.tx.haltSent = false ∧ s.dev.eng.ctl.state = .live ∧ s.dev.eng.ctl.departure = .none ∧
    (∀ y ∈ List.replicate 6 x, y.kind ≠ .halt) ∧ ∀ y ∈ [outgoing .announce none], y.kind = .announce := by decide

theorem witness_ResetRequestOwesTheHalt_queued :
    (let s := asking (fun d => leaving .retire (inState .live (onTx (fun x => { x with queue := [outgoing .halt none] }) d)))
     s.dev.eng.ctl.departure ≠ .reset ∧ s.dev.eng.tx.haltSent = false ∧ ∃ m ∈ s.dev.eng.tx.queue, m.kind = .halt) ∧
    (∀ o ∈ [none, some (3 : TaskId)],
      let x := outgoing .edge (some ⟨0, false⟩)
      let m := { x with originTask := o }
      let q := List.replicate 6 x ++ m :: [outgoing .announce none]
      let s := asking (fun d => onTx (fun t => { t with queue := q }) (inState .live d))
      s.dev.eng.tx.queue = q ∧ 8 ≤ q.length ∧ s.dev.eng.ctl.state = .live ∧ s.dev.eng.ctl.departure ≠ .reset ∧
      s.dev.eng.tx.mute = false ∧ m.kind ≠ .halt ∧ m.kind ≠ .announce ∧ m.originTask = o ∧ m.origin = some ⟨0, false⟩ ∧
      (∀ y ∈ List.replicate 6 x, y.kind ≠ .halt) ∧ (∀ y ∈ [outgoing .announce none], y.kind = .announce) ∧
      ∀ y ∈ (Engine.giveOutcome s.dev.front 3 ⟨⟨0, false⟩, .dropped, 0⟩ { s.dev.eng with tx := { s.dev.eng.tx with
        queue := List.replicate 6 x ++ [outgoing .announce none] } }).tx.queue, y.kind ≠ .halt) := by decide

theorem witness_ReadStatusReportsTheStation_body :
    State.reset.dev.eng.queue.length ≤ 16 ∧ (withQueue (List.replicate 16 (block 0 false)) State.reset.dev).eng.queue.length ≤ 16 ∧
    State.reset.dev.eng.slots.get 0 = none ∧
    (let y : Slot := ⟨1, 0, ⟨0, false⟩, ⟨⟨0, false⟩, ⟨0, false⟩, ⟨0, false⟩⟩, false, 0, 1⟩
     (State.reset.dev.eng.slots.set 7 (some y)).get 7 = some y) := by decide

/-! ## Further witnesses: faults, pins, the end of a frame -/
set_option maxRecDepth 8000 in
theorem witness_SecondFaultHaltsTheStation_line :
    (let s := made (onRx (fun r => { r with state := .stuck, episodeStart := some 0, episodeReported := false })
        ∘ onCtl (fun c => { c with faultHold := true }))
     s.dev.held = false ∧ s.dev.eng.ctl.state ≠ .halted ∧ s.dev.eng.ctl.faultHold = true ∧ s.dev.rx.state = .stuck ∧
     s.dev.rx.episodeReported = false ∧ s.dev.rx.episodeStart = some 0 ∧
     reached (atTime 3200000 s).now (plus 0 (2000 * s.dev.lu)) = true) ∧
    (∀ q ∈ [[], [outgoing .announce none, { outgoing .announce none with inTransmission := true }]],
      let s := made (onTx (fun x => { x with queue := q }) ∘ onCtl (fun c => { c with faultHold := true }) ∘ inState .live ∘
        onRx (fun r => { r with state := .frame, attention := some 0, bits := (List.range 40).map (cellBit 0x400000000B) }))
      s.dev.rx.attention = some 0 ∧ s.dev.rx.judged = false ∧ s.dev.rx.bits.length = 40 ∧ s.dev.rx.ownPart ≠ .sending ∧
      checkRight (wordOfBits s.dev.rx.bits) = true ∧ wordSource (wordOfBits s.dev.rx.bits) = s.dev.eng.ctl.stationNo ∧
      markerKindOf (wordKind (wordOfBits s.dev.rx.bits)) ≠ none ∧ s.dev.eng.tx.mute = false ∧ (s.dev.eng.ctl.departure ≠ .reset ∨ s.dev.eng.ctl.haltOwed = none) ∧
      ∀ m ∈ s.dev.eng.tx.queue, m.originTask = none) := by decide

/-- A station halt with a held block, an open block of results, a slot of each kind of task, and markers of both. -/
theorem witness_SecondFaultHaltsTheStation_taken :
    let y : Slot := ⟨1, 0, ⟨0, false⟩, ⟨⟨0, false⟩, ⟨0, false⟩, ⟨0, false⟩⟩, false, 3, 1⟩
    let r : Result := .timestamp ⟨0, 1, 1, 0, false, false⟩
    let e := (onTask 4 (fun k => { running (.timestamp .a) (.timestamp 0) k with state := .stalled, heldBlock := some (block 7 false) })
      (onTask 3 (fun k => { running (.timestamp .d) (.timestamp 0) k with openBlock := some [r] }) State.reset.dev)).eng
    let e := { e with slots := (e.slots.set 0 (some y)).set 1 (some { y with task := 5, arrival := 2 }) }
    (e.tasks.get 3).state ≠ .empty ∧ (e.tasks.get 5).state = .empty ∧ (e.tasks.get 4).heldBlock = some (block 7 false) ∧
    (e.tasks.get 3).openBlock = some [r] ∧ e.slots.get 0 = some y ∧ e.slots.get 1 = some { y with task := 5, arrival := 2 } ∧
    e.slots.get 2 = none := by decide

/-- A failed and an orphaned result; the failure count one below F, and the run and the block one result from their ends. -/
theorem witness_SecondFaultHaltsTheStation_taskFaults :
    (∀ esc ∈ [Escalation.keep, .raise], ∀ hold ∈ [false, true],
      let td := { defined (.timestamp .d) with failLimit := 255, onPeerLost := esc, onFailureRun := esc }
      let r : Result := .timestamp ⟨0, 1, 1, 0, false, false⟩
      let e := (onCtl (fun c => { c with faultHold := hold }) (inState .live (onTask 3 (fun k =>
        { running (.timestamp .d) (.timestamp 0) k with defn := some td, openBlock := some [r, r], failCount := 254, resultsInRun := 7 })
        State.reset.dev))).eng
      e.takes 3 = true ∧ (e.tasks.get 3).defn = some td ∧ (e.tasks.get 3).openBlock = some [r, r] ∧ e.ctl.state ≠ .halted ∧
      e.ctl.faultHold = hold ∧ td.onPeerLost = esc ∧ td.failLimit ≠ 0 ∧ td.failLimit ≤ min ((e.tasks.get 3).failCount + 1) 255 ∧
      (e.tasks.get 3).resultsInRun + 1 < td.runLength ∧ [r, r].length + 1 < td.blockSize) ∧
    (∀ o ∈ [false, true], let flags : FreqFlags := ⟨true, false, false, false, o, false, false, false⟩
      let r : Result := .frequency ⟨0, 0, 0, 0, 0, 0, 1, flags⟩
      r.failed = true ∧ r.orphaned = o) := by decide

theorem witness_PinChangesAreFiltered_filter :
    (∀ w ∈ [(0 : Fin 64), 1, 63], ∀ level ∈ [false, true],
      let s := made (onChan .b (fun c => { c with
        enabled := true, glitch := w, pinLevel := level, configuredAt := some ⟨100, false⟩, pendingChange := if w = 0 then none else some 0 }))
      let c := s.dev.front.chan .b
      s.dev.held = false ∧ c.enabled = true ∧ c.inShortPulse = false ∧ c.glitch = w ∧ c.configuredAt = some ⟨100, false⟩ ∧
      (⟨(atTime 100 s).now, false⟩ : Kept).laterThan ⟨100, false⟩ = false ∧
      (⟨(atTime 101 s).now, false⟩ : Kept).laterThan ⟨100, false⟩ = true ∧
      c.pendingChange = (if w = 0 then none else some 0) ∧
      reached (atTime (w.val * 32) s).now (plus 0 (w.val * 32)) = true ∧
      (w ≠ 0 → reached (atTime (w.val * 32 - 1) s).now (plus 0 (w.val * 32)) = false) ∧
      ((!c.pinLevel) = c.accepted ↔ level = true)) ∧
    (made (fun d => { d with held := true })).dev.held = true := by decide

/-- R9, R16: a return after exactly W ticks does not undo the change; a change at the moment of the configuration makes none. -/
theorem test_qualified_at_its_moment :
    (let s := made (onChan .b (fun c => { c with enabled := true, glitch := 1, pinLevel := true, pendingChange := some 0 }))
     match exec (.pinLevelChange 32 .b 13) s with
     | .next t => some ((t.dev.front.chan .b).count, (t.dev.front.chan .b).pendingChange)
     | _ => none) = some (1, some 32) ∧
    (let s := made (onChan .b (fun c => { c with enabled := true, configuredAt := some ⟨0, false⟩ }))
     match exec (.pinLevelChange 0 .b 13) s with
     | .next t => some ((t.dev.front.chan .b).count, (t.dev.front.chan .b).accepted)
     | _ => none) = some (0, true) := by decide

/-- The station's own frame, wholly sent since stamp 0, the receiver in FRAME. -/
def ownFrame (m : OutEntry) (f : Station → Station) : State :=
  made (fun d => f (onTx (fun x => { x with queue := [{ m with inTransmission := true }], attempt := some (attempt 5 true) })
    (receiving .frame none (fun r => { r with ownPart := .sending }) d)))

theorem witness_FrameEndCompletesTheAttempt_inFrame :
    (∀ k ∈ [MarkerKind.edge, .announce, .halt, .gateOpen, .gateClose], ∀ g ∈ [Gate.afterReset, gateOpenSince 0, gateOpenSince 9],
      let m := { outgoing k (some ⟨0, false⟩) with tag := 15 }
      let s := ownFrame m (gated g)
      s.dev.held = false ∧ s.dev.rx.state = .frame ∧ s.dev.rx.attention = some 0 ∧
      reached (atTime (131 * 1600) s).now (plus 0 (131 * s.dev.lu)) = true ∧
      reached (atTime (131 * 1600 - 1) s).now (plus 0 (131 * s.dev.lu)) = false ∧
      s.dev.eng.tx.attempt = some (attempt 5 true) ∧ (attempt 5 true).allSampled = true ∧ (attempt 5 true).attention = 0 ∧
      s.dev.eng.tx.queue.find? (fun x => x.inTransmission) = some { m with inTransmission := true } ∧
      s.dev.eng.tx.queue.filter (fun x => !x.inTransmission) = [] ∧ s.dev.gates.get 15 = g ∧ m.origin = some ⟨0, false⟩ ∧
      s.dev.eng.ctl.departure ≠ .reset) ∧
    (∀ st ∈ [TaskState.running, .paused, .done],
      let m := { outgoing .edge (some ⟨0, false⟩) with originTask := some 3 }
      let s := ownFrame m (onTask 3 (fun k => { running (.publish ⟨.d, 15, 255⟩) (.publish ⟨0, 0, []⟩) k with state := st }))
      s.dev.eng.tx.queue.find? (fun x => x.inTransmission) = some { m with inTransmission := true } ∧
      (s.dev.eng.tasks.get 3).run = .publish ⟨0, 0, []⟩ ∧ (s.dev.eng.tasks.get 3).runContinues = decide (st ≠ .done) ∧
      (s.dev.eng.tasks.get 3).takes = decide (st = .running)) ∧
    (let s := made (sending .edge none 5 false ∘ receiving .frame none id)
     s.dev.eng.tx.attempt = some (attempt 5 false) ∧ (attempt 5 false).allSampled = false ∧ s.dev.eng.ctl.haltOwed = none ∧
     s.dev.rx.state = .frame ∧ ∀ m ∈ s.dev.eng.tx.queue, m.removeAtEnd = false) := by decide

/-! ## Further witnesses: catching up -/
/-- A ring that lost entry 1 at stamp 5; its entries 2 to 4 lie at 10, 20 and 8000. -/
def lossyRing : Ring := ⟨[⟨2, 2, 10, 2⟩, ⟨3, 3, 20, 3⟩, ⟨4, 4, 8000, 5⟩], 5, true, some ⟨1, ⟨5, false⟩⟩⟩

/-- Every outcome of a gate's search: valid (also with entries at both ends of the gate), one entry for both searches, none
between, none before with and without a loss. -/
theorem witness_TimedGateIsEvaluated_judged :
    let g := fun (o c : Stamp) => (⟨⟨o, false⟩, ⟨c, false⟩, false, false, false, false, false⟩ : GateSpan)
    (∀ x ∈ [(g 0 8000, AfterAnswer.found ⟨2, 2, 10, 2⟩ .lost, (⟨4, 4, 8000, 5⟩ : Entry)),
        (g 10 20, .found ⟨2, 2, 10, 2⟩ .lost, ⟨3, 3, 20, 3⟩), (g 15 30, .found ⟨3, 3, 20, 3⟩ .certain, ⟨3, 3, 20, 3⟩)],
      lossyRing.firstAtOrAfter x.1.opened = x.2.1 ∧ lossyRing.lastAtOrBefore x.1.closed = .found x.2.2 ∧
      x.1.opened.laterThan ⟨x.2.2.stamp, false⟩ = false) ∧
    lossyRing.lastAtOrBefore (g 30 40).closed = .found ⟨3, 3, 20, 3⟩ ∧ (g 30 40).opened.laterThan ⟨20, false⟩ = true ∧
    lossyRing.lastAtOrBefore (g 0 9).closed = .lost ∧ lossyRing.firstAtOrAfter (g 0 9).opened ≠ .pending ∧
    { lossyRing with entries := [] }.lastAtOrBefore (g 6 9).closed = .lost ∧
    { lossyRing with entries := [] }.firstAtOrAfter (g 6 9).opened = .pending ∧
    (ringOf [(50, 1)]).lastAtOrBefore (g 0 9).closed = .none := by decide

/-- A FREQUENCY task that none or two of its gates passed by, the first gate without a signal, valid, and LOST with the second. -/
theorem witness_TimedGateIsEvaluated_catchUp :
    ∀ n ∈ [0, 2], ∀ x ∈ [(ringOf [], GateOutcome.noSignal), (ringOf [(0, 1), (7999, 5)], .valid),
        (⟨[⟨2, 2, 16001, 2⟩], 3, true, some ⟨1, ⟨5, false⟩⟩⟩, .lost)],
      let f : FreqFields := ⟨.a, .timed, 8000, 0, 7⟩
      let run := { freqRun with passed := n, gateOpen := 16000 }
      let d := atStamp 16001 (measuring (.frequency f) (.frequency run) x.1 id).dev
      let judged := fun i => (d.front.ring f.input).evaluateGate (timedGate d.now run.gateOpen f.gateLength (2 - i))
      d.eng.takes 3 = true ∧ (d.eng.tasks.get 3).defn = some (defined (.frequency f)) ∧ f.source = .timed ∧
      (d.eng.tasks.get 3).run = .frequency run ∧ run.passed = n ∧ (d.eng.tasks.get 3).jobDiscarded = false ∧
      (d.eng.tasks.get 3).resultsInRun < (defined (.frequency f)).runLength ∧ (judged 0).outcome = x.2 ∧
      (x.2 = .lost → (judged 1).outcome = .lost) := by decide

/-- An ended gate of a LINE task that takes entries: without an entry and valid; of a suspended one that missed a gate. -/
theorem witness_LineGatesAreCutAndEvaluated_ended :
    let f : FreqFields := ⟨.a, .line, 0, 15, 7⟩
    let g : GateSpan := ⟨⟨0, false⟩, ⟨8000, false⟩, false, true, true, false, false⟩
    ∀ run ∈ [{ freqRun with ended := some g }, { freqRun with ended := some g, missed := some g },
        { freqRun with ended := some g, later := some ⟨2 ^ 32 - 1, ⟨0, false⟩, false, false, false, false, false, false⟩ }],
      let s := fun st ring => measuring (.frequency f) (.frequency run) ring (fun k => { k with state := st })
      (s .running (ringOf [])).dev.held = false ∧ (∀ u, u ≠ 3 → ((s .running (ringOf [])).dev.eng.tasks.get u).runContinues = false) ∧
      ((s .running (ringOf [])).dev.eng.tasks.get 3).runContinues = true ∧
      ((s .running (ringOf [])).dev.eng.tasks.get 3).run = .frequency run ∧
      reached (atTime 8000 (s .running (ringOf []))).now (plus 8000 (0 * 32 + 1)) = false ∧
      reached (atTime 8001 (s .running (ringOf []))).now (plus 8000 (0 * 32 + 1)) = true ∧
      ((s .paused (ringOf [])).dev.eng.tasks.get 3).takes = false ∧ ((s .running (ringOf [])).dev.eng.tasks.get 3).takes = true ∧
      (s .running (ringOf [])).dev.eng.unit = ⟨[], none⟩ ∧ ((s .running (ringOf [])).dev.eng.tasks.get 3).jobDiscarded = false ∧
      (((ringOf []).evaluateGate g).outcome ≠ .valid) ∧
      (ringOf [(0, 1), (7999, 5)]).evaluateGate g = ⟨.valid, some ⟨1, 1, 0, 1⟩, some ⟨2, 2, 7999, 5⟩, false⟩ := by decide

/-- A LINE task that catches up with no missed gate, one of each outcome, and later ones, one result from its run's end. -/
theorem witness_LineGatesAreCutAndEvaluated_catchUp :
    let f : FreqFields := ⟨.a, .line, 0, 15, 7⟩
    let g : GateSpan := ⟨⟨6, false⟩, ⟨8000, false⟩, false, false, false, false, false⟩
    let m : LaterMissed := ⟨1, ⟨9000, false⟩, false, true, false, false, false, false⟩
    ∀ missed ∈ [none, some g], ∀ later ∈ [none, some m], ∀ n ∈ [0, 8],
      let run := { freqRun with missed := missed, later := later }
      let s := measuring (.frequency f) (.frequency run) (ringOf []) (fun k => { k with resultsInRun := n })
      s.dev.eng.takes 3 = true ∧ (s.dev.eng.tasks.get 3).defn = some (defined (.frequency f)) ∧ f.source = .line ∧
      (s.dev.eng.tasks.get 3).run = .frequency run ∧ run.missed = missed ∧ run.later = later ∧ 1 ≤ m.count ∧
      (s.dev.eng.tasks.get 3).resultsInRun < (defined (.frequency f)).runLength ∧
      ({ lossyRing with entries := [⟨2, 2, 8001, 2⟩], nextIndex := 3, lastRemoved := some ⟨1, ⟨6, false⟩⟩ }.evaluateGate g).outcome = .lost ∧
      ((ringOf []).evaluateGate g).outcome = .noSignal ∧
      (ringOf [(6, 1), (7999, 5)]).evaluateGate g = ⟨.valid, some ⟨1, 1, 6, 1⟩, some ⟨2, 2, 7999, 5⟩, false⟩ := by decide

/-- R47, R63: one result from the end of its run, a LOST result stands for the first missed gate alone: without ORPHANED. -/
theorem test_capped_stretch_keeps_its_own_flags :
    (let f : FreqFields := ⟨.a, .line, 0, 15, 7⟩
     let g : GateSpan := ⟨⟨6, false⟩, ⟨8000, false⟩, false, false, false, false, false⟩
     let m : LaterMissed := ⟨1, ⟨9000, false⟩, false, true, false, false, false, false⟩
     let ring : Ring := ⟨[⟨2, 2, 8001, 2⟩], 3, true, some ⟨1, ⟨6, false⟩⟩⟩
     let s := measuring (.frequency f) (.frequency { freqRun with missed := some g, later := some m }) ring (fun k => { k with resultsInRun := 8 })
     let e := s.dev.eng.catchUp s.dev.front 3
     ((e.tasks.get 3).state, e.queue.map (fun b => b.results.map Result.orphaned))) = (.done, [[false]]) := by decide

theorem witness_ArrivalResolvesTheSignal_catchUp :
    let f : PhaseFields := ⟨.a, .d⟩
    let x : PendingSignal := ⟨⟨1, 1, 50, 1⟩, false⟩
    (∀ c ∈ [1, 3], let e := (onTask 3 (fun k => { running (.phase f) (.phase ⟨none, [x], 0⟩) k with refCursor := some c }) State.reset.dev).eng
      e.takes 3 = true ∧ (e.tasks.get 3).defn = some (defined (.phase f)) ∧ f.reference ≠ f.signal ∧
      (e.tasks.get 3).run = .phase ⟨none, [x], 0⟩ ∧ (e.tasks.get 3).refCursor = some c ∧ (e.tasks.get 3).jobDiscarded = false) ∧
    reached (2 ^ 40 + 49) (plus 50 (2 ^ 40)) = false ∧ reached (2 ^ 40 + 50) (plus 50 (2 ^ 40)) = true ∧
    ((ringOf [(0, 1), (100, 2)]).entries.filter (fun x => decide (1 ≤ x.index))).getLast? = some ⟨2, 2, 100, 2⟩ ∧
    ((ringOf [(0, 1), (100, 2)]).entries.filter (fun x => decide (3 ≤ x.index))).getLast? = none ∧
    (⟨100, false⟩ : Kept).laterThan ⟨50, false⟩ = true ∧
    (ringOf [(0, 1), (100, 2)]).lastAtOrBefore ⟨50, false⟩ = .found ⟨1, 1, 0, 1⟩ ∧
    (ringOf [(0, 1), (100, 2)]).at? 2 = some ⟨2, 2, 100, 2⟩ ∧ agedRing.lastAtOrBefore ⟨50, false⟩ = .lost ∧
    (ringOf [(100, 1)]).lastAtOrBefore ⟨50, false⟩ = .none := by decide

theorem agedRing_lawful : RingLaw agedRing := ⟨by decide, by decide, rfl, fun x h => by cases h; rfl⟩

/-- A search that waits, one past its window, an uncertain count, and a loss. -/
theorem witness_ArrivalStopsOrStarts_judged :
    let x : Start := ⟨⟨0, false⟩, ⟨10, false⟩, ⟨100, false⟩⟩
    (ringOf [(10, 1)]).firstAtOrAfter x.searchFrom = .found ⟨1, 1, 10, 1⟩ .certain ∧
    (⟨100, false⟩ : Kept).laterThan x.windowEnd = false ∧ (⟨101, false⟩ : Kept).laterThan x.windowEnd = true ∧
    (ringOf [(9, 1), (10, 3)]).firstAtOrAfter x.searchFrom = .found ⟨2, 2, 10, 3⟩ .unstamped ∧
    agedRing.firstAtOrAfter x.searchFrom = .found ⟨5, 5, 100, 5⟩ .lost ∧
    { agedRing with entries := [] }.firstAtOrAfter x.searchFrom = .gone ∧
    (ringOf [(9, 1)]).firstAtOrAfter x.searchFrom = .pending := by decide

theorem witness_LimitsGiveNoAnswer_order :
    let x : Start := ⟨⟨0, false⟩, ⟨10, false⟩, ⟨100, false⟩⟩
    let y : Slot := ⟨1, 0, ⟨0, false⟩, x, false, 3, 1⟩
    (∀ xs ∈ [[x], [x, x]], let f : IntervalFields := ⟨.localStart, .b, .a, 10, 100⟩
      let s := measuring (.interval f) (.interval ⟨xs, 0⟩) (ringOf [(9, 1)]) id
      s.dev.held = false ∧ (∀ u, u ≠ 3 → (s.dev.eng.tasks.get u).runContinues = false) ∧ (s.dev.eng.tasks.get 3).takes = true ∧
      (s.dev.eng.tasks.get 3).defn = some (defined (.interval f)) ∧ (s.dev.eng.tasks.get 3).run = .interval ⟨xs, 0⟩ ∧
      (∀ i, s.dev.eng.slots.get i = none) ∧ (s.dev.front.ring .a).firstAtOrAfter x.searchFrom = .pending ∧
      reached (atTime 100 s).now (plus 100 (0 * 32 + 1)) = false ∧ reached (atTime 101 s).now (plus 100 (0 * 32 + 1)) = true ∧
      judgeStart (atTime 101 s).front f x = .noStop none) ∧
    (∀ second ∈ [none, some { y with arrival := 2 }], let f : IntervalFields := ⟨.remoteStart, .b, .a, 10, 100⟩
      let s := measuring (.interval f) (.interval ⟨[], 0⟩) (ringOf [(9, 1)]) id
      let d := { atTime 101 s with eng := { s.dev.eng with slots := (s.dev.eng.slots.set 0 (some y)).set 7 second } }
      d.eng.slots.get 0 = some y ∧ d.eng.slots.get 7 = second ∧ (∀ i, i ≠ 0 → i ≠ 7 → d.eng.slots.get i = none) ∧ y.task = 3 ∧
      judgeStart d.front f y.start ≠ .waits ∧ reached d.now (plus 100 (0 * 32 + 1)) = true ∧
      y.start.time.laterThan y.start.time = false ∧ y.arrival < 2 ∧ (d.eng.tasks.get 3).takes = true) := by decide

theorem witness_LimitsGiveNoAnswer_catchUp :
    let x : Start := ⟨⟨0, false⟩, ⟨10, false⟩, ⟨100, false⟩⟩
    let y : Slot := ⟨1, 0, ⟨0, false⟩, x, false, 3, 1⟩
    (∀ n ∈ [0, 1, 16], ∀ c ∈ [1, 6, 7], let f : IntervalFields := ⟨.localStart, .d, .a, 10, 100⟩
      let d := catching (.interval f) (.interval ⟨List.replicate n x, 0⟩) c agedRing
      d.eng.takes 3 = true ∧ (d.eng.tasks.get 3).defn = some (defined (.interval f)) ∧ (d.eng.tasks.get 3).cursor = some c ∧
      (d.eng.tasks.get 3).run = .interval ⟨List.replicate n x, 0⟩ ∧ (List.replicate n x).length ≤ 16 ∧
      (∀ i, d.eng.slots.get i = none) ∧ judgeStart d.front f x = .waits ∧
      judgeStart (onTb (fun tb => { tb with now := 101 }) d).front f x = .noStop none ∧
      (((d.front.ring .d).entries.filter (fun e => decide (c ≤ e.index))).length = 7 - max c 5)) ∧
    (let f : IntervalFields := ⟨.remoteStart, .b, .a, 10, 100⟩
     let d := catching (.interval f) (.interval ⟨[], 0⟩) 1 agedRing
     let e := { d.eng with slots := d.eng.slots.set 7 (some y) }
     f.source = .remoteStart ∧ e.slots.get 7 = some y ∧ (∀ j, j ≠ 7 → e.slots.get j = none) ∧ e.takes 3 = true ∧
     judgeStart d.front f y.start = .waits ∧ judgeStart (onTb (fun tb => { tb with now := 101 }) d).front f y.start = .noStop none) := by decide

/-! ## Further witnesses: words, slots, gates -/
set_option maxRecDepth 8000 in
/-- The station's own number in a frame of another: with a HALT owed to a retirement or a reset, entries queued, one of task 3. -/
theorem witness_WordsAndPeers_clash :
    let own : BitVec 40 := 0x400000000B
    let x := outgoing .edge (some ⟨0, false⟩)
    (∀ p ∈ [Departure.none, .retire, .reset], ∀ owed ∈ [none, some HaltReason.retired],
      ∀ q ∈ [[], [{ x with inTransmission := true }, x], [{ x with originTask := some 3 }]], ∀ st ∈ [TaskState.running, .paused],
      let s := heard own (fun d => leaving p (onCtl (fun c => { c with haltOwed := owed }) (onTx (fun t => { t with queue := q })
        (inState .live (onTask 3 (fun k => { running (.publish ⟨.d, 15, 255⟩) (.publish ⟨0, 0, []⟩) k with state := st }) d)))))
      s.dev.held = false ∧ s.dev.rx.state = .frame ∧ s.dev.rx.attention = some 0x40000000 ∧ s.dev.rx.judged = false ∧
      s.dev.rx.ownPart ≠ .sending ∧ s.dev.eng.tx.mute = false ∧ s.dev.eng.ctl.state ≠ .halted ∧
      s.dev.eng.ctl.departure = p ∧ s.dev.eng.ctl.haltOwed = owed ∧ s.dev.eng.tx.queue = q ∧ s.dev.eng.ctl.faultHold = false ∧
      (s.dev.eng.tasks.get 3).run = .publish ⟨0, 0, []⟩ ∧ (s.dev.eng.tasks.get 3).runContinues = true ∧
      (s.dev.eng.tasks.get 3).takes = decide (st = .running)) ∧
    (let w := wordOfBits (heard own id).dev.rx.bits
     (heard own id).dev.rx.bits.length = 40 ∧ checkRight w = true ∧ wordSource w = State.reset.dev.eng.ctl.stationNo ∧
     markerKindOf (wordKind w) ≠ none) := by decide

/-- A station that retires hears its own number from another. -/
def retiringClash (hold : Bool) : Station :=
  ((heard 0x400000000B (fun d => leaving .retire (onCtl (fun c =>
    { c with haltOwed := some .retired, haltCause := some .retired, faultHold := hold }) (inState .live d)))).dev).markerReceived
      ⟨0, false, false⟩

set_option maxRecDepth 8000 in
/-- R166, R162, R163: a clash taken in LIVE is held, and the mute then ends the retirement. R167: with the hold set the clash
halts the station, and the halt replaces the departure. -/
theorem test_clash_in_a_retirement :
    (let c := (retiringClash false).eng.ctl
     c.faultHold = true ∧ c.faultRecord.map FaultRecord.cls = some .identityClash ∧ c.state = .halted ∧
     c.haltCause = some .retired) ∧
    (let e := (retiringClash true).eng
     e.ctl.state = .halted ∧ e.ctl.haltCause = some (.fault .identityClash) ∧ e.ctl.departure = .none ∧
     (e.peers.get e.ctl.stationNo).haltReason = some .fault) := by decide

set_option maxRecDepth 8000 in
/-- A clash with the hold set, with and without a retirement whose HALT is owed. -/
theorem witness_WordsAndPeers_held :
    ∀ p ∈ [Departure.none, .retire], ∀ owed ∈ [none, some HaltReason.retired],
    let s := heard 0x400000000B (fun d => leaving p (onCtl (fun c => { c with haltOwed := owed, faultHold := true }) (inState .live d)))
    s.dev.held = false ∧ s.dev.rx.state = .frame ∧ s.dev.rx.attention = some 0x40000000 ∧ s.dev.rx.judged = false ∧
    s.dev.rx.ownPart ≠ .sending ∧ s.dev.eng.tx.mute = false ∧ s.dev.eng.ctl.state ≠ .halted ∧ s.dev.eng.ctl.departure = p ∧
    s.dev.eng.ctl.haltOwed = owed ∧ s.dev.eng.ctl.faultHold = true ∧ s.dev.eng.tx.queue = [] := by decide

set_option maxRecDepth 8000 in
/-- A GATE_OPEN for a gate that is OPEN, with and without its open time, and one for a gate that is CLOSED; the same of a close. -/
theorem witness_GateRecordsFollowTheirMarkers_notices :
    let s := fun k gate => heard (markerWord k 2 15 0) (fun d => gated gate (listening .take (inState .live (onTask 3
      (running (.frequency ⟨.a, .line, 0, 15, 7⟩) (.frequency { freqRun with
        lineState := .following, followed := some ⟨0, ⟨0, false⟩, false⟩ })) d))))
    ∀ k ∈ [MarkerKind.gateOpen, .gateClose], ∀ g ∈ [Gate.afterReset, gateOpenSince 0, { gateOpenSince 0 with openTime := none }],
      hears (s k g) (some k) ∧ (s k g).dev.gates.get 15 = g ∧ (s k g).dev.eng.ctl.state = .live ∧
      decidingEntry (s k g).dev.listen k 2 15 = some ⟨.one, 2, .either, 0, 0, .take, 3⟩ := by
  unfold hears; decide

set_option maxRecDepth 8000 in
/-- A gate of 8,000 TU whose close notice comes at or past its evaluation moment: a task that takes entries or is suspended, a
discarded job of it or none, a gate still awaiting its moment or none; a valid gate and one without a signal. -/
theorem witness_NoticesReachTheirTask_due :
    let f : FreqFields := ⟨.a, .line, 0, 15, 7⟩
    let w : Followed := ⟨1, ⟨0, false⟩, false⟩
    let g : GateSpan := ⟨⟨0, false⟩, ⟨8000, false⟩, false, false, false, false, false⟩
    (∀ st ∈ [TaskState.running, .paused], ∀ disc ∈ [false, true], ∀ old ∈ [none, some g],
      let run := { freqRun with lineState := .following, followed := some w, ended := old }
      let s := measuring (.frequency f) (.frequency run) (ringOf []) (fun k => { k with state := st, jobDiscarded := disc })
      let k := s.dev.eng.tasks.get 3
      k.runContinues = true ∧ k.state ≠ .armed ∧ k.takes = decide (st = .running) ∧ k.jobDiscarded = disc ∧
      k.run = .frequency run ∧ k.resultsInRun < 9 ∧ (∀ u, u ≠ 3 → (s.dev.eng.tasks.get u).runContinues = false)) ∧
    reached 8100 (plus 8000 ((State.reset.dev.front.chan .a).glitch.val * 32 + 1)) = true ∧
    reached 8000 (plus 8000 ((State.reset.dev.front.chan .a).glitch.val * 32 + 1)) = false ∧
    (ringOf [(0, 1), (7999, 5)]).evaluateGate g = ⟨.valid, some ⟨1, 1, 0, 1⟩, some ⟨2, 2, 7999, 5⟩, false⟩ ∧
    ((ringOf []).evaluateGate g).outcome ≠ .valid := by decide

set_option maxRecDepth 8000 in
/-- A joining ANNOUNCE of station 2, heard by a station at place 3 with these entries queued. -/
theorem witness_WordsAndPeers_joining :
    let w := markerWord .announce 2 0 (announcePayload 2047 true)
    let x := outgoing .edge (some ⟨0, false⟩)
    let placed := fun (d : Station) =>
      let own := { d.eng.peers.get d.eng.ctl.stationNo with position := some 3 }
      { d with eng := { d.eng with peers := d.eng.peers.set d.eng.ctl.stationNo own } }
    hears (heard w id) (some .announce) ∧ wordJoining w = true ∧ wordJoining (wordOfBits (heard w id).dev.rx.bits) = true ∧
    (∀ st ∈ [StationState.joining, .live], ∀ mute ∈ [false, true],
      ∀ q ∈ [[], List.replicate 7 x, [outgoing .announce none], List.replicate 6 x ++ x :: [outgoing .halt none]],
      let s := heard w (fun d => placed (onTx (fun t => { t with queue := q, mute := mute }) (inState st d)))
      s.dev.eng.ctl.state = st ∧ (s.dev.eng.peers.get s.dev.eng.ctl.stationNo).position = some 3 ∧ s.dev.eng.tx.mute = mute ∧
      s.dev.eng.tx.haltSent = false ∧ s.dev.eng.tx.queue = q ∧ s.dev.eng.unit.waiting = [] ∧
      ∀ g, (s.dev.gates.get g).state = .closed) ∧
    x.kind ≠ .announce ∧ x.kind ≠ .halt ∧ x.originTask = none ∧ (outgoing .halt none).kind = .halt ∧
    8 ≤ (List.replicate 6 x ++ x :: [outgoing .halt none]).length := by
  refine ⟨by unfold hears; decide, by decide⟩

/-- Task 2 follows gate 15, which station 2 opened, task 5 publishes, each with 1 result a block; eight EDGE markers of task 5
are queued as station 2 announces that it joins. -/
def joinDisplaces : State :=
  let w := markerWord .announce 2 0 (announcePayload 2047 true)
  let one := fun (f : KindFields) (r : RunState) (k : TaskRec) => { running f r k with defn := some { defined f with blockSize := 1 } }
  heard w (fun d =>
    let own := { d.eng.peers.get d.eng.ctl.stationNo with position := some 3 }
    gated (gateOpenSince 0) (onTx (fun t =>
        { t with queue := List.replicate 8 { outgoing .edge (some ⟨0, false⟩) with originTask := some 5 } })
      (inState .live (atStamp 0x41000000
        (onTask 5 (one (.publish ⟨.d, 15, 255⟩) (.publish ⟨0, 0, []⟩))
          (onTask 2 (one (.frequency ⟨.a, .line, 8000, 15, 7⟩)
            (.frequency { freqRun with lineState := .following, followed := some ⟨0, ⟨0, false⟩, false⟩ }))
            { d with eng := { d.eng with peers := d.eng.peers.set d.eng.ctl.stationNo own } }))))))

set_option maxRecDepth 8000 in
/-- The DROPPED outcome of task 5's marker and the orphaned gate of task 2 come at one moment. -/
theorem witness_WordsAndPeers_together :
    hears joinDisplaces (some .announce) ∧ wordJoining (wordOfBits joinDisplaces.dev.rx.bits) = true ∧
    (let d := joinDisplaces.dev
     let m := { outgoing .edge (some ⟨0, false⟩) with originTask := some 5 }
     d.eng.ctl.state = .live ∧ (d.eng.peers.get d.eng.ctl.stationNo).position = some 3 ∧ d.eng.tx.mute = false ∧
     d.eng.tx.haltSent = false ∧ d.eng.tx.queue = List.replicate 7 m ++ m :: [] ∧ 8 ≤ d.eng.tx.queue.length ∧
     m.kind ≠ .halt ∧ m.kind ≠ .announce ∧ (d.gates.get 15).state = .opened ∧ (d.gates.get 15).opener = some 2) := by
  refine ⟨by unfold hears; decide, by decide⟩

set_option maxRecDepth 8000 in
/-- R152: blocks offered at the same moment are taken in ascending task number. -/
theorem test_one_announce_offers_blocks_in_task_order :
    ((joinDisplaces.dev.markerReceived ⟨0, false, false⟩).eng.queue.map Block.task) = [2, 5] := by decide

set_option maxRecDepth 8000 in
/-- A task that takes entries and whose search waits, or is over: the stop lies in the ring of channel B. -/
theorem witness_TakenEdgeFillsASlot_judged :
    let f : IntervalFields := ⟨.remoteStart, .a, .b, 1, 100⟩
    ∀ ring ∈ [ringOf [], ringOf [(0x40000000, 1)]],
      let s := heard 0x4270079E04 (fun d => onChan .b (fun c => { c with enabled := true, ring := ring }) (listening .take (inState .live
        (onTask 3 (running (.interval f) (.interval ⟨[], 0⟩)) (atStamp 0x40000100 d)))))
      let time := (0x40000000 : Stamp) - BitVec.ofNat 48 (wordDelay (wordOfBits s.dev.rx.bits))
      let v := judgeStart s.dev.front f ⟨⟨time, false⟩, ⟨time + 1, false⟩, ⟨time + 100, false⟩⟩
      (s.dev.eng.tasks.get 3).takes = true ∧ (s.dev.eng.tasks.get 3).run = .interval ⟨[], 0⟩ ∧ s.dev.eng.slots.get 0 = none ∧
      s.dev.rx.judged = false ∧ s.dev.rx.bits.length = 40 ∧ v ≠ .waits := by decide

theorem witness_TakenEdgeFillsASlot_freed :
    let y : Slot := ⟨1, 0, ⟨0, false⟩, ⟨⟨0, false⟩, ⟨0, false⟩, ⟨0, false⟩⟩, false, 3, 1⟩
    let slots := (State.reset.dev.eng.slots.set 0 (some y)).set 3 (some { y with arrival := 2 })
    let e := { State.reset.dev.eng with slots := slots.set 7 (some { y with task := 5, arrival := 3 }) }
    e.slots.get 0 = some y ∧ e.slots.get 3 = some { y with arrival := 2 } ∧ e.slots.get 7 = some { y with task := 5, arrival := 3 } ∧
    e.slots.get 1 = none ∧ ∀ j, j ≠ 7 → (e.slots.get j).all (fun z => decide (z.task ≠ 5)) = true := by decide

/-- R131: freeing the first of three slots moves the others up. -/
theorem test_arrivals_close_up :
    (let y : Slot := ⟨1, 0, ⟨0, false⟩, ⟨⟨0, false⟩, ⟨0, false⟩, ⟨0, false⟩⟩, false, 3, 1⟩
     let slots := (State.reset.dev.eng.slots.set 0 (some y)).set 3 (some { y with arrival := 2 })
     let e := { State.reset.dev.eng with slots := slots.set 7 (some { y with task := 5, arrival := 3 }) }
     taskIds.map (fun i => ((e.freeSlot 0).slots.get i).map Slot.arrival)) =
    [none, none, none, some 1, none, none, none, some 2] := by decide

set_option maxRecDepth 8000 in
/-- R146: station 2 joins again; gate 15 is open since before and since after the attention, and gate 0 is closed. -/
theorem witness_GateRecordsFollowTheirMarkers_joining :
    let w := markerWord .announce 2 0 (announcePayload 0 true)
    hears (heard w id) (some .announce) ∧ wordJoining (wordOfBits (heard w id).dev.rx.bits) = true ∧
    (let s := fun t => heard w (gated (gateOpenSince t))
     ((s 0).dev.gates.get 15).state = .opened ∧ ((s 0).dev.gates.get 15).opener = some 2 ∧
     ((s 0).dev.gates.get 15).openTime = some ⟨0, false⟩ ∧ ((s 0).dev.gates.get 0).state = .closed ∧
     ((s 0x40000001).dev.gates.get 15).openTime = some ⟨0x40000001, false⟩ ∧
     ((s 0x40000001).dev.gates.get 15).opener = some 2) := by
  refine ⟨by unfold hears; decide, by decide⟩

theorem witness_RequestFramesRoundTrip_words :
    (Instr.setup 0 65535).wellFormed = true ∧ (Instr.setup 0 65535).dt = 0 ∧
    encodeFrame (.setup 0 65535) = some [0x01, 0xFF, 0xFF] := by decide

/-- 12.3: SETUP with field 0x0102, ARM TASK 3 and READ TIME as words, and a kind byte that 12.3 does not have. -/
theorem test_request_words :
    decodeTableWord 24 0x020101 = some (.setup 0 0x0102) ∧ decodeTableWord 16 0x0304 = some (.armTask 0 3) ∧
    decodeTableWord 8 0x0B = some (.readTime 0) ∧ decodeTableWord 8 0x11 = some (.unknownRequest 0 0x11) := by decide

/-! ## Further witnesses: the arbiter, attempts cut, stale heads, hand-offs -/

/-- A divider at work on task 3's job since stamp 0, jobs of these tasks waiting. -/
def dividing (waiting : List TaskId) (discarded : Bool) (f : TaskRec → TaskRec) : State :=
  made (fun d => withUnit ⟨waiting.map (fun t => ⟨t, .phase 1 2⟩), some ⟨3, .phase 50 100, 0, discarded, true⟩⟩ (onTask 3 f d))

theorem witness_JobFinishes_next :
    (∀ ws ∈ [[5, 1], [1], [1, 7]],
      let s := dividing ws false (fun k => { running (.phase ⟨.b, .a⟩) (.phase ⟨none, [], 0⟩) k with
        waitingResult := some (.phase ⟨50, false⟩ 100 ⟨0, false⟩ ⟨100, false⟩) })
      s.dev.held = false ∧ s.dev.eng.unit = ⟨ws.map (fun t => ⟨t, .phase 1 2⟩), some ⟨3, .phase 50 100, 0, false, true⟩⟩ ∧
      reached (atTime 3200 s).now (plus 0 3200) = true ∧ (⟨1, .phase 1 2⟩ : WaitingJob) ∈ s.dev.eng.unit.waiting ∧
      (∀ v ∈ s.dev.eng.unit.waiting, v = ⟨1, .phase 1 2⟩ ∨ 1 < v.task) ∧ (1 : TaskId) ≠ 3 ∧
      (s.dev.eng.tasks.get 3).waitingResult = some (.phase ⟨50, false⟩ 100 ⟨0, false⟩ ⟨100, false⟩) ∧
      (s.dev.eng.tasks.get 3).run = .phase ⟨none, [], 0⟩) ∧
    (∀ ws ∈ [[], [5], [1]], ∀ w ∈ [(⟨3, .phase 9 9⟩ : WaitingJob), ⟨1, .phase 1 2⟩],
      let s := dividing ws true (fun k => { k with jobDiscarded := true, heldBackJob := some (.phase 9 9) })
      let all := s.dev.eng.unit.waiting ++ (s.dev.eng.tasks.get 3).heldBackJob.toList.map (fun ops => ⟨3, ops⟩)
      (w ∈ all ∧ ∀ v ∈ all, v = w ∨ w.task < v.task) ↔ (w.task = 1 ↔ ws = [1])) ∧
    (let f : FreqFields := ⟨.a, .timed, 8000, 0, 7⟩
     let g : GateSpan := ⟨⟨0, false⟩, ⟨8000, false⟩, false, false, false, false, false⟩
     let s := made (fun d => withUnit ⟨[⟨1, .phase 1 2⟩], some ⟨3, .frequency 4 7999 7 none, 0, false, true⟩⟩ (onTask 3 (fun k =>
       { running (.frequency f) (.frequency freqRun) k with
         waitingResult := some (.frequency g 4 7999 ⟨0, false⟩ ⟨7999, false⟩ false) }) d))
     (s.dev.eng.tasks.get 3).run = .frequency freqRun ∧ (s.dev.eng.tasks.get 3).defn = some (defined (.frequency f)) ∧
     (s.dev.eng.tasks.get 3).waitingResult = some (.frequency g 4 7999 ⟨0, false⟩ ⟨7999, false⟩ false) ∧
     (s.dev.eng.tasks.get 3).resultsInRun < (defined (.frequency f)).runLength) := by decide

theorem witness_JobFinishes_arbiter :
    (∀ ws ∈ [[5, 1], [1]],
      let e := (dividing ws false id).dev.eng
      (⟨1, .phase 1 2⟩ : WaitingJob) ∈ e.unit.waiting ∧ (∀ v ∈ e.unit.waiting, v = ⟨1, .phase 1 2⟩ ∨ 1 < v.task)) ∧
    (let j := fun handed discarded start => (⟨3, .phase 50 100, start, discarded, handed⟩ : CurrentJob)
     (j true false 7).handed = true ∧ (j true false 7).discarded = false ∧ (j true false 7).start = 7 ∧ (1 : TaskId) < 3 ∧
     (j false false 7).handed = false ∧ (j true true 7).discarded = true ∧ (j true false 6).start ≠ 7 ∧ ¬(4 : TaskId) < 3) ∧
    (withUnit ⟨[⟨1, .phase 1 2⟩], none⟩ State.reset.dev).eng.unit.current = none := by decide

/-- R93: task 5's job started at stamp 7 as it was handed over; task 2 hands one over by another command. At stamp 7 task 2's
starts instead, a TU later it waits. -/
theorem test_jobs_of_one_moment :
    let first := (State.reset.dev.eng.enterJob 5 (.phase 1 2)).arbitrate 7
    let later := fun now => ((first.enterJob 2 (.phase 3 4)).arbitrate now).unit
    (later 7 = ⟨[⟨5, .phase 1 2⟩], some ⟨2, .phase 3 4, 7, false, true⟩⟩) ∧
    (later 8 = ⟨[⟨2, .phase 3 4⟩], some ⟨5, .phase 1 2, 7, false, true⟩⟩) := by decide

/-- R115: a hold begun 130 LU into a frame lasts 2 LU, past the frame's end at 131 LU. -/
theorem test_hold_outlasts_the_frame :
    let s := made (receiving .frame none (fun r => { r with holdFrom := some (130 * 1600) }))
    (match exec (.frameEnd (131 * 1600) ⟨0, false, true⟩) s with
     | .next t => some (t.dev.rx.state, t.dev.drivesLine, (t.dev.elapse 1599).drivesLine, (t.dev.elapse 1600).drivesLine)
     | _ => none) = some (.idle, true, true, false) := by decide

/-- The sender of an entry that a station halt found in transmission, the HALT owed, other entries behind. -/
def cutting (more : List OutEntry) (sampled : Bool) (f : Receiver → Receiver) : State :=
  made (fun d => onCtl (fun c => { c with haltOwed := some .fault }) (onTx (fun x => { x with
    queue := more ++ [{ outgoing .edge (some ⟨0, false⟩) with inTransmission := true, removeAtEnd := true }],
    attempt := some (attempt (2 ^ 39) sampled) }) (receiving .frame (some 0) f d)))

theorem witness_LineEdgesAndStuckEpisodes_cut :
    ∀ sampled, ∀ more ∈ [[], [haltEntry .fault], List.replicate 7 (outgoing .gateOpen (some ⟨0, false⟩))],
    let s := cutting more sampled id
    s.dev.held = false ∧ s.dev.rx.lowSince = some 0 ∧ s.dev.rx.state ≠ .stuck ∧
    s.dev.eng.tx.attempt = some (attempt (2 ^ 39) sampled) ∧ (attempt (2 ^ 39) sampled).allSampled = sampled ∧
    6 * s.dev.lu ≤ since (atTime 9600 s).now 0 ∧ 6 * s.dev.lu < since (atTime 9601 s).now 0 ∧
    (atTime 9601 s).drivesLine = false ∧
    (∀ m ∈ s.dev.eng.tx.queue.filter (fun m => m.inTransmission && m.removeAtEnd), m.originTask = none) ∧
    s.dev.eng.tx.mute = false ∧ s.dev.eng.tx.haltSent = false ∧
    (s.dev.eng.tx.queue.filter (fun m => !(m.inTransmission && m.removeAtEnd))).length < 8 := by decide

theorem witness_BrokenFramesKeepTheirEntry_afterHalt :
    ∀ more ∈ [[], [haltEntry .fault], List.replicate 7 (outgoing .gateOpen (some ⟨0, false⟩))],
    let s := cutting more false (fun r => { r with ownPart := .sending, bits := [false], cellPos := .bit 1 })
    s.dev.rx.state = .frame ∧ s.dev.rx.ownPart = .sending ∧ s.dev.rx.openCell = none ∧ s.dev.rx.bits = [] ++ [false] ∧
    cellBit (2 ^ 39) 0 = true ∧ s.dev.rx.waitFrom = some 0 ∧ reached (atTime 6400 s).now (plus 0 (4 * 1600)) = true ∧
    (∀ m ∈ s.dev.eng.tx.queue.filter (fun m => m.inTransmission && m.removeAtEnd), m.originTask = none) ∧
    s.dev.eng.ctl.haltOwed ≠ none ∧ s.dev.eng.tx.mute = false ∧ s.dev.eng.tx.haltSent = false ∧
    (s.dev.eng.tx.queue.filter (fun m => !(m.inTransmission && m.removeAtEnd))).length < 8 := by decide

/-- R126, R162: an entry in transmission at a halt whose attempt is cut is dropped, and the owed HALT stands alone. -/
theorem test_cut_after_a_halt :
    (match exec (.stuckEntry 9600) (cutting [] false id) with
     | .next t => some (t.dev.eng.tx.queue, t.dev.eng.ctl.counters.dropped, t.dev.eng.ctl.latched.markerLoss)
     | _ => none) = some ([haltEntry .fault], 1, true) := by decide

/-- A LIVE station with a quiet line, this outgoing queue, and task 3 as given. -/
def quietWith (q : List OutEntry) (f : TaskRec → TaskRec) : State :=
  made (fun d => onTask 3 f (onTx (fun x => { x with queue := q }) (inState .live (onRx (fun r => { r with state := .idle }) d))))

theorem witness_AttemptStartBeginsAttention_stale :
    let old := outgoing .gateOpen (some ⟨0, false⟩)
    let mine := { outgoing .edge (some ⟨0, false⟩) with originTask := some 3 }
    (∀ st ∈ [TaskState.running, .paused, .done], ∀ rest ∈ [[], [outgoing .halt none], [outgoing .gateClose (some ⟨1, false⟩)]],
     ∀ olds ∈ [[old], [old, old, mine], [mine, old]],
      let s := quietWith (olds ++ rest) (fun k => { running (.publish ⟨.d, 15, 255⟩) (.publish ⟨0, 0, []⟩) k with state := st })
      s.dev.held = false ∧ s.dev.eng.tx.mute = false ∧ s.dev.eng.tx.attempt = none ∧ s.dev.rx.state = .idle ∧
      s.dev.rx.lowSince = none ∧ s.dev.rx.quietSince = some ⟨0, false⟩ ∧
      reached (atTime (2 ^ 24) s).now (plus 0 (4 * s.dev.lu)) = true ∧ s.dev.eng.tx.queue = olds ++ rest ∧
      s.dev.eng.ctl.state = .live ∧
      (∀ m ∈ olds, m.kind ≠ .halt ∧ m.kind ≠ .announce ∧ m.origin = some ⟨0, false⟩) ∧
      (s.dev.eng.tasks.get 3).run = .publish ⟨0, 0, []⟩ ∧ (s.dev.eng.tasks.get 3).runContinues = decide (st ≠ .done) ∧
      (s.dev.eng.tasks.get 3).takes = decide (st = .running)) ∧
    2 ^ 24 ≤ since (plus 0 (2 ^ 24)) 0 ∧ ¬2 ^ 24 ≤ since (plus 0 (2 ^ 24)) 1 ∧ (outgoing .halt none).kind = .halt := by decide

/-- R123: two stale heads leave at once, and attention begins with the gate marker behind them. -/
theorem test_stale_heads :
    let q := [outgoing .edge (some ⟨0, false⟩), outgoing .gateOpen (some ⟨0, false⟩), outgoing .gateClose (some ⟨1, false⟩)]
    (match exec (.attemptStart (2 ^ 24) 0) (quietWith q id) with
     | .next t => some (t.dev.eng.tx.queue.map OutEntry.kind, t.dev.eng.tx.attempt.map (fun a => wordPayload a.word),
                        t.dev.eng.ctl.counters.stale)
     | _ => none) = some ([.gateClose], some 0xFFFFFF, 2) := by decide

/-- Tasks 3 and 5 are STALLED with a block each, the head of task 1's block goes out; this many blocks behind it. -/
def handing (n : Nat) (final : Bool) (f : TaskRec → TaskRec) : State :=
  made (fun d => withPort (withQueue ({ block 0 final with task := 1 } :: List.replicate n (block 9 false))
    (onTask 3 (fun k => { running (.timestamp .d) (.timestamp 0) k with state := .stalled, heldBlock := some (block 1 false) })
    (onTask 5 (fun k => { running (.timestamp .d) (.timestamp 0) k with
      state := .stalled, heldBlock := some { block 2 true with task := 5 }, runEndPending := some .disarm })
    (onTask 1 f d)))) ⟨.reply, true, none, some 0x09, [], some ⟨.ok, [0]⟩⟩)

theorem witness_CompletedReadFreesAPlace_several :
    ∀ n ∈ [15, 14, 0],
    let s := handing n false id
    s.dev.held = false ∧ s.dev.port.phase = .reply ∧ s.dev.port.kind = some 0x09 ∧ s.dev.port.reply = some ⟨.ok, [0]⟩ ∧
    s.dev.eng.ctl.resetDue = false ∧
    s.dev.eng.queue = { block 0 false with task := 1 } :: List.replicate n (block 9 false) ∧
    (∀ t, (s.dev.eng.tasks.get t).state = .stalled → (s.dev.eng.tasks.get t).heldBlock ≠ none) ∧
    (taskIds.filter (fun t => (s.dev.eng.tasks.get t).state == .stalled)).take (16 - n) = (if n = 15 then [3] else [3, 5]) := by
  decide

theorem witness_CompletedReadFreesAPlace_final :
    (let s := fun on => made (fun d => inState .live (onChan .d (fun c => { c with enabled := on }) (withPort
        (withQueue ({ block 0 true with task := 1 } :: List.replicate 15 (block 9 false))
          (onTask 1 (fun k => { k with defn := some (defined (.timestamp .d)), state := .done, rearmPending := true })
          (onTask 3 (fun k => { running (.timestamp .d) .none k with
            state := .stalled, heldBlock := some (block 1 true), runEndPending := some .disarm }) d)))
        ⟨.reply, true, none, some 0x09, [], some ⟨.ok, [0]⟩⟩)))
     (s true).dev.held = false ∧ (s true).dev.port.phase = .reply ∧ (s true).dev.eng.ctl.resetDue = false ∧
     (List.replicate 15 (block 9 false)).length = 15 ∧ ((s true).dev.eng.tasks.get 3).state = .stalled ∧
     ((s true).dev.eng.tasks.get 3).heldBlock = some (block 1 true) ∧
     ((s true).dev.eng.tasks.get 3).runEndPending = some .disarm ∧
     (∀ u, u < 3 → ((s true).dev.eng.tasks.get u).state ≠ .stalled) ∧ ((s true).dev.eng.tasks.get 1).state = .done ∧
     ((s true).dev.eng.tasks.get 1).rearmPending = true ∧
     ((s true).dev.eng.tasks.get 1).defn = some (defined (.timestamp .d)) ∧
     (s true).dev.eng.armRefusal (s true).dev.front (defined (.timestamp .d)) = none ∧
     (s false).dev.eng.armRefusal (s false).dev.front (defined (.timestamp .d)) ≠ none) ∧
    ∀ now, unitSettled now State.reset.dev.eng :=
  ⟨by decide, settled rfl⟩

theorem witness_ArrivalStopsOrStarts_shared :
    (let f : IntervalFields := ⟨.localStart, .b, .b, 10, 100⟩
     let y : Start := ⟨⟨0, false⟩, ⟨10, false⟩, ⟨100, false⟩⟩
     let e := (runs (.interval f) (.interval ⟨[y], 0⟩) State.reset.dev).eng
     (∀ u, u ≠ 3 → (e.tasks.get u).runContinues = false) ∧ e.takes 3 = true ∧
     (e.tasks.get 3).defn = some (defined (.interval f)) ∧ (e.tasks.get 3).run = .interval ⟨[y], 0⟩ ∧
     (∀ i, e.slots.get i = none) ∧ (e.tasks.get 3).cursor = some 1) ∧
    (let f : IntervalFields := ⟨.localStart, .b, .b, 10, 100⟩
     let y : Start := ⟨⟨0, false⟩, ⟨10, false⟩, ⟨100, false⟩⟩
     let fr := fun x => (onChan .b (fun c => { c with enabled := true, ring := ringOf [(x, 1)] }) (atStamp x State.reset.dev)).front
     f.source = .localStart ∧ f.startChannel = .b ∧ f.stopChannel = .b ∧
     ((fr 9).ring .b).firstAtOrAfter ⟨19, false⟩ = .pending ∧ ((fr 10).ring .b).firstAtOrAfter ⟨20, false⟩ = .pending ∧
     reached (fr 9).now (plus 109 (((fr 9).chan .b).glitch.val * 32 + 1)) = false ∧
     y.searchFrom.laterThan ⟨9, false⟩ = true ∧ y.searchFrom.laterThan ⟨10, false⟩ = false ∧
     judgeStart (fr 9) f y = .waits ∧ judgeStart (fr 10) f y ≠ .waits ∧
     (List.replicate 15 y).length < 16 ∧ ¬(List.replicate 16 y).length < 16) ∧
    ∀ now, unitSettled now State.reset.dev.eng :=
  ⟨by decide, by decide, settled rfl⟩

/-- R78: the second edge of a shared channel stops the first and is a start itself. -/
theorem test_shared_channel :
    let f : IntervalFields := ⟨.localStart, .b, .b, 10, 100⟩
    let e := (runs (.interval f) (.interval ⟨[⟨⟨0, false⟩, ⟨10, false⟩, ⟨100, false⟩⟩], 0⟩) State.reset.dev).eng
    let fr := (onChan .b (fun c => { c with enabled := true, ring := ringOf [(40, 1)] }) (atStamp 40 State.reset.dev)).front
    let k := (e.arrival fr .b ⟨1, 1, 40, 1⟩).tasks.get 3
    (k.run, k.openBlock.map List.length) = (.interval ⟨[⟨⟨40, false⟩, ⟨50, false⟩, ⟨140, false⟩⟩], 0⟩, some 1) := by decide

theorem witness_TransactionPhasesAdvance_idle :
    (∀ held, let s := made (fun d => { inPhase .idle d with held := held })
      s.dev.held = held ∧ s.dev.port.phase = .idle ∧ s.dev.port.csLow = true) ∧
    State.reset.dev.port.csLow = false ∧ (made (inPhase .done)).dev.port.phase = .done ∧
    (∀ p ∈ [Phase.summary, .body, .fill, .reply], (made (inPhase p)).dev.port.phase = p) := by decide

/-- 12.5, by hand: a PUBLISH record and a LOCAL INTERVAL record. -/
theorem test_result_records :
    (Result.publish ⟨258, .dropped, 3, 4, true, false⟩).bytes = [0, 0, 0, 0, 1, 2, 4, 0, 0, 3, 0, 0, 0, 4, 1] ∧
    (Result.interval ⟨1, 2, none, 0, 3, ⟨false, true, false, false, true⟩⟩).bytes =
      [0, 0, 0, 0, 0, 1, 0, 0, 0, 0, 0, 2, 0xFF, 0, 0, 0, 0, 3, 0x12] := by decide

/-! ## Worked figures of the spec -/

/-- R96, "Worked figures"; the fourth is the quotient before the limit of R97. -/
theorem test_frequency_figures :
    frequencyOf 10000000 8000000123 = 9999999846 ∧ frequencyOf 9000 7200000 = 10000000000 ∧
    frequencyOf 1 65536 = 122070313 ∧ rawFrequency 1 3 = 2666666666667 := by decide

/-- R98, "Worked figures, s = 2" and "floor toward minus infinity, s = 7". -/
theorem test_smoothing_figures :
    newSmoothing none 2 10000000000 = 2560000000000 ∧ newSmoothing (some 2560000000000) 2 10000000400 = 2560000025600 ∧
    smoothedOf 2560000025600 = 10000000100 ∧ newSmoothing (some 2560000025600) 2 9999999600 = 2559999993600 ∧
    smoothedOf 2559999993600 = 9999999975 ∧ smoothedOf 1002 = 4 ∧ smoothedOf 997 = 4 := by decide

/-- R99, "Worked figures". -/
theorem test_phase_figures :
    phaseOf 20000 80000 = 16384 ∧ phaseOf 6000 8000 = 49152 ∧ phaseOf 0 64 = 0 ∧ phaseOf 63 64 = 64512 := by decide

/-- 6.7, "Worked figures across a wrap". -/
theorem test_differences_across_the_wrap :
    since 4000 281474976700000 = 14656 ∧ (5000 : Stamp) - 31200 - 880 = 281474976683576 ∧
    ((8500 : EdgeCount) - 1099511627276).toNat = 9000 := by decide

/-- R119, "Worked check": station 2, EDGE, tag 7, delay 31,200. -/
theorem test_marker_word_figure :
    markerWord .edge 2 7 31200 = 0x4270079E04 ∧ checkRight 0x4270079E04 = true ∧ checkRight 0x4260079E04 = false := by decide

/-- Chapter 02, "Worked example": the newest five entries of its ring, and four of its searches. -/
theorem test_ring_searches :
    let r : Ring := ⟨[⟨64, 64, 73000, 64⟩, ⟨65, 65, 74000, 65⟩, ⟨66, 66, 75000, 67⟩, ⟨67, 67, 76000, 68⟩], 68, true,
      some ⟨63, ⟨72000, false⟩⟩⟩
    r.firstAtOrAfter ⟨74010, false⟩ = .found ⟨66, 66, 75000, 67⟩ .unstamped ∧
    r.firstAtOrAfter ⟨5000, false⟩ = .found ⟨64, 64, 73000, 64⟩ .lost ∧ r.firstAtOrAfter ⟨76001, false⟩ = .pending ∧
    r.lastAtOrBefore ⟨74500, false⟩ = .found ⟨65, 65, 74000, 65⟩ ∧ r.lastAtOrBefore ⟨12500, false⟩ = .lost ∧
    r.read 62 = .overrun 2 64 := by decide

/-- Station 5 of chapter 08, "one EDGE marker from word to interval", as the check nibble is sampled. -/
def stationFive : State :=
  let f : IntervalFields := ⟨.remoteStart, .a, .c, 1000, 40000⟩
  let peer := fun p : BitVec 11 => ({ state := .live, position := some p, haltReason := none, lastAnnounce := none } : Peer)
  let entries : Per8 ListenEntry := ⟨⟨.one, 3, .either, 0, 0, .refuse, 0⟩, ⟨.upto, 1, .edge, 0, 0, .pass, 0⟩,
    ⟨.upto, 4, .edge, 7, 15, .take, 6⟩, ⟨.upto, 15, .either, 0, 0, .pass, 0⟩, .afterReset, .afterReset, .afterReset, .afterReset⟩
  made (fun d =>
    let d := onTask 6 (running (.interval f) (.interval ⟨[], 0⟩)) (inState .live (atStamp 903429000 d))
    let d := onCtl (fun c => { c with stationNo := 5, longUnit := true }) d
    let d := onTb (fun tb => { tb with monitor := .present, degraded := false, spans := [] }) d
    let d := onChan .c (fun c => { c with enabled := true, ring :=
      ⟨[⟨411, 411, 902405000, 411⟩, ⟨412, 412, 902420000, 412⟩], 413, true, some ⟨410, ⟨902000000, false⟩⟩⟩ }) d
    let d := onRx (fun r => { r with state := .frame, attention := some 902441000, bits := cells 0x4270079E04 }) d
    { d with listen := entries, eng := { d.eng with peers := (d.eng.peers.set 2 (peer 120)).set 5 (peer 1000) } })

set_option maxRecDepth 8000 in
/-- The same example: task 6 takes an interval of 11,080 TU from origin 2, tag 7. -/
theorem test_edge_marker_from_word_to_interval :
    (match exec (.markerReceived 0 ⟨5, true, false⟩) stationFive with
     | .next t => some (t.dev.rx.answer, (t.dev.eng.tasks.get 6).openBlock)
     | _ => none) =
    some (.taken, some [.interval ⟨902408920, 11080, some 2, 7, 0, ⟨false, false, false, false, false⟩⟩]) := by decide

/-- Chapter 08, "a full queue meets a reply and a retirement", step 3: E7 gives way to the HALT at the head. -/
theorem test_retire_with_a_full_queue :
    let e := outgoing .edge (some ⟨0, false⟩)
    let s := asking (fun d => inState .live (onTx (fun x => { x with queue :=
      [{ e with inTransmission := true }, e, e, e, e, e, e, outgoing .announce none] }) d))
    (match exec (.retire 0) s with
     | .next t => some (t.dev.eng.tx.queue.map OutEntry.kind, t.dev.eng.ctl.counters.dropped)
     | _ => none) = some ([.halt, .edge, .edge, .edge, .edge, .edge, .edge, .announce], 1) := by decide

/-- R33, R51: a TIMED gate length below 8,000 is raised, above 2^40 lowered; the shift is held to 7. -/
theorem test_gate_length_is_clamped :
    (freqFieldsOf 0x0000_FFFFFFFFFFFF_00_09_000000).map Prod.fst = some ⟨.a, .timed, 2 ^ 40, 0, 7⟩ := by decide

/-- 12.2, R170: the pending set shows RESULTS_WAITING in bit 0 and TIMEBASE in bit 6. -/
theorem test_ack_events_reply :
    (match exec (.ackEvents 0 0x40) (asking (fun d => withQueue [block 0 true]
        (onCtl (fun c => { c with latched := ⟨true, false, false, true⟩ }) d))) with
     | .next t => t.dev.port.reply
     | _ => none) = some ⟨.ok, [0x09]⟩ := by decide

/-- 12.5: the header of FINAL block 258 of PUBLISH task 3. -/
theorem test_block_header : (⟨3, .publish, 258, true, false, [], none⟩ : Block).header = [0x63, 1, 2, 0] := by decide

end Sys2Proof.Tests
end

