-- ==== Sys2Proof/Proofs/TimebaseAndRings.lean ====
section
/-!
PROOFS. What the operations of the timebase, the rings, the channels and the gate records do to their laws (R4, R6, R14,
R18, R21, R22, R143, R145): one lemma for each operation.
-/

namespace Sys2Proof.Safety

open Sys2Proof.Machine

/-! ## Degraded spans (R6) -/

/-- Before newer spans the oldest one needs an end. -/
theorem spansFit_cons {degraded : Bool} (sp : Span) {rest : List Span} (h : rest ≠ []) :
    spansFit degraded (sp :: rest) = (sp.stop.isSome && spansFit degraded rest) := by
  cases rest with
  | nil => exact absurd rfl h
  | cons sq rest => rfl

@[simp] theorem closeNewest_length (stop : Stamp) (spans : List Span) : (closeNewest stop spans).length = spans.length := by
  induction spans with
  | nil => rfl
  | cons sp rest ih =>
    cases rest with
    | nil => rfl
    | cons sq rest => simpa [closeNewest] using ih

/-- Without its oldest span a list that has an end there still fits. -/
theorem spansFit_tail {degraded : Bool} {sp : Span} {rest : List Span} (h : spansFit degraded (sp :: rest) = true)
    (hs : sp.stop.isSome = true) : spansFit degraded rest = true := by
  cases rest with
  | nil =>
    have : sp.stop.isNone = degraded := by simpa [spansFit] using h
    cases hsp : sp.stop with
    | none => simp [hsp] at hs
    | some e => simpa [spansFit, hsp] using this
  | cons sq rest => simp only [spansFit_cons _ (List.cons_ne_nil _ _), Bool.and_eq_true] at h; exact h.2

/-- While DEGRADED is clear every span has an end. -/
theorem spansFit_false_head {sp : Span} {rest : List Span} (h : spansFit false (sp :: rest) = true) :
    sp.stop.isSome = true := by
  cases rest with
  | nil => simpa [spansFit, ← Option.not_isSome] using h
  | cons sq rest => simp only [spansFit_cons _ (List.cons_ne_nil _ _), Bool.and_eq_true] at h; exact h.1

/-- A new span after spans that all have an end: DEGRADED is set. -/
theorem spansFit_open {spans : List Span} (start : Kept) (h : spansFit false spans = true) :
    spansFit true (spans ++ [⟨start, none⟩]) = true := by
  induction spans with
  | nil => rfl
  | cons sp rest ih =>
    have hs := spansFit_false_head h
    rw [List.cons_append, spansFit_cons _ (by simp), hs, ih (spansFit_tail h hs)]; rfl

/-- The newest span receives its end: DEGRADED is clear. -/
theorem spansFit_close {spans : List Span} (stop : Stamp) (h : spansFit true spans = true) :
    spansFit false (closeNewest stop spans) = true := by
  induction spans with
  | nil => cases h
  | cons sp rest ih =>
    cases rest with
    | nil => rfl
    | cons sq rest =>
      simp only [spansFit_cons _ (List.cons_ne_nil _ _), Bool.and_eq_true] at h
      have hne : closeNewest stop (sq :: rest) ≠ [] := by simp [← List.length_eq_zero_iff]
      show spansFit false (sp :: closeNewest stop (sq :: rest)) = true
      rw [spansFit_cons _ hne, h.1, ih h.2]; rfl

theorem closeNewest_append (stop : Stamp) (older : List Span) (newest : Span) :
    closeNewest stop (older ++ [newest]) = older ++ [{ newest with stop := some stop }] := by
  induction older with
  | nil => rfl
  | cons sp older ih =>
    cases older with
    | nil => rfl
    | cons sq older => exact congrArg (sp :: ·) ih

/-- The mark of a start leaves the ends. -/
theorem spansFit_mark (now : Stamp) (degraded : Bool) (spans : List Span) :
    spansFit degraded (spans.map (Span.mark now)) = spansFit degraded spans := by
  induction spans with
  | nil => rfl
  | cons sp rest ih => cases rest <;> simp_all [spansFit, Span.mark]

/-! ## The timebase (R4, R6) -/

theorem TimebaseLaw.afterReset : TimebaseLaw Timebase.afterReset := ⟨by decide, rfl, by decide, by decide⟩

/-- A lost reference opens a span: room is made by the floor, so there are four at most (R3, R6). -/
theorem TimebaseLaw.loseReference {tb : Timebase} (lastEdge : Stamp) (h : TimebaseLaw tb) (hp : tb.monitor = .present) :
    TimebaseLaw (tb.loseReference lastEdge) := by
  obtain ⟨hlen, hfit, hdeg, -⟩ := h
  rw [hdeg.2 hp] at hfit
  have key : (tb.openSpan lastEdge).spans.length ≤ 4 ∧ spansFit true (tb.openSpan lastEdge).spans = true := by
    unfold Timebase.openSpan maxSpans
    cases hs : tb.spans with
    | nil => simp [spansFit]
    | cons sp rest =>
      rw [hs] at hlen hfit
      simp only []
      split
      · exact ⟨by simp at hlen ⊢; omega, spansFit_open _ (spansFit_tail hfit (spansFit_false_head hfit))⟩
      · rename_i hl
        exact ⟨by simp at hl ⊢; omega, spansFit_open _ hfit⟩
  exact ⟨key.1, key.2, by simp [Timebase.loseReference], by simp [Timebase.loseReference]⟩

theorem TimebaseLaw.edgeReturns {tb : Timebase} (h : TimebaseLaw tb) : TimebaseLaw tb.edgeReturns := by
  obtain ⟨hlen, hfit, hdeg, hq⟩ := h
  unfold Timebase.edgeReturns
  split
  · rename_i ha
    exact ⟨hlen, hfit, by simpa [ha] using hdeg, by simp⟩
  · exact ⟨hlen, hfit, hdeg, hq⟩

theorem TimebaseLaw.silence {tb : Timebase} (h : TimebaseLaw tb) : TimebaseLaw tb.silence := by
  obtain ⟨hlen, hfit, hdeg, hq⟩ := h
  unfold Timebase.silence
  split
  · rename_i hr
    exact ⟨hlen, hfit, by simpa [hr] using hdeg, by simp⟩
  · exact ⟨hlen, hfit, hdeg, hq⟩

/-- In RETURNING the newest span is open, so that entering PRESENT closes it (R4, R6). -/
theorem TimebaseLaw.qualified {tb : Timebase} (h : TimebaseLaw tb) (hq : tb.qualifies = true) :
    TimebaseLaw tb.qualified := by
  obtain ⟨hlen, hfit, hdeg, -⟩ := h
  have hm : tb.monitor = .returning := by
    unfold Timebase.qualifies at hq
    simp only [Bool.and_eq_true, beq_iff_eq] at hq
    exact hq.1
  have hd : tb.degraded = true := by
    cases hd : tb.degraded with
    | true => rfl
    | false => simp [hdeg.1 hd] at hm
  rw [hd] at hfit
  exact ⟨by simpa [Timebase.qualified] using hlen, spansFit_close _ hfit, by simp [Timebase.qualified],
    by simp [Timebase.qualified]⟩

/-- Only a span with an end ages (R6). -/
theorem TimebaseLaw.ageSpan {tb : Timebase} (h : TimebaseLaw tb) : TimebaseLaw tb.ageSpan := by
  unfold Timebase.ageSpan
  split
  · rename_i start e rest hs
    split
    · obtain ⟨hlen, hfit, hdeg, hq⟩ := h
      rw [hs] at hlen hfit
      exact ⟨by simp at hlen ⊢; omega, spansFit_tail hfit rfl, hdeg, hq⟩
    · exact h
  · exact h

theorem TimebaseLaw.ageFloor {tb : Timebase} (h : TimebaseLaw tb) : TimebaseLaw tb.ageFloor := by
  unfold Timebase.ageFloor
  split
  · split <;> exact h
  · exact h

theorem TimebaseLaw.mark {tb : Timebase} (now : Stamp) (h : TimebaseLaw tb) :
    TimebaseLaw { tb with spans := tb.spans.map (Span.mark now) } := by
  obtain ⟨hlen, hfit, hrest⟩ := h
  exact ⟨by simpa using hlen, by simpa [spansFit_mark] using hfit, hrest⟩

/-! ## Rings (R18, R21) -/

/-- An entry with the next index goes on with the indices. -/
theorem runsTo_append {next i : Nat} {es : List Entry} {x : Entry} (h : runsTo next i es = true) (hx : x.index = next) :
    runsTo (next + 1) i (es ++ [x]) = true := by
  induction es generalizing i with
  | nil =>
    have hi : i = next := by simpa [runsTo] using h
    simp [runsTo, hi, hx]
  | cons e es ih =>
    simp only [runsTo, Bool.and_eq_true] at h
    simp only [List.cons_append, runsTo, Bool.and_eq_true]
    exact ⟨h.1, ih h.2⟩

/-- Indices that run up to the next one start at the first entry's, or at the next one. -/
theorem oldest_of_runsTo {r : Ring} {i : Nat} (h : runsTo r.nextIndex i r.entries = true) : r.oldest = i := by
  unfold Ring.oldest
  cases hs : r.entries with
  | nil => rw [hs] at h; exact (beq_iff_eq.1 h).symm
  | cons e es =>
    rw [hs] at h
    simp only [runsTo, Bool.and_eq_true, beq_iff_eq] at h
    exact h.1

theorem RingLaw.cleared : RingLaw Ring.cleared := ⟨by decide, rfl, rfl, nofun⟩

@[simp] theorem depart_nextIndex (now : Stamp) (r : Ring) : (r.depart now).nextIndex = r.nextIndex := by
  unfold Ring.depart; split <;> rfl

@[simp] theorem depart_entries (now : Stamp) (r : Ring) : (r.depart now).entries = r.entries.tail := by
  unfold Ring.depart; split <;> simp_all

/-- The oldest entry leaves: the record is one below the entry that is now the oldest (R21). -/
theorem RingLaw.depart {r : Ring} (now : Stamp) (h : RingLaw r) : RingLaw (r.depart now) := by
  unfold Ring.depart
  cases hs : r.entries with
  | nil => exact h
  | cons e es =>
    obtain ⟨hlen, hrun, -, -⟩ := h
    simp only [hs, runsTo, Bool.and_eq_true, beq_iff_eq] at hrun
    obtain ⟨he, hrun⟩ := hrun
    have hold := oldest_of_runsTo (r := { r with
      entries := es, everRemoved := true, lastRemoved := some ⟨e.index, (fresh e.stamp).mark now⟩ }) hrun
    refine ⟨by simp [hs] at hlen; simp; omega, by rw [hold]; exact hrun, rfl, fun x hx => ?_⟩
    obtain rfl := Option.some.inj hx
    rw [hold, he]

/-- A ring with a place free takes an entry of the next index (R18). -/
theorem RingLaw.append {r : Ring} (seqNo : SeqNo) (stamp : Stamp) (count : EdgeCount) (h : RingLaw r)
    (hl : r.entries.length < 64) :
    RingLaw { r with entries := r.entries ++ [⟨r.nextIndex, seqNo, stamp, count⟩], nextIndex := r.nextIndex + 1 } := by
  obtain ⟨-, hrun, hflag, hrec⟩ := h
  have hrun' := runsTo_append (x := ⟨r.nextIndex, seqNo, stamp, count⟩) hrun rfl
  have hold := oldest_of_runsTo (r := { r with
    entries := r.entries ++ [⟨r.nextIndex, seqNo, stamp, count⟩], nextIndex := r.nextIndex + 1 }) hrun'
  exact ⟨by simp; omega, by rw [hold]; exact hrun', hflag, fun x hx => by rw [hold]; exact hrec x hx⟩

/-- An arrival (R19). -/
theorem RingLaw.arrive {r : Ring} (now : Stamp) (seqNo : SeqNo) (stamp : Stamp) (count : EdgeCount) (h : RingLaw r) :
    RingLaw (r.arrive now seqNo stamp count) := by
  have hlen := h.1
  unfold Ring.arrive ringDepth
  split
  · exact (h.depart now).append _ _ _ (by rw [depart_entries, List.length_tail]; omega)
  · exact h.append _ _ _ (by omega)

@[simp] theorem arrive_nextIndex (now : Stamp) (seqNo : SeqNo) (stamp : Stamp) (count : EdgeCount) (r : Ring) :
    (r.arrive now seqNo stamp count).nextIndex = r.nextIndex + 1 := by
  unfold Ring.arrive; split <;> simp

/-- What a ring holds after an arrival was in it, or is the entry of the next index. -/
theorem mem_arrive {now : Stamp} {seqNo : SeqNo} {stamp : Stamp} {count : EdgeCount} {r : Ring} {e : Entry}
    (h : e ∈ (r.arrive now seqNo stamp count).entries) : e ∈ r.entries ∨ e = ⟨r.nextIndex, seqNo, stamp, count⟩ := by
  unfold Ring.arrive at h
  split at h
  · simp only [depart_entries, depart_nextIndex, List.mem_append, List.mem_singleton] at h
    exact h.imp_left List.mem_of_mem_tail
  · simpa using h

theorem RingLaw.age {r : Ring} (now : Stamp) (h : RingLaw r) : RingLaw (r.age now) := by
  unfold Ring.age; split
  · exact h.depart now
  · exact h

/-- The mark of the record leaves its index (R21). -/
theorem RingLaw.markRecord {r : Ring} (now : Stamp) (h : RingLaw r) : RingLaw (r.markRecord now) := by
  obtain ⟨hlen, hrun, hflag, hrec⟩ := h
  refine ⟨hlen, hrun, by simpa [Ring.markRecord] using hflag, fun x hx => ?_⟩
  simp only [Ring.markRecord, Option.map_eq_some_iff] at hx
  obtain ⟨y, hy, rfl⟩ := hx
  exact hrec y hy

/-! ## Channels (R14, R18, R22) -/

/-- The law speaks of the ring, the sequence number, ENABLED and the pending change only. -/
theorem ChannelLaw.congr {c c' : Channel} (h : ChannelLaw c) (hr : c'.ring = c.ring) (hs : c'.seqNo = c.seqNo)
    (he : c'.enabled = c.enabled) (hp : c'.pendingChange = c.pendingChange) : ChannelLaw c' := by
  unfold ChannelLaw; rw [hr, hs, he, hp]; exact h

/-- While the channel is enabled its pending change is free. -/
theorem ChannelLaw.pends {c : Channel} (p : Option Stamp) (h : ChannelLaw c) (he : c.enabled = true) :
    ChannelLaw { c with pendingChange := p } := by
  obtain ⟨hring, hseq, hnext, -⟩ := h
  exact ⟨hring, hseq, hnext, fun hd => by simp [he] at hd⟩

/-- The ring of a disabled channel is cleared, so an operation that keeps its law and a cleared ring keeps the channel's,
provided that it brings no new entry. -/
theorem ChannelLaw.modRing {c : Channel} {f : Ring → Ring} (h : ChannelLaw c) (law : ∀ r, RingLaw r → RingLaw (f r))
    (sub : ∀ r, ∀ e ∈ (f r).entries, e ∈ r.entries) (next : ∀ r, (f r).nextIndex = r.nextIndex)
    (clear : f Ring.cleared = Ring.cleared) : ChannelLaw { c with ring := f c.ring } := by
  obtain ⟨hring, hseq, hnext, hoff⟩ := h
  refine ⟨law _ hring, fun e he => hseq e (sub _ e he), by rw [next]; exact hnext, fun hd => ?_⟩
  obtain ⟨hr, hp⟩ := hoff hd
  exact ⟨by rw [hr]; exact clear, hp⟩

theorem ChannelLaw.afterReset (level : Bool) : ChannelLaw (Channel.afterReset level) :=
  ⟨RingLaw.cleared, nofun, rfl, fun _ => ⟨rfl, rfl⟩⟩

theorem ChannelLaw.configure (now : Stamp) (enable : Bool) (edges : EdgeSelect) (glitch : Fin 64) (prescale : BitVec 16)
    (c : Channel) : ChannelLaw (c.configure now enable edges glitch prescale) :=
  ⟨RingLaw.cleared, nofun, rfl, fun _ => ⟨rfl, rfl⟩⟩

/-- The filter settles: no change is pending any more. -/
theorem ChannelLaw.settle {c : Channel} (h : ChannelLaw c) : ChannelLaw c.settle := by
  obtain ⟨hring, hseq, hnext, hoff⟩ := h
  exact ⟨hring, hseq, hnext, fun hd => ⟨(hoff hd).1, rfl⟩⟩

/-- A stamp's sequence number goes with the index that its entry takes (R14, R19). -/
theorem ChannelLaw.stamp {c : Channel} (now edge : Stamp) (h : ChannelLaw c) (he : c.enabled = true) :
    ChannelLaw (c.stamp now edge) := by
  obtain ⟨hring, hseq, hnext, -⟩ := h
  refine ⟨hring.arrive _ _ _ _, fun e hm => ?_, ?_, fun hd => ?_⟩
  · rcases mem_arrive hm with hm | rfl
    · exact hseq e hm
    · exact hnext
  · show c.seqNo + 1 + 1 = BitVec.ofNat 32 (c.ring.arrive now (c.seqNo + 1) edge c.count).nextIndex
    rw [arrive_nextIndex, hnext, BitVec.ofNat_add]; rfl
  · rw [show (c.stamp now edge).enabled = c.enabled from rfl, he] at hd; cases hd

theorem ChannelLaw.qualify {c : Channel} (now edge : Stamp) (h : ChannelLaw c) (he : c.enabled = true) :
    ChannelLaw (c.qualify now edge).1 := by
  unfold Channel.qualify
  simp only []
  split
  · exact h.settle.stamp _ _ he
  · exact h.settle

/-! ## Gate records (R143, R145) -/

/-- A stamp is not later than itself (R2). -/
@[simp] theorem later_self (t : Stamp) : later t t = false := by simp [later, since]

theorem GateLaw.afterReset : GateLaw Gate.afterReset := ⟨nofun, nofun⟩

theorem GateLaw.opensFresh (time : Stamp) (source : StationNo) (unplaced : Bool) (g : Gate) :
    GateLaw (g.opensFresh time source unplaced) := ⟨fun _ => ⟨rfl, rfl, rfl, rfl⟩, nofun⟩

/-- A close is clamped to the open time (R145). -/
theorem GateLaw.closes (time : Stamp) (source : StationNo) (unplaced : Bool) (g : Gate) :
    GateLaw (g.closes time source unplaced) := by
  refine ⟨nofun, fun o c ho hc => ?_⟩
  replace ho : g.openTime = some o := ho
  simp only [Gate.closes, Gate.closesEarly, ho, Option.some.injEq, Option.map_some, Option.getD_some] at hc
  split at hc
  · subst hc; cases hl : o.longPast <;> simp [Kept.laterThan, fresh, hl]
  · rename_i hn
    subst hc; simpa using hn

/-- The law does not speak of the flags of a record that has closed. -/
theorem GateLaw.orphans (time : Stamp) (source : StationNo) (unplaced : Bool) (g : Gate) :
    GateLaw (g.orphans time source unplaced) := GateLaw.closes time source unplaced g

theorem GateLaw.applyOpen (time : Stamp) (source : StationNo) (unplaced : Bool) (g : Gate) :
    GateLaw (g.applyOpen time source unplaced).1 := by
  unfold Gate.applyOpen
  split
  · exact GateLaw.opensFresh _ _ _ _
  · exact GateLaw.opensFresh time source unplaced (g.closesByReopen time source unplaced)

/-- Only the open time of an OPEN record is marked, which has no close (R100, R145). -/
theorem GateLaw.mark {g : Gate} (now : Stamp) (h : GateLaw g) : GateLaw (g.mark now) := by
  unfold Gate.mark
  split
  · rename_i hs
    obtain ⟨ho, hr, hc, hcl⟩ := h.1 hs
    exact ⟨fun _ => ⟨by simpa using ho, hr, hc, hcl⟩, fun _ _ _ hc' => by simp [hc] at hc'⟩
  · exact h

end Sys2Proof.Safety
end

