-- ==== Sys2Proof/Proofs/StationLaw.lean ====
section
/-!
PROOFS. Every command keeps the laws of the station: most leave the front and the gates as they are but for the time; the
others are made of the operations whose laws the part before has.
-/

namespace Sys2Proof.Safety

open Sys2Proof.Machine

/-! ## Stations with the same front and gates -/

/-- Neither the timebase, the channels nor the gates differ: nothing the laws speak of. -/
def SameInputs (d d' : Station) : Prop := d'.front = d.front ∧ d'.gates = d.gates

theorem SameInputs.refl (d : Station) : SameInputs d d := ⟨rfl, rfl⟩

theorem SameInputs.trans {a b c : Station} (h : SameInputs a b) (h' : SameInputs b c) : SameInputs a c :=
  ⟨h'.1.trans h.1, h'.2.trans h.2⟩

theorem SameInputs.law {d d' : Station} (h : SameInputs d d') (hd : StationLaw d) : StationLaw d' := by
  obtain ⟨hf, hg⟩ := h
  unfold StationLaw GatesLaw
  rw [hf, hg]; exact hd

/-- An operation on stations that keeps the laws. -/
def KeepsLaw (f : Station → Station) : Prop := ∀ d, StationLaw d → StationLaw (f d)

/-- An operation that leaves the front and the gates. -/
def LeavesInputs (f : Station → Station) : Prop := ∀ d, SameInputs d (f d)

theorem LeavesInputs.keepsLaw {f : Station → Station} (h : LeavesInputs f) : KeepsLaw f := fun d hd => (h d).law hd

/-! ## Updates of the timebase, a channel and a gate -/

theorem StationLaw.modTb {f : Timebase → Timebase} {d : Station} (h : StationLaw d) (ht : TimebaseLaw (f d.front.tb)) :
    StationLaw (d.modTb f) := ⟨⟨ht, h.1.2⟩, h.2⟩

theorem StationLaw.modEng {d : Station} (f : Engine → Engine) (h : StationLaw d) : StationLaw (d.modEng f) := h

/-- Time passes: the law does not speak of the counter. -/
theorem StationLaw.elapse {d : Station} (dt : Nat) (h : StationLaw d) : StationLaw (d.elapse dt) := by
  unfold Station.elapse
  split
  · exact h
  · exact ⟨⟨h.1.1, h.1.2⟩, h.2⟩

theorem StationLaw.modChan {f : Channel → Channel} {ch : Chan} {d : Station} (h : StationLaw d)
    (hc : ChannelLaw (f (d.front.chan ch))) : StationLaw (d.modChan ch f) := by
  refine ⟨⟨h.1.1, fun x => ?_⟩, h.2⟩
  show ChannelLaw ((d.front.chans.set ch (f (d.front.chans.get ch))).get x)
  rw [Per4.get_set]
  split
  · exact hc
  · exact h.1.2 x

theorem GateLaw.set {gates : Per16 Gate} {g : Gate} (i : BitVec 4) (h : ∀ j, GateLaw (gates.get j)) (hg : GateLaw g) :
    ∀ j, GateLaw ((gates.set i g).get j) := by
  intro j
  rw [Per16.get_set]
  split
  · exact hg
  · exact h j

/-! ## Resets -/

/-- The station at a release keeps the laws, whatever the pins. -/
theorem StationLaw.released (pins : ReleasePins) (inputs : Per4 Bool) (csLow : Bool) :
    StationLaw (Station.released pins inputs csLow) := by
  refine ⟨⟨TimebaseLaw.afterReset, fun ch => ?_⟩, fun i => ?_⟩
  · simpa [Station.released, Front.chan] using ChannelLaw.afterReset (inputs.get ch)
  · simpa [Station.released] using GateLaw.afterReset

theorem StationLaw.resetNow (pins : ReleasePins) (d : Station) : StationLaw (d.resetNow pins) := StationLaw.released _ _ _

theorem heldInReset_keepsLaw : KeepsLaw Station.heldInReset := fun d _ =>
  StationLaw.resetNow ⟨d.eng.ctl.stationNo, d.eng.ctl.longUnit, false⟩ d

/-! ## The timebase -/

theorem modTb_keepsLaw {f : Timebase → Timebase} (hf : ∀ tb, TimebaseLaw tb → TimebaseLaw (f tb)) :
    KeepsLaw (Station.modTb f) := fun _ hd => hd.modTb (hf _ hd.1.1)

theorem referenceLost_keepsLaw (lastEdge : Stamp) : KeepsLaw (Station.referenceLost lastEdge) := by
  intro d hd
  unfold Station.referenceLost
  split
  · rename_i hp
    exact SameInputs.law ⟨rfl, rfl⟩ (hd.modTb (hd.1.1.loseReference lastEdge hp))
  · exact hd

theorem referenceQualified_keepsLaw : KeepsLaw Station.referenceQualified := by
  intro d hd
  unfold Station.referenceQualified
  split
  · rename_i hq
    exact SameInputs.law ⟨rfl, rfl⟩ (hd.modTb (hd.1.1.qualified hq))
  · exact hd

/-- The long-past marks (R100). -/
theorem markLongPast_keepsLaw : KeepsLaw Station.markLongPast := by
  intro d hd
  refine ⟨⟨hd.1.1.mark _, fun ch => ?_⟩, fun i => ?_⟩
  · simpa [Station.markLongPast, Front.mark, Front.chan] using (hd.1.2 ch).congr (c' := Channel.mark d.now _) rfl rfl rfl rfl
  · simpa [Station.markLongPast] using (hd.2 i).mark _

/-! ## Channels -/

/-- A change of an enabled channel is qualified (R10 to R14); the tasks it is offered to are not of the front. -/
theorem StationLaw.qualifyEdge {d : Station} {ch : Chan} (edge : Stamp) (h : StationLaw d)
    (he : (d.front.chan ch).enabled = true) : StationLaw (d.qualifyEdge ch edge) := by
  have hc := h.modChan (ch := ch) (f := fun _ => ((d.front.chan ch).qualify d.now edge).1) ((h.1.2 ch).qualify _ _ he)
  unfold Station.qualifyEdge
  simp only []
  split
  · exact hc.modEng _
  · exact hc

/-- Only an enabled channel's change falls due (R9). -/
theorem qualifyDue_enabled {now raw : Stamp} {c : Channel} (h : c.qualifyDue now = some raw) : c.enabled = true := by
  unfold Channel.qualifyDue at h
  split at h
  · split at h
    · rename_i hd; simp only [Bool.and_eq_true] at hd; exact hd.1
    · cases h
  · cases h

theorem edgeQualified_keepsLaw (ch : Chan) : KeepsLaw (Station.edgeQualified ch) := by
  intro d hd
  unfold Station.edgeQualified
  split
  · rename_i raw hq
    exact hd.qualifyEdge raw (qualifyDue_enabled hq)
  · exact hd

theorem filterPin_keepsLaw (ch : Chan) : KeepsLaw (Station.filterPin ch) := by
  intro d hd
  have hq := edgeQualified_keepsLaw ch d hd
  unfold Station.filterPin
  simp only []
  split
  · exact hq
  · rename_i hn
    have he : ((d.edgeQualified ch).front.chan ch).enabled = true := by simpa using hn
    split
    · exact hq.modChan ((hq.1.2 ch).congr rfl rfl rfl rfl)
    · split
      · split
        · exact hq
        · exact hq.qualifyEdge _ he
      · exact hq.modChan ((hq.1.2 ch).pends _ he)

theorem pinChange_keepsLaw (ch : Chan) (persists : Nat) : KeepsLaw (Station.pinChange ch persists) := by
  intro d hd
  have ht : StationLaw (d.modChan ch (fun c => { c with pinLevel := !c.pinLevel })) :=
    hd.modChan ((hd.1.2 ch).congr rfl rfl rfl rfl)
  unfold Station.pinChange
  simp only []
  split
  · exact ht.modChan ((ht.1.2 ch).congr rfl rfl rfl rfl)
  · split
    · exact ht.modChan ((ht.1.2 ch).congr rfl rfl rfl rfl)
    · split
      · exact ht
      · exact filterPin_keepsLaw ch _ ht

/-- The oldest entry ages (R20). -/
theorem ringAging_keepsLaw (ch : Chan) : KeepsLaw (fun d => d.modRing ch (Ring.age d.now)) := by
  intro d hd
  refine hd.modChan ((hd.1.2 ch).modRing (fun r => RingLaw.age d.now) (fun r e he => ?_) (fun r => ?_) rfl)
  · unfold Ring.age at he
    split at he
    · rw [depart_entries] at he; exact List.mem_of_mem_tail he
    · exact he
  · unfold Ring.age; split
    · exact depart_nextIndex _ _
    · rfl

theorem recordLongPast_keepsLaw (ch : Chan) : KeepsLaw (fun d => d.modRing ch (Ring.markRecord d.now)) :=
  fun d hd => hd.modChan ((hd.1.2 ch).modRing (fun _ => RingLaw.markRecord d.now) (fun _ _ he => he) (fun _ => rfl) rfl)

/-! ## Gates (R144 to R146) -/

theorem gateOpens_keepsLaw (gate : BitVec 4) (time : Stamp) (source : StationNo) (unplaced : Bool) :
    KeepsLaw (Station.gateOpens gate time source unplaced) :=
  fun _ hd => ⟨hd.1, GateLaw.set gate hd.2 (GateLaw.applyOpen _ _ _ _)⟩

theorem gateCloses_keepsLaw (gate : BitVec 4) (time : Stamp) (source : StationNo) (unplaced : Bool) :
    KeepsLaw (Station.gateCloses gate time source unplaced) := by
  intro d hd
  unfold Station.gateCloses
  split
  · exact SameInputs.law ⟨rfl, rfl⟩ hd
  · exact ⟨hd.1, GateLaw.set gate hd.2 (GateLaw.closes _ _ _ _)⟩

theorem applyGate_keepsLaw (kind : MarkerKind) (gate : BitVec 4) (time : Stamp) (source : StationNo) (unplaced : Bool) :
    KeepsLaw (Station.applyGate kind gate time source unplaced) := by
  intro d hd
  unfold Station.applyGate
  split
  · exact gateOpens_keepsLaw _ _ _ _ d hd
  · exact gateCloses_keepsLaw _ _ _ _ d hd
  · exact hd

/-- Gates closed one after another by the loss of their opener (R146). -/
theorem GateLaw.orphanAll (time : Stamp) (source : StationNo) (unplaced : Bool) (lost : List (BitVec 4)) {gates : Per16 Gate}
    (h : ∀ j, GateLaw (gates.get j)) :
    ∀ j, GateLaw ((lost.foldl (fun gs i => gs.set i ((gs.get i).orphans time source unplaced)) gates).get j) := by
  induction lost generalizing gates with
  | nil => exact h
  | cons i lost ih => exact ih (GateLaw.set i h (GateLaw.orphans _ _ _ _))

theorem orphanWith_keepsLaw (xs : List (TaskId × Deferred)) (attention : Stamp) (source : StationNo) :
    KeepsLaw (Station.orphanWith xs attention source) := fun _ hd => ⟨hd.1, GateLaw.orphanAll _ _ _ _ hd.2⟩

/-! ## The word judged (R108, R116) -/

theorem takeAnnounce_keepsLaw (source : StationNo) (position : BitVec 11) (joining : Bool) (attention : Stamp) :
    KeepsLaw (Station.takeAnnounce source position joining attention) := by
  intro d hd
  unfold Station.takeAnnounce
  simp only []
  split
  · exact orphanWith_keepsLaw _ _ _ _ (SameInputs.law ⟨rfl, rfl⟩ hd)
  · exact SameInputs.law ⟨rfl, rfl⟩ hd

theorem takeHalt_keepsLaw (source : StationNo) (r : HaltReason) (attention : Stamp) :
    KeepsLaw (Station.takeHalt source r attention) :=
  fun _ hd => orphanWith_keepsLaw _ _ _ _ (SameInputs.law ⟨rfl, rfl⟩ hd)

theorem takeEdge_leavesInputs (task : TaskId) (source : StationNo) (tag : Tag) (delay : Nat) (attention : Stamp) :
    LeavesInputs (Station.takeEdge task source tag delay attention) := by
  intro d
  unfold Station.takeEdge
  split
  · exact ⟨rfl, rfl⟩
  · split <;> exact ⟨rfl, rfl⟩

theorem listenTo_keepsLaw (kind : MarkerKind) (source : StationNo) (tag : Tag) (delay : Nat) (attention : Stamp) :
    KeepsLaw (Station.listenTo kind source tag delay attention) := by
  intro d hd
  unfold Station.listenTo
  split
  · exact hd
  · split
    · exact hd
    · exact SameInputs.law ⟨rfl, rfl⟩ hd
    · exact (takeEdge_leavesInputs _ _ _ _ _).keepsLaw d hd
    · exact applyGate_keepsLaw _ _ _ _ _ _ (SameInputs.law ⟨rfl, rfl⟩ hd)

theorem answerTaken_leavesInputs : LeavesInputs Station.answerTaken := by
  intro d; unfold Station.answerTaken; split <;> exact ⟨rfl, rfl⟩

theorem countUnknown_leavesInputs : LeavesInputs Station.countUnknown := by
  intro d; unfold Station.countUnknown; split <;> exact ⟨rfl, rfl⟩

theorem deliver_keepsLaw (kind : MarkerKind) (w : BitVec 40) (attention : Stamp) :
    KeepsLaw (Station.deliver kind w attention) := by
  intro d hd
  have ha := answerTaken_leavesInputs.keepsLaw d hd
  unfold Station.deliver
  split
  · exact takeAnnounce_keepsLaw _ _ _ _ _ ha
  · exact takeHalt_keepsLaw _ _ _ _ ha
  · split
    · exact listenTo_keepsLaw _ _ _ _ _ d hd
    · exact hd

theorem identityClash_keepsLaw (pins : ReleasePins) : KeepsLaw (Station.identityClash pins) := by
  intro d hd
  unfold Station.identityClash
  split
  · exact hd
  · split
    · exact StationLaw.resetNow _ _
    · exact SameInputs.law ⟨rfl, rfl⟩ hd

theorem judgeOwn_keepsLaw (pins : ReleasePins) (w : BitVec 40) : KeepsLaw (Station.judgeOwn pins w) := by
  intro d hd
  unfold Station.judgeOwn
  split
  · exact hd
  · split
    · exact identityClash_keepsLaw _ _ (countUnknown_leavesInputs.keepsLaw d hd)
    · exact identityClash_keepsLaw _ _ hd

theorem judgeWord_keepsLaw (pins : ReleasePins) (w : BitVec 40) (attention : Stamp) :
    KeepsLaw (Station.judgeWord pins w attention) := by
  intro d hd
  unfold Station.judgeWord
  split
  · exact SameInputs.law ⟨rfl, rfl⟩ hd
  · split
    · exact judgeOwn_keepsLaw _ _ d hd
    · split
      · exact countUnknown_leavesInputs.keepsLaw d hd
      · exact deliver_keepsLaw _ _ _ d hd

theorem markerReceived_keepsLaw (pins : ReleasePins) : KeepsLaw (Station.markerReceived pins) := by
  intro d hd
  unfold Station.markerReceived
  split
  · split
    · exact judgeWord_keepsLaw _ _ _ _ (SameInputs.law ⟨rfl, rfl⟩ hd)
    · exact hd
  · exact hd

/-! ## The completion of an own frame (R125) -/

theorem handCompletion_keepsLaw (pins : ReleasePins) (m : OutEntry) (a : Attempt) :
    KeepsLaw (Station.handCompletion pins m a) := by
  intro d hd
  have gate : StationLaw (match m.origin with
      | some o => d.applyGate m.kind m.tag o.stamp d.eng.ctl.stationNo false
      | none => d) := by
    split
    · exact applyGate_keepsLaw _ _ _ _ _ d hd
    · exact hd
  unfold Station.handCompletion
  split
  · exact SameInputs.law ⟨rfl, rfl⟩ hd
  · exact gate
  · exact gate
  · exact SameInputs.law ⟨rfl, rfl⟩ hd
  · simp only []
    split
    · exact StationLaw.resetNow _ _
    · exact SameInputs.law ⟨rfl, rfl⟩ hd

theorem completeAttempt_keepsLaw (pins : ReleasePins) (a : Attempt) : KeepsLaw (Station.completeAttempt pins a) := by
  intro d hd
  unfold Station.completeAttempt
  split
  · exact handCompletion_keepsLaw _ _ _ _ (SameInputs.law ⟨rfl, rfl⟩ hd)
  · exact SameInputs.law ⟨rfl, rfl⟩ hd

theorem receiverFrameEnd_leavesInputs : LeavesInputs Station.receiverFrameEnd := by
  intro d
  unfold Station.receiverFrameEnd
  split
  · split <;> exact ⟨rfl, rfl⟩
  · exact SameInputs.refl d

theorem frameEnd_keepsLaw (pins : ReleasePins) : KeepsLaw (Station.frameEnd pins) := by
  intro d hd
  have hr := receiverFrameEnd_leavesInputs.keepsLaw d hd
  unfold Station.frameEnd
  simp only []
  split
  · split
    · exact completeAttempt_keepsLaw _ _ _ hr
    · exact hr
  · exact hr

/-! ## The line and the transmitter: the front and the gates stay -/

theorem enterStuck_leavesInputs (low : Stamp) : LeavesInputs (Station.enterStuck low) := by
  intro d
  unfold Station.enterStuck
  simp only []
  split <;> exact ⟨rfl, rfl⟩

theorem lineRise_leavesInputs : LeavesInputs Station.lineRise := by
  intro d
  have stuck : ∀ low, SameInputs d ((d.enterStuck low).modRx (Receiver.quietRise d.now)) :=
    fun low => (enterStuck_leavesInputs low d).trans ⟨rfl, rfl⟩
  unfold Station.lineRise
  split
  · exact SameInputs.refl d
  · split
    · exact SameInputs.refl d
    · split
      · exact SameInputs.refl d
      · split
        · exact ⟨rfl, rfl⟩
        · exact stuck _
      · split
        · exact stuck _
        · split <;> exact ⟨rfl, rfl⟩

theorem stuckEntry_leavesInputs : LeavesInputs Station.stuckEntry := by
  intro d
  unfold Station.stuckEntry
  split
  · split
    · exact enterStuck_leavesInputs _ d
    · exact SameInputs.refl d
  · exact SameInputs.refl d

theorem stuckEdge_leavesInputs (rising : Bool) : LeavesInputs (Station.stuckEdge rising) := by
  intro d
  unfold Station.stuckEdge
  split
  · exact SameInputs.refl d
  · split <;> split <;> exact ⟨rfl, rfl⟩

theorem stuckEnd_leavesInputs : LeavesInputs Station.stuckEnd := by
  intro d; unfold Station.stuckEnd; split <;> exact ⟨rfl, rfl⟩

theorem lineStuck_leavesInputs : LeavesInputs Station.lineStuck := by
  intro d
  unfold Station.lineStuck
  split
  · split <;> exact ⟨rfl, rfl⟩
  · exact SameInputs.refl d

theorem cellEdge_leavesInputs : LeavesInputs Station.cellEdge := by
  intro d; unfold Station.cellEdge; split <;> exact ⟨rfl, rfl⟩

theorem sampleOwn_leavesInputs (low : Bool) : LeavesInputs (Station.sampleOwn low) := by
  intro d; unfold Station.sampleOwn; split <;> exact ⟨rfl, rfl⟩

theorem cellSample_leavesInputs (othersLow : Bool) : LeavesInputs (Station.cellSample othersLow) := by
  intro d
  have hs := sampleOwn_leavesInputs (othersLow || d.drivesLine) d
  unfold Station.cellSample
  simp only []
  split
  · exact hs.trans ⟨rfl, rfl⟩
  · exact hs

theorem arbitrationLoss_leavesInputs : LeavesInputs Station.arbitrationLoss := by
  intro d
  unfold Station.arbitrationLoss
  simp only []
  split <;> split <;> exact ⟨rfl, rfl⟩

theorem frameTruncated_leavesInputs : LeavesInputs Station.frameTruncated := by
  intro d; unfold Station.frameTruncated; split <;> exact ⟨rfl, rfl⟩

theorem attemptStart_leavesInputs (peerLead : Nat) : LeavesInputs (Station.attemptStart peerLead) := by
  intro d
  unfold Station.attemptStart
  split
  · exact SameInputs.refl d
  · simp only []
    split
    · exact ⟨rfl, rfl⟩
    · split <;> exact ⟨rfl, rfl⟩

/-! ## The host port -/

theorem transactionStart_leavesInputs : LeavesInputs Station.transactionStart := by
  intro d
  unfold Station.transactionStart
  split
  · exact SameInputs.refl d
  · split <;> exact ⟨rfl, rfl⟩

theorem replyReady_leavesInputs : LeavesInputs Station.replyReady := by
  intro d; unfold Station.replyReady; split <;> exact ⟨rfl, rfl⟩

theorem replyCompleted_keepsLaw (pins : ReleasePins) : KeepsLaw (Station.replyCompleted pins) := by
  intro d hd
  unfold Station.replyCompleted
  split
  · exact hd
  · split
    · exact StationLaw.resetNow _ _
    · simp only []
      split <;> exact SameInputs.law ⟨rfl, rfl⟩ hd

theorem csRiseEarly_keepsLaw (pins : ReleasePins) : KeepsLaw (Station.csRiseEarly pins) := by
  intro d hd
  unfold Station.csRiseEarly
  split
  · simp only []
    split
    · exact StationLaw.resetNow _ _
    · exact SameInputs.law ⟨rfl, rfl⟩ hd
  · exact hd

theorem transactionEnd_leavesInputs : LeavesInputs Station.transactionEnd := by
  intro d; unfold Station.transactionEnd; split <;> exact ⟨rfl, rfl⟩

/-! ## Host requests: only CONFIGURE CHANNEL touches the front, and none the gates -/

/-- A judged request leaves the front and the gates. -/
def JudgeLeavesInputs (judge : Station → Station × Reply) : Prop := LeavesInputs (fun d => (judge d).1)

theorem setup_leavesInputs (position : BitVec 16) : JudgeLeavesInputs (Station.setup position) := by
  intro d
  simp only [Station.setup]
  split
  · exact SameInputs.refl d
  · split <;> exact ⟨rfl, rfl⟩

theorem configureChannel_keepsLaw (channel options glitch : Byte) (prescale : BitVec 16) :
    KeepsLaw (fun d => (d.configureChannel channel options glitch prescale).1) := by
  intro d hd
  simp only [Station.configureChannel]
  split
  · exact hd
  · split
    · split
      · exact hd
      · exact hd.modChan (ChannelLaw.configure _ _ _ _ _ _)
    · exact hd

theorem defineTask_leavesInputs (task : Byte) (definition : Option (TaskDef × Bool)) :
    JudgeLeavesInputs (Station.defineTask task definition) := by
  intro d
  simp only [Station.defineTask]
  split
  · exact SameInputs.refl d
  · split
    · split
      · exact SameInputs.refl d
      · split <;> exact ⟨rfl, rfl⟩
    · exact SameInputs.refl d

theorem armTask_leavesInputs (task : Byte) : JudgeLeavesInputs (Station.armTask task) := by
  intro d
  simp only [Station.armTask]
  split
  · exact SameInputs.refl d
  · split
    · exact SameInputs.refl d
    · split
      · exact SameInputs.refl d
      · split
        · exact SameInputs.refl d
        · split <;> exact ⟨rfl, rfl⟩

theorem disarmTask_leavesInputs (task : Byte) : JudgeLeavesInputs (Station.disarmTask task) := by
  intro d
  simp only [Station.disarmTask]
  split
  · exact SameInputs.refl d
  · split
    · exact SameInputs.refl d
    · split <;> exact ⟨rfl, rfl⟩

theorem tearDownTask_leavesInputs (task : Byte) : JudgeLeavesInputs (Station.tearDownTask task) := by
  intro d
  simp only [Station.tearDownTask]
  split
  · exact SameInputs.refl d
  · split
    · exact SameInputs.refl d
    · split <;> exact ⟨rfl, rfl⟩

theorem defineListenEntry_leavesInputs (entry : Byte) (definition : Option ListenEntry) :
    JudgeLeavesInputs (Station.defineListenEntry entry definition) := by
  intro d
  simp only [Station.defineListenEntry]
  split
  · exact SameInputs.refl d
  · split <;> exact ⟨rfl, rfl⟩

theorem publishGate_leavesInputs (gate action : Byte) : JudgeLeavesInputs (Station.publishGate gate action) := by
  intro d
  simp only [Station.publishGate]
  split
  · exact SameInputs.refl d
  · split
    · split <;> exact ⟨rfl, rfl⟩
    · exact SameInputs.refl d

theorem readResult_leavesInputs : JudgeLeavesInputs Station.readResult := by
  intro d; simp only [Station.readResult]; split <;> exact ⟨rfl, rfl⟩

theorem readStatus_leavesInputs (clear : Bool) : JudgeLeavesInputs (Station.readStatus clear) := by
  intro d; simp only [Station.readStatus]; split <;> exact ⟨rfl, rfl⟩

theorem clearFault_leavesInputs : JudgeLeavesInputs Station.clearFault := by
  intro d
  simp only [Station.clearFault]
  split
  · exact SameInputs.refl d
  · split <;> exact ⟨rfl, rfl⟩

theorem retire_leavesInputs : JudgeLeavesInputs Station.retire := by
  intro d
  simp only [Station.retire]
  split
  · exact SameInputs.refl d
  · split
    · exact SameInputs.refl d
    · split <;> exact ⟨rfl, rfl⟩

/-! ## Commands -/

/-- The moments of the tasks leave the front and the gates (R52, R54, R55, R69, R77). -/
theorem atMoment_keepsLaw (f : Front → TaskId → Engine → Engine) :
    KeepsLaw (fun d => d.modEng (Engine.atMoment d.now (f d.front))) := fun _ hd => hd.modEng _

/-- An outcome that leads only to stations that keep the laws. -/
def LawfulOutcome (o : Host.Outcome State Fault Refusal) : Prop := ∀ t, o = .next t → StationLaw t.dev

theorem acting_lawful {f : Station → Station} {s : State} (dt : Nat) (hs : StationLaw s.dev) (hf : KeepsLaw f) :
    LawfulOutcome (s.acting dt f) := by
  intro t ht
  obtain rfl := Host.Outcome.next.inj ht
  exact hf _ (hs.elapse dt)

theorem running_lawful {f : Station → Station} {s : State} (dt : Nat) (hs : StationLaw s.dev) (hf : KeepsLaw f) :
    LawfulOutcome (s.running dt f) :=
  acting_lawful dt hs fun d hd => by
    show StationLaw (if d.held then d else f d)
    split
    · exact hd
    · exact hf d hd

theorem request_lawful {judge : Station → Station × Reply} {s : State} (dt : Nat) (kind : Byte) (body : List Byte)
    (hs : StationLaw s.dev) (hj : KeepsLaw (fun d => (judge d).1)) : LawfulOutcome (s.request dt kind body judge) :=
  running_lawful dt hs fun d hd => by
    unfold Station.takeRequest
    split
    · exact SameInputs.law ⟨rfl, rfl⟩ (hj d hd)
    · exact hd

theorem jobFinish_keepsLaw :
    KeepsLaw (fun d => if d.eng.jobDue d.now then d.modEng (Engine.finishJob d.front) else d) := by
  intro d hd
  simp only []
  split
  · exact hd.modEng _
  · exact hd

theorem exec_lawful (c : Instr) {s : State} (hs : StationLaw s.dev) : LawfulOutcome (exec c s) := by
  cases c with
  | powerOnReset dt => exact acting_lawful dt hs heldInReset_keepsLaw
  | resetRelease dt pins =>
    refine acting_lawful dt hs fun d hd => ?_
    split
    · exact StationLaw.resetNow _ _
    · exact hd
  | transactionStart dt => exact acting_lawful dt hs transactionStart_leavesInputs.keepsLaw
  | setup dt position => exact request_lawful dt _ _ hs (setup_leavesInputs position).keepsLaw
  | configureChannel dt channel options glitch prescale =>
    exact request_lawful dt _ _ hs (configureChannel_keepsLaw channel options glitch prescale)
  | defineTask dt task => exact request_lawful dt _ _ hs (defineTask_leavesInputs task _).keepsLaw
  | armTask dt task => exact request_lawful dt _ _ hs (armTask_leavesInputs task).keepsLaw
  | disarmTask dt task => exact request_lawful dt _ _ hs (disarmTask_leavesInputs task).keepsLaw
  | tearDownTask dt task => exact request_lawful dt _ _ hs (tearDownTask_leavesInputs task).keepsLaw
  | defineListenEntry dt entry => exact request_lawful dt _ _ hs (defineListenEntry_leavesInputs entry _).keepsLaw
  | publishGate dt gate action => exact request_lawful dt _ _ hs (publishGate_leavesInputs gate action).keepsLaw
  | readResult dt => exact request_lawful dt _ _ hs readResult_leavesInputs.keepsLaw
  | readStatus dt options => exact request_lawful dt _ _ hs (readStatus_leavesInputs _).keepsLaw
  | readTime dt => exact request_lawful dt _ _ hs fun _ hd => hd
  | setEvents dt enables => exact request_lawful dt _ _ hs fun _ hd => hd.modEng _
  | ackEvents dt acks => exact request_lawful dt _ _ hs fun _ hd => hd.modEng _
  | clearFault dt => exact request_lawful dt _ _ hs clearFault_leavesInputs.keepsLaw
  | retire dt => exact request_lawful dt _ _ hs retire_leavesInputs.keepsLaw
  | reset dt => exact request_lawful dt _ _ hs fun _ hd => hd.modEng _
  | unknownRequest dt kind =>
    show LawfulOutcome (if kindAssigned kind then _ else _)
    split
    · exact running_lawful dt hs fun _ hd => hd
    · exact request_lawful dt _ _ hs fun _ hd => hd
  | replyReady dt => exact running_lawful dt hs replyReady_leavesInputs.keepsLaw
  | replyCompleted dt pins => exact running_lawful dt hs (replyCompleted_keepsLaw pins)
  | csRiseEarly dt pins => exact running_lawful dt hs (csRiseEarly_keepsLaw pins)
  | referenceLost dt lastEdge => exact running_lawful dt hs (referenceLost_keepsLaw lastEdge)
  | referenceEdgeReturns dt => exact running_lawful dt hs (modTb_keepsLaw fun _ => TimebaseLaw.edgeReturns)
  | returningSilence dt => exact running_lawful dt hs (modTb_keepsLaw fun _ => TimebaseLaw.silence)
  | referenceQualified dt => exact running_lawful dt hs referenceQualified_keepsLaw
  | degradedSpanAged dt => exact running_lawful dt hs (modTb_keepsLaw fun _ => TimebaseLaw.ageSpan)
  | floorAged dt => exact running_lawful dt hs (modTb_keepsLaw fun _ => TimebaseLaw.ageFloor)
  | pinLevelChange dt ch persists => exact acting_lawful dt hs (pinChange_keepsLaw ch persists)
  | edgeQualified dt ch => exact running_lawful dt hs (edgeQualified_keepsLaw ch)
  | ringAging dt ch =>
    exact show LawfulOutcome (execRingAging dt ch s) from running_lawful dt hs (ringAging_keepsLaw ch)
  | recordLongPast dt ch =>
    exact show LawfulOutcome (execRecordLongPast dt ch s) from running_lawful dt hs (recordLongPast_keepsLaw ch)
  | keptTimeLongPast dt => exact running_lawful dt hs markLongPast_keepsLaw
  | timedGateEvaluation dt =>
    exact show LawfulOutcome (execTimedGateEvaluation dt s) from running_lawful dt hs (atMoment_keepsLaw Engine.timedMoment)
  | lineGateEvaluation dt =>
    exact show LawfulOutcome (execLineGateEvaluation dt s) from running_lawful dt hs (atMoment_keepsLaw Engine.lineMoment)
  | lineGateCut dt =>
    exact show LawfulOutcome (execLineGateCut dt s) from running_lawful dt hs (atMoment_keepsLaw Engine.cutMoment)
  | phaseNoSignalLimit dt =>
    exact show LawfulOutcome (execPhaseNoSignalLimit dt s) from running_lawful dt hs (atMoment_keepsLaw Engine.phaseLimitMoment)
  | windowHorizon dt =>
    exact show LawfulOutcome (execWindowHorizon dt s) from running_lawful dt hs (atMoment_keepsLaw Engine.windowMoment)
  | jobFinish dt =>
    exact show LawfulOutcome (execJobFinish dt s) from running_lawful dt hs jobFinish_keepsLaw
  | lineFall dt => exact running_lawful dt hs (LeavesInputs.keepsLaw fun _ => ⟨rfl, rfl⟩)
  | lineRise dt => exact running_lawful dt hs lineRise_leavesInputs.keepsLaw
  | stuckEntry dt => exact running_lawful dt hs stuckEntry_leavesInputs.keepsLaw
  | stuckEnd dt => exact running_lawful dt hs stuckEnd_leavesInputs.keepsLaw
  | lineStuck dt => exact running_lawful dt hs lineStuck_leavesInputs.keepsLaw
  | frameTruncated dt => exact running_lawful dt hs frameTruncated_leavesInputs.keepsLaw
  | markerReceived dt pins => exact running_lawful dt hs (markerReceived_keepsLaw pins)
  | frameEnd dt pins => exact running_lawful dt hs (frameEnd_keepsLaw pins)
  | attemptStart dt peerLead => exact running_lawful dt hs (attemptStart_leavesInputs peerLead).keepsLaw
  | arbitrationLoss dt => exact running_lawful dt hs arbitrationLoss_leavesInputs.keepsLaw
  | resetDeadline dt pins =>
    refine running_lawful dt hs fun d hd => ?_
    split
    · exact StationLaw.resetNow _ _
    · exact hd
  | cellEdge dt => exact running_lawful dt hs cellEdge_leavesInputs.keepsLaw
  | cellSample dt othersLow => exact running_lawful dt hs (cellSample_leavesInputs othersLow).keepsLaw
  | transactionEnd dt => exact acting_lawful dt hs transactionEnd_leavesInputs.keepsLaw
  | stuckLineEdge dt rising => exact running_lawful dt hs (stuckEdge_leavesInputs rising).keepsLaw

/-- Settles O58: an idle step lets time pass, any other is the command at the front of the queue. -/
theorem stationLawKept : Obligations.StationLawKept := by
  intro s t hs ht
  unfold step at ht
  split at ht
  · obtain rfl := Host.Outcome.next.inj ht
    exact hs.elapse coarseTick
  · rename_i c rest _
    exact exec_lawful c (s := { s with pending := rest }) hs t ht

/-- Settles O59: the state after reset is one that a release leaves. -/
theorem stationLawAtReset : Obligations.StationLawAtReset := StationLaw.released _ _ _

end Sys2Proof.Safety
end

