-- ==== Sys2Proof/Proofs/TimebaseAndChannels.lean ====
section
/-!
PROOFS. What the commands of the timebase and of the input channels do (chapter 01).
-/

namespace Sys2Proof.Safety

open Sys2Proof.Machine

/-! ## Commands that act while the station is out of reset -/

section

variable {s : State} (dt : Nat) (h : s.dev.held = false)

include h

theorem exec_referenceLost (lastEdge : Stamp) :
    exec (.referenceLost dt lastEdge) s = goesTo s ((atTime dt s).referenceLost lastEdge) := running_goesTo dt _ h

theorem exec_referenceEdgeReturns :
    exec (.referenceEdgeReturns dt) s = goesTo s ((atTime dt s).modTb Timebase.edgeReturns) := running_goesTo dt _ h

theorem exec_returningSilence :
    exec (.returningSilence dt) s = goesTo s ((atTime dt s).modTb Timebase.silence) := running_goesTo dt _ h

theorem exec_referenceQualified :
    exec (.referenceQualified dt) s = goesTo s (atTime dt s).referenceQualified := running_goesTo dt _ h

theorem exec_degradedSpanAged :
    exec (.degradedSpanAged dt) s = goesTo s ((atTime dt s).modTb Timebase.ageSpan) := running_goesTo dt _ h

theorem exec_floorAged :
    exec (.floorAged dt) s = goesTo s ((atTime dt s).modTb Timebase.ageFloor) := running_goesTo dt _ h

theorem exec_edgeQualified (ch : Chan) :
    exec (.edgeQualified dt ch) s = goesTo s ((atTime dt s).edgeQualified ch) := running_goesTo dt _ h

end

/-- An operation on the timebase that leaves it leaves the station. -/
theorem modTb_of_eq {f : Timebase → Timebase} {d : Station} (h : f d.front.tb = d.front.tb) : d.modTb f = d := by
  unfold Station.modTb; rw [h]

/-! ## The reference monitor (R3, R4, R6) -/

/-- The timebase once its reference is lost, its spans by their number (R3, R6). -/
theorem loseReference_eq (lastEdge : Stamp) (tb : Timebase) :
    tb.loseReference lastEdge =
      { now := tb.now, monitor := .absent, degraded := true, qualifyFrom := none,
        spans := (if tb.spans.length < 4 then tb.spans else tb.spans.tail) ++ [⟨⟨lastEdge, false⟩, none⟩],
        floor := if tb.spans.length < 4 then tb.floor else tb.spans.head?.bind Span.stop } := by
  unfold Timebase.loseReference Timebase.openSpan maxSpans
  cases hs : tb.spans with
  | nil => rfl
  | cons sp rest =>
    by_cases hl : (sp :: rest).length < 4
    · simp only [if_pos hl, if_neg (Nat.not_le.2 hl)]; rfl
    · simp only [if_neg hl, if_pos (Nat.not_lt.1 hl)]; rfl

theorem edgeReturns_absent {tb : Timebase} (h : tb.monitor = .absent) :
    tb.edgeReturns = { tb with monitor := .returning, qualifyFrom := some tb.now } := if_pos h

theorem edgeReturns_idle {tb : Timebase} (h : tb.monitor ≠ .absent) : tb.edgeReturns = tb := if_neg h

theorem silence_returning {tb : Timebase} (h : tb.monitor = .returning) :
    tb.silence = { tb with monitor := .absent, qualifyFrom := none } := if_pos h

theorem silence_idle {tb : Timebase} (h : tb.monitor ≠ .returning) : tb.silence = tb := if_neg h

/-- Out of PRESENT the loss is no occasion (R3, log 3). -/
theorem referenceLost_idle {lastEdge : Stamp} {d : Station} (h : d.front.tb.monitor ≠ .present) :
    d.referenceLost lastEdge = d := by unfold Station.referenceLost; exact if_neg h

theorem referenceLost_present {lastEdge : Stamp} {d : Station} (h : d.front.tb.monitor = .present) :
    d.referenceLost lastEdge =
      (d.modTb (Timebase.loseReference lastEdge)).modEng (fun e => (e.stationFault .referenceLost d.now 0).latchTimebase) := by
  unfold Station.referenceLost; exact if_pos h

/-- A halted station takes no fault (R166). -/
theorem stationFault_halted {cls : FaultClass} {stamp : Stamp} {detail : Byte} {e : Engine} (h : e.ctl.state = .halted) :
    e.stationFault cls stamp detail = e := by unfold Engine.stationFault; exact if_pos h

/-- With the hold clear a fault is held (R166). -/
theorem stationFault_holds {cls : FaultClass} {stamp : Stamp} {detail : Byte} {e : Engine} (h : e.ctl.state ≠ .halted)
    (hh : e.ctl.faultHold = false) :
    e.stationFault cls stamp detail =
      e.modCtl (fun c => { c with faultHold := true, faultRecord := some ⟨cls, stamp, detail⟩ }) := by
  unfold Engine.stationFault; rw [if_neg h, if_neg (by simp [hh])]

theorem referenceQualified_idle {d : Station} (h : d.front.tb.qualifies = false) : d.referenceQualified = d := by
  unfold Station.referenceQualified; simp [h]

theorem referenceQualified_qualifies {d : Station} (h : d.front.tb.qualifies = true) :
    d.referenceQualified = (d.modTb Timebase.qualified).modEng Engine.latchTimebase := by
  unfold Station.referenceQualified; exact if_pos h

/-- The reference qualifies in RETURNING, 1 ms after its qualification interval began (R4). -/
theorem qualifies_iff {tb : Timebase} : tb.qualifies = true ↔
    tb.monitor = .returning ∧ ∃ t, tb.qualifyFrom = some t ∧ reached tb.now (plus t 8000000) = true := by
  simp [Timebase.qualifies, qualification, Option.any_eq_true]

/-! ## The degraded history (R6, R7) -/

/-- The oldest span leaves once its end has aged (R6). -/
theorem ageSpan_elapsed {tb : Timebase} {sp : Span} {rest : List Span} {t : Stamp} (hs : tb.spans = sp :: rest)
    (ht : sp.stop = some t) (he : reached tb.now (plus t oldAge) = true) : tb.ageSpan = { tb with spans := rest } := by
  obtain ⟨start, stop⟩ := sp
  obtain rfl : stop = some t := ht
  unfold Timebase.ageSpan
  rw [hs]; exact if_pos he

theorem ageSpan_stays {tb : Timebase} {sp : Span} {rest : List Span} (hs : tb.spans = sp :: rest)
    (ht : ∀ t, sp.stop = some t → ¬reached tb.now (plus t oldAge) = true) : tb.ageSpan = tb := by
  obtain ⟨start, stop⟩ := sp
  unfold Timebase.ageSpan
  rw [hs]
  cases stop with
  | none => rfl
  | some t => exact if_neg (ht t rfl)

/-- The floor becomes absent once it has aged (R6). -/
theorem ageFloor_elapsed {tb : Timebase} {t : Stamp} (hf : tb.floor = some t) (he : reached tb.now (plus t oldAge) = true) :
    tb.ageFloor = { tb with floor := none } := by
  unfold Timebase.ageFloor; rw [hf]; exact if_pos he

theorem ageFloor_stays {tb : Timebase} (h : ∀ t, tb.floor = some t → ¬reached tb.now (plus t oldAge) = true) :
    tb.ageFloor = tb := by
  unfold Timebase.ageFloor
  split
  · rename_i t hf; exact if_neg (h t hf)
  · rfl

/-- A stamp that is not long past lies in a span between its start and its end (R7, R100). -/
theorem contains_iff {sp : Span} {t : Stamp} : sp.contains ⟨t, false⟩ = true ↔
    (sp.start.longPast = true ∨ later sp.start.stamp t = false) ∧ ∀ e, sp.stop = some e → later t e = false := by
  unfold Span.contains
  rw [Bool.and_eq_true]
  refine and_congr ?_ ?_
  · cases hl : sp.start.longPast <;> simp [Kept.laterThan, hl]
  · cases hs : sp.stop <;> simp [Kept.laterThan, fresh]

theorem atOrBeforeFloor_iff {floor : Option Stamp} {t : Stamp} :
    atOrBeforeFloor floor ⟨t, false⟩ = true ↔ ∃ f, floor = some f ∧ later t f = false := by
  cases floor <;> simp [atOrBeforeFloor, Kept.laterThan, fresh]

/-- The degraded test of a stamp that is not long past (R7). -/
theorem stampDegraded_iff {tb : Timebase} {t : Stamp} : tb.stampDegraded ⟨t, false⟩ = true ↔
    (∃ f, tb.floor = some f ∧ later t f = false) ∨
    ∃ sp ∈ tb.spans, (sp.start.longPast = true ∨ later sp.start.stamp t = false) ∧
      ∀ e, sp.stop = some e → later t e = false := by
  simp only [Timebase.stampDegraded, Bool.false_eq_true, if_false, Bool.or_eq_true, atOrBeforeFloor_iff, List.any_eq_true,
    contains_iff]

/-- The degraded test of a long-past stamp (R100). -/
theorem stampDegraded_longPast_iff {tb : Timebase} {t : Stamp} : tb.stampDegraded ⟨t, true⟩ = true ↔
    tb.floor ≠ none ∨ ∃ sp ∈ tb.spans, sp.start.longPast = true ∨ reached tb.now (plus sp.start.stamp oldAge) = true := by
  simp only [Timebase.stampDegraded, if_true, Bool.or_eq_true, List.any_eq_true, Kept.mark, Option.isSome_iff_ne_none]

/-! ## The timebase's statements -/

/-- Settles O2. -/
theorem idleStepIsOneCoarseTick : Obligations.IdleStepIsOneCoarseTick := by
  intro s hs
  unfold step
  rw [hs]
  show Host.Outcome.next { s with dev := s.dev.elapse 32 } = _
  cases hh : s.dev.held with
  | true => rw [Station.elapse_held _ hh]; rfl
  | false => rw [elapse_atTime _ hh]; rfl

/-- Settles O5: every field is the one written out. -/
theorem releasedStationIsAtReset : Obligations.ReleasedStationIsAtReset := fun _ _ _ => rfl

/-- Settles O28: with the hold clear the fault is held, and HALTED takes none; no other state of the monitor is an occasion. -/
theorem referenceLossIsDeclared : Obligations.ReferenceLossIsDeclared := by
  refine ⟨fun s dt lastEdge h => ?_, fun s dt h => ?_⟩
  · intro d tb opened lost leads latched
    have hl : tb.loseReference lastEdge = lost := loseReference_eq lastEdge tb
    refine ⟨fun hm => ?_, fun hm hs => ?_, fun hm hs hh => ?_⟩
    · rw [exec_referenceLost dt h, referenceLost_idle hm]
    · show exec _ s = _
      rw [exec_referenceLost dt h, referenceLost_present hm, ← hl]
      simp only [Station.modEng, Station.modTb_eng, stationFault_halted hs]; rfl
    · show exec _ s = _
      rw [exec_referenceLost dt h, referenceLost_present hm, ← hl]
      simp only [Station.modEng, Station.modTb_eng, stationFault_holds hs hh]; rfl
  · intro d tb nothing
    refine ⟨fun hm => ?_, fun hm => ?_, fun t ht hr => ?_, fun hm => ?_⟩ <;> show exec _ s = goesTo s d
    · rw [exec_referenceEdgeReturns dt h, modTb_of_eq (edgeReturns_idle hm)]
    · rw [exec_returningSilence dt h, modTb_of_eq (silence_idle hm)]
    · rw [exec_referenceQualified dt h, referenceQualified_idle]
      refine Bool.eq_false_iff.2 fun hq => ?_
      obtain ⟨-, u, hu, hru⟩ := qualifies_iff.1 hq
      obtain rfl := Option.some.inj (ht.symm.trans hu)
      exact Bool.false_ne_true (hr.symm.trans hru)
    · rw [exec_referenceQualified dt h, referenceQualified_idle]
      exact Bool.eq_false_iff.2 fun hq => hm (qualifies_iff.1 hq).1

/-- Settles O30. -/
theorem referenceReturns : Obligations.ReferenceReturns := by
  intro s dt h d tb leads l
  refine ⟨fun hm => ?_, fun hm => ?_, fun t older newest hm ht hs hr => ?_⟩ <;> show exec _ s = goesTo s _
  · rw [exec_referenceEdgeReturns dt h, Station.modTb, edgeReturns_absent hm]
  · rw [exec_returningSilence dt h, Station.modTb, silence_returning hm]
  · rw [exec_referenceQualified dt h, referenceQualified_qualifies (qualifies_iff.2 ⟨hm, t, ht, hr⟩)]
    have hq : tb.qualified = { tb with
        monitor := .present, degraded := false, qualifyFrom := none, spans := older ++ [⟨newest.start, some tb.now⟩] } := by
      rw [Timebase.qualified, hs, closeNewest_append]
    rw [← hq]; rfl

/-- Settles O31. -/
theorem degradedHistory : Obligations.DegradedHistory := by
  refine ⟨fun s dt h => ?_, fun tb t => ⟨stampDegraded_iff, stampDegraded_longPast_iff⟩⟩
  intro d tb leads elapsed
  refine ⟨fun sp rest t hs ht he => ?_, fun sp rest hs ht => ?_, fun t ht he => ?_, fun t ht he => ?_, fun hf => ?_⟩ <;>
    show exec _ s = goesTo s _
  · rw [exec_degradedSpanAged dt h, Station.modTb, ageSpan_elapsed hs ht he]
  · rw [exec_degradedSpanAged dt h, modTb_of_eq (ageSpan_stays hs ht)]
  · rw [exec_floorAged dt h, Station.modTb, ageFloor_elapsed ht he]
  · rw [exec_floorAged dt h, modTb_of_eq (ageFloor_stays fun u hu => Option.some.inj (ht.symm.trans hu) ▸ he)]
  · rw [exec_floorAged dt h, modTb_of_eq (ageFloor_stays fun _ hu => nomatch hf.symm.trans hu)]

end Sys2Proof.Safety
end

