-- ==== Sys2Proof/Proofs/Channels.lean ====
section
/-!
PROOFS. What a level change on a pin and the qualification of a pending change do (R9 to R16, R18, R19, R21).
-/

namespace Sys2Proof.Safety

open Sys2Proof.Machine

/-! ## One channel's record replaced -/

section

variable (d : Station) (ch : Chan) (c c' : Channel)

@[simp] theorem withChan_chan : (withChan d ch c).front.chan ch = c := Per4.get_set_same _ _ _

@[simp] theorem withChan_withChan : withChan (withChan d ch c) ch c' = withChan d ch c' := by
  simp [withChan]

theorem modChan_eq (f : Channel → Channel) : d.modChan ch f = withChan d ch (f (d.front.chan ch)) := rfl

end

/-! ## An arrival in the ring (R18, R19, R21) -/

theorem arrive_room (now : Stamp) (seqNo : SeqNo) (stamp : Stamp) (count : EdgeCount) {r : Ring} (h : ¬64 ≤ r.entries.length) :
    r.arrive now seqNo stamp count =
      { r with entries := r.entries ++ [⟨r.nextIndex, seqNo, stamp, count⟩], nextIndex := r.nextIndex + 1 } := by
  unfold Ring.arrive ringDepth; rw [if_neg h]

/-- A full ring loses its oldest entry first. -/
theorem arrive_full (now : Stamp) (seqNo : SeqNo) (stamp : Stamp) (count : EdgeCount) {r : Ring} {e : Entry} {es : List Entry}
    (hs : r.entries = e :: es) (h : 64 ≤ r.entries.length) :
    r.arrive now seqNo stamp count =
      ⟨es ++ [⟨r.nextIndex, seqNo, stamp, count⟩], r.nextIndex + 1, true, some ⟨e.index, (fresh e.stamp).mark now⟩⟩ := by
  unfold Ring.arrive ringDepth; rw [if_pos h]; unfold Ring.depart; rw [hs]

/-! ## The filter settles (R9 to R14) -/

theorem settle_unselected {c : Channel} (h : c.edgeSelect.counts (!c.accepted) = false) :
    c.settle = { c with accepted := !c.accepted, pendingChange := none } := by
  unfold Channel.settle; rw [h]; rfl

theorem settle_selected {c : Channel} (h : c.edgeSelect.counts (!c.accepted) = true) :
    c.settle = { c with accepted := !c.accepted, pendingChange := none, count := c.count + 1 } := by
  unfold Channel.settle; rw [h]; rfl

/-- An edge that is not selected counts nothing (R10). -/
theorem qualify_unselected (now edge : Stamp) {c : Channel} (h : c.edgeSelect.counts (!c.accepted) = false) :
    c.qualify now edge = ({ c with accepted := !c.accepted, pendingChange := none }, none) := by
  simp only [Channel.qualify, h, settle_unselected h]; rfl

/-- A selected edge that is not attempted or is skipped is counted only (R11 to R13). -/
theorem qualify_counted (now : Stamp) {edge : Stamp} {c : Channel} (h : c.edgeSelect.counts (!c.accepted) = true)
    (hn : c.settle.attempts = false ∨ c.skips edge = true) :
    c.qualify now edge = ({ c with accepted := !c.accepted, pendingChange := none, count := c.count + 1 }, none) := by
  have hcond : (true && c.settle.attempts && !c.settle.skips edge) = false := by
    rcases hn with hn | hn
    · simp [hn]
    · simp [show c.settle.skips edge = true from hn]
  simp only [Channel.qualify, h, hcond]
  rw [settle_selected h]; rfl

/-- Any other selected edge is stamped and makes an entry (R12, R14). -/
theorem qualify_stamped (now : Stamp) {edge : Stamp} {c : Channel} (h : c.edgeSelect.counts (!c.accepted) = true)
    (ha : c.settle.attempts = true) (hs : c.skips edge = false) :
    c.qualify now edge = (c.settle.stamp now edge, some (c.settle.nextEntry edge)) := by
  have hs' : c.settle.skips edge = false := hs
  simp only [Channel.qualify, h, ha, hs']; rfl

/-- The attempt is decided by the count with the edge in it (R12). -/
theorem settle_attempts {c : Channel} (h : c.edgeSelect.counts (!c.accepted) = true) :
    c.settle.attempts = decide ((c.count + 1).toNat % (c.prescaleField.toNat + 1) = 0) := by
  rw [settle_selected h]; rfl

theorem skips_eq (edge : Stamp) (c : Channel) :
    c.skips edge = c.deadUntil.any (fun t => !t.longPast && later t.stamp edge) := by
  unfold Channel.skips
  congr 1; funext t
  cases hl : t.longPast <;> simp [Kept.laterThan, fresh, hl]

/-- What a qualified change leaves of its channel, and the level it settles on. -/
theorem qualify_keeps (now edge : Stamp) (c : Channel) :
    let q := (c.qualify now edge).1
    q.enabled = c.enabled ∧ q.glitch = c.glitch ∧ q.configuredAt = c.configuredAt ∧ q.pinLevel = c.pinLevel ∧
    q.accepted = !c.accepted := by
  unfold Channel.qualify
  simp only []
  split <;> exact ⟨rfl, rfl, rfl, rfl, rfl⟩

/-- It depends on no pending change. -/
theorem qualify_pends (now edge : Stamp) (p : Option Stamp) (c : Channel) :
    { c with pendingChange := p }.qualify now edge = c.qualify now edge := rfl

/-! ## Edges of a channel -/

theorem qualifyEdge_of_none {d : Station} {ch : Chan} {edge : Stamp} {c : Channel}
    (h : (d.front.chan ch).qualify d.now edge = (c, none)) : d.qualifyEdge ch edge = withChan d ch c := by
  unfold Station.qualifyEdge; rw [h]; rfl

theorem qualifyEdge_of_some {d : Station} {ch : Chan} {edge : Stamp} {c : Channel} {x : Entry}
    (h : (d.front.chan ch).qualify d.now edge = (c, some x)) :
    d.qualifyEdge ch edge = (withChan d ch c).modEng (Engine.arrival (withChan d ch c).front ch x) := by
  unfold Station.qualifyEdge; rw [h]; rfl

/-- The tasks that an entry is offered to leave the front. -/
theorem qualifyEdge_front (d : Station) (ch : Chan) (edge : Stamp) :
    (d.qualifyEdge ch edge).front = (withChan d ch ((d.front.chan ch).qualify d.now edge).1).front := by
  unfold Station.qualifyEdge; simp only []; split <;> rfl

/-- A pending change of an enabled channel is qualified once it has persisted W coarse ticks (R10). -/
theorem edgeQualified_due {d : Station} {ch : Chan} {raw : Stamp} (he : (d.front.chan ch).enabled = true)
    (hp : (d.front.chan ch).pendingChange = some raw)
    (hr : reached d.now (plus raw ((d.front.chan ch).glitch.val * 32)) = true) :
    d.edgeQualified ch = d.qualifyEdge ch raw := by
  have hq : (d.front.chan ch).qualifyDue d.now = some raw := by
    simp [Channel.qualifyDue, hp, he, Channel.glitchTime, coarseTick, hr]
  unfold Station.edgeQualified; rw [hq]

/-- Before that, nothing happens. -/
theorem edgeQualified_waits {d : Station} {ch : Chan} (h : ∀ raw, (d.front.chan ch).pendingChange = some raw →
    reached d.now (plus raw ((d.front.chan ch).glitch.val * 32)) = false) : d.edgeQualified ch = d := by
  have hq : (d.front.chan ch).qualifyDue d.now = none := by
    unfold Channel.qualifyDue
    split
    · rename_i raw hp
      simp [Channel.glitchTime, coarseTick, h raw hp]
    · rfl
  unfold Station.edgeQualified; rw [hq]

/-- A disabled channel qualifies nothing. -/
theorem edgeQualified_disabled {d : Station} {ch : Chan} (h : (d.front.chan ch).enabled = false) : d.edgeQualified ch = d := by
  have hq : (d.front.chan ch).qualifyDue d.now = none := by
    unfold Channel.qualifyDue; rw [h]; split <;> rfl
  unfold Station.edgeQualified; rw [hq]

/-! ## The pin (R9, R16) -/

theorem exec_pinLevelChange (dt : Nat) (ch : Chan) (persists : Nat) (s : State) :
    exec (.pinLevelChange dt ch persists) s = goesTo s ((s.dev.elapse dt).pinChange ch persists) := rfl

theorem elapse_eq (dt : Nat) (s : State) : s.dev.elapse dt = if s.dev.held then s.dev else atTime dt s := by
  cases h : s.dev.held with
  | true => exact Station.elapse_held _ h
  | false => exact elapse_atTime _ h

theorem beforeConfigured_eq_false {now : Stamp} {c : Channel} :
    c.beforeConfigured now = false ↔ ∀ t, c.configuredAt = some t → (fresh now).laterThan t = true := by
  unfold Channel.beforeConfigured
  cases c.configuredAt <;> simp

theorem beforeConfigured_of_some {now : Stamp} {c : Channel} {t : Kept} (hc : c.configuredAt = some t)
    (h : (fresh now).laterThan t = false) : c.beforeConfigured now = true := by
  simp [Channel.beforeConfigured, hc, h]

section

variable {d : Station} {ch : Chan}

/-- The second edge of a short pulse vanishes with the first. -/
theorem pinChange_pulseEnds (persists : Nat) (h : (d.front.chan ch).inShortPulse = true) :
    d.pinChange ch persists =
      withChan d ch { d.front.chan ch with pinLevel := !(d.front.chan ch).pinLevel, inShortPulse := false } := by
  simp only [Station.pinChange, h, if_true, modChan_eq, withChan_chan, withChan_withChan]

theorem pinChange_pulseBegins {persists : Nat} (h : (d.front.chan ch).inShortPulse = false) (hp : persists < 13) :
    d.pinChange ch persists =
      withChan d ch { d.front.chan ch with pinLevel := !(d.front.chan ch).pinLevel, inShortPulse := true } := by
  simp only [Station.pinChange, minPulse, h, hp, if_true, Bool.false_eq_true, if_false, modChan_eq, withChan_chan,
    withChan_withChan]

/-- A level that lasts is for the filter, unless reset is held. -/
theorem pinChange_lasts {persists : Nat} (h : (d.front.chan ch).inShortPulse = false) (hp : ¬persists < 13) :
    d.pinChange ch persists =
      let t := withChan d ch { d.front.chan ch with pinLevel := !(d.front.chan ch).pinLevel }
      if d.held then t else t.filterPin ch := by
  simp only [Station.pinChange, minPulse, h, hp, Bool.false_eq_true, if_false, modChan_eq]

theorem filterPin_disabled (h : (d.front.chan ch).enabled = false) : d.filterPin ch = d := by
  simp [Station.filterPin, edgeQualified_disabled h, h]

variable {q : Station} {k : Channel} (hq : d.edgeQualified ch = q) (hk : q.front.chan ch = k) (he : k.enabled = true)

include hq hk he

/-- A level at the time of the configuration is taken as it is (R16, log 38). -/
theorem filterPin_configured (hb : k.beforeConfigured q.now = true) :
    d.filterPin ch = withChan q ch { k with accepted := k.pinLevel } := by
  simp only [Station.filterPin, hq, hk, he, hb, Bool.not_true, Bool.false_eq_true, if_false, if_true, modChan_eq]

variable (hb : k.beforeConfigured q.now = false)

include hb

/-- With W > 0 the change is recorded as pending, or drops the pending one (R9). -/
theorem filterPin_filters (hg : k.glitch ≠ 0) :
    d.filterPin ch = withChan q ch { k with pendingChange := if k.pinLevel = k.accepted then none else some q.now } := by
  simp only [Station.filterPin, hq, hk, he, hb, hg, Bool.not_true, Bool.false_eq_true, if_false, modChan_eq,
    Channel.filterChange]

/-- With W = 0 a return does nothing (R9). -/
theorem filterPin_returns (hg : k.glitch = 0) (hl : k.pinLevel = k.accepted) : d.filterPin ch = q := by
  simp only [Station.filterPin, hq, hk, he, hb, hg, hl, Bool.not_true, Bool.false_eq_true, if_false, if_true]

/-- With W = 0 a change away from the accepted level is qualified at once (R9). -/
theorem filterPin_qualifies (hg : k.glitch = 0) (hl : k.pinLevel ≠ k.accepted) :
    d.filterPin ch = q.qualifyEdge ch q.now := by
  simp only [Station.filterPin, hq, hk, he, hb, hg, hl, Bool.not_true, Bool.false_eq_true, if_false, if_true]

end

/-- With no time the station is the one before. -/
theorem atTime_zero (s : State) : atTime 0 s = s.dev := by
  unfold atTime; rw [BitVec.add_zero]

/-- A moment is reached at itself (R100). -/
theorem reached_self (now : Stamp) : reached now (plus now 0) = true := by
  simp [reached, since, plus]

/-- The edge of a change depends on nothing but its channel's other fields (R10). -/
theorem qualifyEdge_withChan_pends (d : Station) (ch : Chan) (edge : Stamp) (c : Channel) (p : Option Stamp) :
    (withChan d ch { c with pendingChange := p }).qualifyEdge ch edge = (withChan d ch c).qualifyEdge ch edge := by
  have hq : ((withChan d ch { c with pendingChange := p }).front.chan ch).qualify d.now edge = c.qualify d.now edge := by
    rw [withChan_chan, qualify_pends]
  cases hc : c.qualify d.now edge with
  | mk c' x =>
    cases x with
    | none =>
      rw [qualifyEdge_of_none (hq.trans hc), qualifyEdge_of_none (by rw [withChan_chan]; exact hc), withChan_withChan,
        withChan_withChan]
    | some x =>
      rw [qualifyEdge_of_some (hq.trans hc), qualifyEdge_of_some (by rw [withChan_chan]; exact hc), withChan_withChan,
        withChan_withChan]

/-! ## The channels' statements -/

/-- Settles O34: the three ways a due change can go are those of `Channel.qualify`. -/
theorem qualifiedEdgeIsStamped : Obligations.QualifiedEdgeIsStamped := by
  intro s dt ch raw h he hp d c rising selected settled counted attempted dead x ring stamped leads
  have hsel : c.edgeSelect.counts (!c.accepted) = selected := rfl
  have hring : c.ring.arrive d.now (c.seqNo + 1) raw (c.count + 1) = ring := by
    simp only [ring]
    split
    · rename_i e es hs
      split
      · exact arrive_full _ _ _ _ hs (hs ▸ ‹_›)
      · rw [arrive_room _ _ _ _ (hs ▸ ‹_›), hs]
    · rename_i hs
      rw [arrive_room _ _ _ _ (by simp [hs]), hs]; rfl
  have hstamp : selected = true → c.settle.stamp d.now raw =
      { counted with seqNo := c.seqNo + 1, deadUntil := some ⟨raw + 64, false⟩, ring := ring } := fun hs => by
    rw [settle_selected (hsel.trans hs)]
    exact congrArg (fun r : Ring =>
      ({ counted with seqNo := c.seqNo + 1, deadUntil := some ⟨raw + 64, false⟩, ring := r } : Channel)) hring
  have hentry : selected = true → c.settle.nextEntry raw = x := fun hs => by rw [settle_selected (hsel.trans hs)]; rfl
  refine ⟨fun hr => ?_, fun hr => ?_⟩
  · show exec _ s = goesTo s d
    rw [exec_edgeQualified dt h, edgeQualified_waits]
    intro raw' hp'
    obtain rfl := Option.some.inj (hp.symm.trans hp')
    exact hr
  · have hex : exec (.edgeQualified dt ch) s = goesTo s (d.qualifyEdge ch raw) := by
      rw [exec_edgeQualified dt h, edgeQualified_due (d := atTime dt s) he hp hr]
    refine ⟨fun hs => ?_, fun hs hn => ?_, fun hs ha hd => ?_⟩ <;> refine hex.trans (congrArg (goesTo s) ?_)
    · exact qualifyEdge_of_none (qualify_unselected _ _ (hsel.trans hs))
    · exact qualifyEdge_of_none (qualify_counted _ (hsel.trans hs)
        (hn.imp (settle_attempts (hsel.trans hs)).trans (skips_eq raw c).trans))
    · rw [qualifyEdge_of_some (qualify_stamped _ (hsel.trans hs) ((settle_attempts (hsel.trans hs)).trans ha)
        ((skips_eq raw c).trans hd)), hstamp hs, hentry hs]
      rfl

/-- Settles O33: an enabled channel out of reset filters the change on the station `t` in which the pin has moved. -/
theorem pinChangesAreFiltered : Obligations.PinChangesAreFiltered := by
  intro s dt ch persists d c goes leads moved toggled pendsOr due later
  have hd : s.dev.elapse dt = d := elapse_eq dt s
  have acts : ∀ t, d.pinChange ch persists = t → exec (.pinLevelChange dt ch persists) s = goesTo s t := fun t ht =>
    (exec_pinLevelChange dt ch persists s).trans (congrArg (goesTo s) ((congrArg (Station.pinChange ch persists) hd).trans ht))
  refine ⟨fun hi => acts _ (pinChange_pulseEnds persists hi),
    fun hi => ⟨fun hp => acts _ (pinChange_pulseBegins hi hp), fun hp => ?_⟩⟩
  have hheld : d.held = s.dev.held := by rw [← hd, Station.elapse_held_field]
  have hl := pinChange_lasts hi (Nat.not_lt.2 hp)
  let t : Station := withChan d ch moved
  have hk : t.front.chan ch = moved := withChan_chan d ch moved
  refine ⟨fun hoff => acts _ (hl.trans ?_), fun he hh => ?_⟩
  · show (if d.held = true then t else t.filterPin ch) = t
    split
    · rfl
    · rename_i hn
      exact filterPin_disabled ((congrArg Channel.enabled hk).trans (hoff.resolve_right fun hh => hn (hheld.trans hh)))
  have filters : ∀ q, t.filterPin ch = q → exec (.pinLevelChange dt ch persists) s = goesTo s q := fun q hq =>
    acts q (hl.trans ((if_neg (by rw [hheld, hh]; exact Bool.false_ne_true)).trans hq))
  have waits : (∀ raw, c.pendingChange = some raw → due raw = false) → t.edgeQualified ch = t := fun hw =>
    edgeQualified_waits (by rw [hk]; exact hw)
  refine ⟨fun u hu hlt hw => ?_, fun hlater =>
    ⟨fun raw hr hdue hg => ?_, fun hw hg => ?_, fun hg hnone => ⟨fun hlv => ?_, fun hlv => ?_⟩⟩⟩
  · refine filters _ ((filterPin_configured (waits hw) hk he (beforeConfigured_of_some hu hlt)).trans ?_)
    exact withChan_withChan _ _ _ _
  · have hdt : atTime dt s = d := by rw [← hd, elapse_atTime _ hh]
    have hex : exec (.edgeQualified dt ch) toggled = goesTo s (t.edgeQualified ch) :=
      (exec_edgeQualified (s := toggled) dt hh ch).trans
        (congrArg (fun x => goesTo s ((withChan x ch moved).edgeQualified ch)) hdt)
    have hdue' : t.edgeQualified ch = t.qualifyEdge ch raw :=
      edgeQualified_due (by rw [hk]; exact he) (by rw [hk]; exact hr) (by rw [hk]; exact hdue)
    have hfront : (t.edgeQualified ch).front = (withChan t ch (moved.qualify d.now raw).1).front := by
      rw [hdue', qualifyEdge_front, hk]; rfl
    have hqk : (t.edgeQualified ch).front.chan ch = (moved.qualify d.now raw).1 := by rw [hfront, withChan_chan]
    have hnow : (t.edgeQualified ch).now = d.now := by unfold Station.now; rw [hfront]; rfl
    obtain ⟨hen, hgl, hco, hpin, hacc⟩ := qualify_keeps d.now raw moved
    have hb : ((moved.qualify d.now raw).1).beforeConfigured (t.edgeQualified ch).now = false := by
      rw [beforeConfigured_eq_false, hco, hnow]; exact hlater
    refine ⟨_, hex, filters _ ((filterPin_filters rfl hqk (hen.trans he) hb (by rw [hgl]; exact hg)).trans ?_)⟩
    rw [hqk]
    refine congrArg (fun p : Option Stamp =>
      withChan (t.edgeQualified ch) ch { (moved.qualify d.now raw).1 with pendingChange := p }) ?_
    rw [hpin, hacc, hnow]
  · refine filters _ ((filterPin_filters (waits hw) hk he (beforeConfigured_eq_false.2 hlater) hg).trans ?_)
    exact withChan_withChan _ _ _ _
  · exact filters _ (filterPin_returns (waits (by simp [hnone])) hk he (beforeConfigured_eq_false.2 hlater) hg hlv)
  · refine (filters _
      (filterPin_qualifies (waits (by simp [hnone])) hk he (beforeConfigured_eq_false.2 hlater) hg hlv)).trans ?_
    have hnow : reached d.now (plus d.now (c.glitch.val * 32)) = true := by rw [hg]; exact reached_self _
    let u : Station := withChan d ch { moved with pendingChange := some d.now }
    have huk : u.front.chan ch = { moved with pendingChange := some d.now } := withChan_chan _ _ _
    have hdue : u.edgeQualified ch = u.qualifyEdge ch d.now :=
      edgeQualified_due (by rw [huk]; exact he) (by rw [huk]) (by rw [huk]; exact hnow)
    rw [exec_edgeQualified (s := { s with dev := u }) 0 (hheld.trans hh), atTime_zero]
    exact congrArg (goesTo s) ((qualifyEdge_withChan_pends _ _ _ _ _).symm.trans hdue.symm)

end Sys2Proof.Safety
end

