-- ==== Sys2Proof/Proofs/Requests.lean ====
section
/-!
PROOFS. Host requests that are refused, and two that are granted: CONFIGURE CHANNEL and READ TIME (R8, R15, R16, R32, R42,
R128, R148, R160, R163, R169).
-/

namespace Sys2Proof.Safety

open Sys2Proof.Machine

/-! ## How a request is answered -/

/-- A request whose judgement leaves the port: the station it makes, with the reply. -/
theorem request_replied (dt : Nat) (kind : Byte) (body : List Byte) {judge : Station → Station × Reply} {s : State} {d : Station}
    {st : Status} {rb : List Byte} (h : awaitsRequest s) (hj : judge (atTime dt s) = (d, ⟨st, rb⟩))
    (hp : d.port = s.dev.port) :
    s.request dt kind body judge = goesTo s (replied kind body st rb d) := by
  rw [request_goesTo dt kind body judge h, hj, replied, answered, hp]

/-- A refused request changes nothing but the reply. -/
theorem request_refused (dt : Nat) (kind : Byte) (body : List Byte) {judge : Station → Station × Reply} {s : State} {st : Status}
    (h : awaitsRequest s) (hj : judge (atTime dt s) = (atTime dt s).refuse st) :
    s.request dt kind body judge = goesTo s (replied kind body st [] (atTime dt s)) :=
  request_replied dt kind body h hj rfl

theorem isHalted_eq_false {d : Station} (h : d.eng.ctl.state ≠ .halted) : d.isHalted = false := by
  simpa [Station.isHalted] using h

/-! ## Codes that name nothing (12.2, 12.3) -/

theorem chanOf_eq_none {c : Byte} : chanOf c = none ↔ 3 < c.toNat := by revert c; decide

theorem edgeSelectOf_eq_none {c : BitVec 2} : edgeSelectOf c = none ↔ c = 3 := by revert c; decide

theorem continuationOf_eq_none {c : Byte} : continuationOf c = none ↔ 2 < c.toNat := by revert c; decide

theorem startSourceOf_eq_none {c : Byte} : startSourceOf c = none ↔ 1 < c.toNat := by revert c; decide

theorem listenModeOf_eq_none {c : Byte} : listenModeOf c = none ↔ 2 < c.toNat := by revert c; decide

theorem listenClassOf_eq_none {c : BitVec 2} : listenClassOf c = none ↔ c = 3 := by revert c; decide

theorem listenActionOf_eq_none {c : Byte} : listenActionOf c = none ↔ 2 < c.toNat := by revert c; decide

theorem gateActionOf_eq_none {c : Byte} : gateActionOf c = none ↔ 1 < c.toNat := by revert c; decide

theorem nibbleOf_eq_none {c : Byte} : nibbleOf c = none ↔ 15 < c.toNat := by
  unfold nibbleOf; split <;> simp <;> omega

theorem taskIdOf_eq_none {c : Byte} : taskIdOf c = none ↔ 7 < c.toNat := by
  unfold taskIdOf; split <;> simp <;> omega

theorem taskIdOf_eq_some {c : Byte} {t : TaskId} (h : c.toNat = t.val) : taskIdOf c = some t := by
  unfold taskIdOf
  rw [dif_pos (h ▸ t.isLt)]
  exact congrArg some (Fin.ext h)

/-! ## The kind area of DEFINE TASK (R32, R51, R65, R72, R85) -/

section

variable {area : BitVec 104}

theorem freqFieldsOf_eq_none (h : 3 < (areaByte area 0).toNat ∨ 1 < (areaByte area 1).toNat ∨
    ((areaByte area 1).toNat = 1 ∧ 15 < (areaByte area 8).toNat)) : freqFieldsOf area = none := by
  unfold freqFieldsOf
  split
  · rfl
  · rename_i input hc
    have h0 : ¬3 < (areaByte area 0).toNat := fun h0 => by rw [chanOf_eq_none.2 h0] at hc; cases hc
    simp only []
    split
    · rename_i h1; rw [h1] at h; simp at h; omega
    · rename_i h1; rw [h1] at h; simp at h; rw [if_neg (by omega)]
    · rfl

theorem phaseFieldsOf_eq_none (h : 3 < (areaByte area 0).toNat ∨ 3 < (areaByte area 1).toNat ∨
    areaByte area 0 = areaByte area 1) : phaseFieldsOf area = none := by
  unfold phaseFieldsOf
  split
  · rename_i ref sig hr hs
    have h0 : ¬3 < (areaByte area 0).toNat := fun h0 => by rw [chanOf_eq_none.2 h0] at hr; cases hr
    have h1 : ¬3 < (areaByte area 1).toNat := fun h1 => by rw [chanOf_eq_none.2 h1] at hs; cases hs
    have heq := (h.resolve_left h0).resolve_left h1
    rw [heq, hs] at hr
    exact if_pos (Option.some.inj hr).symm
  · rfl

theorem intervalFieldsOf_eq_none (h : 1 < (areaByte area 0).toNat ∨ 3 < (areaByte area 1).toNat ∨
    3 < (areaByte area 2).toNat) : intervalFieldsOf area = none := by
  unfold intervalFieldsOf
  split
  · rename_i src startCh stopCh h0 h1 h2
    rcases h with h | h | h
    · rw [startSourceOf_eq_none.2 h] at h0; cases h0
    · rw [chanOf_eq_none.2 h] at h1; cases h1
    · rw [chanOf_eq_none.2 h] at h2; cases h2
  · rfl

theorem publishFieldsOf_eq_none (h : 3 < (areaByte area 0).toNat ∨ 15 < (areaByte area 1).toNat) :
    publishFieldsOf area = none := by
  unfold publishFieldsOf
  split
  · rename_i ch tag h0 h1
    rcases h with h | h
    · rw [chanOf_eq_none.2 h] at h0; cases h0
    · rw [nibbleOf_eq_none.2 h] at h1; cases h1
  · rfl

/-- What the kind area of a known kind must not hold, kind by kind, and the unknown kinds. -/
theorem kindFieldsOf_eq_none {kind : Byte} (h : 4 < kind.toNat ∨ (kind.toNat ≠ 2 ∧ 3 < (areaByte area 0).toNat) ∨
    (kind.toNat = 0 ∧ (1 < (areaByte area 1).toNat ∨ ((areaByte area 1).toNat = 1 ∧ 15 < (areaByte area 8).toNat))) ∨
    (kind.toNat = 1 ∧ (3 < (areaByte area 1).toNat ∨ (areaByte area 0).toNat = (areaByte area 1).toNat)) ∨
    (kind.toNat = 2 ∧ (1 < (areaByte area 0).toNat ∨ 3 < (areaByte area 1).toNat ∨ 3 < (areaByte area 2).toNat)) ∨
    (kind.toNat = 4 ∧ 15 < (areaByte area 1).toNat)) : kindFieldsOf kind area = none := by
  unfold kindFieldsOf
  split
  · rw [freqFieldsOf_eq_none (by simpa using h)]; rfl
  · rw [phaseFieldsOf_eq_none (by simpa [BitVec.toNat_inj] using h)]; rfl
  · rw [intervalFieldsOf_eq_none (by simpa using h)]; rfl
  · rw [chanOf_eq_none.2 (by simpa using h)]; rfl
  · rw [publishFieldsOf_eq_none (by simpa using h)]; rfl
  · rfl

end

/-- A definition needs kind fields and a continuation (R32). -/
theorem taskDefOf_eq_none {kind b : Byte} {l : BitVec 16} {cont f esc : Byte} {area : BitVec 104}
    (h : kindFieldsOf kind area = none ∨ 2 < cont.toNat) : taskDefOf kind b l cont f esc area = none := by
  unfold taskDefOf
  split
  · rename_i hk hc
    rcases h with h | h
    · rw [h] at hk; cases hk
    · rw [continuationOf_eq_none.2 h] at hc; cases hc
  · rfl

/-- A listen entry needs a mode, a class, an action and a task (R128). -/
theorem listenEntryOf_eq_none {mode bound mask action task : Byte}
    (h : 2 < mode.toNat ∨ mask.extractLsb' 4 2 = 3 ∨ 2 < action.toNat ∨ 7 < task.toNat) :
    listenEntryOf mode bound mask action task = none := by
  unfold listenEntryOf
  split
  · rename_i hm hc ha ht
    rcases h with h | h | h | h
    · rw [listenModeOf_eq_none.2 h] at hm; cases hm
    · rw [listenClassOf_eq_none.2 h] at hc; cases hc
    · rw [listenActionOf_eq_none.2 h] at ha; cases ha
    · rw [taskIdOf_eq_none.2 h] at ht; cases ht
  · rfl

/-! ## The judgements that refuse an argument -/

section

variable {d : Station} (hh : d.eng.ctl.state ≠ .halted)

include hh

theorem configureChannel_badArgument {channel options glitch : Byte} {prescale : BitVec 16}
    (h : chanOf channel = none ∨ edgeSelectOf (options.extractLsb' 1 2) = none) :
    d.configureChannel channel options glitch prescale = d.refuse .badArgument := by
  unfold Station.configureChannel
  rw [isHalted_eq_false hh]
  rcases h with h | h <;> rw [h]
  · rfl
  · cases chanOf channel <;> rfl

theorem defineTask_badArgument {task : Byte} {definition : Option (TaskDef × Bool)}
    (h : taskIdOf task = none ∨ definition = none) : d.defineTask task definition = d.refuse .badArgument := by
  unfold Station.defineTask
  rw [isHalted_eq_false hh]
  rcases h with h | h <;> rw [h]
  · rfl
  · cases taskIdOf task <;> rfl

theorem defineListenEntry_badArgument {entry : Byte} {definition : Option ListenEntry}
    (h : taskIdOf entry = none ∨ definition = none) : d.defineListenEntry entry definition = d.refuse .badArgument := by
  unfold Station.defineListenEntry
  rw [isHalted_eq_false hh]
  rcases h with h | h <;> rw [h]
  · rfl
  · cases taskIdOf entry <;> rfl

theorem publishGate_badArgument {gate action : Byte} (h : nibbleOf gate = none ∨ gateActionOf action = none) :
    d.publishGate gate action = d.refuse .badArgument := by
  unfold Station.publishGate
  rw [isHalted_eq_false hh]
  rcases h with h | h <;> rw [h]
  · rfl
  · cases nibbleOf gate <;> rfl

theorem armTask_badArgument {task : Byte} (h : taskIdOf task = none) : d.armTask task = d.refuse .badArgument := by
  unfold Station.armTask; rw [isHalted_eq_false hh, h]; rfl

theorem disarmTask_badArgument {task : Byte} (h : taskIdOf task = none) : d.disarmTask task = d.refuse .badArgument := by
  unfold Station.disarmTask; rw [isHalted_eq_false hh, h]; rfl

theorem tearDownTask_badArgument {task : Byte} (h : taskIdOf task = none) : d.tearDownTask task = d.refuse .badArgument := by
  unfold Station.tearDownTask; rw [isHalted_eq_false hh, h]; rfl

/-! ## The judgements that refuse a state -/

theorem setup_alreadySet {position : BitVec 16} (h : d.eng.ctl.state ≠ .unset) : d.setup position = d.refuse .alreadySet := by
  unfold Station.setup; rw [isHalted_eq_false hh]; exact if_pos h

theorem defineTask_busy {task : Byte} {t : TaskId} {p : TaskDef × Bool} (ht : taskIdOf task = some t)
    (h : (d.eng.tasks.get t).state.free = false) : d.defineTask task (some p) = d.refuse .busy := by
  have hbusy : (!(d.eng.tasks.get t).state.free) = true := by rw [h]; rfl
  unfold Station.defineTask; rw [isHalted_eq_false hh, ht]; exact if_pos hbusy

theorem defineTask_blocksPending {task : Byte} {t : TaskId} {p : TaskDef × Bool} (ht : taskIdOf task = some t)
    (h : (d.eng.tasks.get t).state.free = true) (hq : ∃ x ∈ d.eng.queue, x.task = t) :
    d.defineTask task (some p) = d.refuse .blocksPending := by
  have hany : d.eng.queue.any (fun b => b.task == t) = true := by simpa using hq
  unfold Station.defineTask
  rw [isHalted_eq_false hh, ht]
  simp only [h, hany]; rfl

theorem disarmTask_empty {task : Byte} {t : TaskId} (ht : taskIdOf task = some t) (h : (d.eng.tasks.get t).state = .empty) :
    d.disarmTask task = d.refuse .badState := by
  unfold Station.disarmTask; rw [isHalted_eq_false hh, ht]; exact if_pos h

theorem clearFault_badState (h : d.eng.ctl.faultHold = false) : d.clearFault = d.refuse .badState := by
  have hclear : (!d.eng.ctl.faultHold) = true := by rw [h]; rfl
  unfold Station.clearFault; rw [isHalted_eq_false hh]; exact if_pos hclear

theorem retire_badState (h : d.eng.ctl.state = .unset ∨ d.eng.ctl.departure ≠ .none) : d.retire = d.refuse .badState := by
  unfold Station.retire
  rw [isHalted_eq_false hh]
  by_cases hu : d.eng.ctl.state = .unset
  · exact if_pos hu
  · exact (if_neg hu).trans (if_pos (h.resolve_left hu))

end

/-- Settles O17: each judgement refuses, and a refused request changes nothing but the reply. -/
theorem requestsAreRefused : Obligations.RequestsAreRefused := by
  refine ⟨fun s dt h hh => ?_, fun s dt h hh => ?_⟩
  · intro d bad
    replace hh : d.eng.ctl.state ≠ .halted := hh
    refine ⟨fun channel options glitch prescale hb => ?_, fun task kind b l cont f esc area hb => ?_,
      fun task hb => ⟨?_, ?_, ?_⟩, fun entry mode bound mask action task hb => ?_, fun gate action hb => ?_⟩ <;>
      refine request_refused dt _ _ h ?_
    · exact configureChannel_badArgument hh (hb.imp chanOf_eq_none.2 edgeSelectOf_eq_none.2)
    · refine defineTask_badArgument hh ?_
      rcases hb with hb | hb | hb | hb
      · exact .inl (taskIdOf_eq_none.2 hb)
      · exact .inr (taskDefOf_eq_none (.inl (kindFieldsOf_eq_none (.inl hb))))
      · exact .inr (taskDefOf_eq_none (.inr hb))
      · exact .inr (taskDefOf_eq_none (.inl (kindFieldsOf_eq_none (.inr hb))))
    · exact armTask_badArgument hh (taskIdOf_eq_none.2 hb)
    · exact disarmTask_badArgument hh (taskIdOf_eq_none.2 hb)
    · exact tearDownTask_badArgument hh (taskIdOf_eq_none.2 hb)
    · exact defineListenEntry_badArgument hh (hb.imp taskIdOf_eq_none.2 listenEntryOf_eq_none)
    · exact publishGate_badArgument hh (hb.imp nibbleOf_eq_none.2 gateActionOf_eq_none.2)
  · intro d refused
    replace hh : d.eng.ctl.state ≠ .halted := hh
    refine ⟨fun position hu => ?_, fun t task kind b l cont f esc area td moved ht hd => ?_, fun t task ht he => ?_,
      fun hf => ?_, fun hr => ?_⟩
    · exact request_refused dt _ _ h (setup_alreadySet hh hu)
    · intro k body
      refine ⟨fun hs => ?_, fun hs hq => ?_⟩ <;> refine request_refused dt _ _ h ?_ <;> rw [hd]
      · exact defineTask_busy hh (taskIdOf_eq_some ht) (by rcases hs with hs | hs | hs | hs <;> exact congrArg TaskState.free hs)
      · exact defineTask_blocksPending hh (taskIdOf_eq_some ht)
          (by rcases hs with hs | hs | hs | hs <;> exact congrArg TaskState.free hs) hq
    · exact request_refused dt _ _ h (disarmTask_empty hh (taskIdOf_eq_some ht) he)
    · exact request_refused dt _ _ h (clearFault_badState hh hf)
    · exact request_refused dt _ _ h (retire_badState hh hr)

/-! ## CONFIGURE CHANNEL (R15, R16) -/

/-- A channel is in use just while a run in progress names it (R15). -/
theorem channelInUse_iff {ch : Chan} {e : Engine} : e.channelInUse ch = true ↔
    ∃ t td, (e.tasks.get t).runContinues = true ∧ (e.tasks.get t).defn = some td ∧ ch ∈ td.fields.channels := by
  simp [Engine.channelInUse, mem_taskIds, Option.any_eq_true]

/-- The glitch width as CONFIGURE CHANNEL keeps it, clamped to 63 (R15). -/
theorem glitchOf_fst (b : Byte) : (glitchOf b).1 = if h : b.toNat < 64 then ⟨b.toNat, h⟩ else 63 := by
  unfold glitchOf; split <;> rfl

theorem okReply_glitchOf (b : Byte) : okReply (glitchOf b).2 = ⟨if b.toNat ≤ 63 then .ok else .okAdjusted, []⟩ := by
  unfold glitchOf
  split
  · rw [if_pos (by omega)]; rfl
  · rw [if_neg (by omega)]; rfl

section

variable {d : Station} {channel options glitch : Byte} {prescale : BitVec 16} {ch : Chan} {edges : EdgeSelect}
  (hh : d.eng.ctl.state ≠ .halted) (hc : chanOf channel = some ch) (he : edgeSelectOf (options.extractLsb' 1 2) = some edges)

include hh hc he

theorem configureChannel_inUse (hu : d.eng.channelInUse ch = true) :
    d.configureChannel channel options glitch prescale = d.refuse .inUse := by
  unfold Station.configureChannel; rw [isHalted_eq_false hh, hc, he]; exact if_pos hu

theorem configureChannel_configures (hu : d.eng.channelInUse ch = false) :
    d.configureChannel channel options glitch prescale =
      (withChan d ch ((d.front.chan ch).configure d.now (options.getLsbD 0) edges (glitchOf glitch).1 prescale),
        okReply (glitchOf glitch).2) := by
  unfold Station.configureChannel; rw [isHalted_eq_false hh, hc, he]; exact if_neg (Bool.eq_false_iff.1 hu)

end

/-- Settles O11. -/
theorem channelsAreConfigured : Obligations.ChannelsAreConfigured := by
  refine ⟨fun s dt channel options glitch prescale ch edges h hh hc he hfree => ?_,
    fun s dt channel options glitch prescale ch edges t td h hh hc he hr hd hm => ?_⟩
  · intro d c
    replace hh : d.eng.ctl.state ≠ .halted := hh
    have hu : d.eng.channelInUse ch = false := Bool.eq_false_iff.2 fun hu => by
      obtain ⟨t, td, hr, hd, hm⟩ := channelInUse_iff.1 hu
      exact hfree t td hr hd hm
    refine request_replied dt _ _ h ?_ rfl
    refine (configureChannel_configures hh hc he hu).trans ?_
    rw [okReply_glitchOf, ← glitchOf_fst]; rfl
  · exact request_refused dt _ _ h (configureChannel_inUse (d := atTime dt s) hh hc he (channelInUse_iff.2 ⟨t, td, hr, hd, hm⟩))

/-! ## READ TIME (R8) -/

/-- A byte of a number by its division is the byte cut out of its bits. -/
theorem ofNat_div_eq_extractLsb' {w : Nat} (x : BitVec w) (k : Nat) :
    BitVec.ofNat 8 (x.toNat / 256 ^ k) = x.extractLsb' (8 * k) 8 := by
  apply BitVec.eq_of_toNat_eq
  rw [BitVec.toNat_ofNat, BitVec.extractLsb'_toNat, Nat.shiftRight_eq_div_pow, Nat.pow_mul]

theorem stampBytes_eq (t : Stamp) : stampBytes (some t) =
    [t.extractLsb' 40 8, t.extractLsb' 32 8, t.extractLsb' 24 8, t.extractLsb' 16 8, t.extractLsb' 8 8, t.extractLsb' 0 8] := by
  simp only [stampBytes, Option.map_some, Option.getD_some, beBytes, ofNat_div_eq_extractLsb']

/-- DEGRADED in bit 0, the monitor state above it (12.4). -/
theorem monitorByte_eq (m : Monitor) (degraded : Bool) :
    packByte [(0, bitOf degraded), (1, m.code)] =
      (match m with | .present => 0 | .absent => 1 | .returning => 2 : BitVec 7) ++ BitVec.ofBool degraded := by
  cases m <;> cases degraded <;> rfl

/-- Settles O21. -/
theorem readTimeReportsTheStamp : Obligations.ReadTimeReportsTheStamp := by
  intro s dt h t monitor
  refine request_replied dt _ _ h ?_ rfl
  unfold Station.readTime timeBody
  rw [stampBytes_eq, monitorByte_eq]; rfl

end Sys2Proof.Safety
end

