-- ==== Sys2Proof/Proofs/Rings.lean ====
section
/-!
PROOFS. The edge history rings: their searches, the forward read, and aging (R20, R21, R24, R25, R27 to R29).
-/

namespace Sys2Proof.Safety

open Sys2Proof.Machine

/-! ## The indices of a ring (R18) -/

/-- No index is below the first, and the next one is not either. -/
theorem le_of_runsTo {next i : Nat} {es : List Entry} (h : runsTo next i es = true) :
    i ≤ next ∧ ∀ e ∈ es, i ≤ e.index ∧ e.index < next := by
  induction es generalizing i with
  | nil => exact ⟨Nat.le_of_eq (beq_iff_eq.1 h), nofun⟩
  | cons x es ih =>
    simp only [runsTo, Bool.and_eq_true, beq_iff_eq] at h
    obtain ⟨hx, hes⟩ := h
    obtain ⟨hle, hall⟩ := ih hes
    refine ⟨by omega, List.forall_mem_cons.2 ⟨by omega, fun e he => ?_⟩⟩
    have := hall e he
    omega

/-- Indices that run up to a next one do so from any of their entries on. -/
theorem runsTo_drop {next i : Nat} {before after : List Entry} (h : runsTo next i (before ++ after) = true) :
    runsTo next (i + before.length) after = true := by
  induction before generalizing i with
  | nil => exact h
  | cons x before ih =>
    simp only [List.cons_append, runsTo, Bool.and_eq_true] at h
    simpa [Nat.add_assoc, Nat.add_comm 1] using ih h.2

/-- An entry's index is the first one and the number of entries before it. -/
theorem index_of_runsTo {next i : Nat} {before after : List Entry} {e : Entry}
    (h : runsTo next i (before ++ e :: after) = true) : e.index = i + before.length := by
  have := runsTo_drop h
  simp only [runsTo, Bool.and_eq_true, beq_iff_eq] at this
  exact this.1

/-- No two entries have one index. -/
theorem index_injOn_of_runsTo {next i : Nat} {es : List Entry} {x y : Entry} (h : runsTo next i es = true) (hx : x ∈ es)
    (hy : y ∈ es) (hxy : x.index = y.index) : x = y := by
  obtain ⟨m, hm, rfl⟩ := List.getElem_of_mem hx
  obtain ⟨n, hn, rfl⟩ := List.getElem_of_mem hy
  have index : ∀ (k : Nat) (hk : k < es.length), es[k].index = i + k := fun k hk => by
    have hs : es = es.take k ++ es[k] :: es.drop (k + 1) := by simp
    have := index_of_runsTo (hs ▸ h)
    rwa [List.length_take, Nat.min_eq_left (Nat.le_of_lt hk)] at this
  have : m = n := by have := index m hm; have := index n hn; omega
  subst this; rfl

/-- Every index from the first up to the next one is that of an entry. -/
theorem exists_of_runsTo {next i c : Nat} {es : List Entry} (h : runsTo next i es = true) (hi : i ≤ c) (hc : c < next) :
    ∃ e ∈ es, e.index = c := by
  induction es generalizing i with
  | nil => exact absurd (beq_iff_eq.1 h) (by omega)
  | cons x es ih =>
    simp only [runsTo, Bool.and_eq_true, beq_iff_eq] at h
    obtain ⟨hx, hes⟩ := h
    rcases Nat.eq_or_lt_of_le hi with rfl | hlt
    · exact ⟨x, by simp, hx⟩
    · obtain ⟨e, he, hec⟩ := ih hes hlt
      exact ⟨e, List.mem_cons_of_mem x he, hec⟩

theorem at?_eq_none {r : Ring} {i : Nat} : r.at? i = none ↔ ∀ e ∈ r.entries, e.index ≠ i := by
  simp [Ring.at?]

/-- The entry with an index is a retained one (R24). -/
theorem mem_of_at? {r : Ring} {i : Nat} {e : Entry} (h : r.at? i = some e) : e ∈ r.entries ∧ e.index = i :=
  ⟨List.mem_of_find?_eq_some h, by simpa using List.find?_some h⟩

/-! ## The forward read (R24, R25) -/

theorem read_below {r : Ring} {cursor : Nat} (h : cursor < r.oldest) :
    r.read cursor = .overrun (min (r.oldest - cursor) (2 ^ 32 - 1)) r.oldest := if_pos h

theorem read_retained {r : Ring} {cursor : Nat} {e : Entry} (h : r.oldest ≤ cursor) (he : r.at? cursor = some e) :
    r.read cursor = .entry e := by
  unfold Ring.read; rw [if_neg (Nat.not_lt.2 h), he]

theorem read_waits {r : Ring} {cursor : Nat} (h : r.oldest ≤ cursor) (hn : r.at? cursor = none) : r.read cursor = .wait := by
  unfold Ring.read; rw [if_neg (Nat.not_lt.2 h), hn]

/-- No two entries of a lawful ring have one index (R18). -/
theorem RingLaw.at?_eq_some_iff {r : Ring} {i : Nat} {e : Entry} (h : RingLaw r) :
    r.at? i = some e ↔ e ∈ r.entries ∧ e.index = i := by
  refine ⟨mem_of_at?, fun ⟨he, hi⟩ => ?_⟩
  cases hx : r.at? i with
  | none => exact absurd hi (at?_eq_none.1 hx e he)
  | some x =>
    obtain ⟨hm, hxi⟩ := mem_of_at? hx
    rw [index_injOn_of_runsTo h.2.1 hm he (hxi.trans hi.symm)]

/-- In a lawful ring a cursor at an index from the oldest up to the next one has its entry. -/
theorem RingLaw.at?_retained {r : Ring} {cursor : Nat} (h : RingLaw r) (ho : r.oldest ≤ cursor) (hn : cursor < r.nextIndex) :
    ∃ e, r.at? cursor = some e := by
  obtain ⟨-, hrun, -, -⟩ := h
  refine Option.ne_none_iff_exists'.1 fun hnone => ?_
  obtain ⟨e, he, hec⟩ := exists_of_runsTo hrun ho hn
  exact at?_eq_none.1 hnone e he hec

/-- At or beyond the next index there is none yet. -/
theorem RingLaw.at?_beyond {r : Ring} {cursor : Nat} (h : RingLaw r) (hn : r.nextIndex ≤ cursor) : r.at? cursor = none := by
  obtain ⟨-, hrun, -, -⟩ := h
  refine at?_eq_none.2 fun e he => ?_
  have := (le_of_runsTo hrun).2 e he
  omega

theorem RingLaw.oldest_le {r : Ring} (h : RingLaw r) : r.oldest ≤ r.nextIndex := (le_of_runsTo h.2.1).1

/-! ## The certainty rule (R28) -/

theorem judge_certain_iff {r : Ring} {e : Entry} :
    r.judge e = .certain ↔ (e.index = 1 ∧ e.count = 1) ∨ ∃ p, r.at? (e.index - 1) = some p ∧ e.count - p.count = 1 := by
  unfold Ring.judge
  by_cases hf : e.index = 1 ∧ e.count = 1
  · simp [hf]
  · rw [if_neg hf, or_iff_right hf]
    cases r.at? (e.index - 1) <;> simp

theorem judge_lost_iff {r : Ring} {e : Entry} :
    r.judge e = .lost ↔ ¬(e.index = 1 ∧ e.count = 1) ∧ r.at? (e.index - 1) = none := by
  unfold Ring.judge
  by_cases hf : e.index = 1 ∧ e.count = 1
  · simp [hf]
  · rw [if_neg hf, and_iff_right hf]
    cases r.at? (e.index - 1) with
    | none => simp
    | some p => dsimp only; split <;> simp

section

variable {r : Ring} {before after : List Entry} {e : Entry} (h : RingLaw r) (hs : r.entries = before ++ e :: after)
  (he : 1 ≤ e.index)

include h hs he

/-- The entry one index below an entry of a lawful ring stands before it. -/
theorem RingLaw.at?_pred_iff {p : Entry} : r.at? (e.index - 1) = some p ↔ p ∈ before ∧ p.index + 1 = e.index := by
  obtain ⟨-, hrun, -, -⟩ := id h
  rw [h.at?_eq_some_iff]
  refine ⟨fun ⟨hp, hi⟩ => ⟨?_, by omega⟩, fun ⟨hp, hi⟩ => ⟨by simp [hs, hp], by omega⟩⟩
  rw [hs] at hp hrun
  have hfrom := (le_of_runsTo (runsTo_drop hrun)).2
  rw [← index_of_runsTo hrun] at hfrom
  rcases List.mem_append.1 hp with hp | hp
  · exact hp
  · have := hfrom p hp
    omega

/-- It is gone exactly where nothing stands before the entry. -/
theorem RingLaw.at?_pred_none_iff : r.at? (e.index - 1) = none ↔ before = [] := by
  obtain ⟨-, hrun, -, -⟩ := id h
  have hidx := index_of_runsTo (hs ▸ hrun)
  have hlt := (le_of_runsTo hrun).2 e (by simp [hs])
  constructor
  · refine fun hn => List.eq_nil_iff_length_eq_zero.2 (Nat.eq_zero_of_not_pos fun hb => ?_)
    obtain ⟨p, hp⟩ := h.at?_retained (cursor := e.index - 1) (by omega) (by omega)
    exact Option.some_ne_none p (hp.symm.trans hn)
  · rintro rfl
    refine at?_eq_none.2 fun x hx => ?_
    have := (le_of_runsTo hrun).2 x hx
    simp only [List.length_nil] at hidx
    omega

end

/-! ## The searches (R27, R29) -/

/-- The first entry that is not earlier than the time is found, judged by the certainty rule (R27, R28). -/
theorem firstAtOrAfter_found_iff {r : Ring} {t : Kept} {e : Entry} {c : Certainty} :
    r.firstAtOrAfter t = .found e c ↔
      r.entries.find? (fun x => !t.laterThan (fresh x.stamp)) = some e ∧ c = r.judge e := by
  unfold Ring.firstAtOrAfter
  cases r.entries.find? (fun x => !t.laterThan (fresh x.stamp)) with
  | some x => simp only [AfterAnswer.found.injEq, Option.some.injEq]; exact and_congr_right fun hx => hx ▸ eq_comm
  | none =>
    simp only [reduceCtorEq, false_and, iff_false]
    split
    · split <;> exact AfterAnswer.noConfusion
    · exact AfterAnswer.noConfusion

/-- The record decides on an empty ring only (R27). -/
theorem firstAtOrAfter_gone_iff {r : Ring} {t : Kept} :
    r.firstAtOrAfter t = .gone ↔ r.entries = [] ∧
      ∃ x, r.lastRemoved = some x ∧ x.stamp.longPast = false ∧ t.laterThan x.stamp = false := by
  unfold Ring.firstAtOrAfter
  cases hf : r.entries.find? (fun x => !t.laterThan (fresh x.stamp)) with
  | some x =>
    have hne : r.entries ≠ [] := fun h => by simp [h] at hf
    simp [hne]
  | none =>
    cases hs : r.entries with
    | cons x es => simp
    | nil => cases hl : r.lastRemoved with
      | none => simp
      | some x => cases hp : x.stamp.longPast <;> cases ht : t.laterThan x.stamp <;> simp [hp, ht]

/-- The last element of a list that a test picks stands before elements that it does not pick. -/
theorem getLast?_filter_eq_some {α : Type} {p : α → Bool} {l : List α} {a : α} (h : (l.filter p).getLast? = some a) :
    ∃ before after, l = before ++ a :: after ∧ p a = true ∧ ∀ x ∈ after, p x = false := by
  obtain ⟨ys, hys⟩ := List.getLast?_eq_some_iff.1 h
  obtain ⟨l₁, l₂, rfl, -, h₂⟩ := List.filter_eq_append_iff.1 hys
  obtain ⟨as, after, rfl, -, ha, hnil⟩ := List.filter_eq_cons_iff.1 h₂
  exact ⟨l₁ ++ as, after, by simp, ha, by simpa using hnil⟩

theorem lastAtOrBefore_found_iff {r : Ring} {t : Kept} {e : Entry} :
    r.lastAtOrBefore t = .found e ↔ (r.entries.filter (fun x => !(fresh x.stamp).laterThan t)).getLast? = some e := by
  unfold Ring.lastAtOrBefore
  cases (r.entries.filter (fun x => !(fresh x.stamp).laterThan t)).getLast? with
  | some x => simp
  | none => cases r.everRemoved <;> simp

theorem lastAtOrBefore_lost_iff {r : Ring} {t : Kept} :
    r.lastAtOrBefore t = .lost ↔ r.everRemoved = true ∧ ∀ e ∈ r.entries, (fresh e.stamp).laterThan t = true := by
  have hnone : (r.entries.filter (fun x => !(fresh x.stamp).laterThan t)).getLast? = none ↔
      ∀ e ∈ r.entries, (fresh e.stamp).laterThan t = true := by simp
  rw [← hnone]
  unfold Ring.lastAtOrBefore
  cases (r.entries.filter (fun x => !(fresh x.stamp).laterThan t)).getLast? with
  | some x => simp
  | none => cases r.everRemoved <;> simp

/-- The entry found: all before it are earlier than the time, and its count is CERTAIN or LOST by what stands before it. -/
theorem RingLaw.firstAtOrAfter_found {r : Ring} {t : Kept} {e : Entry} {c : Certainty} (h : RingLaw r)
    (hpos : ∀ x ∈ r.entries, 1 ≤ x.index) (hf : r.firstAtOrAfter t = .found e c) :
    ∃ before after, r.entries = before ++ e :: after ∧ (∀ x ∈ before, t.laterThan (fresh x.stamp) = true) ∧
      ¬t.laterThan (fresh e.stamp) = true ∧
      (c = .certain ↔ (e.index = 1 ∧ e.count = 1) ∨ ∃ p ∈ before, p.index + 1 = e.index ∧ e.count - p.count = 1) ∧
      (c = .lost ↔ ¬(e.index = 1 ∧ e.count = 1) ∧ before = []) := by
  obtain ⟨hfind, hc⟩ := firstAtOrAfter_found_iff.1 hf
  subst hc
  obtain ⟨hnot, before, after, hs, hlater⟩ := List.find?_eq_some_iff_append.1 hfind
  have he := hpos e (by simp [hs])
  refine ⟨before, after, hs, fun x hx => by simpa using hlater x hx, by simpa using hnot, ?_, ?_⟩
  · rw [judge_certain_iff]
    simp only [h.at?_pred_iff hs he, and_assoc]
  · rw [judge_lost_iff, h.at?_pred_none_iff hs he]

/-- One is found just where an entry is not earlier than the time (R27). -/
theorem exists_firstAtOrAfter_found_iff {r : Ring} {t : Kept} :
    (∃ e c, r.firstAtOrAfter t = .found e c) ↔ ∃ e ∈ r.entries, ¬t.laterThan (fresh e.stamp) = true := by
  simp only [firstAtOrAfter_found_iff, exists_and_left, exists_eq, and_true, ← Option.isSome_iff_exists, List.find?_isSome,
    Bool.not_eq_true', ← Bool.not_eq_true]

/-- The entry found by the backward search: it is not later than the time, and all after it are (R29). -/
theorem lastAtOrBefore_found {r : Ring} {t : Kept} {e : Entry} (hf : r.lastAtOrBefore t = .found e) :
    ∃ before after, r.entries = before ++ e :: after ∧ ¬(fresh e.stamp).laterThan t = true ∧
      ∀ x ∈ after, (fresh x.stamp).laterThan t = true := by
  obtain ⟨before, after, hs, hnot, hbeyond⟩ := getLast?_filter_eq_some (lastAtOrBefore_found_iff.1 hf)
  exact ⟨before, after, hs, by simpa using hnot, fun x hx => by simpa using hbeyond x hx⟩

/-- One is found just where an entry is not later than the time (R29). -/
theorem exists_lastAtOrBefore_found_iff {r : Ring} {t : Kept} :
    (∃ e, r.lastAtOrBefore t = .found e) ↔ ∃ e ∈ r.entries, ¬(fresh e.stamp).laterThan t = true := by
  simp only [lastAtOrBefore_found_iff, ← Option.isSome_iff_exists, List.getLast?_isSome, ne_eq, List.filter_eq_nil_iff,
    Bool.not_eq_true', Bool.not_eq_true, Classical.not_forall, Bool.not_eq_false, exists_prop]

/-- Settles O54: the searches by what `find?` and `filter` answer, the reads by the indices of a lawful ring. -/
theorem ringsAnswerTheirReaders : Obligations.RingsAnswerTheirReaders := by
  refine ⟨fun r t h hpos => ?_, fun r cursor h =>
    ⟨read_below, fun ho hn => ?_, fun hn => read_waits (Nat.le_trans h.oldest_le hn) (h.at?_beyond hn)⟩⟩
  · exact ⟨fun e c => h.firstAtOrAfter_found hpos, exists_firstAtOrAfter_found_iff, firstAtOrAfter_gone_iff,
      fun e => lastAtOrBefore_found, exists_lastAtOrBefore_found_iff, lastAtOrBefore_lost_iff⟩
  · obtain ⟨e, he⟩ := h.at?_retained ho hn
    obtain ⟨hmem, hidx⟩ := mem_of_at? he
    exact ⟨e, hmem, hidx, read_retained ho he⟩

/-! ## Aging (R20, R21) -/

theorem exec_ringAging {s : State} (dt : Nat) (ch : Chan) (h : s.dev.held = false) :
    exec (.ringAging dt ch) s = goesTo s ((atTime dt s).modRing ch (Ring.age (atTime dt s).now)) :=
  running_goesTo dt (fun d => d.modRing ch (Ring.age d.now)) h

theorem exec_recordLongPast {s : State} (dt : Nat) (ch : Chan) (h : s.dev.held = false) :
    exec (.recordLongPast dt ch) s = goesTo s ((atTime dt s).modRing ch (Ring.markRecord (atTime dt s).now)) :=
  running_goesTo dt (fun d => d.modRing ch (Ring.markRecord d.now)) h

/-- The oldest entry ages into the record, at its own moment marked long past (R20, R21). -/
theorem age_due {now : Stamp} {r : Ring} {e : Entry} {es : List Entry} (hs : r.entries = e :: es)
    (h : reached now (plus e.stamp oldAge) = true) :
    r.age now = ⟨es, r.nextIndex, true, some ⟨e.index, ⟨e.stamp, true⟩⟩⟩ := by
  unfold Ring.age Ring.agingDue Ring.depart
  rw [hs]
  simp [h, Kept.mark, fresh]

/-- Before its moment the oldest entry stays (R20). -/
theorem age_stays {now : Stamp} {r : Ring} (h : ∀ e es, r.entries = e :: es → reached now (plus e.stamp oldAge) = false) :
    r.age now = r := by
  unfold Ring.age Ring.agingDue
  cases hs : r.entries with
  | nil => rfl
  | cons e es => simp [h e es hs]

/-- Settles O35: the ring that aging and the mark of the record leave is the channel's. -/
theorem ringAgesItsOldestEntry : Obligations.RingAgesItsOldestEntry := by
  intro s dt ch h d c r old leads
  have ages : ∀ r', r.age d.now = r' → leads (.ringAging dt ch) r' := fun r' hr =>
    (exec_ringAging dt ch h).trans (congrArg (fun r => goesTo s (withChan d ch { c with ring := r })) hr)
  exact ⟨fun e es hs ho => ages _ (age_due hs ho), fun hn => ages _ (age_stays hn), exec_recordLongPast dt ch h⟩

end Sys2Proof.Safety
end

