-- ==== Sys2Proof/Proofs/Offers.lean ====
section
/-!
PROOFS. The offers of one moment: which blocks and markers stand behind an offer, what the offer of a block does, and that two
blocks offered in either order come to the same (R121, R152, log 53).
-/

namespace Sys2Proof

variable {α : Type}

/-- Two records written at different numbers stand in either order. -/
theorem Per8.set_comm (p : Per8 α) {i j : Fin 8} (v w : α) (h : i ≠ j) : (p.set i v).set j w = (p.set j w).set i v := by
  rcases fin8_cases i with rfl | rfl | rfl | rfl | rfl | rfl | rfl | rfl <;>
  rcases fin8_cases j with rfl | rfl | rfl | rfl | rfl | rfl | rfl | rfl <;>
  first | rfl | exact absurd rfl h

end Sys2Proof

namespace Sys2Proof.Safety

open Sys2Proof.Machine

/-! ## Places in a list -/

section

variable {α : Type} {follows later : α → Bool} {a b : α}

/-- The place of an element: behind all that do not follow, before a first one that does. -/
theorem placeBefore_at {pre post : List α} (hpre : ∀ y ∈ pre, ¬follows y = true)
    (hpost : ∀ y, post.head? = some y → follows y = true) : placeBefore follows a (pre ++ post) = pre ++ a :: post := by
  replace hpre : ∀ y ∈ pre, follows y = false := fun y hy => Bool.eq_false_iff.2 (hpre y hy)
  cases post with
  | nil => rw [List.append_nil, placeBefore_tail hpre]
  | cons y post => exact placeBefore_mid hpre (hpost y rfl)

theorem placeBefore_cons_follows {y : α} {q : List α} (h : follows y = true) :
    placeBefore follows a (y :: q) = a :: y :: q := by simp [placeBefore, h]

theorem placeBefore_cons {y : α} {q : List α} (h : follows y = false) :
    placeBefore follows a (y :: q) = y :: placeBefore follows a q := by simp [placeBefore, h]

/-- Two elements are placed in either order, where `b` follows `a` and what follows `b` follows `a`, which does not
follow `b`. -/
theorem placeBefore_comm (mono : ∀ x, later x = true → follows x = true) (hb : follows b = true) (ha : later a = false)
    (q : List α) :
    placeBefore follows a (placeBefore later b q) = placeBefore later b (placeBefore follows a q) := by
  induction q with
  | nil => simp [placeBefore, ha, hb]
  | cons y q ih =>
    cases hf : follows y with
    | false =>
      have hl : later y = false := Bool.eq_false_iff.2 fun h => by simp [mono y h] at hf
      rw [placeBefore_cons hl, placeBefore_cons hf, placeBefore_cons hf, placeBefore_cons hl, ih]
    | true =>
      rw [placeBefore_cons_follows hf, placeBefore_cons ha]
      cases hl : later y with
      | true => rw [placeBefore_cons_follows hl, placeBefore_cons_follows hb]
      | false => rw [placeBefore_cons hl, placeBefore_cons_follows hf]

end

/-! ## Which offers stand behind (R121, R152) -/

/-- A kept time is the current one (R100). -/
theorem isNow_iff {now : Stamp} {k : Kept} : k.isNow now = true ↔ k = ⟨now, false⟩ := by
  obtain ⟨stamp, longPast⟩ := k
  simp [Kept.isNow, and_comm]

/-- A block that a higher-numbered task offered at this moment (R152). -/
theorem block_follows_iff {now : Stamp} {t : TaskId} {y : Block} :
    y.follows now t = true ↔ t < y.task ∧ y.offered = some ⟨now, false⟩ := by
  simp only [Block.follows, Bool.and_eq_true, decide_eq_true_eq, Option.any_eq_true, isNow_iff, exists_eq_right]
  exact and_comm

/-- A marker not in transmission that a higher-numbered task offered at this moment (R121, log 53). -/
theorem marker_follows_iff {now : Stamp} {t : TaskId} {m : OutEntry} :
    m.follows now t = true ↔
      m.inTransmission = false ∧ ∃ o, m.offered = some o ∧ o.time = ⟨now, false⟩ ∧ t < o.task := by
  simp only [OutEntry.follows, Bool.and_eq_true, Bool.not_eq_true', decide_eq_true_eq, Option.any_eq_true, isNow_iff]

theorem block_follows_mono {now : Stamp} {t u : TaskId} (h : t < u) (y : Block) (hy : y.follows now u = true) :
    y.follows now t = true := by
  obtain ⟨hu, ho⟩ := block_follows_iff.1 hy
  exact block_follows_iff.2 ⟨Fin.lt_trans h hu, ho⟩

theorem marker_follows_mono {now : Stamp} {t u : TaskId} (h : t < u) (m : OutEntry) (hm : m.follows now u = true) :
    m.follows now t = true := by
  obtain ⟨hi, o, ho, ht, hu⟩ := marker_follows_iff.1 hm
  exact marker_follows_iff.2 ⟨hi, o, ho, ht, Fin.lt_trans h hu⟩

/-- Whether a task can still hold its block says when the block can give its place up (R40, R41, log 53). -/
theorem canHold_iff {x : Block} {k : TaskRec} :
    k.canHold x = true ↔ k.nextBlock = x.number + 1 ∧ k.heldBlock = none ∧
      (x.final = true → (k.state = .done ∨ k.state = .faulted) ∧ k.endCause ≠ none) ∧
      (x.final = false → k.runContinues = true ∧ k.openBlock = some [] ∧
        (k.cause = .none ∨ (k.cause = .paused ∧ k.pausedOn = some x.number))) := by
  unfold TaskRec.canHold
  cases x.final <;>
    simp [Option.isSome_iff_ne_none, and_assoc]

/-- The moment of the offer is not asked. -/
theorem canHold_offered (x : Block) (o : Option Kept) (k : TaskRec) : k.canHold { x with offered := o } = k.canHold x := rfl

theorem holding_offered (x : Block) (o : Option Kept) (k : TaskRec) : k.holding { x with offered := o } = k.holding x := rfl

/-! ## The offer of a block (R152) -/

/-- A block that gives its place up to a block that task `t` offers now. -/
def givesPlace (now : Stamp) (t : TaskId) (e : Engine) (x : Block) : Bool :=
  x.follows now t && (e.tasks.get x.task).canHold x

theorem givesPlace_iff {now : Stamp} {t : TaskId} {e : Engine} {x : Block} :
    givesPlace now t e x = true ↔ x.follows now t = true ∧ (e.tasks.get x.task).canHold x = true := Bool.and_eq_true_iff

/-- The record of the offering task is not asked. -/
theorem givesPlace_setTask (now : Stamp) (t : TaskId) (k : TaskRec) (e : Engine) :
    givesPlace now t (e.setTask t k) = givesPlace now t e := by
  funext x
  unfold givesPlace
  cases hf : x.follows now t with
  | false => rfl
  | true => rw [Engine.setTask_tasks, Per8.get_set_ne _ _ (Fin.ne_of_gt (block_follows_iff.1 hf).1)]

section

variable {now : Stamp} {t : TaskId} {b : Block} {entered held : TaskRec} {e : Engine}

/-- With a place free the block enters (R152). -/
theorem offerBlock_enters (h : e.queue.length < 16) :
    e.offerBlock now t b entered held = { e with
      queue := placeBefore (Block.follows now t) { b with offered := some ⟨now, false⟩ } e.queue,
      tasks := e.tasks.set t entered } := by
  unfold Engine.offerBlock Engine.placeFor queueDepth
  rw [if_pos h]; rfl

/-- In a full queue where no block gives its place up, the task is left with its block (R41, R152). -/
theorem offerBlock_full (h : 16 ≤ e.queue.length) (hn : ∀ y ∈ e.queue, ¬givesPlace now t e y = true) :
    e.offerBlock now t b entered held = e.setTask t held := by
  have hnone : takeLast (givesPlace now t e) e.queue = none := takeLast_none.2 fun y hy => Bool.eq_false_iff.2 (hn y hy)
  unfold Engine.offerBlock Engine.placeFor queueDepth
  rw [if_neg (Nat.not_lt.2 h)]
  unfold givesPlace at hnone
  rw [hnone]; rfl

/-- In a full queue the last block that gives its place up is left to its task (R41, R152). -/
theorem offerBlock_displaces {p q : List Block} {x : Block} (h : 16 ≤ e.queue.length) (hq : e.queue = p ++ x :: q)
    (hx : givesPlace now t e x = true) (hn : ∀ y ∈ q, ¬givesPlace now t e y = true) :
    e.offerBlock now t b entered held = { e with
      queue := placeBefore (Block.follows now t) { b with offered := some ⟨now, false⟩ } (p ++ q),
      tasks := (e.tasks.set x.task ((e.tasks.get x.task).holding x)).set t entered } := by
  have hlast : takeLast (givesPlace now t e) e.queue = some (x, p ++ q) :=
    hq ▸ takeLast_mid hx fun y hy => Bool.eq_false_iff.2 (hn y hy)
  unfold Engine.offerBlock Engine.placeFor queueDepth
  rw [if_neg (Nat.not_lt.2 h)]
  unfold givesPlace at hlast
  rw [hlast]; rfl

/-- The record that the offering task has before its offer is replaced. -/
theorem offerBlock_setTask (k : TaskRec) :
    (e.setTask t k).offerBlock now t b entered held = e.offerBlock now t b entered held := by
  by_cases hl : e.queue.length < 16
  · rw [offerBlock_enters hl, offerBlock_enters (e := e.setTask t k) hl]
    simp [Engine.setTask]
  · have hl := Nat.not_lt.1 hl
    cases hp : takeLast (givesPlace now t e) e.queue with
    | none =>
      have hn : ∀ y ∈ e.queue, ¬givesPlace now t e y = true := fun y hy => Bool.eq_false_iff.1 (takeLast_none.1 hp y hy)
      rw [offerBlock_full hl hn, offerBlock_full (e := e.setTask t k) hl (by rw [givesPlace_setTask]; exact hn)]
      simp [Engine.setTask]
    | some r =>
      obtain ⟨x, rest⟩ := r
      obtain ⟨p, q, hq, -, hx, hlast⟩ := takeLast_spec hp
      have hn : ∀ y ∈ q, ¬givesPlace now t e y = true := fun y hy => Bool.eq_false_iff.1 (hlast y hy)
      have hne : x.task ≠ t := Fin.ne_of_gt (block_follows_iff.1 (givesPlace_iff.1 hx).1).1
      rw [offerBlock_displaces hl hq hx hn, offerBlock_displaces (e := e.setTask t k) hl hq (by rw [givesPlace_setTask]; exact hx)
        (by rw [givesPlace_setTask]; exact hn)]
      simp only [Engine.setTask, Per8.get_set_ne _ _ hne, Per8.set_comm _ _ _ hne.symm, Per8.set_set]

end

section

variable {now : Stamp} {t u : TaskId} {b c : Block} {tEntered tHeld uEntered uHeld : TaskRec} {e : Engine}
  (htu : t < u) (hb : b.task = t) (hc : c.task = u)

include htu hc in
/-- A block that task `u` offers now stands behind the blocks of lower-numbered tasks. -/
theorem follows_placed : Block.follows now t { c with offered := some ⟨now, false⟩ } = true :=
  block_follows_iff.2 ⟨hc ▸ htu, rfl⟩

include htu hb in
/-- A block of task `t` does not stand behind those of higher-numbered ones. -/
theorem not_follows_placed (o : Option Kept) : Block.follows now u { b with offered := o } = false :=
  Bool.eq_false_iff.2 fun h => Fin.lt_asymm htu (hb ▸ (block_follows_iff.1 h).1)

include htu hb hc

/-- With two places free, two offers in either order come to the same (R152). -/
theorem offerBlock_comm_enters (h : e.queue.length < 15) :
    (e.offerBlock now u c uEntered uHeld).offerBlock now t b tEntered tHeld =
      (e.offerBlock now t b tEntered tHeld).offerBlock now u c uEntered uHeld := by
  have hl : e.queue.length < 16 := by omega
  rw [offerBlock_enters hl, offerBlock_enters hl, offerBlock_enters (by simp; omega), offerBlock_enters (by simp; omega)]
  rw [placeBefore_comm (block_follows_mono htu) (follows_placed htu hc) (not_follows_placed htu hb _),
    Per8.set_comm _ _ _ (Fin.ne_of_lt htu)]

/-- With one place free it goes to the lower-numbered task, in either order; the other task holds its block (R41, R152). -/
theorem offerBlock_comm_displaces (h : e.queue.length = 15) (hq : ∀ y ∈ e.queue, y.offered ≠ some ⟨now, false⟩)
    (hcan : uEntered.canHold c = true) (hu : uHeld = uEntered.holding c) :
    let both := { e with queue := e.queue ++ [{ b with offered := some ⟨now, false⟩ }],
                         tasks := (e.tasks.set u uHeld).set t tEntered }
    (e.offerBlock now u c uEntered uHeld).offerBlock now t b tEntered tHeld = both ∧
    (e.offerBlock now t b tEntered tHeld).offerBlock now u c uEntered uHeld = both := by
  have hl : e.queue.length < 16 := by omega
  have tail : ∀ (v : TaskId) (a : Block), placeBefore (Block.follows now v) a e.queue = e.queue ++ [a] := fun v a =>
    placeBefore_tail fun y hy => Bool.eq_false_iff.2 fun hf => hq y hy (block_follows_iff.1 hf).2
  have full : ∀ a : Block, 16 ≤ (e.queue ++ [a]).length := fun a => by
    rw [List.length_append, List.length_singleton]
    omega
  rw [offerBlock_enters hl, offerBlock_enters hl, tail, tail]
  constructor
  · have hx : (e.tasks.set u uEntered).get c.task = uEntered := by rw [hc, Per8.get_set_same]
    rw [offerBlock_displaces (p := e.queue) (q := []) (x := { c with offered := some ⟨now, false⟩ }) (full _) rfl
      (givesPlace_iff.2 ⟨follows_placed htu hc, by rw [canHold_offered, hx, hcan]⟩) nofun, List.append_nil, tail]
    simp only [holding_offered, hx]
    rw [hc, Per8.set_set, hu]
  · rw [offerBlock_full (full _) fun y hy hg => ?_]
    · rw [Engine.setTask, Per8.set_comm _ _ _ (Fin.ne_of_lt htu)]
    · have hf := (givesPlace_iff.1 hg).1
      rcases List.mem_append.1 hy with hy | hy
      · exact hq y hy (block_follows_iff.1 hf).2
      · rw [List.mem_singleton.1 hy, not_follows_placed htu hb] at hf
        cases hf

end

end Sys2Proof.Safety
end

