-- ==== Sys2Proof/Proofs/Timestamps.lean ====
section
/-!
PROOFS. An arrival at the tasks that take entries, and what a TIMESTAMP task makes of it (R26, R37, R45, R84, R152).
-/

namespace Sys2Proof.Safety

open Sys2Proof.Machine

/-! ## One task of those that take entries (R26) -/

/-- What an operation on one task may do to another gives it no entries to take (R38). -/
theorem takes_of_leavesOr {k k' : TaskRec} (h : LeavesOr k k') (hk : k.takes = false) : k'.takes = false := by
  rcases h with rfl | ⟨hs, -⟩ | ⟨hs, -⟩
  · exact hk
  all_goals unfold TaskRec.takes; rw [hs]; rfl

/-- A task that does not take entries is offered none (R26). -/
theorem taskArrival_idle {fr : Front} {ch : Chan} {x : Entry} {t : TaskId} {e : Engine} (h : e.takes t = false) :
    e.taskArrival fr ch x t = e := by
  unfold Engine.taskArrival; rw [h]

/-- Where one task alone takes entries, and no other after its act, an arrival is what that task makes of it. -/
theorem arrival_one {fr : Front} {ch : Chan} {x : Entry} {t : TaskId} {e : Engine} (h : ∀ u, u ≠ t → e.takes u = false)
    (after : ∀ u, u ≠ t → (e.taskArrival fr ch x t).takes u = false) :
    e.arrival fr ch x = (e.taskArrival fr ch x t).arbitrate fr.now :=
  congrArg (Engine.arbitrate fr.now) (fold_one (fun t e => e.taskArrival fr ch x t) t e
    (fun u hu => taskArrival_idle (h u hu)) fun u hu => taskArrival_idle (after u hu))

/-- A task that takes entries is RUNNING without a cause of suspension (R26, R38). -/
theorem takes_iff {k : TaskRec} : k.takes = true ↔ k.state = .running ∧ k.cause = .none := by
  simp [TaskRec.takes]

/-- Nothing to choose is left with the same unit. -/
theorem unitSettled_congr {now : Stamp} {e e' : Engine} (h : unitSettled now e) (he : e'.unit = e.unit) : unitSettled now e' := by
  unfold unitSettled; rw [he]; exact h

/-- The record just written is read back. -/
theorem setTask_get_same (t : TaskId) (k : TaskRec) (e : Engine) : (e.setTask t k).tasks.get t = k := Per8.get_set_same _ _ _

/-! ## The taking of a result that is neither failed nor orphaned (R37, R46, R47) -/

section

variable {now : Stamp} {t : TaskId} {td : TaskDef} {e : Engine}

/-- No failure is counted, so that steps 4 and 5 of R37 do nothing. -/
theorem takeResult_sound {r : Result} (n : Nat) (hd : (e.tasks.get t).defn = some td) (hf : r.failed = false)
    (ho : r.orphaned = false) :
    e.takeResult now t r n = (e.setTask t ((e.tasks.get t).addResult td r n)).finishTaking now t td := by
  have hlost : ∀ e' : Engine, e'.takePeerLost now t td r = e' := fun e' => by unfold Engine.takePeerLost; simp [ho]
  have hrun : ∀ e' : Engine, (e'.tasks.get t).failCount = 0 → e'.takeFailureRun now t td r = e' := fun e' h => by
    unfold Engine.takeFailureRun
    rw [h]
    cases hl : td.failLimit <;> simp
  unfold Engine.takeResult
  rw [hd]
  dsimp only
  rw [hlost, hrun _ (by simp [TaskRec.addResult, hf])]
  rfl

section

variable (hr : (e.tasks.get t).runContinues = true)

include hr

/-- The L-th result ends the run (R37, R40). -/
theorem finishTaking_length (hl : td.runLength ≠ 0 ∧ td.runLength ≤ (e.tasks.get t).resultsInRun) :
    e.finishTaking now t td = e.endRun now t .length := by
  unfold Engine.finishTaking
  simp only [hr, Bool.not_true, Bool.false_eq_true, if_false, if_pos hl]

variable {rs : List Result} (hl : ¬(td.runLength ≠ 0 ∧ td.runLength ≤ (e.tasks.get t).resultsInRun))
  (ho : (e.tasks.get t).openBlock = some rs)

include hl ho

/-- A full block completes (R37). -/
theorem finishTaking_full (hb : td.blockSize ≤ rs.length) : e.finishTaking now t td = e.completeFull now t td rs := by
  unfold Engine.finishTaking
  simp only [hr, Bool.not_true, Bool.false_eq_true, if_false, if_neg hl, ho, if_pos hb]

/-- Any other result leaves the block open (R37). -/
theorem finishTaking_open (hb : rs.length < td.blockSize) : e.finishTaking now t td = e := by
  unfold Engine.finishTaking
  simp only [hr, Bool.not_true, Bool.false_eq_true, if_false, if_neg hl, ho, if_neg (Nat.not_le.2 hb)]

end

end

/-- A task that takes entries completes a block: its record is RUNNING, or PAUSED on the block under PACED (R45, R152). -/
theorem completeFull_setTask {now : Stamp} {t : TaskId} {td : TaskDef} {k : TaskRec} {e : Engine} (rs : List Result)
    (hk : k.takes = true) :
    (e.setTask t k).completeFull now t td rs =
      e.offerBlock now t
        { task := t, kind := td.fields.kind, number := k.nextBlock, final := false, short := false, results := rs }
        { k with
          nextBlock := k.nextBlock + 1, openBlock := some [],
          state := if td.continuation = .paced then .paused else .running,
          cause := if td.continuation = .paced then .paused else .none,
          pausedOn := if td.continuation = .paced then some k.nextBlock else k.pausedOn }
        { k with
          nextBlock := k.nextBlock + 1, openBlock := some [], state := .stalled, cause := .stalled,
          heldBlock := some
            { task := t, kind := td.fields.kind, number := k.nextBlock, final := false, short := false, results := rs } } := by
  obtain ⟨hs, hc⟩ := takes_iff.1 hk
  unfold Engine.completeFull TaskRec.blockNow
  rw [setTask_get_same]
  dsimp only
  rw [offerBlock_setTask]
  by_cases hp : td.continuation = .paced
  · simp only [if_pos hp, Bool.false_and]
  · simp only [if_neg hp, Bool.false_and, ← hs, ← hc]

/-! ## TIMESTAMP (R84) -/

/-- The result that a TIMESTAMP task takes of an entry (R84). -/
def stampResult (fr : Front) (gap : Nat) (x : Entry) : Result :=
  .timestamp { stamp := x.stamp, seqNo := x.seqNo, count := x.count, gapCount := gap, gap := decide (gap ≠ 0),
               degraded := fr.tb.stampDegraded ⟨x.stamp, false⟩ }

/-- The record of a TIMESTAMP task that has taken an entry as a result into its open block (R37, R84). -/
def stampedRecord (fr : Front) (td : TaskDef) (gap : Nat) (rs : List Result) (x : Entry) (k : TaskRec) : TaskRec :=
  { k with cursor := some (x.index + 1), run := .timestamp 0, openBlock := some (rs ++ [stampResult fr gap x]), failCount := 0,
           resultsInRun := if td.runLength = 0 then min (k.resultsInRun + 1) 65535 else k.resultsInRun + 1 }

/-- The run goes on while its length is not reached (R37). -/
theorem stampedRecord_goesOn {fr : Front} {td : TaskDef} {gap : Nat} {rs : List Result} {x : Entry} {k : TaskRec}
    (h : td.runLength = 0 ∨ k.resultsInRun + 1 < td.runLength) :
    ¬(td.runLength ≠ 0 ∧ td.runLength ≤ (stampedRecord fr td gap rs x k).resultsInRun) := by
  rintro ⟨h0, hle⟩
  simp only [stampedRecord, if_neg h0] at hle
  omega

/-- A TIMESTAMP task that takes entries, with an arrival at its cursor, while no other task takes entries and the arbiter has
no choice to make (R26, R84). -/
structure StampArrival (fr : Front) (ch : Chan) (x : Entry) (t : TaskId) (td : TaskDef) (gap : Nat) (rs : List Result)
    (e : Engine) : Prop where
  alone : ∀ u, u ≠ t → e.takes u = false
  settled : unitSettled fr.now e
  takes : e.takes t = true
  defn : (e.tasks.get t).defn = some td
  fields : td.fields = .timestamp ch
  cursor : (e.tasks.get t).cursor = some x.index
  run : (e.tasks.get t).run = .timestamp gap
  openBlock : (e.tasks.get t).openBlock = some rs

namespace StampArrival

variable {fr : Front} {ch : Chan} {x : Entry} {t : TaskId} {td : TaskDef} {gap : Nat} {rs : List Result} {e : Engine}

section

variable (h : StampArrival fr ch x t td gap rs e)

include h

/-- The arrival is one result (R84). -/
theorem taskArrival_eq : e.taskArrival fr ch x t =
    (e.modTask t (fun k => { k with cursor := some (x.index + 1), run := .timestamp 0 })).takeResult fr.now t
      (stampResult fr gap x) 1 := by
  unfold Engine.taskArrival Engine.stampArrival Engine.takeStamp
  simp only [h.takes, h.defn, h.fields, h.cursor, h.run, and_self, if_true]
  rfl

/-- The result is in the open block, and may complete it or end the run (R37). -/
theorem arrival_eq : e.arrival fr ch x =
    ((e.setTask t (stampedRecord fr td gap rs x (e.tasks.get t))).finishTaking fr.now t td).arbitrate fr.now := by
  have other : ∀ u, u ≠ t → (e.taskArrival fr ch x t).takes u = false := fun u hu => by
    rw [h.taskArrival_eq]
    refine takes_of_leavesOr (Engine.takeResult_other fr.now _ _ _ hu) ?_
    rw [Engine.modTask_tasks, Per8.get_set_ne _ _ hu]
    exact h.alone u hu
  rw [arrival_one h.alone other, h.taskArrival_eq, takeResult_sound (td := td) 1 (by simpa using h.defn) rfl rfl]
  simp only [Engine.modTask, Engine.setTask, Per8.get_set_same, Per8.set_set, TaskRec.addResult, h.openBlock]
  rfl

/-- The run of a task that has just taken the result is in progress. -/
theorem stamped_runContinues :
    ((e.setTask t (stampedRecord fr td gap rs x (e.tasks.get t))).tasks.get t).runContinues = true := by
  rw [setTask_get_same]
  exact TaskRec.takes_runContinues (k := stampedRecord fr td gap rs x (e.tasks.get t)) h.takes

/-- The L-th result ends the run (R37, R40). -/
theorem arrival_ends (h0 : td.runLength ≠ 0) (hle : td.runLength ≤ (e.tasks.get t).resultsInRun + 1) :
    e.arrival fr ch x =
      runEnded fr.now t td .length (e.setTask t (stampedRecord fr td gap rs x (e.tasks.get t))) := by
  have hlen : td.runLength ≤ (stampedRecord fr td gap rs x (e.tasks.get t)).resultsInRun := by
    simpa only [stampedRecord, if_neg h0] using hle
  rw [h.arrival_eq, finishTaking_length h.stamped_runContinues ⟨h0, by rwa [setTask_get_same]⟩,
    Engine.endRun_running .length h.stamped_runContinues (by rw [setTask_get_same]; exact h.defn)]
  exact Engine.arbitrate_settled (unitSettled_unitLeft (t := t) h.settled (by rw [runEnded_frame]; rfl))

variable (hgo : td.runLength = 0 ∨ (e.tasks.get t).resultsInRun + 1 < td.runLength)

include hgo

/-- A result that neither fills the block nor ends the run (R37). -/
theorem arrival_open (hlen : rs.length + 1 < td.blockSize) :
    e.arrival fr ch x = e.setTask t (stampedRecord fr td gap rs x (e.tasks.get t)) := by
  rw [h.arrival_eq, finishTaking_open (rs := rs ++ [stampResult fr gap x]) h.stamped_runContinues
    (by rw [setTask_get_same]; exact stampedRecord_goesOn hgo)
    (by rw [setTask_get_same]; rfl) (by simpa using hlen)]
  exact Engine.arbitrate_settled (unitSettled_congr h.settled rfl)

/-- A result that fills the block completes it (R37, R45, R152). -/
theorem arrival_full (hlen : td.blockSize ≤ rs.length + 1) :
    e.arrival fr ch x =
      (e.setTask t (stampedRecord fr td gap rs x (e.tasks.get t))).completeFull fr.now t td (rs ++ [stampResult fr gap x]) := by
  rw [h.arrival_eq, finishTaking_full (rs := rs ++ [stampResult fr gap x]) h.stamped_runContinues
    (by rw [setTask_get_same]; exact stampedRecord_goesOn hgo)
    (by rw [setTask_get_same]; rfl) (by simpa using hlen)]
  exact Engine.arbitrate_settled (unitSettled_congr h.settled (by unfold Engine.completeFull; rw [Engine.offerBlock_frame]; rfl))

end

end StampArrival

/-- Settles O36: the arrival by where the result leaves the block and the run, the offer by the places it can take. -/
theorem arrivalBecomesATimestamp : Obligations.ArrivalBecomesATimestamp := by
  refine ⟨fun fr ch x e t td gap rs halone hsettled htakes hd hf hc hrun ho => ?_, ?_, ?_⟩
  · have h : StampArrival fr ch x t td gap rs e := ⟨halone, hsettled, htakes, hd, hf, hc, hrun, ho⟩
    intro r n k b taken goesOn
    refine ⟨fun hgo hlen => ?_, ?_⟩
    · exact h.arrival_open hgo hlen
    intro entered held before
    have offers : goesOn → td.blockSize ≤ rs.length + 1 → e.arrival fr ch x = e.offerBlock fr.now t b entered held :=
      fun hgo hlen => by
        rw [h.arrival_full hgo hlen, completeFull_setTask _ (k := stampedRecord fr td gap rs x (e.tasks.get t)) htakes, hf]
        rfl
    refine ⟨offers, fun hgo hlen hn => ?_, fun h0 hle => ?_⟩
    · replace hn : ∀ y ∈ e.queue, ¬Block.follows fr.now t y = true := fun y hy hy' => hn y hy (block_follows_iff.1 hy')
      rw [offers hgo hlen]
      refine ⟨fun hl => ?_, fun hl => offerBlock_full hl fun y hy hg => hn y hy (givesPlace_iff.1 hg).1⟩
      rw [offerBlock_enters hl, placeBefore_tail fun y hy => Bool.eq_false_iff.2 (hn y hy)]
    · exact h.arrival_ends h0 hle
  · intro now t b entered held e before gives placed goes
    have hfollows : ∀ y, before y ↔ Block.follows now t y = true := fun y => block_follows_iff.symm
    have hgives : ∀ y, gives y ↔ givesPlace now t e y = true := fun y =>
      (and_congr (hfollows y) canHold_iff.symm).trans givesPlace_iff.symm
    simp only [hfollows, hgives]
    refine ⟨fun pre post hl hq hpre hpost => ?_, offerBlock_full, fun p x q pre post hl hq hx hn hpq hpre hpost => ?_⟩
    · show e.offerBlock now t b entered held = _
      rw [offerBlock_enters hl, hq, placeBefore_at hpre hpost]
    · show e.offerBlock now t b entered held = _
      rw [offerBlock_displaces hl hq hx hn, hpq, placeBefore_at hpre hpost]
      rfl
  · intro now t u b c tEntered tHeld uEntered uHeld e htu hb hc offerT offerU
    refine ⟨offerBlock_comm_enters htu hb hc, fun hl hq hcan hu => ?_⟩
    obtain ⟨hfirst, hsecond⟩ := offerBlock_comm_displaces (tHeld := tHeld) htu hb hc hl hq hcan hu
    exact ⟨hfirst.trans hsecond.symm, hfirst⟩

end Sys2Proof.Safety
end

