-- ==== Sys2Proof/Proofs/PublishedEdges.lean ====
section
/-!
PROOFS. The offers of EDGE markers, and what a PUBLISH task makes of an arrival (R26, R85 to R87, R90, R121, R136, log 53).
-/

namespace Sys2Proof.Safety

open Sys2Proof.Machine

/-! ## Outcomes (R87, R88) -/

/-- An outcome given to a task leaves every task that takes no entries without entries to take. -/
theorem giveOutcome_idle {fr : Front} {t u : TaskId} {x : Deferred} {e : Engine} (h : e.takes u = false) :
    (e.giveOutcome fr t x).takes u = false := by
  have run : ∀ (e : Engine) (r : PublishRun), e.takes u = false → (e.setPublishRun t r).takes u = false := fun e r h => by
    unfold Engine.takes Engine.setPublishRun
    by_cases hu : u = t
    · subst hu; rw [Engine.modTask_tasks, Per8.get_set_same]; exact h
    · rw [Engine.modTask_tasks, Per8.get_set_ne _ _ hu]; exact h
  unfold Engine.giveOutcome
  split
  · exact h
  · rename_i r _
    split
    · rename_i ht
      have hu : u ≠ t := fun hu => by rw [hu, ht] at h; cases h
      exact takes_of_leavesOr (Engine.takeResult_other _ _ _ _ hu) (run e _ h)
    · split
      · exact run e _ h
      · exact h

/-- So do outcomes of one moment (R87, R152). -/
theorem giveOutcomes_idle {fr : Front} {u : TaskId} {xs : List (TaskId × Deferred)} {e : Engine} (h : e.takes u = false) :
    (e.giveOutcomes fr xs).takes u = false := by
  have keeps : ∀ {α : Type} (f : Engine → α → Engine), (∀ e a, e.takes u = false → (f e a).takes u = false) →
      ∀ (as : List α) (e : Engine), e.takes u = false → (as.foldl f e).takes u = false := by
    intro α f hf as
    induction as with
    | nil => exact fun e he => he
    | cons a as ih => exact fun e he => ih _ (hf e a he)
  exact keeps _ (fun e t => keeps _ (fun e p => giveOutcome_idle) _ e) taskIds e h

/-- One outcome is its task's alone (R87). -/
theorem giveOutcomes_one (fr : Front) (t : TaskId) (x : Deferred) (e : Engine) :
    e.giveOutcomes fr [(t, x)] = e.giveOutcome fr t x := by
  have other : ∀ u, u ≠ t → ∀ e : Engine,
      ([(t, x)].filter (fun p => p.1 == u)).foldl (fun e p => e.giveOutcome fr u p.2) e = e := fun u hu e => by
    simp [beq_eq_false_iff_ne.2 hu.symm]
  unfold Engine.giveOutcomes
  rw [fold_one (fun u e => ([(t, x)].filter (fun p => p.1 == u)).foldl (fun e p => e.giveOutcome fr u p.2) e) t e
    (fun u hu => other u hu e) (fun u hu => other u hu _)]
  simp

/-- A task that takes entries takes an outcome as a result at once (R87, R90). -/
theorem giveOutcome_taken {fr : Front} {t : TaskId} {x : Deferred} {run : PublishRun} {e : Engine}
    (hrun : (e.tasks.get t).run = .publish run) (htakes : e.takes t = true) :
    e.giveOutcome fr t x = e.takePublish fr t run x := by
  unfold Engine.giveOutcome TaskRec.publishRun
  rw [hrun, htakes]; rfl

/-- A marker without an origin task gives its outcome to no one (R87, R126). -/
theorem outcome_of_none {m : OutEntry} {o : Outcome5} {delay : BitVec 24} (h : m.originTask = none) :
    m.outcome o delay = [] := by
  unfold OutEntry.outcome; rw [h]

/-- Any other gives it to that task (R87). -/
theorem outcome_of_some {m : OutEntry} {o : Outcome5} {delay : BitVec 24} {t : TaskId} {origin : Kept}
    (ht : m.originTask = some t) (ho : m.origin = some origin) : m.outcome o delay = [(t, ⟨origin, o, delay⟩)] := by
  unfold OutEntry.outcome; rw [ht, ho]

/-! ## The offer of an EDGE marker (R121) -/

/-- A transmitter that is not muted and has sent no HALT answers offers by its queue (R121, R122). -/
theorem refusesOffers_eq_false {e : Engine} (hm : e.tx.mute = false) (hh : e.tx.haltSent = false) : e.refusesOffers = false := by
  simp [Engine.refusesOffers, hm, hh]

section

variable {fr : Front} {t : TaskId} {m : OutEntry} {e : Engine}

/-- With a place free the marker is queued (R121). -/
theorem offerEdge_enters (hr : e.refusesOffers = false) (h : e.tx.queue.length < 8) :
    e.offerEdge fr t m = e.modOutgoing (fun _ =>
      placeBefore (OutEntry.follows fr.now t) { m with offered := some ⟨t, ⟨fr.now, false⟩⟩ } e.tx.queue) := by
  unfold Engine.offerEdge Engine.roomForEdge outgoingDepth
  rw [hr, if_pos h]; rfl

/-- In a full queue where no marker gives its place up the offer is answered DROPPED, as it is where every offer is
(R121, R122). -/
theorem offerEdge_drops (h : e.refusesOffers = true ∨
      (8 ≤ e.tx.queue.length ∧ ∀ y ∈ e.tx.queue, ¬OutEntry.follows fr.now t y = true)) :
    e.offerEdge fr t m = (e.countDropped 1).giveOutcomes fr (m.outcome .dropped 0) := by
  unfold Engine.offerEdge Engine.roomForEdge outgoingDepth
  rcases h with hr | ⟨hl, hn⟩
  · rw [hr]
  · rw [if_neg (Nat.not_lt.2 hl), takeLast_none.2 fun y hy => Bool.eq_false_iff.2 (hn y hy)]
    cases e.refusesOffers <;> rfl

/-- In a full queue the last marker that gives its place up is answered DROPPED after the offer (R121). -/
theorem offerEdge_displaces {p q : List OutEntry} {x : OutEntry} (hr : e.refusesOffers = false) (h : 8 ≤ e.tx.queue.length)
    (hq : e.tx.queue = p ++ x :: q) (hx : x.follows fr.now t = true) (hn : ∀ y ∈ q, ¬OutEntry.follows fr.now t y = true) :
    e.offerEdge fr t m =
      ((e.modOutgoing (fun _ =>
        placeBefore (OutEntry.follows fr.now t) { m with offered := some ⟨t, ⟨fr.now, false⟩⟩ } (p ++ q))).countDropped
          1).giveOutcomes fr (x.outcome .dropped 0) := by
  unfold Engine.offerEdge Engine.roomForEdge outgoingDepth
  rw [hr, if_neg (Nat.not_lt.2 h), hq, takeLast_mid hx fun y hy => Bool.eq_false_iff.2 (hn y hy)]; rfl

/-- The offer leaves every task that takes no entries without entries to take. -/
theorem offerEdge_idle {u : TaskId} (h : e.takes u = false) : (e.offerEdge fr t m).takes u = false := by
  rcases Engine.offerEdge_cases fr t m e with he | ⟨-, -, he⟩ | ⟨-, y, pre, post, -, -, he⟩ <;> rw [he]
  · exact giveOutcomes_idle (by rw [Engine.countDropped_one]; exact h)
  · exact h
  · exact giveOutcomes_idle (by rw [Engine.countDropped_one]; exact h)

end

section

variable {fr : Front} {t u : TaskId} {m n : OutEntry} {e : Engine} (htu : t < u) (hr : e.refusesOffers = false)
  (hn : n.inTransmission = false)

include htu hn in
/-- A marker that task `u` offers now stands behind those of lower-numbered tasks. -/
theorem marker_follows_placed : OutEntry.follows fr.now t { n with offered := some ⟨u, ⟨fr.now, false⟩⟩ } = true :=
  marker_follows_iff.2 ⟨hn, _, rfl, rfl, htu⟩

include htu in
/-- A marker of task `t` does not stand behind those of higher-numbered ones. -/
theorem marker_not_follows_placed (k : Kept) : OutEntry.follows fr.now u { m with offered := some ⟨t, k⟩ } = false :=
  Bool.eq_false_iff.2 fun h => by
    obtain ⟨-, o, ho, -, hlt⟩ := marker_follows_iff.1 h
    cases ho
    exact Fin.lt_asymm htu hlt

include htu hr hn

/-- With two places free, two offers in either order come to the same (R121). -/
theorem offerEdge_comm_enters (h : e.tx.queue.length < 7) :
    (e.offerEdge fr u n).offerEdge fr t m = (e.offerEdge fr t m).offerEdge fr u n := by
  have hl : e.tx.queue.length < 8 := by omega
  rw [offerEdge_enters hr hl, offerEdge_enters hr hl, offerEdge_enters (e := e.modOutgoing _) hr (by simp; omega),
    offerEdge_enters (e := e.modOutgoing _) hr (by simp; omega)]
  simp only [Engine.modOutgoing]
  rw [placeBefore_comm (marker_follows_mono htu) (marker_follows_placed htu hn) (marker_not_follows_placed htu _)]

/-- With one place free it goes to the lower-numbered task, in either order; the other task's marker is answered DROPPED
(R87, R121). -/
theorem offerEdge_comm_displaces (h : e.tx.queue.length = 7)
    (hq : ∀ y ∈ e.tx.queue, ∀ o, y.offered = some o → o.time ≠ ⟨fr.now, false⟩) :
    (e.offerEdge fr u n).offerEdge fr t m = (e.offerEdge fr t m).offerEdge fr u n := by
  have hl : e.tx.queue.length < 8 := by omega
  have old : ∀ (v : TaskId), ∀ y ∈ e.tx.queue, ¬OutEntry.follows fr.now v y = true := fun v y hy hf => by
    obtain ⟨-, o, ho, hnow, -⟩ := marker_follows_iff.1 hf
    exact hq y hy o ho hnow
  have tail : ∀ (v : TaskId) (a : OutEntry), placeBefore (OutEntry.follows fr.now v) a e.tx.queue = e.tx.queue ++ [a] :=
    fun v a => placeBefore_tail fun y hy => Bool.eq_false_iff.2 (old v y hy)
  rw [offerEdge_enters hr hl, offerEdge_enters hr hl, tail, tail,
    offerEdge_displaces (e := e.modOutgoing _) (p := e.tx.queue) (q := []) hr (by simp [h]) rfl
      (marker_follows_placed htu hn) nofun,
    offerEdge_drops (e := e.modOutgoing _) (.inr ⟨by simp [h], fun y hy hf => ?_⟩), List.append_nil, tail]
  · rfl
  · rcases List.mem_append.1 hy with hy | hy
    · exact old u y hy hf
    · rw [List.mem_singleton.1 hy, marker_not_follows_placed htu] at hf
      cases hf

end

/-! ## PUBLISH (R85, R86) -/

/-- A PUBLISH task that takes entries, with an arrival at its cursor, while no other task takes entries (R26, R86). -/
structure PublishArrival (x : Entry) (t : TaskId) (td : TaskDef) (p : PublishFields) (run : PublishRun) (e : Engine) : Prop where
  alone : ∀ u, u ≠ t → e.takes u = false
  takes : e.takes t = true
  defn : (e.tasks.get t).defn = some td
  fields : td.fields = .publish p
  cursor : (e.tasks.get t).cursor = some x.index
  run : (e.tasks.get t).run = .publish run

/-- The record of a PUBLISH task that has taken an entry, with the kind state that this leaves (R85). -/
def publishedRecord (x : Entry) (run : PublishRun) (k : TaskRec) : TaskRec :=
  { k with cursor := some (x.index + 1), run := .publish run }

/-- The marker of a published entry (R86). -/
def edgeMarker (p : PublishFields) (x : Entry) (t : TaskId) : OutEntry := ordinaryEntry .edge p.tag x.stamp (some t)

namespace PublishArrival

variable {fr : Front} {x : Entry} {t : TaskId} {td : TaskDef} {p : PublishFields} {run : PublishRun} {e : Engine}
  (h : PublishArrival x t td p run e)

include h

/-- The task counts the arrival, or offers it where it is the D-th (R86). -/
theorem taskArrival_eq : e.taskArrival fr p.channel x t =
    if run.dividerCount + 1 < p.dividerField.toNat + 1 then
      e.setTask t (publishedRecord x { run with dividerCount := run.dividerCount + 1 } (e.tasks.get t))
    else (e.setTask t (publishedRecord x { run with dividerCount := 0 } (e.tasks.get t))).offerEdge fr t (edgeMarker p x t) := by
  have hstep : e.taskArrival fr p.channel x t = e.publishArrival fr t p p.channel x := by
    unfold Engine.taskArrival
    simp only [h.takes, h.defn, h.fields]
  rw [hstep]
  unfold Engine.publishArrival Engine.setPublishRun Engine.publishEntry TaskRec.publishRun
  simp only [h.cursor, h.run, and_self, if_true, Engine.modTask, Engine.setTask, Per8.get_set_same, Per8.set_set]
  rfl

/-- No other task takes entries afterwards. -/
theorem setTask_alone (k : TaskRec) {u : TaskId} (hu : u ≠ t) : (e.setTask t k).takes u = false := by
  unfold Engine.takes
  rw [Engine.setTask_tasks, Per8.get_set_ne _ _ hu]
  exact h.alone u hu

/-- An arrival that is not the D-th (R86). -/
theorem arrival_counts (hs : unitSettled fr.now e) (hd : run.dividerCount + 1 < p.dividerField.toNat + 1) :
    e.arrival fr p.channel x =
      e.setTask t (publishedRecord x { run with dividerCount := run.dividerCount + 1 } (e.tasks.get t)) := by
  have ht := h.taskArrival_eq (fr := fr)
  rw [if_pos hd] at ht
  rw [arrival_one h.alone fun u hu => by rw [ht]; exact h.setTask_alone _ hu, ht]
  exact Engine.arbitrate_settled (unitSettled_congr hs rfl)

/-- The D-th arrival is offered (R86, R121). -/
theorem arrival_offers (hd : p.dividerField.toNat ≤ run.dividerCount) :
    e.arrival fr p.channel x =
      ((e.setTask t (publishedRecord x { run with dividerCount := 0 } (e.tasks.get t))).offerEdge fr t
        (edgeMarker p x t)).arbitrate fr.now := by
  have ht := h.taskArrival_eq (fr := fr)
  rw [if_neg (by omega)] at ht
  rw [arrival_one h.alone fun u hu => by rw [ht]; exact offerEdge_idle (h.setTask_alone _ hu), ht]

/-- A D-th entry whose offer is answered DROPPED is a result at once (R87, R90). -/
theorem dropped_eq :
    ((e.setTask t (publishedRecord x { run with dividerCount := 0 } (e.tasks.get t))).countDropped 1).giveOutcomes fr
      ((edgeMarker p x t).outcome .dropped 0) =
    ((e.setTask t (publishedRecord x { run with dividerCount := 0, gap := 0 } (e.tasks.get t))).countDropped 1).takeResult fr.now t
      (.publish
        { edge := x.stamp, outcome := .dropped, delay := 0, gapCount := run.gap, gap := decide (run.gap ≠ 0),
          degraded := fr.tb.stampDegraded ⟨x.stamp, false⟩ }) 1 := by
  have hout : (edgeMarker p x t).outcome .dropped 0 = [(t, ⟨⟨x.stamp, false⟩, .dropped, 0⟩)] := rfl
  rw [hout, giveOutcomes_one, giveOutcome_taken (run := { run with dividerCount := 0 })]
  · unfold Engine.takePublish Engine.setPublishRun
    simp only [Engine.countDropped_one, Engine.modTask, Engine.setTask, Per8.get_set_same, Per8.set_set]
    rfl
  · simp [Engine.countDropped_one, publishedRecord]
  · rw [Engine.countDropped_one]
    show TaskRec.takes ((e.tasks.set t _).get t) = true
    rw [Per8.get_set_same]
    exact h.takes

end PublishArrival

/-- Settles O37: the arrival by the divider count, the offer by the places it can take. -/
theorem arrivalIsPublished : Obligations.ArrivalIsPublished := by
  refine ⟨fun fr x e t td p run halone hsettled htakes hd hf hc hrun => ?_, ?_, ?_⟩
  · have h : PublishArrival x t td p run e := ⟨halone, htakes, hd, hf, hc, hrun⟩
    intro k taken marker before r
    have hbefore : ∀ m, before m ↔ OutEntry.follows fr.now t m = true := fun m => marker_follows_iff.symm
    refine ⟨h.arrival_counts hsettled, fun hdiv => ⟨h.arrival_offers hdiv, fun hm hh hl hn => ?_, fun hno => ?_⟩⟩
    · rw [h.arrival_offers hdiv, offerEdge_enters (e := e.setTask t _) (refusesOffers_eq_false hm hh) hl,
        Engine.setTask_tx, placeBefore_tail fun m hmem => Bool.eq_false_iff.2 (mt (hbefore m).2 (hn m hmem))]
      exact Engine.arbitrate_settled (unitSettled_congr hsettled rfl)
    · have hdrop : e.refusesOffers = true ∨
          (8 ≤ e.tx.queue.length ∧ ∀ m ∈ e.tx.queue, ¬OutEntry.follows fr.now t m = true) := by
        simpa only [Engine.refusesOffers, Bool.or_eq_true, or_assoc, hbefore] using hno
      rw [h.arrival_offers hdiv, offerEdge_drops (e := e.setTask t _) hdrop, h.dropped_eq, Engine.countDropped_one]
      rfl
  · intro fr t m e hm hh before placed queued
    have hbefore : ∀ m, before m ↔ OutEntry.follows fr.now t m = true := fun m => marker_follows_iff.symm
    have hr := refusesOffers_eq_false hm hh
    simp only [hbefore]
    refine ⟨fun pre post hl hq hpre hpost => ?_, fun p x q pre post hl hq hx hn hpq hpre hpost => ?_⟩
    · rw [offerEdge_enters hr hl, hq, placeBefore_at hpre hpost]
      rfl
    · rw [offerEdge_displaces hr hl hq hx hn, hpq, placeBefore_at hpre hpost, Engine.countDropped_one]
      refine ⟨fun ho => ?_, fun u o hu ho => ?_⟩
      · rw [outcome_of_none ho, Engine.giveOutcomes_nil]
        rfl
      · rw [outcome_of_some hu ho, giveOutcomes_one]
        rfl
  · intro fr t u m n e htu hm hh hmt hnt offerT offerU
    have hr := refusesOffers_eq_false hm hh
    exact ⟨offerEdge_comm_enters htu hr hnt, offerEdge_comm_displaces htu hr hnt⟩

end Sys2Proof.Safety
end

