-- ==== Sys2Proof/Proofs/Intervals.lean ====
section
/-!
PROOFS. What an INTERVAL task with local starts makes of an arrival: as a stop of the start that waits, as a new start, and as
both on a shared channel (R74, R76 to R78, R80, R82).
-/

namespace Sys2Proof.Safety

open Sys2Proof.Machine

/-! ## The judgement of a start (R76) -/

section

variable {fr : Front} {f : IntervalFields} {s : Start} {x : Entry}

theorem judgeStart_lost (h : (fr.ring f.stopChannel).firstAtOrAfter s.searchFrom = .found x .lost) :
    judgeStart fr f s = .lost (some x) := by unfold judgeStart; rw [h]

theorem judgeStart_unstamped (h : (fr.ring f.stopChannel).firstAtOrAfter s.searchFrom = .found x .unstamped) :
    judgeStart fr f s = .unstamped x := by unfold judgeStart; rw [h]

theorem judgeStart_certain (h : (fr.ring f.stopChannel).firstAtOrAfter s.searchFrom = .found x .certain) :
    judgeStart fr f s =
      if (⟨x.stamp, false⟩ : Kept).laterThan s.windowEnd = true then .noStop (some x) else .valid x := by
  unfold judgeStart; rw [h]; rfl

theorem judgeStart_gone (h : (fr.ring f.stopChannel).firstAtOrAfter s.searchFrom = .gone) : judgeStart fr f s = .lost none := by
  unfold judgeStart; rw [h]

/-- While nothing is found the start waits, until its window horizon (R23, R76). -/
theorem judgeStart_unanswered (h : (fr.ring f.stopChannel).firstAtOrAfter s.searchFrom = .pending) :
    judgeStart fr f s =
      if (s.time.longPast || s.windowEnd.longPast ||
        reached fr.now (plus s.windowEnd.stamp ((fr.chan f.stopChannel).glitch.val * 32 + 1))) = true
      then .noStop none else .waits := by
  unfold judgeStart
  rw [h, Bool.or_assoc]; rfl

/-- A new start waits where nothing is found before its window horizon (R74, R76). -/
theorem judgeStart_startAt {stamp : Stamp}
    (hp : (fr.ring f.stopChannel).firstAtOrAfter ⟨plus stamp f.holdoff, false⟩ = .pending)
    (hr : reached fr.now (plus (plus stamp f.window) ((fr.chan f.stopChannel).glitch.val * 32 + 1)) = false) :
    judgeStart fr f (startAt f stamp) = .waits := by
  rw [judgeStart_unanswered (s := startAt f stamp) hp]
  exact if_neg (Bool.eq_false_iff.1 hr)

end

/-! ## The result of a local start (R76, R82) -/

section

variable {fr : Front} {t : TaskId} {f : IntervalFields} {e : Engine} {run : IntervalRun}

/-- The result of a local start reports the missed starts, and their count begins anew (R82). -/
theorem takeLocalStart_eq (s : Start) (v : Verdict) :
    e.takeLocalStart fr t run s v =
      (e.setIntervalRun t { run with missed := 0 }).takeResult fr.now t
        (.interval (intervalResult fr.tb s.time none 0 false s.time run.missed v)) 1 := by
  cases v with
  | valid x => rfl
  | noStop o => cases o <;> rfl
  | lost o => cases o <;> rfl
  | unstamped x => rfl
  | waits => rfl

/-- The result of a start whose stop was found: the certainty of the stop comes before the window (R76). -/
theorem intervalResult_found {y : Start} {x : Entry} {c : Certainty} (tb : Timebase) (missed : Nat)
    (h : (fr.ring f.stopChannel).firstAtOrAfter y.searchFrom = .found x c) :
    let late := c = .certain ∧ (⟨x.stamp, false⟩ : Kept).laterThan y.windowEnd = true
    let valid := c = .certain ∧ (⟨x.stamp, false⟩ : Kept).laterThan y.windowEnd = false
    judgeStart fr f y ≠ .waits ∧
    intervalResult tb y.time none 0 false y.time missed (judgeStart fr f y) =
      { start := y.time.stamp, interval := if valid then since x.stamp y.time.stamp else 0, origin := none, tag := 0,
        missedCount := missed,
        flags := { noStop := decide late, lost := decide (c = .lost), unstamped := decide (c = .unstamped),
                   unplaced := false, degraded := tb.anyDegraded [y.time, ⟨x.stamp, false⟩] } } := by
  cases c with
  | lost => rw [judgeStart_lost h]; exact ⟨nofun, by simp [intervalResult, Verdict.stop?]⟩
  | unstamped => rw [judgeStart_unstamped h]; exact ⟨nofun, by simp [intervalResult, Verdict.stop?]⟩
  | certain =>
    rw [judgeStart_certain h]
    cases hl : (⟨x.stamp, false⟩ : Kept).laterThan y.windowEnd with
    | true => exact ⟨nofun, by simp [intervalResult, Verdict.stop?]⟩
    | false => exact ⟨nofun, by simp [intervalResult, Verdict.stop?]⟩

/-! ## The starts that wait (R74, R77, R79, R80) -/

/-- Starts that still wait are left as they are. -/
theorem judgePending_all_wait {ss : List Start} (h : ∀ z ∈ ss, judgeStart fr f z = .waits) :
    e.judgePending fr t f ss = e := by
  induction ss with
  | nil => rfl
  | cons z ss ih =>
    have hz := h z List.mem_cons_self
    have hss := ih fun y hy => h y (List.mem_cons_of_mem z hy)
    unfold Engine.judgePending
    split
    · rw [hz]; exact hss
    · rfl

/-- One start that is judged gives its result and leaves the list. -/
theorem judgePending_judged {y : Start} (ht : e.takes t = true) (hrun : (e.tasks.get t).run = .interval run)
    (h : judgeStart fr f y ≠ .waits) :
    e.judgePending fr t f [y] = e.takeLocalStart fr t { run with pending := run.pending.erase y } y (judgeStart fr f y) := by
  unfold Engine.judgePending TaskRec.intervalRun
  rw [ht, hrun]
  dsimp only
  cases hv : judgeStart fr f y with
  | waits => exact absurd hv h
  | _ => rfl

/-- A task that holds no slot has none to judge (R131). -/
theorem slotsOf_nil (h : ∀ i y, e.slots.get i = some y → y.task ≠ t) : e.slotsOf t = [] := by
  refine List.filterMap_eq_nil_iff.2 fun i _ => ?_
  cases hi : e.slots.get i with
  | none => rfl
  | some y => exact if_neg (h i y hi)

/-- So its pending starts alone are judged. -/
theorem judgeWaiting_pending (hrun : (e.tasks.get t).run = .interval run)
    (hslots : ∀ i y, e.slots.get i = some y → y.task ≠ t) (p : Start → Bool) :
    e.judgeWaiting fr t f p = e.judgePending fr t f (run.pending.filter p) := by
  unfold Engine.judgeWaiting TaskRec.intervalRun
  rw [hrun, slotsOf_nil hslots]; rfl

/-- The run with one start more: it waits while fewer than 16 do, and is missed beyond that (R74, R80). -/
def withStart (run : IntervalRun) (start : Start) : IntervalRun :=
  if run.pending.length < 16 then { run with pending := run.pending ++ [start] }
  else { run with missed := min (run.missed + 1) (2 ^ 32 - 1) }

theorem pendStart_withStart (s : Start) (hrun : (e.tasks.get t).run = .interval run) :
    e.pendStart t s = e.setTask t { e.tasks.get t with run := .interval (withStart run s) } := by
  unfold Engine.pendStart TaskRec.intervalRun withStart
  rw [hrun]
  by_cases hl : run.pending.length < 16
  · exact (if_pos hl).trans (by rw [if_pos hl]; rfl)
  · exact (if_neg hl).trans (by rw [if_neg hl]; rfl)

/-! ## An arrival at its task (R26, R74, R77, R78) -/

variable {ch : Chan} {x : Entry}

/-- A new start that cannot be judged yet is pended, its task's cursor moving on (R74). -/
theorem newStart_waits (hrun : (e.tasks.get t).run = .interval run) (hw : judgeStart fr f (startAt f x.stamp) = .waits) :
    (e.modTask t (fun k => { k with cursor := some (x.index + 1) })).newStart fr t f x = e.setTask t
      { e.tasks.get t with cursor := some (x.index + 1), run := .interval (withStart run (startAt f x.stamp)) } := by
  have hmod : ((e.modTask t (fun k => { k with cursor := some (x.index + 1) })).tasks.get t).run = .interval run := by
    simpa using hrun
  have hpend := pendStart_withStart (startAt f x.stamp) hmod
  unfold Engine.newStart TaskRec.intervalRun
  rw [hmod]
  dsimp only
  rw [hw]
  dsimp only
  rw [hpend]
  simp only [Engine.setTask, Engine.modTask, Per8.get_set_same, Per8.set_set]

/-- An arrival first judges the starts it is not too early for, where it stands on the stop channel; then it is a new start of
a task that takes entries, where it stands at the start cursor (R74, R77, R78). -/
theorem intervalArrival_eq :
    e.intervalArrival fr t f ch x =
      let judged := if ch = f.stopChannel
        then e.judgeWaiting fr t f (fun s => !s.searchFrom.laterThan ⟨x.stamp, false⟩) else e
      if f.source = .localStart ∧ ch = f.startChannel ∧ judged.takes t = true ∧ (judged.tasks.get t).cursor = some x.index
      then (judged.modTask t (fun k => { k with cursor := some (x.index + 1) })).newStart fr t f x
      else judged := by
  unfold Engine.intervalArrival
  simp only [Bool.and_eq_true, beq_iff_eq, and_assoc]
  rfl

end

/-- The record of one task written leaves every other (R38). -/
theorem setTask_other {u t : TaskId} (k : TaskRec) (e : Engine) (hu : u ≠ t) :
    LeavesOr (e.tasks.get u) ((e.setTask t k).tasks.get u) :=
  .inl (by rw [Engine.setTask_tasks, Per8.get_set_ne _ _ hu])

/-- An INTERVAL task with local starts that takes entries and holds no slot, while no other task takes entries and the arbiter
has no choice to make (R26, R73). -/
structure LocalStarts (fr : Front) (t : TaskId) (td : TaskDef) (f : IntervalFields) (run : IntervalRun) (e : Engine) :
    Prop where
  alone : ∀ u, u ≠ t → e.takes u = false
  settled : unitSettled fr.now e
  takes : e.takes t = true
  defn : (e.tasks.get t).defn = some td
  fields : td.fields = .interval f
  source : f.source = .localStart
  run : (e.tasks.get t).run = .interval run
  slots : ∀ i y, e.slots.get i = some y → y.task ≠ t

namespace LocalStarts

variable {fr : Front} {ch : Chan} {x : Entry} {t : TaskId} {td : TaskDef} {f : IntervalFields} {run : IntervalRun} {e : Engine}
  (h : LocalStarts fr t td f run e)

include h

/-- The arrival is what the task makes of it, where that gives no other task entries to take. -/
theorem arrival_eq {e' : Engine} (heq : e.intervalArrival fr t f ch x = e')
    (other : ∀ u, u ≠ t → LeavesOr (e.tasks.get u) (e'.tasks.get u)) : e.arrival fr ch x = e'.arbitrate fr.now := by
  have htask : e.taskArrival fr ch x t = e' := by
    unfold Engine.taskArrival
    simp only [h.takes, h.defn, h.fields]
    exact heq
  rw [arrival_one h.alone fun u hu => htask ▸ takes_of_leavesOr (other u hu) (h.alone u hu), htask]

/-- An arrival that finds nothing to judge and waits as a start (R74, R80). -/
theorem arrival_pends (hstart : ch = f.startChannel) (hc : (e.tasks.get t).cursor = some x.index)
    (hw : judgeStart fr f (startAt f x.stamp) = .waits)
    (hwait : ch = f.stopChannel →
      ∀ z ∈ run.pending, z.searchFrom.laterThan ⟨x.stamp, false⟩ = true ∨ judgeStart fr f z = .waits) :
    e.arrival fr ch x = e.setTask t
      { e.tasks.get t with cursor := some (x.index + 1), run := .interval (withStart run (startAt f x.stamp)) } := by
  have hjudged : (if ch = f.stopChannel
      then e.judgeWaiting fr t f (fun s => !s.searchFrom.laterThan ⟨x.stamp, false⟩) else e) = e := by
    split
    · rename_i hstop
      rw [judgeWaiting_pending h.run h.slots]
      refine judgePending_all_wait fun z hz => ?_
      obtain ⟨hmem, hreach⟩ := List.mem_filter.1 hz
      exact (hwait hstop z hmem).resolve_left fun hlater => by simp [hlater] at hreach
    · rfl
  have heq : e.intervalArrival fr t f ch x = e.setTask t
      { e.tasks.get t with cursor := some (x.index + 1), run := .interval (withStart run (startAt f x.stamp)) } := by
    rw [intervalArrival_eq, hjudged]
    exact (if_pos ⟨h.source, hstart, h.takes, hc⟩).trans (newStart_waits h.run hw)
  rw [h.arrival_eq heq fun u hu => setTask_other _ e hu]
  exact Engine.arbitrate_settled (unitSettled_congr h.settled rfl)

/-- The engine once the one start that waits has given its result (R76, R77, R82). -/
theorem judged_eq {y : Start} (hy : run.pending = [y]) (hreach : y.searchFrom.laterThan ⟨x.stamp, false⟩ = false)
    (hv : judgeStart fr f y ≠ .waits) :
    e.judgeWaiting fr t f (fun s => !s.searchFrom.laterThan ⟨x.stamp, false⟩) =
      (e.setTask t { e.tasks.get t with run := .interval ⟨[], 0⟩ }).takeResult fr.now t
        (.interval (intervalResult fr.tb y.time none 0 false y.time run.missed (judgeStart fr f y))) 1 := by
  rw [judgeWaiting_pending h.run h.slots, hy, List.filter_cons_of_pos (by simp [hreach]), List.filter_nil,
    judgePending_judged h.takes h.run hv, takeLocalStart_eq, hy, List.erase_cons_head]
  rfl

/-- An arrival on the stop channel alone (R76, R77). -/
theorem arrival_stops {y : Start} (hstop : ch = f.stopChannel) (hstart : ch ≠ f.startChannel) (hy : run.pending = [y])
    (hreach : y.searchFrom.laterThan ⟨x.stamp, false⟩ = false) (hv : judgeStart fr f y ≠ .waits) :
    e.arrival fr ch x =
      ((e.setTask t { e.tasks.get t with run := .interval ⟨[], 0⟩ }).takeResult fr.now t
        (.interval (intervalResult fr.tb y.time none 0 false y.time run.missed (judgeStart fr f y))) 1).arbitrate fr.now := by
  refine h.arrival_eq ?_ fun u hu => (setTask_other _ e hu).trans (Engine.takeResult_other fr.now _ 1 _ hu)
  rw [intervalArrival_eq, if_pos hstop, h.judged_eq hy hreach hv]
  exact if_neg fun hs => hstart hs.2.1

/-- An arrival on a shared channel: a stop for the start that waits, and then a start itself while its task takes entries
(R78). -/
theorem arrival_stops_and_starts {y : Start} (hstop : ch = f.stopChannel) (hstart : ch = f.startChannel)
    (hc : (e.tasks.get t).cursor = some x.index) (hw : judgeStart fr f (startAt f x.stamp) = .waits) (hy : run.pending = [y])
    (hreach : y.searchFrom.laterThan ⟨x.stamp, false⟩ = false) (hv : judgeStart fr f y ≠ .waits) :
    let e1 := (e.setTask t { e.tasks.get t with run := .interval ⟨[], 0⟩ }).takeResult fr.now t
      (.interval (intervalResult fr.tb y.time none 0 false y.time run.missed (judgeStart fr f y))) 1
    e.arrival fr ch x =
      (if e1.takes t = true
       then e1.setTask t
         { e1.tasks.get t with cursor := some (x.index + 1), run := .interval ⟨[startAt f x.stamp], 0⟩ }
       else e1).arbitrate fr.now := by
  intro e1
  have hother : ∀ u, u ≠ t → LeavesOr (e.tasks.get u) (e1.tasks.get u) := fun u hu =>
    (setTask_other _ e hu).trans (Engine.takeResult_other fr.now _ 1 _ hu)
  have heq := intervalArrival_eq (fr := fr) (t := t) (f := f) (e := e) (ch := ch) (x := x)
  rw [if_pos hstop, h.judged_eq hy hreach hv] at heq
  cases ht : e1.takes t with
  | false =>
    rw [if_neg Bool.false_ne_true]
    refine h.arrival_eq (heq.trans (if_neg fun hs => ?_)) hother
    rw [ht] at hs
    exact Bool.false_ne_true hs.2.2.1
  | true =>
    obtain ⟨-, hcursor, -, hrun, -⟩ := Engine.takeResult_takes ht
    rw [setTask_get_same] at hcursor hrun
    rw [if_pos rfl]
    refine h.arrival_eq (heq.trans ((if_pos ⟨h.source, hstart, ht, hcursor.trans hc⟩).trans (newStart_waits hrun hw)))
      fun u hu => (hother u hu).trans (setTask_other _ e1 hu)

end LocalStarts

/-- Settles O38: the arrival as a stop, as a start and as both, and the judgement by the answer of the search. -/
theorem arrivalStopsOrStarts : Obligations.ArrivalStopsOrStarts := by
  have idle : ∀ {t : TaskId} {e : Engine}, (∀ u, u ≠ t → (e.tasks.get u).runContinues = false) →
      ∀ u, u ≠ t → e.takes u = false := fun hrun u hu =>
    Bool.eq_false_iff.2 fun ht => by simpa [hrun u hu] using TaskRec.takes_runContinues ht
  refine ⟨fun fr ch x e t td f run halone hsettled htakes hd hf hsource hne hrun hslots => ?_,
    fun fr ch x e t td f run halone hsettled htakes hd hf hsource hstart hstop hrun hslots hc => ?_, fun fr f s => ?_⟩
  · have h : LocalStarts fr t td f run e := ⟨idle halone, hsettled, htakes, hd, hf, hsource, hrun, hslots⟩
    refine ⟨fun y s c hch hy hreach hfound => ?_, fun hch hc => ?_⟩
    · obtain ⟨hv, hres⟩ := intervalResult_found fr.tb run.missed hfound
      rw [h.arrival_stops hch (fun hs => hne (hs.symm.trans hch)) hy hreach hv, hres]
      rfl
    · intro start hp hr
      exact h.arrival_pends hch hc (judgeStart_startAt hp hr) fun hs => absurd (hch.symm.trans hs) hne
  · have h : LocalStarts fr t td f run e := ⟨idle halone, hsettled, htakes, hd, hf, hsource, hrun, hslots⟩
    intro k start hp hr
    subst hstop
    have hw : judgeStart fr f (startAt f x.stamp) = .waits := judgeStart_startAt hp hr
    exact ⟨fun hwait => h.arrival_pends hstart.symm hc hw fun _ => hwait,
      fun y hy hreach hv => h.arrival_stops_and_starts rfl hstart.symm hc hw hy hreach hv⟩
  · exact ⟨fun x => judgeStart_lost, fun x => judgeStart_unstamped, fun x => judgeStart_certain, judgeStart_gone,
      judgeStart_unanswered⟩

end Sys2Proof.Safety
end

