-- ==== Sys2Proof/Proofs/AttemptStarts.lean ====
section
/-!
PROOFS. What an outcome does to its task (R87 to R89), and the start of an attempt: its conditions, the stale heads that leave
first, and the word it begins with (R103, R111, R116, R123, R124).
-/

namespace Sys2Proof.Safety

open Sys2Proof.Machine

/-! ## An outcome at its task (R87, R88, R89) -/

section

variable {fr : Front} {t : TaskId} {x : Deferred} {run : PublishRun} {e : Engine}

/-- After the run an outcome is given to no one (R89). -/
theorem giveOutcome_runOver (h : (e.tasks.get t).runContinues = false ∨ ∀ run, (e.tasks.get t).run ≠ .publish run) :
    e.giveOutcome fr t x = e := by
  unfold Engine.giveOutcome TaskRec.publishRun
  rcases h with hover | hkind
  · have htakes : ¬e.takes t = true := fun ht => by simpa [hover] using TaskRec.takes_runContinues ht
    split
    · rfl
    · rw [if_neg htakes, hover, if_neg Bool.false_ne_true]
  · cases hr : (e.tasks.get t).run with
    | publish run => exact absurd hr (hkind run)
    | _ => rfl

/-- A suspended task defers it (R88). -/
theorem giveOutcome_deferred (hrun : (e.tasks.get t).run = .publish run) (hc : (e.tasks.get t).runContinues = true)
    (ht : (e.tasks.get t).takes = false) :
    e.giveOutcome fr t x =
      { e with
        tasks := e.tasks.set t { e.tasks.get t with run := .publish { run with deferred := run.deferred ++ [x] } } } := by
  unfold Engine.giveOutcome TaskRec.publishRun Engine.takes
  rw [hrun, ht, hc]; rfl

/-- A task that takes entries takes it as a result (R87, R90). -/
theorem giveOutcome_result (hrun : (e.tasks.get t).run = .publish run) (ht : (e.tasks.get t).takes = true) :
    e.giveOutcome fr t x = Engine.takeResult fr.now t (.publish
        { edge := x.edge.stamp, outcome := x.outcome, delay := x.delay, gapCount := run.gap, gap := decide (run.gap ≠ 0),
          degraded := fr.tb.stampDegraded x.edge }) 1
      { e with tasks := e.tasks.set t { e.tasks.get t with run := .publish { run with gap := 0 } } } := by
  rw [giveOutcome_taken hrun ht]; rfl

/-- What an outcome leads to, by its task: given to no one after the run, deferred while the task is suspended, a result
otherwise (R87, R88, R89). -/
theorem giveOutcome_leads {P : Engine → Prop} (h : P (e.giveOutcome fr t x)) :
    let k := e.tasks.get t
    let with_ := fun (r : PublishRun) => { e with tasks := e.tasks.set t { k with run := .publish r } }
    (k.runContinues = false ∨ (∀ run, k.run ≠ .publish run) → P e) ∧
    (∀ run, k.run = .publish run → k.runContinues = true →
      (k.takes = false → P (with_ { run with deferred := run.deferred ++ [x] })) ∧
      (k.takes = true → P (Engine.takeResult fr.now t (.publish
        { edge := x.edge.stamp, outcome := x.outcome, delay := x.delay, gapCount := run.gap, gap := decide (run.gap ≠ 0),
          degraded := fr.tb.stampDegraded x.edge }) 1 (with_ { run with gap := 0 })))) :=
  ⟨fun hover => (congrArg P (giveOutcome_runOver hover)).mp h, fun _ hrun hc =>
    ⟨fun ht => (congrArg P (giveOutcome_deferred hrun hc ht)).mp h,
      fun ht => (congrArg P (giveOutcome_result hrun ht)).mp h⟩⟩

/-- A list of what each element may give is that of what each gives, none or one. -/
theorem filterMap_eq_flatMap {α β : Type} {g : α → Option β} {f : α → List β} (h : ∀ a, (g a).toList = f a) (l : List α) :
    l.filterMap g = l.flatMap f := by
  induction l with
  | nil => rfl
  | cons a l ih =>
    rw [List.filterMap_cons, List.flatMap_cons, ← h, ← ih]
    cases g a <;> rfl

/-- What an entry gives its task is the outcome and the delay it is asked for. -/
theorem eq_of_mem_outcome {m : OutEntry} {o : Outcome5} {delay : BitVec 24} {p : TaskId × Deferred}
    (h : p ∈ m.outcome o delay) : p.2 = ⟨p.2.edge, o, delay⟩ := by
  unfold OutEntry.outcome at h
  split at h
  · rw [List.mem_singleton.1 h]
  · exact absurd h List.not_mem_nil

end

/-! ## Which entries may be sent, and which are stale (R116, R123) -/

/-- ANNOUNCE and HALT are the entries that are not ordinary. -/
theorem ordinary_eq_false {m : OutEntry} : m.ordinary = false ↔ m.kind = .halt ∨ m.kind = .announce := by
  unfold OutEntry.ordinary; cases m.kind <;> decide

theorem ordinary_eq_true {m : OutEntry} : m.ordinary = true ↔ m.kind ≠ .halt ∧ m.kind ≠ .announce := by
  unfold OutEntry.ordinary; cases m.kind <;> decide

/-- The state lets the head be sent (R116, R123). -/
theorem mayAttempt_iff {c : Control} {m : OutEntry} :
    c.mayAttempt m = true ↔ c.state = .joining ∨ c.state = .live ∨ (c.state = .halted ∧ m.kind = .halt) := by
  unfold Control.mayAttempt; cases c.state <;> simp

/-- An ordinary entry of an age of 2^24 TU is stale (R123). -/
theorem stale_iff {now : Stamp} {m : OutEntry} :
    m.stale now = true ↔ m.kind ≠ .halt ∧ m.kind ≠ .announce ∧
      ∃ o, m.origin = some o ∧ (o.longPast = true ∨ 2 ^ 24 ≤ since now o.stamp) := by
  unfold OutEntry.stale staleAge
  rw [Bool.and_eq_true, ordinary_eq_true, Option.any_eq_true, and_assoc]
  simp only [Bool.or_eq_true, decide_eq_true_eq]

/-- An ANNOUNCE or a HALT is never stale (R123). -/
theorem not_stale_of_control {now : Stamp} {m : OutEntry} (h : m.kind = .halt ∨ m.kind = .announce) : m.stale now = false := by
  unfold OutEntry.stale; rw [ordinary_eq_false.2 h]; rfl

/-- The line has been idle and quiet for 4 LU (R111). -/
def LineQuiet (d : Station) : Prop :=
  d.rx.state = .idle ∧ d.rx.lowSince = none ∧
    ∃ q, d.rx.quietSince = some q ∧ (q.longPast = true ∨ reached d.now (plus q.stamp (4 * d.lu)) = true)

/-- The conditions of an attempt (R111). -/
theorem mayBegin_iff {d : Station} :
    d.mayBegin = true ↔ (∃ m rest, d.eng.tx.queue = m :: rest ∧ d.eng.ctl.mayAttempt m = true) ∧
      d.eng.tx.mute = false ∧ d.eng.tx.attempt = none ∧ LineQuiet d := by
  have hhead : d.eng.tx.queue.head?.any d.eng.ctl.mayAttempt = true ↔
      ∃ m rest, d.eng.tx.queue = m :: rest ∧ d.eng.ctl.mayAttempt m = true := by
    cases d.eng.tx.queue <;> simp
  have hquiet : d.rx.quietSince.any (fun q => q.reachedAfter d.now (d.units 4)) = true ↔
      ∃ q, d.rx.quietSince = some q ∧ (q.longPast = true ∨ reached d.now (plus q.stamp (4 * d.lu)) = true) := by
    simp only [Option.any_eq_true, Kept.reachedAfter, Station.units, Bool.or_eq_true]
  unfold Station.mayBegin LineQuiet
  simp only [Bool.and_eq_true, hhead, hquiet, Bool.not_eq_true', Option.isNone_iff_eq_none, beq_iff_eq, and_assoc]

/-! ## Stale heads leave (R123) -/

/-- Stale heads counted, MARKER_LOSS latched, with the queue they leave (R123, R134, R136). -/
def staleCounted (n : Nat) (rest : List OutEntry) (e : Engine) : Engine :=
  { e with
    ctl := { e.ctl with counters := { e.ctl.counters with stale := bumpBy n e.ctl.counters.stale },
                        latched := { e.ctl.latched with markerLoss := true } },
    tx := { e.tx with queue := rest } }

/-- Where the head is not stale, nothing leaves. -/
theorem dropStale_none {fr : Front} {m : OutEntry} {rest : List OutEntry} {e : Engine} (hq : e.tx.queue = m :: rest)
    (hm : m.stale fr.now = false) : e.dropStale fr = e := by
  unfold Engine.dropStale Engine.modOutgoing
  simp only [hq, List.takeWhile_cons_of_neg (Bool.eq_false_iff.1 hm), List.dropWhile_cons_of_neg (Bool.eq_false_iff.1 hm),
    List.length_nil, if_true]
  rw [← hq]

/-- Stale heads leave, counted together, and their outcomes reach their tasks (R87, R123, R152). -/
theorem dropStale_some {fr : Front} {old : OutEntry} {olds rest : List OutEntry} {e : Engine}
    (hq : e.tx.queue = old :: olds ++ rest) (hold : ∀ m ∈ old :: olds, m.stale fr.now = true)
    (hrest : ∀ m more, rest = m :: more → m.stale fr.now = false) :
    e.dropStale fr = (staleCounted (olds.length + 1) rest e).giveOutcomes fr
      ((old :: olds).flatMap (fun m => m.outcome .stale 0)) := by
  have htake : e.tx.queue.takeWhile (OutEntry.stale fr.now) = old :: olds := by
    rw [hq, List.takeWhile_append_of_pos hold]
    cases rest with
    | nil => simp
    | cons m more => simp [hrest m more rfl]
  have hdrop : e.tx.queue.dropWhile (OutEntry.stale fr.now) = rest := by
    rw [hq, List.dropWhile_append_of_pos hold]
    cases rest with
    | nil => rfl
    | cons m more => exact List.dropWhile_cons_of_neg (Bool.eq_false_iff.1 (hrest m more rfl))
  unfold Engine.dropStale Engine.modOutgoing
  simp only [htake, hdrop, List.length_cons, Nat.add_one_ne_zero, if_false]
  rfl

/-! ## The attempt begins (R103, R111, R124) -/

/-- ANNOUNCE and HALT carry their payload (R118). -/
theorem word_control {m : OutEntry} (source : StationNo) (attention : Stamp) (h : m.kind = .halt ∨ m.kind = .announce) :
    m.word source attention = markerWord m.kind source m.tag m.payload := by
  unfold OutEntry.word; rw [ordinary_eq_false.2 h]; rfl

/-- Any other carries the delay from its origin (R124). -/
theorem word_ordinary {m : OutEntry} (source : StationNo) (attention : Stamp) (h : m.kind ≠ .halt ∧ m.kind ≠ .announce) :
    m.word source attention = markerWord m.kind source m.tag (delayTo attention m.origin) := by
  unfold OutEntry.word; rw [ordinary_eq_true.2 h]; rfl

section

variable {lead dt : Nat} {s : State} {d : Station} {e : Engine}

theorem exec_attemptStart (h : s.dev.held = false) :
    exec (.attemptStart dt lead) s = goesTo s ((atTime dt s).attemptStart lead) := running_goesTo dt _ h

/-- Without its conditions there is no attempt (R111, log 3). -/
theorem attemptStart_idle (h : ¬d.mayBegin = true) : d.attemptStart lead = d := by
  unfold Station.attemptStart; simp [h]

/-- What stands at the head once the stale heads have left decides (R123). -/
theorem attemptStart_head (h : d.mayBegin = true) (he : d.eng.dropStale d.front = e) :
    (e.tx.queue = [] → d.attemptStart lead = { d with eng := e }) ∧
    (∀ m rest, e.tx.queue = m :: rest →
      (¬e.ctl.mayAttempt m = true → d.attemptStart lead = { d with eng := e }) ∧
      (e.ctl.mayAttempt m = true → d.attemptStart lead =
        Station.begin (d.now - BitVec.ofNat 48 lead) m rest { d with eng := e })) := by
  subst he
  unfold Station.attemptStart
  simp only [h, Bool.not_true, Bool.false_eq_true, if_false]
  refine ⟨fun hq => ?_, fun m rest hq => ⟨fun hm => ?_, fun hm => ?_⟩⟩
  · rw [Station.modEng_eng, hq]; rfl
  · rw [Station.modEng_eng, hq]; exact if_neg hm
  · rw [Station.modEng_eng, hq]; exact if_pos hm

end

/-- Settles O53: the conditions of the attempt, then what the stale heads leave at the head. -/
theorem attemptStartBeginsAttention : Obligations.AttemptStartBeginsAttention := by
  refine ⟨fun s dt lead hheld => ?_, fun s dt lead old olds rest hheld => ?_⟩
  · intro d r c attention quiet maySend stale begins
    have hbegins : ∀ (m : OutEntry) (rest : List OutEntry) (c' : Control) (payload : BitVec 24), d.mayBegin = true →
        d.eng.dropStale d.front = { d.eng with ctl := c', tx := { d.eng.tx with queue := m :: rest } } →
        c'.mayAttempt m = true → m.word c'.stationNo attention = markerWord m.kind c'.stationNo m.tag payload →
        begins m rest c' payload := fun m rest c' payload hb he hm hw => by
      show exec (.attemptStart dt lead) s = _
      rw [exec_attemptStart hheld, ((attemptStart_head hb he).2 m rest rfl).2 hm]
      unfold Station.begin
      rw [← hw]
      rfl
    refine ⟨fun hidle => ?_, fun m rest hmute hatt hquiet hq hmay hns => ?_,
      fun old m rest hmute hatt hquiet hq hmay hold htask hkind hm => ?_⟩
    · rw [exec_attemptStart hheld, attemptStart_idle fun hb => ?_]
      obtain ⟨⟨m, rest, hq, hm⟩, hmute, hatt, hquiet⟩ := mayBegin_iff.1 hb
      rcases hidle with h | ⟨m', rest', hq', hm'⟩ | h | h | h
      · exact absurd (hq.symm.trans h) (List.cons_ne_nil _ _)
      · obtain ⟨rfl, -⟩ := List.cons.inj (hq.symm.trans hq')
        exact hm' (mayAttempt_iff.1 hm)
      · exact Bool.false_ne_true (hmute.symm.trans h)
      · exact h hatt
      · exact h hquiet
    · have hm : c.mayAttempt m = true := mayAttempt_iff.2 hmay
      have hb : d.mayBegin = true := mayBegin_iff.2 ⟨⟨m, rest, hq, hm⟩, hmute, hatt, hquiet⟩
      have hdrop : d.eng.dropStale d.front = { d.eng with ctl := c, tx := { d.eng.tx with queue := m :: rest } } := by
        rw [dropStale_none hq (Bool.eq_false_iff.2 (mt stale_iff.1 hns)), ← hq]
      refine ⟨fun hkind => hbegins m rest c _ hb hdrop hm (word_control _ _ hkind), fun o hk1 hk2 ho => ?_⟩
      exact hbegins m rest c _ hb hdrop hm ((word_ordinary _ _ ⟨hk1, hk2⟩).trans (by rw [ho]; rfl))
    · have hb : d.mayBegin = true := mayBegin_iff.2 ⟨⟨old, m :: rest, hq, mayAttempt_iff.2 hmay⟩, hmute, hatt, hquiet⟩
      have hdrop : d.eng.dropStale d.front = staleCounted 1 (m :: rest) d.eng := by
        rw [dropStale_some (old := old) (olds := []) hq
          (fun x hx => by rw [List.mem_singleton.1 hx]; exact stale_iff.2 hold)
          (fun x more hx => by rw [← (List.cons.inj hx).1]; exact not_stale_of_control hkind),
          List.flatMap_singleton, outcome_of_none htask, Engine.giveOutcomes_nil]
        rfl
      exact hbegins m rest _ _ hb hdrop (mayAttempt_iff.2 hm) (word_control _ _ hkind)
  · intro d r c attention quiet maySend stale payload goes continues outcomes counted hmute hatt hquiet hq hmay holds hrest
    have hword : ∀ (n : StationNo) (m : OutEntry), m.word n attention = markerWord m.kind n m.tag (payload m) := fun n m => by
      by_cases hkind : m.kind = .halt ∨ m.kind = .announce
      · rw [word_control n attention hkind]
        cases ho : m.origin <;> simp only [payload, ho, if_pos hkind]
      · rw [word_ordinary n attention (not_or.1 hkind)]
        cases ho : m.origin <;> simp only [payload, ho, if_neg hkind, delayTo]
    have hb : d.mayBegin = true :=
      mayBegin_iff.2 ⟨⟨old, olds ++ rest, hq, mayAttempt_iff.2 hmay⟩, hmute, hatt, hquiet⟩
    have hcontinues : ∀ e, d.eng.dropStale d.front = e → continues e := fun e he => by
      obtain ⟨hempty, hhead⟩ := attemptStart_head (lead := lead) hb he
      have hexec : ∀ d', d.attemptStart lead = d' → goes d' := fun d' hd' => hd' ▸ exec_attemptStart hheld
      refine ⟨fun hnil => hexec _ (hempty hnil), fun m more hcons => ⟨fun hm => ?_, fun hm => ?_⟩⟩
      · exact hexec _ ((hhead m more hcons).1 (mt mayAttempt_iff.1 hm))
      · refine hexec _ (((hhead m more hcons).2 (mayAttempt_iff.2 hm)).trans ?_)
        unfold Station.begin
        rw [hword]
        rfl
    have houtcomes : outcomes = (old :: olds).flatMap (fun m => m.outcome .stale 0) := by
      refine filterMap_eq_flatMap (fun m => ?_) (old :: olds)
      unfold OutEntry.outcome
      cases m.originTask <;> cases m.origin <;> rfl
    have hdrop : d.eng.dropStale d.front = counted.giveOutcomes d.front outcomes := by
      rw [houtcomes]
      exact dropStale_some hq (fun m hm => stale_iff.2 (holds m hm)) fun m more hm =>
        Bool.eq_false_iff.2 (mt stale_iff.1 (hrest m more hm))
    refine ⟨fun hnone => hcontinues _ (by rw [hdrop, hnone, Engine.giveOutcomes_nil]),
      fun t x hone => ?_, hcontinues _ hdrop⟩
    have hgive := hcontinues _ (hdrop.trans (by rw [hone, giveOutcomes_one]))
    have hmem : (t, x) ∈ (old :: olds).flatMap (fun m => m.outcome .stale 0) := by
      rw [← houtcomes, hone]; exact List.mem_singleton_self _
    obtain ⟨m, -, hm⟩ := List.mem_flatMap.1 hmem
    obtain ⟨edge, outcome, delay⟩ := x
    cases eq_of_mem_outcome hm
    exact giveOutcome_leads hgive

end Sys2Proof.Safety
end

