-- ==== Sys2Proof/Proofs/FrameEnds.lean ====
section
/-!
PROOFS. The end of a frame: the receiver's return to idle, the cut of an attempt not wholly sent, and the completion of one
that was, by the kind of its entry (R87, R107, R113, R125, R140, R144, R145, R147, R149, R161, R163, R164).
-/

namespace Sys2Proof.Safety

open Sys2Proof.Machine

/-! ## The receiver leaves its frame (R107) -/

/-- 131 LU have passed since the attention stamp of the receiver's frame (R107). -/
def FrameOver (d : Station) : Prop :=
  d.rx.state = .frame ∧ d.rx.attention.any (fun t => reached d.now (plus t (131 * d.lu))) = true

section

variable {d : Station} {e : Engine} {fr : Front}

theorem receiverFrameEnd_stays (h : ¬FrameOver d) : d.receiverFrameEnd = d := by
  unfold Station.receiverFrameEnd
  split
  · rename_i t hs ht
    refine if_neg fun hpassed => h ⟨hs, ?_⟩
    rw [ht]; exact hpassed
  · rfl

theorem receiverFrameEnd_leaves (h : FrameOver d) :
    d.receiverFrameEnd =
      { d with rx := d.rx.toIdle d.now d.lu, eng := d.eng.attemptCut d.front } := by
  obtain ⟨hs, ha⟩ := h
  obtain ⟨t, ht, hpassed⟩ := (Option.any_eq_true _ _).1 ha
  unfold Station.receiverFrameEnd
  rw [hs, ht]
  exact if_pos hpassed

/-- A frame that ends leaves the line quiet from now, or low until the next rise (R107; logs 17, 40, 42). -/
theorem toIdle_eq (now : Stamp) (lu : Nat) (r : Receiver) :
    r.toIdle now lu =
      { state := .idle, lowSince := r.lowSince, quietSince := if r.lowSince = none then some ⟨now, false⟩ else none,
        attention := none, cellPos := .bit 0, bits := [], ownPart := .none, answer := .none, episodeStart := r.episodeStart,
        episodeReported := r.episodeReported, openCell := none, waitFrom := none, judged := false,
        holdFrom := if r.holdFrom.any (fun t => decide (since now t < 2 * lu)) then r.holdFrom else none,
        lowFromFrame := decide (r.lowSince ≠ none) } := by
  unfold Receiver.toIdle Receiver.frameGone Receiver.holds
  cases r.lowSince <;> rfl

/-! ## The cut of an attempt (R113, R125) -/

/-- An attempt wholly sent, or none, is not cut. -/
theorem attemptCut_none (h : ∀ a, e.tx.attempt = some a → a.allSampled = true) : e.attemptCut fr = e := by
  unfold Engine.attemptCut
  split
  · rename_i a ha; rw [h a ha, if_pos rfl]
  · rfl

/-- Any other is: its entry stays in the queue, not in transmission. -/
theorem attemptCut_some {a : Attempt} (ha : e.tx.attempt = some a) (hs : a.allSampled = false) (ho : e.ctl.haltOwed = none)
    (hr : ∀ m ∈ e.tx.queue, m.removeAtEnd = false) :
    e.attemptCut fr = { e with tx := { e.tx with
      attempt := none, queue := e.tx.queue.map (fun m => { m with inTransmission := false }) } } := by
  have hgone : e.tx.queue.filter (fun m => m.inTransmission && m.removeAtEnd) = [] :=
    List.filter_eq_nil_iff.2 fun m hm => by simp [hr m hm]
  have hstay : e.tx.queue.filter (fun m => !(m.inTransmission && m.removeAtEnd)) = e.tx.queue :=
    List.filter_eq_self.2 fun m hm => by simp [hr m hm]
  unfold Engine.attemptCut Engine.endAttempt
  simp only [ha, hs, hgone, hstay, List.length_nil, List.flatMap_nil, Engine.giveOutcomes_nil, Engine.countDropped, if_true,
    Bool.false_eq_true, if_false]
  unfold Engine.reofferHalt
  rw [ho]

end

/-! ## The completion of an attempt (R113, R125) -/

/-- The outcome by the response cells (R113). -/
theorem attempt_outcome_eq (a : Attempt) :
    a.outcome = if a.refusedLow = some true then .refused else if a.takenLow = some true then .taken else .unheard := by
  unfold Attempt.outcome
  rcases a.refusedLow with _ | _ | _ <;> rcases a.takenLow with _ | _ | _ <;> rfl

/-- Station control once a frame with an outcome is counted (R125, R134, R136). -/
def countedCtl (o : Outcome5) (c : Control) : Control :=
  { c with
    counters := { c.counters with
      sent := bumpBy 1 c.counters.sent,
      ownRefused := if o = .refused then bumpBy 1 c.counters.ownRefused else c.counters.ownRefused,
      ownUnheard := if o = .unheard then bumpBy 1 c.counters.ownUnheard else c.counters.ownUnheard },
    latched := { c.latched with markerLoss := c.latched.markerLoss || decide (o = .refused) } }

theorem countCompleted_eq (o : Outcome5) (e : Engine) : e.countCompleted o = { e with ctl := countedCtl o e.ctl } := by
  unfold Engine.countCompleted countedCtl
  cases o <;> simp [Engine.count, Engine.latchMarkerLoss, Engine.modCtl]

/-- The engine once the sent entry has left the queue and its frame is counted (R125). -/
def completed (o : Outcome5) (e : Engine) : Engine :=
  { e with ctl := countedCtl o e.ctl,
           tx := { e.tx with queue := e.tx.queue.filter (fun x => !x.inTransmission), attempt := none } }

section

variable {d : Station} {pins : ReleasePins} {a : Attempt} {m : OutEntry}

theorem completeAttempt_eq (hm : d.eng.tx.queue.find? OutEntry.inTransmission = some m) :
    d.completeAttempt pins a = Station.handCompletion pins m a { d with eng := completed a.outcome d.eng } := by
  unfold Station.completeAttempt
  rw [hm]
  simp only [Station.modEng, countCompleted_eq]
  rfl

/-- FRAME_END: after the receiver's side, an attempt wholly sent completes at its moment (R107, R113). -/
theorem frameEnd_eq {d' : Station} (hd : d.receiverFrameEnd = d') :
    (d'.eng.tx.attempt = none → d.frameEnd pins = d') ∧
    (∀ a, d'.eng.tx.attempt = some a →
      let ends := a.allSampled = true ∧ reached d'.now (plus a.attention (131 * d'.lu)) = true
      (¬ends → d.frameEnd pins = d') ∧ (ends → d.frameEnd pins = d'.completeAttempt pins a)) := by
  unfold Station.frameEnd
  rw [hd]
  dsimp only
  refine ⟨fun hnone => by rw [hnone], fun a ha => ⟨fun hends => ?_, fun hends => ?_⟩⟩
  · rw [ha]
    exact if_neg (mt Bool.and_eq_true_iff.1 hends)
  · rw [ha]
    exact if_pos (Bool.and_eq_true_iff.2 hends)

/-! ## What a completion does, by the kind of the entry (R125, R149) -/

theorem handCompletion_edge (h : m.kind = .edge) :
    d.handCompletion pins m a =
      { d with eng := d.eng.giveOutcomes d.front (m.outcome a.outcome (wordPayload a.word)) } := by
  unfold Station.handCompletion; rw [h]; rfl

theorem handCompletion_announce (h : m.kind = .announce) :
    d.handCompletion pins m a = { d with eng := d.eng.announceSent a.attention } := by
  unfold Station.handCompletion; rw [h]; rfl

/-- A waiting reset takes effect, whatever the HALT frame left (R164, R165). -/
theorem handCompletion_halt_resets (h : m.kind = .halt) (hd : d.eng.ctl.departure = .reset) :
    d.handCompletion pins m a = Station.released pins (d.front.chans.map Channel.pinLevel) d.port.csLow := by
  unfold Station.handCompletion
  rw [h, hd]; rfl

theorem handCompletion_halt (h : m.kind = .halt) (hd : d.eng.ctl.departure ≠ .reset) :
    d.handCompletion pins m a = { d with eng := d.eng.haltSentNow d.front (wordReason a.word) } := by
  unfold Station.handCompletion
  rw [h]
  exact if_neg (mt beq_iff_eq.1 hd)

theorem handCompletion_gateOpen {o : Kept} (h : m.kind = .gateOpen) (ho : m.origin = some o) :
    d.handCompletion pins m a = d.gateOpens m.tag o.stamp d.eng.ctl.stationNo false := by
  unfold Station.handCompletion; rw [h, ho]; rfl

theorem handCompletion_gateClose {o : Kept} (h : m.kind = .gateClose) (ho : m.origin = some o) :
    d.handCompletion pins m a = d.gateCloses m.tag o.stamp d.eng.ctl.stationNo false := by
  unfold Station.handCompletion; rw [h, ho]; rfl

end

/-- The own HALT frame drops the rest of the queue, ends the debt and a retirement (R125, R140, R162, R163). -/
theorem haltSentNow_eq {fr : Front} {e : Engine} (r : HaltReason) (hq : ∀ x ∈ e.tx.queue, x.inTransmission = false)
    (ht : ∀ x ∈ e.tx.queue, x.originTask = none) (hd : e.ctl.departure ≠ .reset) :
    e.haltSentNow fr r = { e with
      ctl := { e.ctl with
        counters := { e.ctl.counters with
          dropped := if e.tx.queue = [] then e.ctl.counters.dropped else bumpBy e.tx.queue.length e.ctl.counters.dropped },
        latched := { e.ctl.latched with markerLoss := e.ctl.latched.markerLoss || decide (e.tx.queue ≠ []) },
        haltOwed := none, state := if e.ctl.departure = .retire then .halted else e.ctl.state, departure := .none },
      tx := { e.tx with queue := [], haltSent := true },
      peers := e.peers.set e.ctl.stationNo
        { e.peers.get e.ctl.stationNo with state := .halted, haltReason := some r } } := by
  have hgone : e.tx.queue.filter (fun m => !m.inTransmission) = e.tx.queue :=
    List.filter_eq_self.2 fun x hx => by rw [hq x hx]; rfl
  have hleft : e.tx.queue.filter OutEntry.inTransmission = [] :=
    List.filter_eq_nil_iff.2 fun x hx => Bool.eq_false_iff.1 (hq x hx)
  have hout : e.tx.queue.flatMap (fun m => m.outcome .dropped 0) = [] :=
    List.flatMap_eq_nil_iff.2 fun x hx => outcome_of_none (ht x hx)
  have hdrop : ({ e with tx := { e.tx with haltSent := true } } : Engine).dropAll fr =
      { e with
        ctl := { e.ctl with
          counters := { e.ctl.counters with
            dropped := if e.tx.queue = [] then e.ctl.counters.dropped
                       else bumpBy e.tx.queue.length e.ctl.counters.dropped },
          latched := { e.ctl.latched with markerLoss := e.ctl.latched.markerLoss || decide (e.tx.queue ≠ []) } },
        tx := { e.tx with queue := [], haltSent := true } } := by
    unfold Engine.dropAll Engine.modOutgoing Engine.countDropped
    simp only [hgone, hleft, hout, Engine.giveOutcomes_nil, List.length_eq_zero_iff]
    by_cases hnil : e.tx.queue = []
    · simp [hnil]
    · simp [hnil, Engine.count, Engine.latchMarkerLoss, Engine.modCtl]
  unfold Engine.haltSentNow
  simp only [hdrop, Engine.modCtl_ctl, Engine.ownHalted_ctl]
  cases hdep : e.ctl.departure with
  | reset => exact absurd hdep hd
  | retire => rfl
  | none => simp [Engine.ownHalted, Engine.modCtl]

/-! ## The gate table takes the own markers (R144, R145, R147) -/

section

variable {g : Gate} {w : Kept} {time : Stamp} {source : StationNo}

/-- A close is early when its time comes before an open time that is not long past (R145). -/
theorem closesEarly_eq (hw : g.openTime = some w) : g.closesEarly time = (!w.longPast && later w.stamp time) := by
  obtain ⟨stamp, longPast⟩ := w
  unfold Gate.closesEarly Kept.laterThan
  rw [hw]
  cases longPast <;> rfl

/-- A gate closes at the time of the marker, or at its open time where that is later (R145). -/
theorem closes_placed (hw : g.openTime = some w) :
    let early := !w.longPast && later w.stamp time
    g.closes time source false =
      { g with state := .closed, closeTime := some (if early then w.stamp else time), closer := some source,
               negative := g.negative || early } := by
  unfold Gate.closes
  rw [closesEarly_eq hw, hw, Bool.or_false]; rfl

/-- A CLOSED gate opens (R144, R147). -/
theorem applyOpen_closed (hg : g.state = .closed) :
    g.applyOpen time source false =
      ({ state := .opened, openTime := some ⟨time, false⟩, opener := some source, closeTime := none, closer := none,
         generation := g.generation + 1, unplaced := false, orphaned := false, reopened := false, negative := false },
       [.opened (g.generation + 1) ⟨time, false⟩ false]) := by
  unfold Gate.applyOpen; rw [hg]; rfl

/-- An OPEN gate closes by the reopening and opens again (R144, R147). -/
theorem applyOpen_opened (hg : g.state = .opened) (hw : g.openTime = some w) :
    let early := !w.longPast && later w.stamp time
    g.applyOpen time source false =
      ({ state := .opened, openTime := some ⟨time, false⟩, opener := some source, closeTime := none, closer := none,
         generation := g.generation + 1, unplaced := false, orphaned := false, reopened := true, negative := false },
       [.closed g.generation w ⟨if early then w.stamp else time, false⟩ g.unplaced g.orphaned true (g.negative || early),
        .opened (g.generation + 1) ⟨time, false⟩ false]) := by
  unfold Gate.applyOpen Gate.closesByReopen
  rw [hg, closes_placed hw]
  simp only [Gate.closeNotice, hw]
  rfl

variable {d : Station} {gate : BitVec 4}

/-- The table and the tasks once a gate has moved (R93, R147). -/
def gateMoved (gate : BitVec 4) (g : Gate) (ns : List Notice) (d : Station) : Station :=
  { d with gates := d.gates.set gate g,
           eng := (d.eng.notify d.front (ns.map (fun n => (gate, n)))).arbitrate d.now }

theorem gateOpens_eq {ns : List Notice} (h : (d.gates.get gate).applyOpen time source false = (g, ns)) :
    d.gateOpens gate time source false = gateMoved gate g ns d := by
  unfold Station.gateOpens; rw [h]; rfl

/-- A close of a CLOSED gate is a stray close (R145). -/
theorem gateCloses_stray (hg : (d.gates.get gate).state = .closed) :
    d.gateCloses gate time source false =
      { d with eng := d.eng.count (fun c => { c with strayCloses := bumpBy 1 c.strayCloses }) } := by
  unfold Station.gateCloses; rw [hg]

/-- A close of an OPEN gate (R145, R147). -/
theorem gateCloses_opened (hg : (d.gates.get gate).state = .opened) (hw : (d.gates.get gate).openTime = some w) :
    let g := d.gates.get gate
    let early := !w.longPast && later w.stamp time
    let at_ := if early then w.stamp else time
    d.gateCloses gate time source false =
      gateMoved gate
        { g with state := .closed, closeTime := some at_, closer := some source, negative := g.negative || early }
        [.closed g.generation w ⟨at_, false⟩ g.unplaced g.orphaned g.reopened (g.negative || early)] d := by
  unfold Station.gateCloses
  rw [hg, closes_placed hw]
  simp only [Gate.closeNotice, hw]
  rfl

end

/-- Settles O52: the receiver's side, the cut, and the completion by the kind of the entry. -/
theorem frameEndCompletesTheAttempt : Obligations.FrameEndCompletesTheAttempt := by
  intro s dt pins hheld d r c due hold idle leaves q goes
  have hexec : ∀ d', d.frameEnd pins = d' → goes d' := fun d' hd => hd ▸ running_goesTo dt _ hheld
  have hidle : Receiver.toIdle d.now d.lu r = idle := toIdle_eq d.now d.lu r
  have hstays : ¬leaves → q = d := fun hl => by
    show withRx d (if leaves then idle else r) = d
    rw [if_neg hl]; rfl
  have hleaves : leaves → q = withRx d idle := fun hl => by
    show withRx d (if leaves then idle else r) = _
    rw [if_pos hl]
  have huncut : (∀ a, d.eng.tx.attempt = some a → a.allSampled = true) → d.receiverFrameEnd = q := fun hall => by
    by_cases hl : leaves
    · rw [receiverFrameEnd_leaves hl, attemptCut_none hall, hidle, hleaves hl]; rfl
    · rw [receiverFrameEnd_stays hl, hstays hl]
  have hwhole : ∀ a, d.eng.tx.attempt = some a → a.allSampled = true → d.receiverFrameEnd = q := fun a ha hall =>
    huncut fun a' ha' => Option.some.inj (ha.symm.trans ha') ▸ hall
  refine ⟨fun hnone => ?_, fun a ha hcut => ⟨fun hl => ?_, fun hl howed hkept => ?_⟩, fun a ha hall hdue => ?_,
    fun a m ha hall hdue hm => ?_⟩
  · exact hexec _ ((frameEnd_eq (huncut fun a ha => nomatch hnone.symm.trans ha)).1 hnone)
  · exact hexec _ (((frameEnd_eq (receiverFrameEnd_stays hl)).2 a ha).1 fun hends => by simp [hcut] at hends)
  · have hrx := receiverFrameEnd_leaves hl
    rw [attemptCut_some ha hcut howed hkept, hidle] at hrx
    refine hexec _ (((frameEnd_eq hrx).1 rfl).trans ?_)
    rw [hleaves hl]; rfl
  · exact hexec _ (((frameEnd_eq (hwhole a ha hall)).2 a ha).1 fun hends => Bool.false_ne_true (hdue.symm.trans hends.2))
  intro o counted left tx e leads own
  have ho : a.outcome = o := attempt_outcome_eq a
  have hdone : d.frameEnd pins = Station.handCompletion pins m a { q with eng := e } := by
    rw [((frameEnd_eq (hwhole a ha hall)).2 a ha).2 ⟨hall, hdue⟩, completeAttempt_eq (d := q) hm, ho]
    rfl
  have hleads : ∀ e', Station.handCompletion pins m a { q with eng := e } = { q with eng := e' } → leads e' := fun e' he =>
    hexec _ (hdone.trans he)
  refine ⟨fun hk ht => ?_, fun t origin hk ht horigin => ?_, fun hk => ?_, fun hk hdep => ?_, fun hk hdep hleft => ?_,
    fun origin hk horigin => ?_⟩
  · refine hleads _ ((handCompletion_edge hk).trans ?_)
    rw [outcome_of_none ht, Engine.giveOutcomes_nil]
  · refine giveOutcome_leads (e := e) (P := leads) (fr := d.front) (t := t) (x := ⟨origin, o, wordPayload a.word⟩)
      (hleads _ ((handCompletion_edge hk).trans ?_))
    rw [outcome_of_some ht horigin, giveOutcomes_one, ho]
    rfl
  · exact hleads _ (handCompletion_announce hk)
  · exact hexec _ (hdone.trans (handCompletion_halt_resets hk hdep))
  · have hsent := haltSentNow_eq (fr := d.front) (e := e) (wordReason a.word)
      (fun x hx => by simpa using (List.mem_filter.1 hx).2) hleft hdep
    refine hleads _ ((handCompletion_halt (d := { q with eng := e }) hk hdep).trans ?_)
    exact congrArg (fun e' => { q with eng := e' }) hsent
  · intro g reopens opened openNotice notified
    have hopens : ∀ g' ns, m.kind = .gateOpen → g.applyOpen origin.stamp c.stationNo false = (g', ns) → notified g' ns :=
      fun g' ns hko happly =>
        hexec _ (hdone.trans ((handCompletion_gateOpen hko horigin).trans (gateOpens_eq (d := { q with eng := e }) happly)))
    refine ⟨fun hko hg => ?_, fun hkc hg => ?_, fun w hg hw => ?_⟩
    · refine hopens _ _ hko ((applyOpen_closed hg).trans ?_)
      simp only [opened, openNotice, reopens, hg]
      rfl
    · exact hleads _ ((handCompletion_gateClose hkc horigin).trans (gateCloses_stray hg))
    · intro early time closeNotice
      refine ⟨fun hkc => ?_, fun hko => ?_⟩
      · exact hexec _ (hdone.trans ((handCompletion_gateClose hkc horigin).trans
          (gateCloses_opened (d := { q with eng := e }) hg hw)))
      · refine hopens _ _ hko ((applyOpen_opened hg hw).trans ?_)
        simp only [opened, openNotice, reopens, hg]
        rfl

end Sys2Proof.Safety
end

