-- ==== Sys2Proof/Proofs/ArithmeticAnswers.lean ====
section
/-!
PROOFS. The answers of the arithmetic unit: frequency, smoothing and phase (R96, R97, R98, R99).
-/

namespace Sys2Proof.Safety

open Sys2Proof.Machine

/-! ## Quotients -/

theorem quotient_pos {b : Nat} (a : Nat) (h : 0 < b) : quotient a b = a / b := if_neg (Nat.ne_of_gt h)

/-- A quotient rounded by half its divisor is the nearest one, an exact half up. -/
theorem nearest_div (a : Nat) {b : Nat} (h : 0 < b) :
    2 * ((a + b / 2) / b) * b ≤ 2 * a + b ∧ 2 * a < 2 * ((a + b / 2) / b) * b + b := by
  have hle := Nat.div_mul_le_self (a + b / 2) b
  have hlt := Nat.lt_div_mul_add (a := a + b / 2) h
  rw [Nat.mul_assoc]
  omega

/-! ## The frequency (R96, R97) -/

section

variable {edges span : Nat}

theorem rawFrequency_eq (h : 0 < span) : rawFrequency edges span = (edges * 8000000000000 + span / 2) / span :=
  quotient_pos _ h

/-- The greatest frequency is exceeded from 2^40 − 1/2 mHz on (R97). -/
theorem saturates_iff (h : 0 < span) :
    saturates edges span = true ↔ 2 ^ 40 * (2 * span) ≤ 2 * edges * 8000000000000 + span := by
  have hraw : 2 ^ 40 ≤ rawFrequency edges span ↔ 2 ^ 40 * span ≤ edges * 8000000000000 + span / 2 := by
    rw [rawFrequency_eq h, Nat.le_div_iff_mul_le h]
  rw [saturates, decide_eq_true_iff, maxFrequency]
  omega

theorem frequencyOf_saturated (h : saturates edges span = true) : frequencyOf edges span = 2 ^ 40 - 1 :=
  Nat.min_eq_right (Nat.le_of_lt (of_decide_eq_true h))

theorem frequencyOf_unsaturated (h : saturates edges span = false) :
    frequencyOf edges span = rawFrequency edges span ∧ rawFrequency edges span < 2 ^ 40 := by
  have hle : rawFrequency edges span ≤ maxFrequency := Nat.le_of_not_lt (of_decide_eq_false h)
  exact ⟨Nat.min_eq_left hle, Nat.lt_succ_of_le hle⟩

end

/-! ## Smoothing (R98) -/

/-- A quotient rounded toward minus infinity lies between 0 and its dividend. -/
theorem ediv_between (a : Int) {m : Int} (hm : 0 < m) : min 0 a ≤ a / m ∧ a / m ≤ max 0 a := by
  rcases Int.lt_or_le a 0 with ha | ha
  · have hdividend : a * m ≤ a * 1 := Int.mul_le_mul_of_nonpos_left (Int.le_of_lt ha) hm
    have hlow : a ≤ a / m := Int.le_ediv_of_mul_le hm (by omega)
    have hhigh : a / m < 0 := Int.ediv_neg_of_neg_of_pos ha hm
    omega
  · have hlow : 0 ≤ a / m := Int.ediv_nonneg ha (Int.le_of_lt hm)
    have hhigh : a / m ≤ a := Int.ediv_le_self m ha
    omega

theorem two_pow_pos (shift : Nat) : (0 : Int) < 2 ^ shift := Int.pow_pos (by decide)

/-- A smoothing step moves the state by the quotient, which never takes it below 0. -/
theorem newSmoothing_some (old shift f : Nat) :
    (newSmoothing (some old) shift f : Int) = old + ((256 * f : Nat) - (old : Int)) / 2 ^ shift := by
  have hpos := two_pow_pos shift
  have hstep := (ediv_between ((256 * f : Nat) - (old : Int)) hpos).1
  have hnonneg : 0 ≤ (old : Int) + ((256 * f : Nat) - (old : Int)) / 2 ^ shift := by omega
  rw [newSmoothing, Int.fdiv_eq_ediv_of_nonneg _ (Int.le_of_lt hpos), Int.mul_comm (f : Int)]
  exact Int.toNat_of_nonneg hnonneg

/-- Settles O56: the nearest quotient and its limit, the floored step, and the truncated phase. -/
theorem answersAreTheNearest : Obligations.AnswersAreTheNearest := by
  refine ⟨fun edges span hspan => ⟨saturates_iff hspan, frequencyOf_saturated, fun hsat => ?_⟩, fun shift f => ?_,
    fun old shift f => ?_, fun state => ?_, fun offset period hperiod hlt => ?_⟩
  · obtain ⟨hfreq, hlimit⟩ := frequencyOf_unsaturated hsat
    have hnear := nearest_div (edges * 8000000000000) hspan
    rw [← rawFrequency_eq hspan, ← hfreq, ← Nat.mul_assoc] at hnear
    exact ⟨hfreq ▸ hlimit, hnear⟩
  · exact Nat.mul_comm f 256
  · intro new
    have hpos := two_pow_pos shift
    have hnew : (new : Int) = old + ((256 * f : Nat) - (old : Int)) / 2 ^ shift := newSmoothing_some old shift f
    have hbetween := ediv_between ((256 * f : Nat) - (old : Int)) hpos
    have hstep : (new : Int) - old = ((256 * f : Nat) - (old : Int)) / 2 ^ shift := by omega
    refine ⟨by omega, by omega, fun h0 => ?_, ?_⟩
    · subst h0
      rw [Int.pow_zero, Int.ediv_one] at hnew
      omega
    · simp only [hstep]
      exact ⟨Int.ediv_mul_le _ (Int.ne_of_gt hpos), Int.lt_ediv_add_one_mul_self _ hpos⟩
  · unfold smoothedOf; omega
  · rw [phaseOf, quotient_pos _ hperiod]
    refine ⟨?_, Nat.div_mul_le_self _ _, (Nat.div_lt_iff_lt_mul hperiod).1 (Nat.lt_succ_self _)⟩
    rw [Nat.div_lt_iff_lt_mul hperiod]
    omega

end Sys2Proof.Safety
end

