-- ==== Sys2Proof/Proofs/KeptTimes.lean ====
section
/-!
PROOFS. The long-past marks of the kept times (R100).
-/

namespace Sys2Proof.Safety

open Sys2Proof.Machine

/-! ## What is marked (R100, R145) -/

theorem exec_keptTimeLongPast {s : State} (dt : Nat) (h : s.dev.held = false) :
    exec (.keptTimeLongPast dt) s = goesTo s (atTime dt s).markLongPast := running_goesTo dt _ h

/-- Only an OPEN gate keeps its open time (R145). -/
theorem gate_mark_eq (now : Stamp) (g : Gate) :
    g.mark now = { g with openTime := if g.state = .opened then g.openTime.map (Kept.mark now) else g.openTime } := by
  unfold Gate.mark
  split
  · rename_i hg; rw [if_pos hg]
  · rename_i hg; rw [if_neg (by simp [hg])]

/-- Settles O32: block by block; the kind states and the waiting results by their kinds, the gates by their states. -/
theorem keptTimesAreMarked : Obligations.KeptTimesAreMarked := by
  intro s dt hheld d mark gate start run waiting
  have hrun : RunState.mark d.now = run := funext fun r => by cases r <;> rfl
  have hwaiting : Partial.mark d.now = waiting := funext fun w => by cases w <;> rfl
  have htask : TaskRec.mark d.now = fun k =>
      { k with armTime := k.armTime.map mark, run := run k.run, waitingResult := k.waitingResult.map waiting } := by
    rw [← hrun, ← hwaiting]; rfl
  have hgate : Gate.mark d.now = fun g =>
      { g with openTime := if g.state = .opened then g.openTime.map mark else g.openTime } := funext (gate_mark_eq d.now)
  rw [← htask, ← hgate]
  exact exec_keptTimeLongPast dt hheld

end Sys2Proof.Safety
end

