-- ==== Sys2Proof/Proofs/JobFinish.lean ====
section
/-!
PROOFS. The finish of a job, the arbiter and the answer that completes the waiting result (R92, R93, R94).
-/

namespace Sys2Proof.Safety

open Sys2Proof.Machine

/-- A test that fails, as a decision. -/
theorem not_beq_eq_decide {α : Type} [BEq α] [LawfulBEq α] [DecidableEq α] (a b : α) : (!(a == b)) = decide (a ≠ b) := by
  rw [Bool.eq_iff_iff, Bool.not_eq_true', beq_eq_false_iff_ne, decide_eq_true_iff]

/-! ## The arbiter (R93) -/

section

variable {e : Engine} {now : Stamp} {j : CurrentJob} {w : WaitingJob}

theorem startJob_eq (now : Stamp) (handed : Bool) (w : WaitingJob) (e : Engine) :
    e.startJob now handed w = { e with
      unit := ⟨e.unit.waiting.filter (fun v => v.task ≠ w.task), some ⟨w.task, w.ops, now, false, handed⟩⟩,
      tasks := e.tasks.set w.task { e.tasks.get w.task with job := .inProgress } } := by
  have hleft : (fun v : WaitingJob => !(v.task == w.task)) = fun v => decide (v.task ≠ w.task) := by
    funext v; exact not_beq_eq_decide v.task w.task
  unfold Engine.startJob
  rw [hleft]

theorem givesWay_iff :
    j.givesWay now w = true ↔ j.handed = true ∧ j.discarded = false ∧ j.start = now ∧ w.task < j.task := by
  simp [CurrentJob.givesWay, and_assoc]

/-- At a finish the lowest waiting job starts. -/
theorem chooseNext_starts (hc : e.unit.current = none) (hw : lowestJob e.unit.waiting = some w) :
    e.chooseNext now = e.startJob now false w := by
  unfold Engine.chooseNext; rw [hc, hw]

theorem arbitrate_busy (hc : e.unit.current = some j) (hw : lowestJob e.unit.waiting = some w) :
    e.arbitrate now = if j.givesWay now w then (e.returnJob j).startJob now true w else e := by
  unfold Engine.arbitrate; rw [hc, hw]

/-! ## The divider becomes free (R92, R94) -/

theorem releaseDivider_answered (h : j.discarded = false) :
    e.releaseDivider j = { e with
      unit := ⟨e.unit.waiting, none⟩, tasks := e.tasks.set j.task { e.tasks.get j.task with job := .none } } := by
  unfold Engine.releaseDivider; rw [h]; rfl

/-- A discarded job frees its record, and a job held back behind it enters the list. -/
theorem releaseDivider_discarded (h : j.discarded = true) :
    let k := e.tasks.get j.task
    e.releaseDivider j = { e with
      unit := ⟨e.unit.waiting ++ k.heldBackJob.toList.map (fun ops => ⟨j.task, ops⟩), none⟩,
      tasks := e.tasks.set j.task { k with
        jobDiscarded := false, heldBackJob := none, job := if k.job = .inProgress then .none else k.job } } := by
  unfold Engine.releaseDivider
  rw [h]
  cases hk : (e.tasks.get j.task).heldBackJob <;> simp [hk, Engine.setTask, Engine.enterJob]

/-! ## A job finishes (R93, R94) -/

theorem finishJob_discarded {fr : Front} (hc : e.unit.current = some j) (h : j.discarded = true) :
    e.finishJob fr = (e.releaseDivider j).chooseNext fr.now := by
  unfold Engine.finishJob; rw [hc]; exact if_pos h

theorem finishJob_answered {fr : Front} (hc : e.unit.current = some j) (h : j.discarded = false) :
    e.finishJob fr = (((e.releaseDivider j).chooseNext fr.now).takeAnswer fr j).arbitrate fr.now := by
  unfold Engine.finishJob; rw [hc]; exact if_neg (Bool.eq_false_iff.1 h)

end

theorem jobDue_eq {e : Engine} {j : CurrentJob} (now : Stamp) (hc : e.unit.current = some j) :
    e.jobDue now = reached now (plus j.start 3200) := by
  unfold Engine.jobDue; rw [hc]; rfl

theorem exec_jobFinish {s : State} (dt : Nat) (hheld : s.dev.held = false) :
    let d := atTime dt s
    exec (.jobFinish dt) s = goesTo s (if d.eng.jobDue d.now then { d with eng := d.eng.finishJob d.front } else d) :=
  running_goesTo dt (fun d => if d.eng.jobDue d.now then d.modEng (Engine.finishJob d.front) else d) hheld

/-- Before its moment a job goes on, and at it the job finishes. -/
theorem exec_jobFinish_cases {s : State} {dt : Nat} {j : CurrentJob} (hheld : s.dev.held = false)
    (hc : s.dev.eng.unit.current = some j) :
    let d := atTime dt s
    let due := reached d.now (plus j.start 3200)
    (due = false → exec (.jobFinish dt) s = goesTo s d) ∧
    (due = true → exec (.jobFinish dt) s = goesTo s { d with eng := d.eng.finishJob d.front }) := by
  intro d due
  have hdue : d.eng.jobDue d.now = due := jobDue_eq d.now hc
  refine ⟨fun h => (exec_jobFinish dt hheld).trans ?_, fun h => (exec_jobFinish dt hheld).trans ?_⟩
  · rw [if_neg (by rw [hdue, h]; exact Bool.false_ne_true)]
  · rw [if_pos (hdue.trans h)]

/-! ## The answer completes the waiting result (R59, R68, R94) -/

theorem gateStamps_eq (k : TaskRec) (f : FreqFields) (g : GateSpan) :
    gateStamps k f g = if f.source = .timed then k.armTime.toList else [g.opened, g.closed] := by
  unfold gateStamps; cases f.source <;> rfl

/-- A run that has not reached its length has room for one result (R37, R63). -/
theorem capRepresented_one {k : TaskRec} {td : TaskDef} (hd : k.defn = some td)
    (hroom : td.runLength = 0 ∨ k.resultsInRun < td.runLength) : k.capRepresented 1 = 1 := by
  unfold TaskRec.capRepresented satLimit
  rw [hd]
  dsimp only
  split <;> omega

section

variable {fr : Front} {e : Engine} {j : CurrentJob} {k : TaskRec} (hk : e.tasks.get j.task = { k with job := .none })

include hk

theorem takeAnswer_frequency {edges span shift : Nat} {state : Option Nat} {g : GateSpan} {e1 e2 : Kept} {shortened : Bool}
    {run : FreqRun} {td : TaskDef} {f : FreqFields} (hops : j.ops = .frequency edges span shift state)
    (hw : k.waitingResult = some (.frequency g edges span e1 e2 shortened)) (hrun : k.run = .frequency run)
    (hd : k.defn = some td) (hf : td.fields = .frequency f) (hroom : td.runLength = 0 ∨ k.resultsInRun < td.runLength) :
    let gate := if f.source = .timed then k.armTime.toList else [g.opened, g.closed]
    let freq := frequencyOf edges span
    let smooth := newSmoothing state shift freq
    e.takeAnswer fr j = (Engine.takeResult fr.now j.task (.frequency
      { gateIndex := run.nextGate, openTime := g.opened.stamp, edges := edges, span := span, frequency := freq,
        smoothed := smoothedOf smooth, represented := 1,
        flags := { noSignal := false, shortened := shortened, lost := false, clamped := g.clamped, orphaned := g.orphaned,
                   unplaced := g.unplaced, degraded := fr.tb.anyDegraded (e1 :: e2 :: gate),
                   saturated := saturates edges span } }) 1
      (e.setTask j.task { k with
        job := .none, cause := .none, waitingResult := none,
        run := .frequency { run with smoothing := some smooth, nextGate := run.nextGate + 1 } })).catchUp fr j.task := by
  intro gate freq smooth
  have hfreq : TaskRec.freqRun { k with job := .none, cause := .none, waitingResult := none } = some run := by
    unfold TaskRec.freqRun; rw [hrun]
  have hfields : TaskRec.freqFields { k with job := .none, cause := .none, waitingResult := none } = some f := by
    unfold TaskRec.freqFields; simp only [hd, hf]
  have hcap : TaskRec.capRepresented { k with job := .none, cause := .none, waitingResult := none } 1 = 1 :=
    capRepresented_one hd hroom
  unfold Engine.takeAnswer
  simp only [hk, hops, hw]
  simp only [Engine.completeFrequency, setTask_get_same, hfreq, hfields, gateStamps_eq]
  simp only [Engine.takeFrequency, Engine.setFreqRun, Engine.modTask, setTask_get_same, hcap]
  simp only [Engine.setTask, Per8.set_set]
  rfl

theorem takeAnswer_phase {offset period : Nat} {x r1 r2 : Kept} {run : PhaseRun} (hops : j.ops = .phase offset period)
    (hw : k.waitingResult = some (.phase x period r1 r2)) (hrun : k.run = .phase run) :
    e.takeAnswer fr j = (Engine.takeResult fr.now j.task (.phase
      { signal := x.stamp, period := period, phase := phaseOf offset period, gapCount := run.gap,
        flags := { noSignal := false, lost := false, unstamped := false, gap := decide (run.gap ≠ 0),
                   degraded := fr.tb.anyDegraded [x, r1, r2] } }) 1
      (e.setTask j.task { k with
        job := .none, cause := .none, waitingResult := none, run := .phase { run with gap := 0 } })).catchUp fr j.task := by
  have hphase : TaskRec.phaseRun { k with job := .none, cause := .none, waitingResult := none } = some run := by
    unfold TaskRec.phaseRun; rw [hrun]
  unfold Engine.takeAnswer
  simp only [hk, hops, hw]
  simp only [Engine.completePhase, setTask_get_same, hphase]
  simp only [Engine.takePhase, Engine.setPhaseRun, Engine.modTask, setTask_get_same]
  simp only [Engine.setTask, Per8.set_set]
  rfl

end

/-! ## The statement -/

/-- Settles O43: the divider is freed, the arbiter chooses, and the answer is handed back. -/
theorem jobFinishes : Obligations.JobFinishes := by
  refine ⟨fun s dt j hheld hunit => ?_, fun s dt ws j w hheld hunit hdue => ?_, fun e now w hmem hleast => ?_⟩
  · intro d k leads free
    have hc : d.eng.unit.current = some j := congrArg ArithUnit.current hunit
    have hwait : d.eng.unit.waiting = [] := congrArg ArithUnit.waiting hunit
    have hleads : ∀ e, reached d.now (plus j.start 3200) = true → d.eng.finishJob d.front = e → leads e :=
      fun e hdue he => he ▸ (exec_jobFinish_cases hheld hc).2 hdue
    have hfreed : j.discarded = false → (d.eng.releaseDivider j).chooseNext d.front.now =
        { d.eng with unit := free, tasks := d.eng.tasks.set j.task { k with job := .none } } := fun hdisc => by
      rw [releaseDivider_answered hdisc, hwait, Engine.chooseNext_idle rfl]
    have hk : (d.eng.tasks.set j.task { k with job := .none }).get j.task = { k with job := .none } :=
      Per8.get_set_same _ _ _
    have hset : ∀ k', Engine.setTask j.task k'
        { d.eng with unit := free, tasks := d.eng.tasks.set j.task { k with job := .none } } =
          { d.eng with unit := free, tasks := d.eng.tasks.set j.task k' } := fun k' => by
      unfold Engine.setTask; rw [Per8.set_set]
    refine ⟨(exec_jobFinish_cases hheld hc).1, fun hdue hdisc hback => ?_,
      fun edges span shift state g e1 e2 shortened run td f hdue hdisc hops hw hrun hd hf hroom => ?_,
      fun offset period x r1 r2 run hdue hdisc hops hw hrun => ?_⟩
    · refine hleads _ hdue ((finishJob_discarded hc hdisc).trans ?_)
      rw [releaseDivider_discarded hdisc, hwait, hback, Engine.chooseNext_idle rfl]
      rfl
    · refine hleads _ hdue ((finishJob_answered hc hdisc).trans ?_)
      rw [← hset, hfreed hdisc, takeAnswer_frequency hk hops hw hrun hd hf hroom]
      rfl
    · refine hleads _ hdue ((finishJob_answered hc hdisc).trans ?_)
      rw [← hset, hfreed hdisc, takeAnswer_phase hk hops hw hrun]
      rfl
  · intro d k all hmem hleast unit started taken leads
    have hc : d.eng.unit.current = some j := congrArg ArithUnit.current hunit
    have hwait : d.eng.unit.waiting = ws := congrArg ArithUnit.waiting hunit
    have hw : lowestJob all = some w := lowestJob_of_least hmem hleast
    have hleads : ∀ e, d.eng.finishJob d.front = e → leads e := fun e he => he ▸ (exec_jobFinish_cases hheld hc).2 hdue
    have hchosen : ∀ tasks, Engine.chooseNext d.front.now { d.eng with unit := ⟨all, none⟩, tasks := tasks } =
        started tasks := fun tasks => by
      rw [chooseNext_starts rfl hw, startJob_eq]
      rfl
    have hfreed : j.discarded = false → (d.eng.releaseDivider j).chooseNext d.front.now =
        started (d.eng.tasks.set j.task { k with job := .none }) := fun hdisc => by
      have hall : all = ws := by simp [all, hdisc]
      rw [← hchosen, releaseDivider_answered hdisc, hwait, hall]
    have hk : w.task ≠ j.task →
        (started (d.eng.tasks.set j.task { k with job := .none })).tasks.get j.task = { k with job := .none } :=
      fun hne => by
        rw [Per8.get_set_ne _ _ hne.symm, Per8.get_set_same]
    have hset : w.task ≠ j.task → ∀ k',
        Engine.setTask j.task k' (started (d.eng.tasks.set j.task { k with job := .none })) = taken k' := fun hne k' => by
      simp only [started, taken, Engine.setTask]
      rw [Per8.get_set_ne _ _ hne, Per8.set_comm _ _ _ hne.symm, Per8.set_set]
    refine ⟨fun hdisc => ?_, fun edges span shift state g e1 e2 shortened run td f hdisc hne hops hw hrun hd hf hroom => ?_,
      fun offset period x r1 r2 run hdisc hne hops hw hrun => ?_⟩
    · have hall : all = ws ++ k.heldBackJob.toList.map (fun ops => ⟨j.task, ops⟩) := by simp [all, hdisc]
      refine hleads _ ((finishJob_discarded hc hdisc).trans ?_)
      rw [← hchosen, releaseDivider_discarded hdisc, hwait, hall]
    · refine hleads _ ((finishJob_answered hc hdisc).trans ?_)
      rw [← hset hne, hfreed hdisc, takeAnswer_frequency (hk hne) hops hw hrun hd hf hroom]
      rfl
    · refine hleads _ ((finishJob_answered hc hdisc).trans ?_)
      rw [← hset hne, hfreed hdisc, takeAnswer_phase (hk hne) hops hw hrun]
      rfl
  · intro others new starts
    have hw := lowestJob_of_least hmem hleast
    refine ⟨fun hfree => ?_, fun j hbusy => ⟨fun hh hd hs hlt => ?_, fun hstays => ?_⟩⟩
    · rw [Engine.arbitrate_free hfree hw, startJob_eq]
    · rw [arbitrate_busy hbusy hw, if_pos (givesWay_iff.2 ⟨hh, hd, hs, hlt⟩), startJob_eq]
      rfl
    · rw [arbitrate_busy hbusy hw, if_neg]
      rw [givesWay_iff]
      rintro ⟨hh, hd, hs, hlt⟩
      simp [hh, hd, hs, hlt] at hstays

end Sys2Proof.Safety
end

