-- ==== Sys2Proof/Proofs/GateRecords.lean ====
section
/-!
PROOFS. The gate records under the markers of other stations: opens, closes and reopens, the loss of the opener, and the
notices of them (R130, R142, R144, R145, R146, R147).
-/

namespace Sys2Proof.Safety

open Sys2Proof.Machine

/-! ## A word delivered (R108, R116) -/

theorem onLine_iff {c : Control} : c.onLine = true ↔ c.state = .joining ∨ c.state = .live := by
  simp [Control.onLine]

/-- A word is judged that stands whole in a frame and has not been judged. -/
theorem markerReceived_judges {d : Station} {attention : Stamp} (pins : ReleasePins) (hs : d.rx.state = .frame)
    (ha : d.rx.attention = some attention) (hj : d.rx.judged = false) (hb : d.rx.bits.length = 40) :
    d.markerReceived pins =
      (withRx d { d.rx with judged := true }).judgeWord pins (wordOfBits d.rx.bits) attention := by
  unfold Station.markerReceived
  rw [hs, hj, ha]
  exact if_pos hb

/-- A right word of a known kind from another station is delivered. -/
theorem judgeWord_delivers {d : Station} {w : BitVec 40} {kind : MarkerKind} (pins : ReleasePins) (attention : Stamp)
    (hr : checkRight w = true) (hs : wordSource w ≠ d.eng.ctl.stationNo) (hk : markerKindOf (wordKind w) = some kind) :
    d.judgeWord pins w attention = d.deliver kind w attention := by
  unfold Station.judgeWord
  rw [hr, if_neg (by simp), if_neg hs, hk]

theorem exec_markerReceived_delivers {s : State} {attention : Stamp} {kind : MarkerKind} (dt : Nat) (pins : ReleasePins)
    (hheld : s.dev.held = false) (hs : s.dev.rx.state = .frame) (ha : s.dev.rx.attention = some attention)
    (hj : s.dev.rx.judged = false) (hb : s.dev.rx.bits.length = 40)
    (hr : checkRight (wordOfBits s.dev.rx.bits) = true)
    (hsource : wordSource (wordOfBits s.dev.rx.bits) ≠ s.dev.eng.ctl.stationNo)
    (hk : markerKindOf (wordKind (wordOfBits s.dev.rx.bits)) = some kind) :
    let d := atTime dt s
    exec (.markerReceived dt pins) s =
      goesTo s ((withRx d { d.rx with judged := true }).deliver kind (wordOfBits d.rx.bits) attention) := by
  intro d
  refine (running_goesTo dt (Station.markerReceived pins) hheld).trans (congrArg (goesTo s) ?_)
  exact (markerReceived_judges (d := d) pins hs ha hj hb).trans (judgeWord_delivers pins attention hr hsource hk)

/-- A GATE marker that an entry takes is answered TAKEN and reaches the gate table (R130, R132). -/
theorem deliver_takeGate {d : Station} {kind : MarkerKind} {w : BitVec 40} {l : ListenEntry} (attention : Stamp)
    (hk : kind = .gateOpen ∨ kind = .gateClose) (hc : d.eng.ctl.state = .joining ∨ d.eng.ctl.state = .live)
    (hl : decidingEntry d.listen kind (wordSource w) (wordTag w) = some l) (ht : l.action = .take) :
    let placed := d.eng.propagation (wordSource w)
    d.deliver kind w attention = (withRx d { d.rx with answer := .taken }).applyGate kind (wordTag w)
      (attention - BitVec.ofNat 48 (wordDelay w) - BitVec.ofNat 48 (placed.getD 0)) (wordSource w) placed.isNone := by
  have hline := onLine_iff.2 hc
  rcases hk with rfl | rfl
  all_goals
    unfold Station.deliver Station.listenTo
    simp only [hline, hl, ht]
    rfl

/-! ## One record under a marker (R144, R145) -/

section

variable {g : Gate} {w : Kept} (time : Stamp) (source : StationNo) (unplaced : Bool)

/-- A gate closes at the time of the marker, or at its open time where that is later (R145). -/
theorem closes_eq (hw : g.openTime = some w) :
    let early := !w.longPast && later w.stamp time
    g.closes time source unplaced =
      { g with state := .closed, closeTime := some (if early then w.stamp else time), closer := some source,
               unplaced := g.unplaced || unplaced, negative := g.negative || early } := by
  unfold Gate.closes
  rw [closesEarly_eq hw, hw]; rfl

/-- A CLOSED gate opens (R144). -/
theorem applyOpen_opens (hg : g.state = .closed) :
    g.applyOpen time source unplaced =
      ({ state := .opened, openTime := some ⟨time, false⟩, opener := some source, closeTime := none, closer := none,
         generation := g.generation + 1, unplaced := unplaced, orphaned := false, reopened := false, negative := false },
       [.opened (g.generation + 1) ⟨time, false⟩ unplaced]) := by
  unfold Gate.applyOpen; rw [hg]; rfl

/-- An OPEN gate closes by the reopening and opens again (R144). -/
theorem applyOpen_reopens (hg : g.state = .opened) :
    g.applyOpen time source unplaced =
      ({ state := .opened, openTime := some ⟨time, false⟩, opener := some source, closeTime := none, closer := none,
         generation := g.generation + 1, unplaced := unplaced, orphaned := false, reopened := true, negative := false },
       (g.closesByReopen time source unplaced).closeNotice ++ [.opened (g.generation + 1) ⟨time, false⟩ unplaced]) := by
  unfold Gate.applyOpen; rw [hg]; rfl

/-- The close notice of a reopening (R144, R147). -/
theorem closesByReopen_closeNotice (hw : g.openTime = some w) :
    let early := !w.longPast && later w.stamp time
    (g.closesByReopen time source unplaced).closeNotice =
      [.closed g.generation w ⟨if early then w.stamp else time, false⟩ (g.unplaced || unplaced) g.orphaned true
        (g.negative || early)] := by
  unfold Gate.closesByReopen Gate.closeNotice
  rw [closes_eq time source unplaced hw]
  simp only [hw]
  rfl

/-- A record without an open time issues no close notice (R147). -/
theorem closeNotice_timeless (h : g.openTime = none) : g.closeNotice = [] := by
  unfold Gate.closeNotice; rw [h]

/-- The record of a gate that closes by the loss of its opener (R146). -/
theorem orphans_eq (hw : g.openTime = some w) :
    let early := !w.longPast && later w.stamp time
    g.orphans time source unplaced =
      { g with state := .closed, closeTime := some (if early then w.stamp else time), closer := some source,
               unplaced := g.unplaced || unplaced, negative := g.negative || early, orphaned := true } := by
  unfold Gate.orphans; rw [closes_eq time source unplaced hw]

/-- The close notice of such a gate (R146, R147). -/
theorem orphans_closeNotice (g : Gate) :
    (g.orphans time source unplaced).closeNotice = g.openTime.toList.map (fun o =>
      let early := !o.longPast && later o.stamp time
      Notice.closed g.generation o ⟨if early then o.stamp else time, false⟩ (g.unplaced || unplaced) true g.reopened
        (g.negative || early)) := by
  cases hw : g.openTime with
  | none => exact closeNotice_timeless hw
  | some w =>
    rw [orphans_eq time source unplaced hw]
    unfold Gate.closeNotice
    simp only [hw]
    rfl

end

/-! ## The table under a GATE marker (R144, R145, R147) -/

section

variable {d : Station} {gate : BitVec 4} {time : Stamp} {source : StationNo} {unplaced : Bool}

theorem gateOpens_moves {g : Gate} {ns : List Notice} (h : (d.gates.get gate).applyOpen time source unplaced = (g, ns)) :
    d.gateOpens gate time source unplaced = gateMoved gate g ns d := by
  unfold Station.gateOpens; rw [h]; rfl

theorem gateCloses_moves {w : Kept} (hg : (d.gates.get gate).state = .opened) (hw : (d.gates.get gate).openTime = some w) :
    let g := d.gates.get gate
    let early := !w.longPast && later w.stamp time
    let close := if early then w.stamp else time
    d.gateCloses gate time source unplaced =
      gateMoved gate
        { g with state := .closed, closeTime := some close, closer := some source, unplaced := g.unplaced || unplaced,
                 negative := g.negative || early }
        [.closed g.generation w ⟨close, false⟩ (g.unplaced || unplaced) g.orphaned g.reopened (g.negative || early)] d := by
  unfold Station.gateCloses
  rw [hg, closes_eq time source unplaced hw]
  simp only [Gate.closeNotice, hw]
  rfl

theorem gateCloses_counts (hg : (d.gates.get gate).state = .closed) :
    d.gateCloses gate time source unplaced =
      { d with eng := d.eng.count (fun c => { c with strayCloses := bumpBy 1 c.strayCloses }) } := by
  unfold Station.gateCloses; rw [hg]

end

/-! ## Notices that no task follows (R147) -/

/-- A run in progress follows a line gate. -/
def FollowsLine (k : TaskRec) : Prop :=
  k.runContinues = true ∧ ∃ td f, k.defn = some td ∧ td.fields = .frequency f ∧ f.source = .line

theorem notifyTask_idle {fr : Front} {gate : BitVec 4} {n : Notice} {t : TaskId} {e : Engine}
    (h : ¬FollowsLine (e.tasks.get t)) : e.notifyTask fr gate n t = e := by
  have hnot : ((e.tasks.get t).runContinues && (e.tasks.get t).defn.any (fun d => d.fields.follows gate)) = false := by
    refine Bool.eq_false_iff.2 fun hyes => h ?_
    obtain ⟨hc, hany⟩ := Bool.and_eq_true_iff.1 hyes
    obtain ⟨td, hd, hf⟩ := (Option.any_eq_true _ _).1 hany
    refine ⟨hc, td, ?_⟩
    unfold KindFields.follows at hf
    split at hf
    · rename_i f hfields
      exact ⟨f, hd, hfields, beq_iff_eq.1 (Bool.and_eq_true_iff.1 hf).1⟩
    · exact absurd hf Bool.false_ne_true
  unfold Engine.notifyTask
  dsimp only
  rw [hnot]

theorem notify_idle {fr : Front} {ns : List (BitVec 4 × Notice)} {e : Engine} (h : ∀ t, ¬FollowsLine (e.tasks.get t)) :
    e.notify fr ns = e := by
  have htask : ∀ t, ns.foldl (fun e p => e.notifyTask fr p.1 p.2 t) e = e := by
    intro t
    induction ns with
    | nil => rfl
    | cons p ps ih => rw [List.foldl_cons, notifyTask_idle (h t), ih]
  unfold Engine.notify
  induction taskIds with
  | nil => rfl
  | cons t ts ih => rw [List.foldl_cons, htask t, ih]

/-! ## The place of a source (R142) -/

/-- The propagation between two positions, 0 where one is missing. -/
def distance (own theirs : Option (BitVec 11)) : Nat :=
  match own, theirs with
  | some a, some b => max a.toNat b.toNat - min a.toNat b.toNat
  | _, _ => 0

/-- A time formed without a delay, from the positions of the two stations. -/
theorem formedTime_zero {e : Engine} {own theirs : Option (BitVec 11)} {source : StationNo} (attention : Stamp)
    (ho : (e.peers.get e.ctl.stationNo).position = own) (ht : (e.peers.get source).givesPosition = theirs) :
    e.formedTime attention 0 source =
      (attention - BitVec.ofNat 48 (distance own theirs), own.isNone || theirs.isNone) := by
  obtain ⟨hdistance, hmissing⟩ : (e.propagation source).getD 0 = distance own theirs ∧
      (e.propagation source).isNone = (own.isNone || theirs.isNone) := by
    unfold Engine.propagation distance
    rw [ho, ht]
    cases own with
    | none => exact ⟨rfl, rfl⟩
    | some a => cases theirs with
      | none => exact ⟨rfl, rfl⟩
      | some b =>
        refine ⟨?_, rfl⟩
        show a.toNat - b.toNat + (b.toNat - a.toNat) = max a.toNat b.toNat - min a.toNat b.toNat
        omega
  unfold Engine.formedTime
  rw [hdistance, hmissing]
  simp

/-! ## The loss of the opener (R146) -/

theorem mem_openGatesOf {source : StationNo} {gates : Per16 Gate} {i : BitVec 4} :
    i ∈ openGatesOf source gates ↔ (gates.get i).state = .opened ∧ (gates.get i).opener = some source := by
  simp [openGatesOf, mem_nibbles]

/-- What the open gates of a source give, in the order of the numbers. -/
theorem openGatesOf_flatMap {α : Type} (source : StationNo) (gates : Per16 Gate) (f : BitVec 4 → List α) :
    (openGatesOf source gates).flatMap f =
      nibbles.flatMap (fun i => if (gates.get i).state = .opened ∧ (gates.get i).opener = some source then f i else []) := by
  unfold openGatesOf
  induction nibbles with
  | nil => rfl
  | cons i is ih =>
    rw [List.filter_cons, List.flatMap_cons, ← ih]
    by_cases h : (gates.get i).state = .opened ∧ (gates.get i).opener = some source <;> simp [h]

theorem openGatesOf_nodup (source : StationNo) (gates : Per16 Gate) : (openGatesOf source gates).Nodup :=
  List.Pairwise.filter _ (show nibbles.Nodup by decide)

/-- Records rewritten one after another, each once. -/
theorem foldl_set_get {α : Type} (f : α → α) {is : List (BitVec 4)} (hnd : is.Nodup) (p : Per16 α) (i : BitVec 4) :
    (is.foldl (fun p i => p.set i (f (p.get i))) p).get i = if i ∈ is then f (p.get i) else p.get i := by
  induction is generalizing p with
  | nil => rfl
  | cons j js ih =>
    obtain ⟨hj, hjs⟩ := List.nodup_cons.1 hnd
    rw [List.foldl_cons, ih hjs, Per16.get_set]
    by_cases hij : i = j
    · subst hij; simp [hj]
    · simp [hij]

section

variable {d : Station} {own theirs : Option (BitVec 11)} {source : StationNo} (xs : List (TaskId × Deferred)) (attention : Stamp)

theorem orphanWith_get (i : BitVec 4) :
    let t := d.eng.formedTime attention 0 source
    let g := d.gates.get i
    (d.orphanWith xs attention source).gates.get i =
      if g.state = .opened ∧ g.opener = some source then g.orphans t.1 source t.2 else g := by
  intro t g
  refine (foldl_set_get (fun g => g.orphans t.1 source t.2) (openGatesOf_nodup source d.gates) d.gates i).trans ?_
  simp only [mem_openGatesOf, g]

variable (ho : (d.eng.peers.get d.eng.ctl.stationNo).position = own) (ht : (d.eng.peers.get source).givesPosition = theirs)

include ho ht

/-- The gates that the source opened and that are OPEN close, and every other record stays. -/
theorem orphanWith_records (i : BitVec 4) :
    let time := attention - BitVec.ofNat 48 (distance own theirs)
    let early := fun (o : Kept) => !o.longPast && later o.stamp time
    let g := d.gates.get i
    (g.state = .closed ∨ g.opener ≠ some source → (d.orphanWith xs attention source).gates.get i = g) ∧
    (∀ o, g.state = .opened → g.opener = some source → g.openTime = some o →
      (d.orphanWith xs attention source).gates.get i = { g with
        state := .closed, closeTime := some (if early o then o.stamp else time), closer := some source,
        unplaced := g.unplaced || own.isNone || theirs.isNone, negative := g.negative || early o, orphaned := true }) := by
  intro time early g
  have hget := orphanWith_get (source := source) (d := d) xs attention i
  simp only [formedTime_zero attention ho ht] at hget
  refine ⟨fun hstays => ?_, fun o hs hop hw => ?_⟩
  · rw [hget, if_neg]
    rintro ⟨hs, hop⟩
    rcases hstays with hclosed | hne
    · exact absurd (hs.symm.trans hclosed) (by decide)
    · exact hne hop
  · rw [hget, if_pos ⟨hs, hop⟩, orphans_eq _ _ _ hw, Bool.or_assoc]

/-- Without outcomes of the moment the tasks get the close notices, in the order of the gates. -/
theorem orphan_eng :
    let time := attention - BitVec.ofNat 48 (distance own theirs)
    let early := fun (o : Kept) => !o.longPast && later o.stamp time
    (d.orphan attention source).eng = (d.eng.notify d.front (nibbles.flatMap (fun i =>
      let g := d.gates.get i
      if g.state = .opened ∧ g.opener = some source then g.openTime.toList.map (fun o =>
        (i, Notice.closed g.generation o ⟨if early o then o.stamp else time, false⟩
          (g.unplaced || own.isNone || theirs.isNone) true g.reopened (g.negative || early o)))
      else []))).arbitrate d.now := by
  intro time early
  have hform := formedTime_zero attention ho ht
  have hnotices : (openGatesOf source d.gates).flatMap (fun i =>
      ((d.orphanWith [] attention source).gates.get i).closeNotice.map (fun n => (i, n))) =
        (openGatesOf source d.gates).flatMap (fun i =>
          let g := d.gates.get i
          g.openTime.toList.map (fun o => (i, Notice.closed g.generation o ⟨if early o then o.stamp else time, false⟩
            (g.unplaced || own.isNone || theirs.isNone) true g.reopened (g.negative || early o)))) :=
    congrArg List.flatten (List.map_congr_left fun i hi => by
      have hget := orphanWith_get (source := source) (d := d) [] attention i
      simp only [hform, if_pos (mem_openGatesOf.1 hi)] at hget
      rw [hget, orphans_closeNotice, List.map_map]
      simp only [Bool.or_assoc]
      rfl)
  exact congrArg (fun ns => (d.eng.notify d.front ns).arbitrate d.now)
    (hnotices.trans (openGatesOf_flatMap source d.gates _))

end

/-! ## HALT and ANNOUNCE (R138, R139, R141) -/

theorem answerTaken_eq (d : Station) :
    d.answerTaken = withRx d { d.rx with
      answer := if d.eng.ctl.state = .joining ∨ d.eng.ctl.state = .live then .taken else d.rx.answer } := by
  unfold Station.answerTaken
  simp only [onLine_iff]
  split <;> rfl

/-- The answer to a joining ANNOUNCE leaves the positions and the own number. -/
theorem replyToJoin_places (e : Engine) :
    e.replyToJoin.1.peers = e.peers ∧ e.replyToJoin.1.ctl.stationNo = e.ctl.stationNo := by
  unfold Engine.replyToJoin
  split
  · rename_i own _ _
    rcases Engine.announceOffer_cases own false e with ⟨-, h⟩ | h | h
    · rw [h, Engine.countDropped_one]; exact ⟨rfl, rfl⟩
    · rw [h]; exact ⟨rfl, rfl⟩
    · rw [h]
      rcases Engine.roomMade_cases e with hr | ⟨m, q, hr, -⟩
      · rw [hr]; exact ⟨rfl, rfl⟩
      · rw [hr, Engine.countDropped_one]; exact ⟨rfl, rfl⟩
  · exact ⟨rfl, rfl⟩

/-- The engine once a peer has sent its HALT (R141). -/
def peerHalted (source : StationNo) (r : HaltReason) (e : Engine) : Engine :=
  let p := e.peers.get source
  { e with
    peers := e.peers.set source { p with state := .halted, haltReason := some r },
    ctl := { e.ctl with latched := { e.ctl.latched with
      peerChanged := e.ctl.latched.peerChanged || decide (p.state ≠ .halted ∨ p.haltReason ≠ some r) } } }

theorem takeHalt_eq (source : StationNo) (r : HaltReason) (attention : Stamp) (d : Station) :
    d.takeHalt source r attention = Station.orphan attention source { d with eng := peerHalted source r d.eng } := by
  have hchanges : ∀ p : Peer, p.haltChanges r = decide (p.state ≠ .halted ∨ p.haltReason ≠ some r) := fun p => by
    rw [Peer.haltChanges, Bool.decide_or, not_beq_eq_decide, not_beq_eq_decide]
  unfold Station.takeHalt
  dsimp only
  rw [hchanges]
  rfl

/-- A joining ANNOUNCE sets the peer's entry, and the gates of the source are orphaned (R138, R139, R146). -/
theorem takeAnnounce_joins (source : StationNo) (position : BitVec 11) (attention : Stamp) (d : Station) :
    ∃ e xs, d.takeAnnounce source position true attention = Station.orphanWith xs attention source { d with eng := e } ∧
      e.ctl.stationNo = d.eng.ctl.stationNo ∧
      e.peers = d.eng.peers.set source ((d.eng.peers.get source).announced position attention) := by
  obtain ⟨hpeers, hno⟩ := replyToJoin_places (Engine.latchPeerChanged
    ((d.eng.peers.get source).announceChanges position)
    { d.eng with peers := d.eng.peers.set source ((d.eng.peers.get source).announced position attention) })
  exact ⟨_, _, rfl, hno, hpeers⟩

/-- Settles O50: the record by the marker and its state, then the gates of a source that halts or joins. -/
theorem gateRecordsFollowTheirMarkers : Obligations.GateRecordsFollowTheirMarkers := by
  refine ⟨fun s dt pins attention l kind hheld hs ha hj hb => ?_, fun s dt pins attention hheld hs ha hj hb => ?_⟩
  · intro d w c source placed time g told leads opened openNotice hr hsource hk hc hl ht
    let q := withRx d { d.rx with judged := true, answer := .taken }
    have hgate : kind = .gateOpen ∨ kind = .gateClose → exec (.markerReceived dt pins) s =
        goesTo s (q.applyGate kind (wordTag w) time source placed.isNone) := fun hkind =>
      (exec_markerReceived_delivers dt pins hheld hs ha hj hb hr hsource hk).trans
        (congrArg (goesTo s) (deliver_takeGate (d := withRx d { d.rx with judged := true }) attention hkind hc hl ht))
    have hopens : ∀ g' ns, kind = .gateOpen → g.applyOpen time source placed.isNone = (g', ns) → leads g' ns := by
      rintro g' ns rfl happly
      exact (hgate (.inl rfl)).trans (congrArg (goesTo s) (gateOpens_moves (d := q) happly))
    have hreopens := applyOpen_reopens (g := g) time source placed.isNone
    refine ⟨fun hkind hg => ?_, fun hkind hg => ?_, fun o hg hw => ?_, fun hw hg hkind => ?_, fun hnone hsettled ns => ?_⟩
    · refine hopens _ _ hkind ((applyOpen_opens _ _ _ hg).trans ?_)
      simp only [opened, openNotice, hg]
      rfl
    · subst hkind
      exact (hgate (.inr rfl)).trans (congrArg (goesTo s) (gateCloses_counts (d := q) hg))
    · intro early close closeNotice
      refine ⟨fun hkind => ?_, fun hkind => hopens _ _ hkind ((hreopens hg).trans ?_)⟩
      · subst hkind
        exact (hgate (.inr rfl)).trans (congrArg (goesTo s) (gateCloses_moves (d := q) hg hw))
      · rw [closesByReopen_closeNotice _ _ _ hw]
        simp only [opened, openNotice, hg]
        rfl
    · refine hopens _ _ hkind ((hreopens hg).trans ?_)
      rw [closeNotice_timeless (g := g.closesByReopen time source placed.isNone) hw]
      simp only [opened, openNotice, hg]
      rfl
    · have hidle : d.eng.notify d.front (ns.map (fun n => (wordTag w, n))) = d.eng :=
        notify_idle fun t ⟨hcont, td, f, hd, hf, hline⟩ => hnone t td f hcont hd hf hline
      exact (congrArg (Engine.arbitrate d.now) hidle).trans (Engine.arbitrate_settled hsettled)
  · intro w source own announced theirs propagation time hr hsource hkind d c early
    let q := withRx d { d.rx with
      judged := true, answer := if c.state = .joining ∨ c.state = .live then .taken else d.rx.answer }
    have hanswer : (withRx d { d.rx with judged := true }).answerTaken = q := answerTaken_eq _
    have hdeliver : ∀ kind, markerKindOf (wordKind w) = some kind → exec (.markerReceived dt pins) s =
        goesTo s ((withRx d { d.rx with judged := true }).deliver kind w attention) := fun kind hk =>
      exec_markerReceived_delivers dt pins hheld hs ha hj hb hr hsource hk
    have hown : ∀ p, ((d.eng.peers.set source p).get c.stationNo).position = own := fun p =>
      congrArg Peer.position (Per16.get_set_ne _ p hsource.symm)
    have hplace : ∀ p : Peer, p.givesPosition = theirs → ((d.eng.peers.set source p).get source).givesPosition = theirs :=
      fun p hp => (congrArg Peer.givesPosition (Per16.get_set_same _ _ p)).trans hp
    rcases hkind with hhalt | ⟨hannounce, hjoin⟩
    · have hnot : ¬announced := fun h => by simpa using hhalt.symm.trans h
      have htheirs : (d.eng.peers.get source).position = theirs := (if_neg hnot).symm
      let x : Station := { q with eng := peerHalted source (wordReason w) d.eng }
      have hx : exec (.markerReceived dt pins) s = goesTo s (x.orphan attention source) :=
        (hdeliver .halt hhalt).trans (congrArg (goesTo s)
          ((congrArg (Station.takeHalt source (wordReason w) attention) hanswer).trans (takeHalt_eq _ _ _ q)))
      have ht := hplace { d.eng.peers.get source with state := .halted, haltReason := some (wordReason w) } htheirs
      refine ⟨_, hx, orphanWith_records (d := x) [] attention (hown _) ht, fun _ => ?_⟩
      exact congrArg (fun e => ({ x with gates := (x.orphan attention source).gates, eng := e } : Station))
        (orphan_eng (d := x) attention (hown _) ht)
    · have htheirs : some (wordPosition w) = theirs := (if_pos hannounce).symm
      obtain ⟨e, xs, htake, hno, hpeers⟩ := takeAnnounce_joins source (wordPosition w) attention q
      have hx : exec (.markerReceived dt pins) s =
          goesTo s (Station.orphanWith xs attention source { q with eng := e }) :=
        (hdeliver .announce hannounce).trans (congrArg (goesTo s)
          ((congrArg (Station.takeAnnounce source (wordPosition w) (wordJoining w) attention) hanswer).trans
            (by rw [hjoin, htake])))
      refine ⟨_, hx, orphanWith_records (d := { q with eng := e }) xs attention ?_ ?_, fun hnot => absurd hannounce hnot⟩
      · exact hpeers ▸ hno ▸ hown _
      · exact hpeers ▸ hplace _ htheirs

end Sys2Proof.Safety
end

