-- ==== Sys2Proof/Proofs/PublishedGates.lean ====
section
/-!
PROOFS. PUBLISH GATE: the gate markers of the host (R121, R148, R162).
-/

namespace Sys2Proof.Safety

open Sys2Proof.Machine

/-! ## The codes of the request (12.3) -/

theorem nibbleOf_eq_some {b : Byte} (h : b.toNat < 16) : nibbleOf b = some (BitVec.ofNat 4 b.toNat) := if_pos h

theorem gateActionOf_eq_some {b : Byte} (h : b.toNat ≤ 1) :
    gateActionOf b = some (if b = 0 then .gateOpen else .gateClose) := by revert b; decide

/-! ## The offer of a GATE marker (R121) -/

section

variable {e : Engine} {m : OutEntry}

theorem refusesOffers_of_mute (h : e.tx.mute = true) : e.refusesOffers = true := Bool.or_eq_true_iff.2 (.inl h)

theorem dropsOffer_iff : e.dropsOffer = true ↔ e.refusesOffers = true ∨ 8 ≤ e.tx.queue.length := by
  rw [Engine.dropsOffer, Bool.or_eq_true, decide_eq_true_iff, outgoingDepth]

theorem offerOrdinary_enters (hr : e.refusesOffers = false) (h : e.tx.queue.length < 8) :
    e.offerOrdinary m = { e with tx := { e.tx with queue := e.tx.queue ++ [m] } } :=
  if_neg fun hd => (dropsOffer_iff.1 hd).elim (Bool.eq_false_iff.1 hr) (Nat.not_le.2 h)

theorem offerOrdinary_drops (h : e.refusesOffers = true ∨ 8 ≤ e.tx.queue.length) : e.offerOrdinary m = e.countDropped 1 :=
  if_pos (dropsOffer_iff.2 h)

end

/-! ## The judgement of PUBLISH GATE (R148) -/

/-- Only a LIVE station without a departure counts as LIVE (R162). -/
theorem countsLive_iff {c : Control} : c.countsLive = true ↔ c.state = .live ∧ c.departure = .none := by
  simp [Control.countsLive]

section

variable {d : Station} {gate action : Byte} {g : BitVec 4} {kind : MarkerKind} (hg : nibbleOf gate = some g)
  (ha : gateActionOf action = some kind)

include hg ha

theorem publishGate_notLive (hh : d.eng.ctl.state ≠ .halted) (hl : d.eng.ctl.countsLive = false) :
    d.publishGate gate action = d.refuse .notLive := by
  unfold Station.publishGate; rw [isHalted_eq_false hh, hg, ha, hl]; rfl

/-- A station that counts as LIVE offers the marker, and its reply is the transmitter's answer (R121, R148). -/
theorem publishGate_live (hl : d.eng.ctl.countsLive = true) :
    d.publishGate gate action = (d.modEng (Engine.offerOrdinary (ordinaryEntry kind g d.now none)),
      ⟨if d.eng.tx.mute = true then .badState else if 8 ≤ d.eng.tx.queue.length then .queueFull else .ok, []⟩) := by
  have hh : d.eng.ctl.state ≠ .halted := by rw [(countsLive_iff.1 hl).1]; decide
  unfold Station.publishGate; rw [isHalted_eq_false hh, hg, ha, hl]; rfl

end

/-- Settles O16: the marker is offered to the transmitter, whose answer is the reply, and a station that does not count as
LIVE refuses. -/
theorem gatesArePublished : Obligations.GatesArePublished := by
  refine ⟨fun s dt gate action h hgate haction hs hdep hsent => ?_, fun s dt gate action h hgate haction hstate => ?_⟩
  · intro d marker dropped leads
    have hlive := publishGate_live (d := d) (nibbleOf_eq_some hgate) (gateActionOf_eq_some haction)
      (countsLive_iff.2 ⟨hs, hdep⟩)
    have answers : ∀ st e,
        (if d.eng.tx.mute = true then .badState else if 8 ≤ d.eng.tx.queue.length then .queueFull else .ok) = st →
        d.eng.offerOrdinary marker = e → leads st e := by
      rintro st e rfl rfl
      exact request_replied dt _ _ h hlive rfl
    have drops : d.eng.refusesOffers = true ∨ 8 ≤ d.eng.tx.queue.length → d.eng.offerOrdinary marker = dropped := fun hd =>
      (offerOrdinary_drops hd).trans (Engine.countDropped_one d.eng)
    refine ⟨fun hmute hroom => ?_, fun hmute => ?_, fun hmute hfull => ?_⟩
    · exact answers _ _ ((if_neg (Bool.eq_false_iff.1 hmute)).trans (if_neg (Nat.not_le.2 hroom)))
        (offerOrdinary_enters (refusesOffers_eq_false hmute hsent) hroom)
    · exact answers _ _ (if_pos hmute) (drops (.inl (refusesOffers_of_mute hmute)))
    · exact answers _ _ ((if_neg (Bool.eq_false_iff.1 hmute)).trans (if_pos hfull)) (drops (.inr hfull))
  · have hh : s.dev.eng.ctl.state ≠ .halted := by
      rcases hstate with hs | hs | ⟨hs, -⟩ <;> rw [hs] <;> decide
    have hl : s.dev.eng.ctl.countsLive = false := Bool.eq_false_iff.2 fun hl => by
      obtain ⟨hs, hdep⟩ := countsLive_iff.1 hl
      simp [hs, hdep] at hstate
    exact request_refused dt _ _ h
      (publishGate_notLive (d := atTime dt s) (nibbleOf_eq_some hgate) (gateActionOf_eq_some haction) hh hl)

end Sys2Proof.Safety
end

