-- ==== Sys2Proof/Proofs/ResultBlocks.lean ====
section
/-!
PROOFS. READ RESULT: the reply that shows the head block, byte by byte (R155, 12.5).
-/

namespace Sys2Proof.Safety

open Sys2Proof.Machine

/-! ## The request (R155) -/

theorem readResult_empty {d : Station} (h : d.eng.queue = []) : d.readResult = d.refuse .empty := by
  unfold Station.readResult; rw [h]

theorem readResult_shows {d : Station} {b : Block} {rest : List Block} (h : d.eng.queue = b :: rest) :
    d.readResult = ({ d with eng := { d.eng with queue := { b with offered := none } :: rest } },
      ⟨.ok, resultBody b rest.length⟩) := by
  unfold Station.readResult; rw [h]; rfl

theorem beBytes_one (v : Nat) : beBytes 1 v = [BitVec.ofNat 8 v] := by simp [beBytes]

theorem resultBody_eq (b : Block) (behind : Nat) :
    resultBody b behind = BitVec.ofNat 8 behind :: (b.header ++ b.results.flatMap Result.bytes) := by
  rw [resultBody, beBytes_one, List.append_assoc, List.singleton_append]

/-! ## The lengths of 12.5 -/

@[simp] theorem stampBytes_length (t : Option Stamp) : (stampBytes t).length = 6 := beBytes_length 6 _

theorem header_length (b : Block) : b.header.length = 4 := by simp [Block.header]

/-- The length of a result record, by its kind (12.5). -/
theorem resultBytes_length (r : Result) : r.bytes.length = match r with
    | .frequency _ => 36
    | .phase _ => 19
    | .interval _ => 19
    | .timestamp _ => 20
    | .publish _ => 15 := by
  cases r <;> simp [Result.bytes]

/-! ## The bytes of 12.5 -/

/-- A number most significant byte first, byte by byte. -/
theorem beBytes_eq_map_range (n v : Nat) :
    beBytes n v = (List.range n).map (fun i => BitVec.ofNat 8 (v / 256 ^ (n - 1 - i))) := by
  induction n with
  | zero => rfl
  | succ n ih =>
    rw [beBytes, ih, List.range_succ_eq_map, List.map_cons, List.map_map]
    refine congrArg _ (List.map_congr_left fun i _ => ?_)
    simp [show n - (i + 1) = n - 1 - i by omega]

theorem flagByte_two (a b : Bool) : flagByte [a, b] = (0 : BitVec 6) ++ BitVec.ofBool b ++ BitVec.ofBool a := by
  revert a b; decide

theorem flagByte_five (a b c d e : Bool) : flagByte [a, b, c, d, e] =
    (0 : BitVec 3) ++ BitVec.ofBool e ++ BitVec.ofBool d ++ BitVec.ofBool c ++ BitVec.ofBool b ++ BitVec.ofBool a := by
  revert a b c d e; decide

theorem flagByte_eight (a b c d e f g h : Bool) : flagByte [a, b, c, d, e, f, g, h] =
    BitVec.ofBool h ++ BitVec.ofBool g ++ BitVec.ofBool f ++ BitVec.ofBool e ++ BitVec.ofBool d ++ BitVec.ofBool c ++
      BitVec.ofBool b ++ BitVec.ofBool a := by
  revert a b c d e f g h; decide

/-- The header's first byte: the task in bits 0 to 2, its kind above it, then FINAL and SHORT. -/
theorem headerByte_eq (task : TaskId) (kind : Kind) (final short : Bool) :
    packByte [(0, task.val), (3, kind.code), (6, bitOf final), (7, bitOf short)] =
      BitVec.ofBool short ++ BitVec.ofBool final ++
        (match kind with
          | .frequency => (0 : BitVec 3)
          | .phase => 1
          | .interval => 2
          | .timestamp => 3
          | .publish => 4) ++ BitVec.ofNat 3 task.val := by
  revert task final short; cases kind <;> decide

/-- The code of an outcome is one byte (12.5). -/
theorem outcomeBytes_eq (o : Outcome5) : beBytes 1 o.code =
    [match o with
      | .taken => (0 : Byte)
      | .refused => 1
      | .unheard => 2
      | .stale => 3
      | .dropped => 4] := by
  cases o <;> rfl

/-- Settles O19: the reply by the request's two cases, the lengths and the bytes by the kind of the record. -/
theorem resultsAreShown : Obligations.ResultsAreShown := by
  refine ⟨fun s dt h => ⟨fun hq => ?_, fun b rest hq => ?_⟩, fun b => ⟨header_length b, resultBytes_length, ?_⟩,
    fun b => ?_⟩
  · exact request_refused dt _ _ h (readResult_empty hq)
  · refine request_replied dt _ _ h ?_ rfl
    rw [← resultBody_eq]
    exact readResult_shows (d := atTime dt s) hq
  · exact congrArg (fun x => [x]) (headerByte_eq b.task b.kind b.final b.short)
  · intro be bit
    have hbe : ∀ n v, beBytes n v = be n v := beBytes_eq_map_range
    refine ⟨?_, fun r => ?_, fun r => ?_, fun r => ?_, fun r => ?_, fun r => ?_⟩
    · rw [← hbe, ← beBytes_one]; rfl
    · simp only [← hbe, bit, ← flagByte_eight]; rfl
    · simp only [← hbe, bit, ← flagByte_five]; rfl
    · simp only [← hbe, bit, ← flagByte_five, BitVec.ofNat_toNat]; rfl
    · simp only [← hbe, bit, ← flagByte_two]; rfl
    · simp only [← hbe, bit, ← flagByte_two]
      exact congrArg (fun code => beBytes 6 r.edge.toNat ++ code ++ beBytes 3 r.delay.toNat ++ beBytes 4 r.gapCount ++
        [flagByte [r.gap, r.degraded]]) (outcomeBytes_eq r.outcome)

end Sys2Proof.Safety
end

