-- ==== Sys2Proof/Proofs/CompletedReads.lean ====
section
/-!
PROOFS. A completed READ RESULT: the head leaves, its place and others go to the STALLED tasks, and the task of the block
that was read goes on (R41, R44, R45, R153, R155).
-/

namespace Sys2Proof.Safety

open Sys2Proof.Machine

/-! ## The STALLED tasks, in ascending number (R153) -/

/-- The tasks that wait for a place in the queue. -/
def stalledTasks (e : Engine) : List TaskId := taskIds.filter (fun t => (e.tasks.get t).state == .stalled)

section

variable {e : Engine} {t : TaskId}

theorem mem_stalledTasks : t ∈ stalledTasks e ↔ (e.tasks.get t).state = .stalled := by
  simp [stalledTasks, mem_taskIds]

theorem stalledTasks_nodup (e : Engine) : (stalledTasks e).Nodup := (by decide : taskIds.Nodup).filter _

theorem stalledTasks_eq_nil (h : ∀ t, (e.tasks.get t).state ≠ .stalled) : stalledTasks e = [] :=
  List.eq_nil_iff_forall_not_mem.2 fun t ht => h t (mem_stalledTasks.1 ht)

/-- The lowest STALLED task stands first. -/
theorem stalledTasks_of_least (hs : (e.tasks.get t).state = .stalled)
    (least : ∀ u, u < t → (e.tasks.get u).state ≠ .stalled) :
    ∃ ts, stalledTasks e = t :: ts := by
  have hsplit : ∀ t : TaskId, taskIds = taskIds.take t.val ++ t :: taskIds.drop (t.val + 1) ∧
      ∀ u ∈ taskIds.take t.val, u < t := by decide
  obtain ⟨hl, hlow⟩ := hsplit t
  have hnone : (taskIds.take t.val).filter (fun u => (e.tasks.get u).state == .stalled) = [] :=
    List.filter_eq_nil_iff.2 fun u hu => by simpa using least u (hlow u hu)
  exact ⟨_, by rw [stalledTasks, hl, List.filter_append, hnone, List.nil_append, List.filter_cons_of_pos (by simp [hs])]⟩

end

/-! ## A place taken (R41, R45, R153) -/

/-- The record of a STALLED task once its held block `h` has entered: its pending run end takes place, or it pauses on the
block, or its run goes on. -/
def placedRecord (h : Block) (k : TaskRec) : TaskRec :=
  let k := { k with heldBlock := none }
  match k.runEndPending with
  | some cause => { k with state := endsAs cause, endCause := some cause, runEndPending := none, cause := .none }
  | none =>
    if h.final = false ∧ ∃ td ∈ k.defn, td.continuation = .paced then
      { k with state := .paused, cause := .paused, pausedOn := some h.number }
    else { k with state := .running, cause := .none }

section

variable {h : Block} {k : TaskRec}

theorem placedRecord_ends {cause : EndCause} (hp : k.runEndPending = some cause) :
    placedRecord h k = { k with
      heldBlock := none, state := endsAs cause, endCause := some cause, runEndPending := none, cause := .none } := by
  simp [placedRecord, hp]

theorem placedRecord_pauses (hp : k.runEndPending = none) (hf : h.final = false) {td : TaskDef} (hd : k.defn = some td)
    (hc : td.continuation = .paced) :
    placedRecord h k = { k with heldBlock := none, state := .paused, cause := .paused, pausedOn := some h.number } := by
  simp [placedRecord, hp, hf, hd, hc]

theorem placedRecord_runs (hp : k.runEndPending = none)
    (hc : ¬(h.final = false ∧ ∃ td, k.defn = some td ∧ td.continuation = .paced)) :
    placedRecord h k = { k with heldBlock := none, state := .running, cause := .none } := by
  unfold placedRecord
  simp only [hp]
  exact if_neg hc

theorem endsAs_cases (cause : EndCause) : endsAs cause = .done ∨ endsAs cause = .faulted := by
  cases cause <;> decide

/-- A task back in RUNNING waits for no job: it takes entries. -/
theorem placedRecord_takes (h : Block) (k : TaskRec) : (placedRecord h k).takes = ((placedRecord h k).state == .running) := by
  cases hp : k.runEndPending with
  | some cause =>
    rw [placedRecord_ends hp]
    rcases endsAs_cases cause with hc | hc <;> simp [TaskRec.takes, hc]
  | none =>
    by_cases hc : h.final = false ∧ ∃ td, k.defn = some td ∧ td.continuation = .paced
    · obtain ⟨hf, td, hd, hc⟩ := hc
      rw [placedRecord_pauses hp hf hd hc]; rfl
    · rw [placedRecord_runs hp hc]; rfl

/-- The held block of a task enters at the tail. -/
theorem takePlace_eq (t : TaskId) (h : Block) (e : Engine) :
    e.takePlace t h = { e with queue := e.queue ++ [h], tasks := e.tasks.set t (placedRecord h (e.tasks.get t)) } := by
  have hse : EndCause.endState = endsAs := by funext cause; cases cause <;> rfl
  unfold Engine.takePlace placedRecord
  simp only [hse]
  cases (e.tasks.get t).runEndPending with
  | some cause => rfl
  | none => cases (e.tasks.get t).defn <;> simp [and_comm]

end

/-! ## Free places handed on (R153) -/

/-- These tasks have each taken a place, in their order, and nothing else has changed. -/
structure PlacesTaken (served : List TaskId) (e e' : Engine) : Prop where
  queue : e'.queue = e.queue ++ served.filterMap (fun t => (e.tasks.get t).heldBlock)
  waits : ∀ t, t ∉ served → e'.tasks.get t = e.tasks.get t
  takes : ∀ t h, t ∈ served → (e.tasks.get t).heldBlock = some h → e'.tasks.get t = placedRecord h (e.tasks.get t)
  frame : e' = { e with queue := e'.queue, tasks := e'.tasks }

theorem PlacesTaken.nil (e : Engine) : PlacesTaken [] e e :=
  ⟨by simp, fun _ _ => rfl, fun _ _ ht => by simp at ht, rfl⟩

theorem filterMap_congr_of_mem {α β : Type} {f g : α → Option β} {l : List α} (h : ∀ a ∈ l, f a = g a) :
    l.filterMap f = l.filterMap g := by
  induction l with
  | nil => rfl
  | cons a l ih => rw [List.filterMap_cons, List.filterMap_cons, h a (by simp), ih fun x hx => h x (List.mem_cons_of_mem a hx)]

theorem PlacesTaken.cons {t : TaskId} {ts : List TaskId} {h : Block} {e e' : Engine} (ht : t ∉ ts)
    (hh : (e.tasks.get t).heldBlock = some h) (hts : PlacesTaken ts (e.takePlace t h) e') : PlacesTaken (t :: ts) e e' := by
  rw [takePlace_eq] at hts
  obtain ⟨hqueue, hwaits, htakes, hframe⟩ := hts
  have hne : ∀ u, u ≠ t → (e.tasks.set t (placedRecord h (e.tasks.get t))).get u = e.tasks.get u := fun u hu =>
    Per8.get_set_ne _ _ hu
  have hheld : ts.filterMap (fun u => ((e.tasks.set t (placedRecord h (e.tasks.get t))).get u).heldBlock) =
      ts.filterMap (fun u => (e.tasks.get u).heldBlock) :=
    filterMap_congr_of_mem fun u hu => congrArg TaskRec.heldBlock (hne u (ne_of_mem_of_not_mem hu ht))
  refine ⟨?_, fun u hu => ?_, fun u g hu hg => ?_, hframe⟩
  · rw [List.filterMap_cons_some (f := fun u => (e.tasks.get u).heldBlock) hh, List.append_cons]
    exact hqueue.trans (congrArg _ hheld)
  · rw [List.mem_cons, not_or] at hu
    exact (hwaits u hu.2).trans (hne u hu.1)
  · rcases List.mem_cons.1 hu with rfl | hu
    · rw [hh] at hg
      cases hg
      exact (hwaits u ht).trans (Per8.get_set_same _ _ _)
    · have hget := hne u (ne_of_mem_of_not_mem hu ht)
      exact hget ▸ htakes u g hu (hget.symm ▸ hg)

/-- Places go to STALLED tasks from the front of the list, one to each while places last. -/
theorem handPlaces_takes {ts : List TaskId} (n : Nat) (e : Engine) (hnd : ts.Nodup)
    (hs : ∀ t ∈ ts, (e.tasks.get t).state = .stalled) (hh : ∀ t ∈ ts.take n, (e.tasks.get t).heldBlock ≠ none) :
    PlacesTaken (ts.take n) e (Engine.handPlaces n ts e) := by
  induction ts generalizing n e with
  | nil => cases n <;> exact PlacesTaken.nil e
  | cons t ts ih =>
    cases n with
    | zero => exact PlacesTaken.nil e
    | succ n =>
      obtain ⟨ht, hnd⟩ := List.nodup_cons.1 hnd
      obtain ⟨h, hheld⟩ := Option.ne_none_iff_exists'.1 (hh t (by simp))
      have hstep : Engine.handPlaces (n + 1) (t :: ts) e = Engine.handPlaces n ts (e.takePlace t h) := by
        simp [Engine.handPlaces, hs t (by simp), hheld]
      have hget : ∀ u ∈ ts, (e.takePlace t h).tasks.get u = e.tasks.get u := fun u hu => by
        rw [takePlace_eq]; exact Per8.get_set_ne _ _ (ne_of_mem_of_not_mem hu ht)
      rw [hstep, List.take_succ_cons]
      refine PlacesTaken.cons (fun hm => ht (List.mem_of_mem_take hm)) hheld (ih n _ hnd (fun u hu => ?_) fun u hu => ?_)
      · rw [hget u hu]; exact hs u (List.mem_cons_of_mem _ hu)
      · rw [hget u (List.mem_of_mem_take hu)]; exact hh u (List.mem_cons_of_mem _ hu)

section

variable {fr : Front} {e : Engine} {t : TaskId} {h : Block}

/-- Of the STALLED tasks only those that were served can take entries again, and catch up. -/
theorem handOff_eq {served waiting : List TaskId} {e' : Engine} (hs : stalledTasks e = served ++ waiting)
    (hp : Engine.handPlaces (16 - e.queue.length) (stalledTasks e) e = e')
    (hw : ∀ t ∈ waiting, e'.tasks.get t = e.tasks.get t) :
    e.handOff fr = (served.filter (fun t => e'.takes t)).foldl (fun e t => e.catchUp fr t) e' := by
  have hnone : waiting.filter (fun t => e'.takes t) = [] := List.filter_eq_nil_iff.2 fun t ht => by
    have hst : (e.tasks.get t).state = .stalled := mem_stalledTasks.1 (hs ▸ List.mem_append_right _ ht)
    simp [Engine.takes, TaskRec.takes, hw t ht, hst]
  have heq : e.handOff fr = ((stalledTasks e).filter (fun t => e'.takes t)).foldl (fun e t => e.catchUp fr t) e' := by
    rw [← hp]; rfl
  rw [heq, hs, List.filter_append, hnone, List.append_nil]

theorem handOff_none (hs : ∀ t, (e.tasks.get t).state ≠ .stalled) : e.handOff fr = e := by
  have hnil := stalledTasks_eq_nil hs
  refine handOff_eq (served := []) (waiting := []) hnil ?_ (by simp)
  rw [hnil]; cases 16 - e.queue.length <;> rfl

/-- The STALLED tasks that find a place take it, and those back in RUNNING then catch up. -/
theorem handOff_several (hh : ∀ t, (e.tasks.get t).state = .stalled → (e.tasks.get t).heldBlock ≠ none) :
    let served := (stalledTasks e).take (16 - e.queue.length)
    ∃ e', PlacesTaken served e e' ∧ e.handOff fr =
      (served.filter (fun t => (e'.tasks.get t).state == .running)).foldl (fun e t => e.catchUp fr t) e' := by
  intro served
  have hheld : ∀ t ∈ stalledTasks e, (e.tasks.get t).heldBlock ≠ none := fun t ht => hh t (mem_stalledTasks.1 ht)
  have htaken : PlacesTaken served e _ := handPlaces_takes (16 - e.queue.length) e (stalledTasks_nodup e)
    (fun t => mem_stalledTasks.1) fun t ht => hheld t (List.mem_of_mem_take ht)
  have hsplit : stalledTasks e = served ++ (stalledTasks e).drop (16 - e.queue.length) := (List.take_append_drop _ _).symm
  have hdisj := (List.nodup_append.1 (hsplit ▸ stalledTasks_nodup e)).2.2
  refine ⟨_, htaken, (handOff_eq hsplit rfl fun t ht => htaken.waits t fun hm => hdisj t hm t ht rfl).trans ?_⟩
  refine congrArg (List.foldl _ _) (List.filter_congr fun t ht => ?_)
  obtain ⟨h, hb⟩ := Option.ne_none_iff_exists'.1 (hheld t (List.mem_of_mem_take ht))
  rw [Engine.takes, htaken.takes t h ht hb, placedRecord_takes]

/-- One free place goes to the lowest STALLED task. -/
theorem handOff_one (hlen : e.queue.length = 15) (hs : (e.tasks.get t).state = .stalled)
    (hh : (e.tasks.get t).heldBlock = some h) (least : ∀ u, u < t → (e.tasks.get u).state ≠ .stalled) :
    e.handOff fr =
      if (placedRecord h (e.tasks.get t)).state = .running then (e.takePlace t h).catchUp fr t else e.takePlace t h := by
  obtain ⟨ts, hts⟩ := stalledTasks_of_least hs least
  have ht : t ∉ ts := (List.nodup_cons.1 (hts ▸ stalledTasks_nodup e)).1
  have hplaces : Engine.handPlaces (16 - e.queue.length) (stalledTasks e) e = e.takePlace t h := by
    rw [hlen, hts]; simp [Engine.handPlaces, hs, hh]
  rw [handOff_eq (served := [t]) hts hplaces fun u hu => by
    rw [takePlace_eq]; exact Per8.get_set_ne _ _ (ne_of_mem_of_not_mem hu ht)]
  have htakes : (e.takePlace t h).takes t = ((placedRecord h (e.tasks.get t)).state == .running) := by
    rw [← placedRecord_takes, takePlace_eq, Engine.takes, Per8.get_set_same]
  by_cases hrun : (placedRecord h (e.tasks.get t)).state = .running <;> simp [htakes, hrun]

end

/-! ## The task of the block that was read (R44, R45, R155) -/

section

variable {fr : Front} {e : Engine} {b : Block}

theorem resumePaused_idle (h : ¬((e.tasks.get b.task).state = .paused ∧ (e.tasks.get b.task).pausedOn = some b.number)) :
    e.resumePaused fr b = e := if_neg h

theorem rearmOnRead_idle
    (h : ¬(b.final = true ∧ (e.tasks.get b.task).state = .done ∧ (e.tasks.get b.task).rearmPending = true)) :
    e.rearmOnRead fr b = e := by
  unfold Engine.rearmOnRead
  cases (e.tasks.get b.task).defn with
  | none => rfl
  | some td => exact if_neg h

theorem rearmOnRead_rearms {td : TaskDef} (hf : b.final = true) (hs : (e.tasks.get b.task).state = .done)
    (hr : (e.tasks.get b.task).rearmPending = true) (hd : (e.tasks.get b.task).defn = some td) :
    e.rearmOnRead fr b = e.rearm fr b.task td := by
  unfold Engine.rearmOnRead; rw [hd]; exact if_pos ⟨hf, hs, hr⟩

theorem rearm_starts {t : TaskId} {td : TaskDef} (h : e.armRefusal fr td = none) :
    e.rearm fr t td = e.setTask t ((e.tasks.get t).started fr td) := by
  unfold Engine.rearm; rw [h]; rfl

theorem rearm_fails {t : TaskId} {td : TaskDef} (h : e.armRefusal fr td ≠ none) :
    e.rearm fr t td = e.setTask t { e.tasks.get t with rearmPending := false } := by
  obtain ⟨st, hst⟩ := Option.ne_none_iff_exists'.1 h
  unfold Engine.rearm; rw [hst]; rfl

end

/-! ## The completed read (R155, R174) -/

theorem removeHead_eq {fr : Front} {e : Engine} {b : Block} {rest : List Block} (h : e.queue = b :: rest) :
    e.removeHead fr =
      (((({ e with queue := rest }).handOff fr).resumePaused fr b).rearmOnRead fr b).arbitrate fr.now := by
  unfold Engine.removeHead; rw [h]

/-- The last byte of a READ RESULT reply that gave a block, with no reset due, removes the head. -/
theorem exec_replyCompleted {s : State} (dt : Nat) (pins : ReleasePins) {body : List Byte} {e : Engine}
    (hheld : s.dev.held = false) (hphase : s.dev.port.phase = .reply) (hkind : s.dev.port.kind = some 0x09)
    (hreply : s.dev.port.reply = some ⟨.ok, body⟩) (hreset : s.dev.eng.ctl.resetDue = false)
    (he : (atTime dt s).eng.removeHead (atTime dt s).front = e) :
    exec (.replyCompleted dt pins) s =
      goesTo s (withPort { atTime dt s with eng := e } { (atTime dt s).port with phase := .done }) := by
  have hgave : (atTime dt s).port.gaveBlock = true := by simp [HostPort.gaveBlock, hkind, hreply]
  have hphase' : ¬(atTime dt s).port.phase ≠ .reply := fun hne => hne hphase
  have hreset' : ¬(atTime dt s).eng.ctl.resetDue = true := Bool.eq_false_iff.1 hreset
  subst he
  refine (running_goesTo dt _ hheld).trans (congrArg (goesTo s) ?_)
  unfold Station.replyCompleted
  rw [if_neg hphase', if_neg hreset', if_pos hgave]
  rfl

section

variable {fr : Front} {e : Engine} {b h : Block} {rest : List Block} {t : TaskId} (hq : e.queue = b :: rest)

include hq

/-- No task waits for the place or for the read. -/
theorem removeHead_alone (hs : ∀ t, (e.tasks.get t).state ≠ .stalled)
    (hpaused : ¬((e.tasks.get b.task).state = .paused ∧ (e.tasks.get b.task).pausedOn = some b.number))
    (hrearm : ¬(b.final = true ∧ (e.tasks.get b.task).state = .done ∧ (e.tasks.get b.task).rearmPending = true))
    (hu : unitSettled fr.now e) : e.removeHead fr = { e with queue := rest } := by
  rw [removeHead_eq hq, handOff_none (e := { e with queue := rest }) hs,
    resumePaused_idle (e := { e with queue := rest }) hpaused, rearmOnRead_idle (e := { e with queue := rest }) hrearm]
  exact Engine.arbitrate_settled (unitSettled_congr hu rfl)

/-- Several STALLED tasks: the blocks that find a place have all entered before anything else happens. -/
theorem removeHead_several (hh : ∀ t, (e.tasks.get t).state = .stalled → (e.tasks.get t).heldBlock ≠ none) :
    let served := (stalledTasks e).take (16 - rest.length)
    ∃ e', PlacesTaken served { e with queue := rest } e' ∧
      e.removeHead fr = (((((served.filter (fun t => (e'.tasks.get t).state == .running)).foldl
        (fun e t => e.catchUp fr t) e').resumePaused fr b).rearmOnRead fr b).arbitrate fr.now) := by
  intro served
  obtain ⟨e', htaken, hoff⟩ := handOff_several (fr := fr) (e := { e with queue := rest }) hh
  exact ⟨e', htaken, by rw [removeHead_eq hq, hoff]; rfl⟩

variable (hlen : rest.length = 15) (hs : (e.tasks.get t).state = .stalled) (hh : (e.tasks.get t).heldBlock = some h)
  (least : ∀ u, u < t → (e.tasks.get u).state ≠ .stalled)

include hlen hs hh least

/-- One place, for a task that does not go on at once: its block and its record are all that changes before the task of the
block that was read re-arms. -/
theorem removeHead_places {k : TaskRec} (hk : placedRecord h (e.tasks.get t) = k) (hrun : k.state ≠ .running)
    (hpaused : ¬((e.tasks.get b.task).state = .paused ∧ (e.tasks.get b.task).pausedOn = some b.number))
    (hself : ¬(b.task = t ∧ k.state = .paused ∧ k.pausedOn = some b.number)) :
    e.removeHead fr =
      (({ e with queue := rest ++ [h], tasks := e.tasks.set t k } : Engine).rearmOnRead fr b).arbitrate fr.now := by
  subst hk
  rw [removeHead_eq hq, handOff_one (e := { e with queue := rest }) hlen hs hh least, if_neg hrun, takePlace_eq,
    resumePaused_idle]
  rintro ⟨hst, hon⟩
  by_cases hbt : b.task = t
  · simp only [hbt, Per8.get_set_same] at hst hon
    exact hself ⟨hbt, hst, hon⟩
  · simp only [Per8.get_set_ne _ _ hbt] at hst hon
    exact hpaused ⟨hst, hon⟩

/-- One place, for a task whose run goes on: it catches up before the task of the block that was read resumes. -/
theorem removeHead_resumes {k : TaskRec} (hk : placedRecord h (e.tasks.get t) = k) (hrun : k.state = .running)
    (hf : b.final = false) :
    e.removeHead fr = ((({ e with queue := rest ++ [h], tasks := e.tasks.set t k } : Engine).catchUp fr t).resumePaused
      fr b).arbitrate fr.now := by
  subst hk
  rw [removeHead_eq hq, handOff_one (e := { e with queue := rest }) hlen hs hh least, if_pos hrun, takePlace_eq,
    rearmOnRead_idle (by simp [hf])]

/-- One place, for a task whose run end is pending: it takes its end. -/
theorem removeHead_ends {cause : EndCause} (hp : (e.tasks.get t).runEndPending = some cause)
    (hpaused : ¬((e.tasks.get b.task).state = .paused ∧ (e.tasks.get b.task).pausedOn = some b.number)) :
    e.removeHead fr = (({ e with queue := rest ++ [h], tasks := e.tasks.set t { e.tasks.get t with
      heldBlock := none, state := endsAs cause, endCause := some cause, runEndPending := none, cause := .none } } :
        Engine).rearmOnRead fr b).arbitrate fr.now := by
  refine removeHead_places hq hlen hs hh least (placedRecord_ends hp) ?_ hpaused ?_ <;>
    rcases endsAs_cases cause with hc | hc <;> simp [hc]

end

/-- Settles O26: no task waits for the place; one ends its run with it; one goes on with its run; several share the free
places; the task of the block re-arms once the place is handed on. -/
theorem completedReadFreesAPlace : Obligations.CompletedReadFreesAPlace := by
  refine ⟨?_, ?_, ?_, ?_, ?_⟩
  · intro s dt pins b rest body hheld hphase hkind hreply hreset hq hs hpaused hrearm hu d
    exact exec_replyCompleted dt pins hheld hphase hkind hreply hreset (removeHead_alone (e := d.eng) hq hs hpaused hrearm hu)
  · intro s dt pins b h rest body t cause hheld hphase hkind hreply hreset hq hlen hs hh hp least hpaused hf hu d k
    refine exec_replyCompleted dt pins hheld hphase hkind hreply hreset
      ((removeHead_ends (e := d.eng) hq hlen hs hh least hp hpaused).trans ?_)
    rw [rearmOnRead_idle (by simp [hf])]
    exact Engine.arbitrate_settled (unitSettled_congr hu rfl)
  · intro s dt pins b h rest body t td hheld hphase hkind hreply hreset hq hlen hf hs hh hhf hd hp least d k entered leads
    refine ⟨fun hc hpaused hself => ?_, fun hc => ?_⟩ <;>
      refine exec_replyCompleted dt pins hheld hphase hkind hreply hreset ?_
    · refine (removeHead_places (e := d.eng) hq hlen hs hh least (placedRecord_pauses hp hhf hd hc) (by simp) hpaused
        ?_).trans ?_
      · rintro ⟨hbt, -, hon⟩
        exact hself ⟨hbt, (Option.some.inj hon).symm⟩
      · rw [rearmOnRead_idle (by simp [hf])]; rfl
    · refine removeHead_resumes (e := d.eng) hq hlen hs hh least (placedRecord_runs hp ?_) rfl hf
      rintro ⟨-, td', hd', hc'⟩
      exact hc (Option.some.inj (hd.symm.trans hd') ▸ hc')
  · intro s dt pins b rest body hheld hphase hkind hreply hreset hq hh d served pauses
    obtain ⟨e, htaken, hread⟩ := removeHead_several (fr := d.front) (e := d.eng) hq hh
    have hframe := htaken.frame
    refine ⟨e, htaken.queue, htaken.waits, fun t h ht hb => ?_, by rw [hframe], by rw [hframe], by rw [hframe],
      by rw [hframe], by rw [hframe], exec_replyCompleted dt pins hheld hphase hkind hreply hreset hread⟩
    intro k
    rw [htaken.takes t h ht hb]
    exact ⟨fun cause => placedRecord_ends, fun ⟨hp, hf, td, hd, hc⟩ => placedRecord_pauses hp hf hd hc,
      fun hp hn => placedRecord_runs hp fun ⟨hf, hc⟩ => hn ⟨hp, hf, hc⟩⟩
  · intro s dt pins b h rest body t cause td hheld hphase hkind hreply hreset hq hlen hf hs hh hp least hdone hrearm hd hu
      d placed k leads
    have hne : b.task ≠ t := fun hbt => by rw [hbt, hs] at hdone; cases hdone
    have hget : placed.get b.task = k := Per8.get_set_ne _ _ hne
    have hread := removeHead_ends (fr := d.front) (e := d.eng) hq hlen hs hh least hp (by simp [d, hdone])
    let after : Engine := { d.eng with queue := rest ++ [h], tasks := placed }
    have hrearms : after.rearmOnRead d.front b = after.rearm d.front b.task td := rearmOnRead_rearms hf
      ((congrArg TaskRec.state hget).trans hdone) ((congrArg TaskRec.rearmPending hget).trans hrearm)
      ((congrArg TaskRec.defn hget).trans hd)
    have leads_of : ∀ k', after.rearm d.front b.task td = after.setTask b.task k' → leads k' := fun k' hk' =>
      exec_replyCompleted dt pins hheld hphase hkind hreply hreset (hread.trans
        ((congrArg (Engine.arbitrate d.now) (hrearms.trans hk')).trans (Engine.arbitrate_settled (unitSettled_congr hu rfl))))
    rw [← hget]
    exact ⟨fun ha => leads_of _ (rearm_starts ha), fun ha => leads_of _ (rearm_fails ha)⟩

end Sys2Proof.Safety
end

