-- ==== Sys2Proof/Proofs/Resets.lean ====
section
/-!
PROOFS. RESET#, its release and the waiting RESET; the commands that find no occasion (R159, R164, R165, R174, R178).
-/

namespace Sys2Proof.Safety

open Sys2Proof.Machine

/-! ## How a command meets the station (R165, R174) -/

/-- A command that does not act in reset acts on a running station only (R165). -/
theorem exec_eq_running {c : Instr} (h : actsInReset c = false) : ∃ f, ∀ s, exec c s = s.running c.dt f := by
  cases c with
  | powerOnReset | resetRelease | transactionStart | transactionEnd | pinLevelChange =>
    exact absurd h.symm Bool.false_ne_true
  | unknownRequest dt kind =>
    by_cases hk : kindAssigned kind = true
    · exact ⟨id, fun s => if_pos hk⟩
    · exact ⟨_, fun s => if_neg hk⟩
  | _ => exact ⟨_, fun _ => by unfold exec; exact rfl⟩

/-- The chip's surroundings ask with a request, or, with an assigned kind byte as UNKNOWN_REQUEST, with no command at all
(log 3). -/
theorem exec_eq_request {c : Instr} (h : isRequest c = true) :
    (∃ kind body judge, ∀ s, exec c s = s.request c.dt kind body judge) ∨ ∀ s, exec c s = s.running c.dt id := by
  cases c with
  | unknownRequest dt kind =>
    by_cases hk : kindAssigned kind = true
    · exact .inr fun s => if_pos hk
    · exact .inl ⟨_, _, _, fun s => if_neg hk⟩
  | setup | configureChannel | defineTask | armTask | disarmTask | tearDownTask | defineListenEntry | publishGate
  | readResult | readStatus | readTime | setEvents | ackEvents | clearFault | retire | reset =>
    exact .inl ⟨_, _, _, fun _ => rfl⟩
  | _ => exact absurd h Bool.false_ne_true

/-- Settles O4: such a command needs a running station, the fall of CS# is seen without a transaction, and a request is
taken by a waiting transaction only. -/
theorem commandsWithoutAnOccasion : Obligations.CommandsWithoutAnOccasion := by
  refine ⟨fun c s hheld hc => ?_, fun s dt hheld hcs => ?_, fun c s hc hheld hp => ?_⟩
  · obtain ⟨f, hf⟩ := exec_eq_running hc
    rw [hf, State.running_held _ _ hheld]
  · refine (State.acting_eq dt _ s).trans (congrArg (goesTo s) ?_)
    rw [Station.elapse_held dt hheld, Station.transactionStart, if_neg (Bool.eq_false_iff.1 hcs), if_pos hheld]; rfl
  · rcases exec_eq_request hc with ⟨kind, body, judge, hr⟩ | hr
    · rw [hr, State.request_idle _ _ _ _ hheld hp, elapse_atTime _ hheld]; rfl
    · rw [hr, running_goesTo _ _ hheld]; rfl

/-! ## The reset and its release (R159, R165) -/

theorem inputLevels_elapse (dt : Nat) (d : Station) : (d.elapse dt).inputLevels = d.front.chans.map Channel.pinLevel := by
  rw [Station.inputLevels, Station.elapse_chans]

/-- A release leaves nothing of the station but the levels on the signal pins and CS# (R165). -/
theorem resetNow_elapse (dt : Nat) (pins : ReleasePins) (d : Station) :
    (d.elapse dt).resetNow pins = Station.released pins (d.front.chans.map Channel.pinLevel) d.port.csLow := by
  rw [Station.resetNow, inputLevels_elapse, Station.elapse_port]

theorem resetNow_atTime (dt : Nat) (pins : ReleasePins) (s : State) :
    (atTime dt s).resetNow pins = Station.released pins (s.dev.front.chans.map Channel.pinLevel) s.dev.port.csLow := rfl

theorem exec_resetRelease (dt : Nat) (pins : ReleasePins) (s : State) :
    exec (.resetRelease dt pins) s =
      goesTo s (if s.dev.held = true then (s.dev.elapse dt).resetNow pins else s.dev.elapse dt) := by
  rw [← Station.elapse_held_field dt s.dev]; rfl

/-- Settles O6: the reset holds the released station, and a release acts on a held one only. -/
theorem resetHoldsAndReleases : Obligations.ResetHoldsAndReleases := by
  refine ⟨fun s dt => ?_, fun s dt pins => ⟨fun hheld => ?_, fun hheld => ?_⟩⟩
  · refine (State.acting_eq dt _ s).trans (congrArg (goesTo s) ?_)
    rw [Station.heldInReset, resetNow_elapse, Station.elapse_eng]
  · rw [exec_resetRelease, if_pos hheld, resetNow_elapse]
  · rw [exec_resetRelease, if_neg (Bool.eq_false_iff.1 hheld), elapse_atTime dt hheld]

/-! ## The waiting RESET (R164) -/

/-- The deadline of a waiting reset has come just when its moment is reached (R164). -/
theorem deadlineReached_iff {now moment : Stamp} {e : Engine} (hd : e.ctl.departure = .reset)
    (hm : e.ctl.resetDeadline = some moment) : e.deadlineReached now = true ↔ reached now moment = true := by
  simp [Engine.deadlineReached, hd, hm]

theorem exec_resetDeadline {s : State} (dt : Nat) (pins : ReleasePins) (hheld : s.dev.held = false) :
    let d := atTime dt s
    exec (.resetDeadline dt pins) s = goesTo s (if d.eng.deadlineReached d.now then d.resetNow pins else d) :=
  running_goesTo dt (fun d => if d.eng.deadlineReached d.now then d.resetNow pins else d) hheld

theorem replyCompleted_resetDue {pins : ReleasePins} {d : Station} (hphase : d.port.phase = .reply)
    (hdue : d.eng.ctl.resetDue = true) : d.replyCompleted pins = d.resetNow pins := by
  rw [Station.replyCompleted, if_neg (fun hne => hne hphase), if_pos hdue]

/-- Settles O7: the deadline of the one and the complete reply of the other release the station from reset. -/
theorem waitingResetsTakeEffect : Obligations.WaitingResetsTakeEffect := by
  refine ⟨fun s dt pins moment hheld hd hm => ?_, fun s dt pins hheld hphase hdue => ?_⟩
  · rw [exec_resetDeadline dt pins hheld]
    simp only [deadlineReached_iff (e := (atTime dt s).eng) hd hm, resetNow_atTime]
  · refine (running_goesTo dt _ hheld).trans (congrArg (goesTo s) ?_)
    rw [replyCompleted_resetDue (d := atTime dt s) hphase hdue, resetNow_atTime]

end Sys2Proof.Safety
end

