-- ==== Sys2Proof/Proofs/StationRequests.lean ====
section
/-!
PROOFS. Requests to station control: what HALTED refuses, unknown kind bytes, SETUP, the events and INT#, CLEAR FAULT (R160,
R169 to R171, R173, R175).
-/

namespace Sys2Proof.Safety

open Sys2Proof.Machine

/-! ## What HALTED refuses (R173) -/

theorem isHalted_of_state {d : Station} (h : d.eng.ctl.state = .halted) : d.isHalted = true := beq_iff_eq.2 h

/-- The kind bytes of the ten requests that change the station (R173). -/
def changingKinds : List Byte := [0x01, 0x02, 0x03, 0x04, 0x05, 0x06, 0x07, 0x08, 0x0E, 0x0F]

theorem toNat_of_mem_changingKinds {kind : Byte} (h : kind ∈ changingKinds) : 1 ≤ kind.toNat ∧ kind.toNat ≤ 16 := by
  revert kind; decide

/-- A kind byte that no request has is none of the ten (R175). -/
theorem not_mem_changingKinds {dt : Nat} {kind : Byte} (h : (Instr.unknownRequest dt kind).kindFits = true) :
    kind ∉ changingKinds := by
  intro hk
  have hassigned := toNat_of_mem_changingKinds hk
  simp only [Instr.kindFits, Bool.or_eq_true, decide_eq_true_eq] at h
  omega

/-- A request of the ten is judged by the station state first. -/
theorem exec_eq_request_of_changing {c : Instr} {kind : Byte} {body : List Byte} (hfits : c.kindFits = true)
    (hframe : encodeFrame c = some (kind :: body)) (hk : kind ∈ changingKinds) :
    ∃ judge, (∀ s, exec c s = s.request c.dt kind body judge) ∧
      ∀ d : Station, d.isHalted = true → judge d = d.refuse .halted := by
  cases c with
  | unknownRequest dt k =>
    cases hframe
    exact absurd hk (not_mem_changingKinds hfits)
  | readResult | readStatus | readTime | setEvents | ackEvents | reset =>
    cases hframe
    exact absurd hk (by decide)
  | setup | configureChannel | defineTask | armTask | disarmTask | tearDownTask | defineListenEntry | publishGate
  | clearFault | retire =>
    cases hframe
    exact ⟨_, fun _ => rfl, fun d hd => if_pos hd⟩
  | _ => cases hframe

theorem kindAssigned_eq_false {kind : Byte} (h : kind.toNat = 0 ∨ 16 < kind.toNat) : kindAssigned kind = false := by
  simp only [kindAssigned, Bool.and_eq_false_iff, decide_eq_false_iff_not]
  omega

/-- Settles O18: the ten ask the station state first, and an unassigned kind byte is judged unknown in every state. -/
theorem haltedAndUnknownRequests : Obligations.HaltedAndUnknownRequests := by
  refine ⟨fun s c kind body h hs hwf hframe hk => ?_, fun s dt kind h hkind => ?_⟩
  · have hfits : c.kindFits = true := by
      simp only [Instr.wellFormed, Bool.and_eq_true] at hwf
      obtain ⟨⟨⟨-, hfits⟩, -⟩, -⟩ := hwf
      exact hfits
    obtain ⟨judge, hexec, hjudge⟩ := exec_eq_request_of_changing hfits hframe hk
    rw [hexec]
    exact request_refused c.dt kind body h (hjudge _ (isHalted_of_state hs))
  · refine Eq.trans ?_ (request_refused dt kind [] h rfl)
    exact if_neg (Bool.eq_false_iff.1 (kindAssigned_eq_false hkind))

/-! ## SETUP (R160) -/

theorem clamp_zero_fst (hi v : Nat) : (clamp 0 hi v).1 = min v hi := by
  unfold clamp
  split
  · omega
  · split <;> simp <;> omega

theorem okReply_clamp_zero (hi v : Nat) : okReply (clamp 0 hi v).2 = ⟨if v ≤ hi then .ok else .okAdjusted, []⟩ := by
  unfold clamp
  rw [if_neg (Nat.not_lt_zero v)]
  split
  · rw [if_neg (by omega)]; rfl
  · rw [if_pos (by omega)]; rfl

/-- An UNSET station joins at the clamped position and offers its ANNOUNCE (R122, R160). -/
theorem setup_joins {d : Station} {position : BitVec 16} (hu : d.eng.ctl.state = .unset) :
    d.setup position =
      (let pos := BitVec.ofNat 11 (min position.toNat 2047)
       d.modEng (fun e =>
         ((e.modCtl (fun c => { c with state := .joining })).setOwnPosition pos).offerAnnounce d.front pos true),
       ⟨if position.toNat ≤ 2047 then .ok else .okAdjusted, []⟩) := by
  have hh : d.isHalted = false := isHalted_eq_false (by rw [hu]; decide)
  rw [← clamp_zero_fst, ← okReply_clamp_zero]
  unfold Station.setup
  rw [hh]
  exact if_neg fun hne : d.eng.ctl.state ≠ .unset => hne hu

section

variable {fr : Front} {position : BitVec 11} {joining : Bool} {e : Engine}

/-- An empty queue takes the ANNOUNCE (R122). -/
theorem offerAnnounce_enters (hr : e.refusesOffers = false) (hq : e.tx.queue = []) :
    e.offerAnnounce fr position joining =
      { e with tx := { e.tx with queue := [announceEntry position joining] } } := by
  have hroom : e.roomMade = (e, []) := Engine.roomMade_free (by rw [hq]; decide)
  unfold Engine.offerAnnounce Engine.announceOffer
  rw [hr, hq, hroom]
  simp [Engine.modOutgoing, hq]

/-- A transmitter that answers no offers drops the ANNOUNCE, which has no origin task to tell (R121, R122). -/
theorem offerAnnounce_drops (hr : e.refusesOffers = true) : e.offerAnnounce fr position joining = e.countDropped 1 := by
  unfold Engine.offerAnnounce Engine.announceOffer
  rw [hr]
  exact Engine.giveOutcomes_nil fr _

end

/-- Settles O10: the station joins, and its transmitter takes or drops the ANNOUNCE. -/
theorem setupJoins : Obligations.SetupJoins := by
  intro s dt position h hu hq hsent d pos status own joined
  have leads : ∀ e, joined.offerAnnounce d.front pos true = e →
      exec (.setup dt position) s =
        goesTo s (replied 0x01 (beBytes 2 position.toNat) status [] { d with eng := e }) := by
    rintro e rfl
    exact request_replied dt _ _ h (setup_joins (d := d) hu) rfl
  refine ⟨fun hmute => leads _ ?_, fun hmute => leads _ ?_⟩
  · exact offerAnnounce_enters (e := joined) (refusesOffers_eq_false hmute hsent) hq
  · exact (offerAnnounce_drops (e := joined) (refusesOffers_of_mute hmute)).trans (Engine.countDropped_one joined)

/-! ## Events and INT# (R170, R171) -/

theorem setWidth_seven (b : Byte) : b.setWidth 7 = b.extractLsb' 0 7 := by revert b; decide

section

variable (g f e d c b a : Bool)

/-- Seven events, the first in bit 0, as a byte. -/
theorem events_setWidth :
    (BitVec.ofBool g ++ BitVec.ofBool f ++ BitVec.ofBool e ++ BitVec.ofBool d ++ BitVec.ofBool c ++ BitVec.ofBool b ++
      BitVec.ofBool a).setWidth 8 =
    (0 : BitVec 1) ++ BitVec.ofBool g ++ BitVec.ofBool f ++ BitVec.ofBool e ++ BitVec.ofBool d ++ BitVec.ofBool c ++
      BitVec.ofBool b ++ BitVec.ofBool a := by
  revert g f e d c b a; decide

/-- The same events bit by bit. -/
theorem events_getLsbD :
    let events := BitVec.ofBool g ++ BitVec.ofBool f ++ BitVec.ofBool e ++ BitVec.ofBool d ++ BitVec.ofBool c ++
      BitVec.ofBool b ++ BitVec.ofBool a
    events.getLsbD 0 = a ∧ events.getLsbD 1 = b ∧ events.getLsbD 2 = c ∧ events.getLsbD 3 = d ∧ events.getLsbD 4 = e ∧
      events.getLsbD 5 = f ∧ events.getLsbD 6 = g := by
  revert g f e d c b a; decide

end

/-- The pending set by its bits (12.2). -/
theorem pendingEvents_getLsbD (e : Engine) :
    e.pendingEvents.getLsbD 0 = !e.queue.isEmpty ∧ e.pendingEvents.getLsbD 1 = e.ctl.faultHold ∧
    e.pendingEvents.getLsbD 2 = (e.ctl.state == .halted) ∧ e.pendingEvents.getLsbD 3 = e.ctl.latched.taskEnded ∧
    e.pendingEvents.getLsbD 4 = e.ctl.latched.peerChanged ∧ e.pendingEvents.getLsbD 5 = e.ctl.latched.markerLoss ∧
    e.pendingEvents.getLsbD 6 = e.ctl.latched.timebase := events_getLsbD _ _ _ _ _ _ _

/-- Two sets meet just where both hold one of the seven events. -/
theorem and_ne_zero_getLsbD (p m : BitVec 7) : (!(p &&& m == 0)) =
    (p.getLsbD 0 && m.getLsbD 0 || p.getLsbD 1 && m.getLsbD 1 || p.getLsbD 2 && m.getLsbD 2 || p.getLsbD 3 && m.getLsbD 3 ||
      p.getLsbD 4 && m.getLsbD 4 || p.getLsbD 5 && m.getLsbD 5 || p.getLsbD 6 && m.getLsbD 6) := by
  have nonzero : ∀ x : BitVec 7, (!(x == 0)) = (x.getLsbD 0 || x.getLsbD 1 || x.getLsbD 2 || x.getLsbD 3 || x.getLsbD 4 ||
      x.getLsbD 5 || x.getLsbD 6) := by decide
  rw [nonzero]
  simp only [BitVec.getLsbD_and]

/-- Settles O22: the two requests rewrite the mask and the latches, and INT# is low where the pending set meets the mask. -/
theorem eventsAndTheInterrupt : Obligations.EventsAndTheInterrupt := by
  refine ⟨fun s dt b h => ?_, fun d => ?_⟩
  · intro d l left pending
    refine ⟨?_, ?_⟩
    · rw [← setWidth_seven]
      exact request_replied dt _ _ h rfl rfl
    · have hpending : ({ d.eng with ctl := { d.eng.ctl with latched := left } } : Engine).pendingEvents.setWidth 8 = pending :=
        events_setWidth _ _ _ _ _ _ _
      rw [← hpending]
      exact request_replied dt _ _ h rfl rfl
  · obtain ⟨h0, h1, h2, h3, h4, h5, h6⟩ := pendingEvents_getLsbD d.eng
    rw [Station.intLow, Engine.interrupt, and_ne_zero_getLsbD, h0, h1, h2, h3, h4, h5, h6]

/-! ## CLEAR FAULT (R169) -/

theorem clearFault_clears {d : Station} (hh : d.eng.ctl.state ≠ .halted) (hf : d.eng.ctl.faultHold ≠ false) :
    d.clearFault = (withCtl d { d.eng.ctl with faultHold := false, faultRecord := none }, bare .ok) := by
  unfold Station.clearFault
  rw [isHalted_eq_false hh, eq_true_of_ne_false hf]; rfl

/-- Settles O23: refused in HALTED and with the hold clear, and granted in between. -/
theorem clearFaultReleasesTheHold : Obligations.ClearFaultReleasesTheHold := by
  intro s dt h d
  by_cases hh : s.dev.eng.ctl.state = .halted
  · rw [if_pos hh]
    exact request_refused dt _ _ h (if_pos (isHalted_of_state hh))
  · rw [if_neg hh]
    by_cases hf : s.dev.eng.ctl.faultHold = false
    · rw [if_pos hf]
      exact request_refused dt _ _ h (clearFault_badState (d := d) hh hf)
    · rw [if_neg hf]
      exact request_replied dt _ _ h (clearFault_clears (d := d) hh hf) rfl

end Sys2Proof.Safety
end

