-- ==== Sys2Proof/Proofs/Departures.lean ====
section
/-!
PROOFS. The departures: the RESET request with the HALT it owes (R122, R162, R164), and a RETIRE that leaves a run end pending
with another cause (R41, R152, R163).
-/

namespace Sys2Proof.Safety

open Sys2Proof.Machine

/-! ## A HALT takes its place (R122) -/

theorem ordinary_iff {m : OutEntry} : m.ordinary = true ↔ m.kind ≠ .halt ∧ m.kind ≠ .announce := by
  simp [OutEntry.ordinary]

theorem ordinary_of_announce {m : OutEntry} (h : m.kind = .announce) : m.ordinary = false := by
  simp [OutEntry.ordinary, h]

theorem haltQueued_iff {e : Engine} : e.haltQueued = true ↔ ∃ m ∈ e.tx.queue, m.kind = .halt := by
  simp [Engine.haltQueued]

theorem haltQueued_eq_false {e : Engine} (h : ∀ m ∈ e.tx.queue, m.kind ≠ .halt) : e.haltQueued = false :=
  Bool.eq_false_iff.2 fun hq => by
    obtain ⟨m, hm, hk⟩ := haltQueued_iff.1 hq
    exact h m hm hk

theorem newReason_eq (r : HaltReason) (m : OutEntry) :
    m.newReason r = if m.kind = .halt ∧ m.inTransmission = false then { m with payload := haltPayload r } else m := by
  simp only [OutEntry.newReason, Bool.and_eq_true, beq_iff_eq, Bool.not_eq_true']

section

variable {fr : Front} {r : HaltReason} {e : Engine}

/-- A queued HALT takes the new reason, unless it is in transmission. -/
theorem placeHalt_renews (h : ∃ m ∈ e.tx.queue, m.kind = .halt) :
    e.placeHalt r = { e with tx := { e.tx with queue := e.tx.queue.map (fun m =>
      if m.kind = .halt ∧ m.inTransmission = false then { m with payload := haltPayload r } else m) } } := by
  rw [Engine.placeHalt, if_pos (haltQueued_iff.2 h), funext (newReason_eq r)]; rfl

/-- Otherwise it goes to the head. -/
theorem placeHalt_heads (h : ∀ m ∈ e.tx.queue, m.kind ≠ .halt) :
    e.placeHalt r = { e with tx := { e.tx with queue := haltEntry r :: e.tx.queue } } :=
  if_neg (Bool.eq_false_iff.1 (haltQueued_eq_false h))

/-- With a HALT queued no room is needed. -/
theorem offerHalt_queued (hr : e.refusesOffers = false) (h : ∃ m ∈ e.tx.queue, m.kind = .halt) :
    e.offerHalt fr r = e.placeHalt r := by
  rw [Engine.offerHalt, if_neg (Bool.eq_false_iff.1 hr), if_pos (haltQueued_iff.2 h)]

/-- Without one room is made first. -/
theorem offerHalt_room (hr : e.refusesOffers = false) (h : ∀ m ∈ e.tx.queue, m.kind ≠ .halt) :
    e.offerHalt fr r = (e.makeRoom fr).placeHalt r := by
  rw [Engine.offerHalt, if_neg (Bool.eq_false_iff.1 hr), if_neg (Bool.eq_false_iff.1 (haltQueued_eq_false h))]

/-- With a place free the HALT goes to the head. -/
theorem offerHalt_enters (hr : e.refusesOffers = false) (h : ∀ m ∈ e.tx.queue, m.kind ≠ .halt)
    (hl : e.tx.queue.length < 8) :
    e.offerHalt fr r = { e with tx := { e.tx with queue := haltEntry r :: e.tx.queue } } := by
  rw [offerHalt_room hr h, Engine.makeRoom, Engine.roomMade_free hl, Engine.giveOutcomes_nil, placeHalt_heads h]

/-- The entry that makes room in a full queue is counted, and its origin task is told. -/
theorem makeRoom_full {pre post : List OutEntry} {m : OutEntry} (hq : e.tx.queue = pre ++ m :: post)
    (hl : 8 ≤ e.tx.queue.length) (hm : m.ordinary = true) (hp : ∀ x ∈ post, x.kind = .announce) :
    e.makeRoom fr = { e with
      tx := { e.tx with queue := pre ++ post },
      ctl := { e.ctl with
        counters := { e.ctl.counters with dropped := bumpBy 1 e.ctl.counters.dropped },
        latched := { e.ctl.latched with markerLoss := true } } }.giveOutcomes fr (m.outcome .dropped 0) := by
  rw [Engine.makeRoom, Engine.roomMade_full hq hl hm fun x hx => ordinary_of_announce (hp x hx)]

/-! ## The RESET request (R164) -/

theorem requestReset_due (h : e.ctl.state = .unset ∨ e.ctl.state = .halted ∨ e.tx.mute = true) :
    e.requestReset fr = { e with ctl := { e.ctl with resetDue := true } } := if_pos h

section

variable (hs : e.ctl.state = .joining ∨ e.ctl.state = .live) (hmute : e.tx.mute = false)

include hs hmute

/-- A station that takes part on the line has a departure to make. -/
theorem not_resetDue : ¬(e.ctl.state = .unset ∨ e.ctl.state = .halted ∨ e.tx.mute = true) := by
  rcases hs with hs | hs <;> simp [hs, hmute]

theorem requestReset_waits (hd : e.ctl.departure = .reset) : e.requestReset fr = e := by
  rw [Engine.requestReset, if_neg (not_resetDue hs hmute), if_pos hd]

theorem requestReset_departs (hd : e.ctl.departure ≠ .reset) :
    e.requestReset fr = { e with ctl := { e.ctl with
      departure := .reset, resetDeadline := some (fr.now + BitVec.ofNat 48 (2 ^ 24)),
      haltOwed := some .reset } }.offerHalt fr .reset := by
  rw [Engine.requestReset, if_neg (not_resetDue hs hmute), if_neg hd]; rfl

end

end

/-- Settles O25: due at once, waiting already, or a departure whose HALT finds its place. -/
theorem resetRequestOwesTheHalt : Obligations.ResetRequestOwesTheHalt := by
  intro s dt h d leads c payload halt leaving queued
  have leads_of : ∀ e, d.eng.requestReset d.front = e → leads e := by
    rintro e rfl
    exact request_replied dt _ _ h rfl rfl
  refine ⟨fun hdue => leads_of _ (requestReset_due hdue), fun hs hmute =>
    ⟨fun hd => leads_of _ (requestReset_waits hs hmute hd), fun hd hsent => ?_⟩⟩
  have offers : ∀ e, ({ d.eng with ctl := leaving } : Engine).offerHalt d.front .reset = e → leads e := fun e he =>
    leads_of e ((requestReset_departs hs hmute hd).trans he)
  have hr : ({ d.eng with ctl := leaving } : Engine).refusesOffers = false := refusesOffers_eq_false hmute hsent
  refine ⟨fun hhalt => ?_, fun hnone hroom => ?_, ?_⟩
  · exact offers _ ((offerHalt_queued hr hhalt).trans (placeHalt_renews hhalt))
  · exact offers _ (offerHalt_enters hr hnone hroom)
  · intro pre m post hq hfull hk hk' hpre hpost counted e
    have hleft : ∀ x ∈ pre ++ post, x.kind ≠ .halt := fun x hx => by
      rcases List.mem_append.1 hx with hx | hx
      · exact hpre x hx
      · rw [hpost x hx]; decide
    have hnone : ∀ x ∈ d.eng.tx.queue, x.kind ≠ .halt := fun x hx => by
      rw [hq] at hx
      rcases List.mem_append.1 hx with hx | hx
      · exact hpre x hx
      · rcases List.mem_cons.1 hx with rfl | hx
        · exact hk
        · rw [hpost x hx]; decide
    have hoffer : ({ d.eng with ctl := leaving } : Engine).offerHalt d.front .reset =
        (e.giveOutcomes d.front (m.outcome .dropped 0)).placeHalt .reset := by
      refine (offerHalt_room hr hnone).trans (congrArg (Engine.placeHalt .reset) ?_)
      exact makeRoom_full hq hfull (ordinary_iff.2 ⟨hk, hk'⟩) hpost
    refine ⟨fun horigin => offers _ (hoffer.trans ?_), ?_⟩
    · rw [outcome_of_none horigin, Engine.giveOutcomes_nil]
      exact placeHalt_heads hleft
    · intro t o horigin ho told hkinds
      refine offers _ (hoffer.trans ?_)
      rw [outcome_of_some horigin ho, giveOutcomes_one]
      exact placeHalt_heads hkinds

/-! ## RETIRE (R163) -/

/-- The definition of both tasks below: TIMESTAMP, blocks of two results. -/
def pairsOfStamps : TaskDef :=
  { blockSize := 2, runLength := 0, continuation := .stopAtEnd, failLimit := 0, onPeerLost := .keep, onFailureRun := .keep,
    fields := .timestamp .a }

/-- A TIMESTAMP run with an open block. -/
def stampRun (openBlock : List Result) : TaskRec :=
  { TaskRec.emptied with defn := some pairsOfStamps, state := .running, openBlock := some openBlock, run := .timestamp 0 }

/-- A LIVE station with 16 blocks queued, which task 1 has offered at this moment. Task 0 holds one result in its open block;
task 1 runs on with a run end pending, which R41 gives to STALLED tasks only, but which a state can hold. -/
def retiringWithEndPending : State :=
  let d := State.reset.dev
  let tasks := (d.eng.tasks.set 0 (stampRun [.timestamp ⟨0, 0, 0, 0, false, false⟩])).set 1
    { stampRun [] with nextBlock := 1, runEndPending := some .length }
  let offered : Block :=
    { task := 1, kind := .timestamp, number := 0, final := false, short := false, results := [], offered := some ⟨0, false⟩ }
  { dev := { d with
      eng := { d.eng with tasks := tasks, queue := List.replicate 16 offered, ctl := { d.eng.ctl with state := .live } },
      port := { d.port with phase := .summary, csLow := true } },
    pending := [] }

/-- Refutes O24: the final block of task 0 takes the place of task 1's block. Task 1, now STALLED with that block, counts as
ended already, since the state has its run end pending: RETIRE passes it over, and its cause stays LENGTH. -/
theorem not_retireEndsEveryRun : ¬Obligations.RetireEndsEveryRun := by
  intro h
  obtain ⟨hends, -⟩ := h retiringWithEndPending 0 ⟨rfl, rfl⟩ (.inr rfl) rfl
  exact absurd (hends 1 rfl) (by decide)

end Sys2Proof.Safety
end

