-- ==== Sys2Proof/Proofs/StatusReport.lean ====
section
/-!
PROOFS. READ STATUS: the reply group by group, and the bytes of each group (R135, R172, 12.6).
-/

namespace Sys2Proof

/-! ## The records of a table by their numbers -/

variable {α : Type}

theorem Per8.getElem?_toList (p : Per8 α) (i : Fin 8) : p.toList[i.val]? = some (p.get i) := by
  rcases fin8_cases i with rfl | rfl | rfl | rfl | rfl | rfl | rfl | rfl <;> rfl

theorem toNat_eq_low3 (i : BitVec 4) : i.toNat = if i.msb = true then 8 + (low3 i).val else (low3 i).val := by
  revert i; decide

theorem Per16.getElem?_toList (p : Per16 α) (i : BitVec 4) : p.toList[i.toNat]? = some (p.get i) := by
  rw [toNat_eq_low3, Per16.toList, Per16.get]
  split
  · rw [List.getElem?_append_right (Nat.le_add_right 8 _), ← Per8.getElem?_toList p.hi]
    exact congrArg (p.hi.toList[·]?) (Nat.add_sub_cancel_left 8 _)
  · rw [List.getElem?_append_left (low3 i).isLt, Per8.getElem?_toList]

end Sys2Proof

namespace Sys2Proof.Safety

open Sys2Proof.Machine

/-! ## Places in a list of groups -/

section

variable {α β : Type}

/-- What stands in one group of a concatenation, at the place where the group begins. -/
theorem slice_flatten {gs : List (List α)} {k j n : Nat} {g : List α} (hk : gs[k]? = some g) (hn : j + n ≤ g.length) :
    (gs.flatten.drop (((gs.map List.length).take k).sum + j)).take n = (g.drop j).take n := by
  induction gs generalizing k with
  | nil => cases hk
  | cons a gs ih =>
    cases k with
    | zero =>
      cases hk
      simp only [List.flatten_cons, List.take_zero, List.sum_nil, Nat.zero_add]
      rw [List.drop_append_of_le_length (by omega), List.take_append_of_le_length (by rw [List.length_drop]; omega)]
    | succ k =>
      rw [List.flatten_cons, List.map_cons, List.take_succ_cons, List.sum_cons, Nat.add_assoc, ← List.drop_drop,
        List.drop_left]
      exact ih hk

/-- The records of one table are groups of one length. -/
theorem slice_flatMap {f : α → List β} {m k : Nat} {l : List α} {x : α} (hm : ∀ a, (f a).length = m) (hk : l[k]? = some x) :
    ((l.flatMap f).drop (m * k)).take m = f x := by
  induction l generalizing k with
  | nil => cases hk
  | cons a l ih =>
    cases k with
    | zero =>
      cases hk
      simp [← hm x]
    | succ k =>
      rw [List.flatMap_cons, Nat.mul_succ, Nat.add_comm, ← hm a, ← List.drop_drop, List.drop_left, hm a]
      exact ih hk

theorem length_flatMap_const {f : α → List β} {m : Nat} (hm : ∀ a, (f a).length = m) (l : List α) :
    (l.flatMap f).length = m * l.length := by
  induction l with
  | nil => rfl
  | cons a l ih => rw [List.flatMap_cons, List.length_append, hm, ih, List.length_cons, Nat.mul_succ, Nat.add_comm]

end

/-! ## The groups of the reply (12.6) -/

/-- The ten groups of READ STATUS, which `statusBody` puts one behind the other. -/
def statusGroups (tb : Timebase) (gates : Per16 Gate) (e : Engine) : List (List Byte) :=
  [stationGroup e.ctl e.tx.mute tb, faultGroup e.ctl, eventGroup e, taskIds.flatMap (taskBytes e), queueGroup e.queue,
   e.slots.toList.flatMap slotBytes, beBytes 1 e.tx.queue.length, e.peers.toList.flatMap peerBytes,
   gates.toList.flatMap gateBytes, e.ctl.counters.toList.flatMap (fun c => beBytes 2 c.toNat)]

/-- Their lengths. -/
def groupLengths : List Nat := [3, 10, 2, 64, 4, 24, 1, 144, 256, 24]

@[simp] theorem taskBytes_length (e : Engine) (t : TaskId) : (taskBytes e t).length = 8 := by simp [taskBytes]

@[simp] theorem slotBytes_length (s : Option Slot) : (slotBytes s).length = 3 := by cases s <;> rfl

@[simp] theorem peerBytes_length (p : Peer) : (peerBytes p).length = 9 := by simp [peerBytes]

@[simp] theorem gateBytes_length (g : Gate) : (gateBytes g).length = 16 := by simp [gateBytes]

section

variable (tb : Timebase) (gates : Per16 Gate) (e : Engine)

theorem statusBody_eq_flatten : statusBody tb gates e = (statusGroups tb gates e).flatten := by
  simp [statusBody, statusGroups]

theorem statusGroups_lengths :
    (statusGroups tb gates e).map List.length = groupLengths := by
  simp [groupLengths, statusGroups, stationGroup, faultGroup, eventGroup, queueGroup, taskIds, Per8.toList, Per16.toList,
    Counters.toList]

theorem statusBody_length : (statusBody tb gates e).length = 532 := by
  rw [statusBody_eq_flatten, List.length_flatten, statusGroups_lengths]; rfl

variable {tb gates e}

theorem statusGroups_length {k : Nat} {g : List Byte} (hk : (statusGroups tb gates e)[k]? = some g) :
    g.length = groupLengths.getD k 0 := by
  rw [← statusGroups_lengths tb gates e, List.getD_eq_getElem?_getD, List.getElem?_map, hk]; rfl

/-- Bytes of one group in the reply. -/
theorem statusBody_slice {k : Nat} {g : List Byte} (j n : Nat) (hk : (statusGroups tb gates e)[k]? = some g)
    (hn : j + n ≤ groupLengths.getD k 0) :
    ((statusBody tb gates e).drop ((groupLengths.take k).sum + j)).take n =
      (g.drop j).take n := by
  rw [statusBody_eq_flatten, ← statusGroups_lengths tb gates e]
  exact slice_flatten hk (by rw [statusGroups_length hk]; exact hn)

/-- A whole group in the reply. -/
theorem statusBody_group (k : Nat) {g : List Byte} (hk : (statusGroups tb gates e)[k]? = some g) :
    ((statusBody tb gates e).drop (groupLengths.take k).sum).take (groupLengths.getD k 0) = g := by
  refine (statusBody_slice 0 _ hk (Nat.le_of_eq (Nat.zero_add _))).trans ?_
  rw [List.drop_zero, ← statusGroups_length hk, List.take_length]

/-- One record of a table in the reply. -/
theorem statusBody_record {α : Type} (k m i : Nat) {f : α → List Byte} {l : List α} {x : α}
    (hk : (statusGroups tb gates e)[k]? = some (l.flatMap f)) (hm : ∀ a, (f a).length = m) (hi : l[i]? = some x) :
    ((statusBody tb gates e).drop ((groupLengths.take k).sum + m * i)).take m = f x := by
  obtain ⟨hlt, -⟩ := List.getElem?_eq_some_iff.1 hi
  refine (statusBody_slice _ _ hk ?_).trans (slice_flatMap hm hi)
  calc m * i + m = m * (i + 1) := rfl
    _ ≤ m * l.length := Nat.mul_le_mul_left m hlt
    _ = (l.flatMap f).length := (length_flatMap_const hm l).symm
    _ = groupLengths.getD k 0 := statusGroups_length hk

end

/-! ## Numbers and fields in bytes -/

/-- Two bytes of a number, most significant first (12.6). -/
def wordBytes (v : BitVec 16) : List Byte := [v.extractLsb' 8 8, v.extractLsb' 0 8]

/-- Six bytes of a stamp, zeros for an absent one (12.6). -/
def sixBytes (t : Option Stamp) : List Byte := (List.range 6).map (fun i => (t.getD 0).extractLsb' (40 - 8 * i) 8)

theorem beBytes_two (v : BitVec 16) : beBytes 2 v.toNat = wordBytes v := by
  simp only [beBytes, ofNat_div_eq_extractLsb', wordBytes]

/-- A number of any size shows its lowest 16 bits. -/
theorem beBytes_two_ofNat (v : Nat) : beBytes 2 v = wordBytes (BitVec.ofNat 16 v) := by
  rw [← beBytes_two, BitVec.toNat_ofNat]
  simp only [beBytes, List.cons.injEq, and_true, ← BitVec.toNat_inj, BitVec.toNat_ofNat]
  omega

theorem stampBytes_eq_sixBytes (t : Option Stamp) : stampBytes t = sixBytes t := by
  cases t with
  | none => rfl
  | some t => rw [stampBytes_eq]; rfl

/-- An absent number counts as 0. -/
theorem getD_toNat {w : Nat} (o : Option (BitVec w)) : (o.map BitVec.toNat).getD 0 = (o.getD 0).toNat := by
  cases o <;> simp

theorem toNat_append_add {m n : Nat} (x : BitVec m) (y : BitVec n) : (x ++ y).toNat = x.toNat * 2 ^ n + y.toNat := by
  rw [BitVec.toNat_append, ← Nat.shiftLeft_add_eq_or_of_lt y.isLt, Nat.shiftLeft_eq]

theorem toNat_ofBool_eq (b : Bool) : (BitVec.ofBool b).toNat = bitOf b := by cases b <;> rfl

/-- Fields packed into a byte are the byte whose number is their sum. -/
theorem packByte_eq {fields : List (Nat × Nat)} {w : Byte}
    (h : fields.foldl (fun acc p => acc + p.2 * 2 ^ p.1) 0 = w.toNat) : packByte fields = w := by
  rw [packByte, h, BitVec.ofNat_toNat, BitVec.setWidth_eq]

theorem packByte_single (v : Nat) : packByte [(0, v)] = BitVec.ofNat 8 v := by simp [packByte]

theorem ofNat_bitOf (b : Bool) : BitVec.ofNat 8 (bitOf b) = (0 : BitVec 7) ++ BitVec.ofBool b := by cases b <;> rfl

theorem flagByte_four (a b c d : Bool) :
    flagByte [a, b, c, d] = (0 : BitVec 4) ++ BitVec.ofBool d ++ BitVec.ofBool c ++ BitVec.ofBool b ++ BitVec.ofBool a := by
  revert a b c d; decide

/-! ## Codes fit their fields -/

theorem getD_code_lt {α : Type} {code : α → Nat} {n : Nat} (hn : 0 < n) (h : ∀ a, code a < n) (o : Option α) :
    (o.map code).getD 0 < n := by
  cases o with
  | none => exact hn
  | some a => exact h a

theorem stationState_code_lt (s : StationState) : s.code < 4 := by cases s <;> decide

theorem departure_code_lt (p : Departure) : p.code < 4 := by cases p <;> decide

theorem haltReason_code_lt (r : HaltReason) : r.code < 4 := by cases r <;> decide

theorem monitor_code_lt (m : Monitor) : m.code < 4 := by cases m <;> decide

theorem endCause_code_lt (c : EndCause) : c.code < 8 := by cases c <;> decide

theorem peerState_code_lt (s : PeerState) : s.code < 4 := by cases s <;> decide

theorem gateState_code_lt (s : GateState) : s.code < 2 := by cases s <;> decide

/-! ## The bytes of the groups (12.6) -/

theorem stationGroup_eq (c : Control) (mute : Bool) (tb : Timebase) : stationGroup c mute tb =
    [(0 : BitVec 2) ++ BitVec.ofBool mute ++ BitVec.ofBool c.longUnit ++ c.stationNo,
      (0 : BitVec 1) ++ BitVec.ofNat 2 ((c.haltOwed.map HaltReason.code).getD 0) ++ BitVec.ofBool c.haltOwed.isSome ++
        BitVec.ofNat 2 c.departure.code ++ BitVec.ofNat 2 c.state.code,
      (0 : BitVec 5) ++ BitVec.ofBool tb.degraded ++ BitVec.ofNat 2 tb.monitor.code] := by
  have hs := stationState_code_lt c.state
  have hd := departure_code_lt c.departure
  have hr := getD_code_lt (by decide) haltReason_code_lt c.haltOwed
  have hm := monitor_code_lt tb.monitor
  simp only [stationGroup, List.cons.injEq, and_true]
  refine ⟨packByte_eq ?_, packByte_eq ?_, packByte_eq ?_⟩ <;>
    simp only [List.foldl, toNat_append_add, toNat_ofBool_eq, BitVec.toNat_ofNat, BitVec.ofNat_eq_ofNat] <;> omega

theorem faultGroup_eq (c : Control) : faultGroup c =
    [(0 : BitVec 5) ++ BitVec.ofBool c.haltCause.isSome ++ BitVec.ofBool c.faultRecord.isSome ++ BitVec.ofBool c.faultHold,
      BitVec.ofNat 8 ((c.faultRecord.map (fun r => r.cls.code)).getD 0)] ++
      sixBytes (c.faultRecord.map (fun r => r.stamp)) ++
      [(c.faultRecord.map (fun r => r.detail)).getD 0, BitVec.ofNat 8 ((c.haltCause.map HaltCause.code).getD 0)] := by
  rw [faultGroup, stampBytes_eq_sixBytes, packByte_single, packByte_single]
  refine congrArg (fun x => [x, _] ++ _ ++ _) (packByte_eq ?_)
  simp only [List.foldl, toNat_append_add, toNat_ofBool_eq, BitVec.toNat_ofNat, BitVec.ofNat_eq_ofNat]
  omega

theorem taskBytes_eq {e : Engine} {t : TaskId} {k : TaskRec} (hk : e.tasks.get t = k) (hq : e.queue.length ≤ 16) :
    taskBytes e t = [BitVec.ofNat 8 k.state.code, BitVec.ofNat 8 k.cause.code] ++
      wordBytes (BitVec.ofNat 16 k.resultsInRun) ++ [BitVec.ofNat 8 k.failCount,
      BitVec.ofBool k.endCause.isSome ++ (0 : BitVec 4) ++ BitVec.ofNat 3 ((k.endCause.map EndCause.code).getD 0),
      (0 : BitVec 7) ++ BitVec.ofBool k.rearmPending,
      BitVec.ofBool k.heldBlock.isSome ++ (0 : BitVec 2) ++
        BitVec.ofNat 5 (e.queue.filter (fun b => b.task == t)).length] := by
  have hblocks : e.blocksOf t ≤ 16 := Nat.le_trans (List.length_filter_le _ _) hq
  have hcode := getD_code_lt (by decide) endCause_code_lt k.endCause
  have hend : packByte [(0, (k.endCause.map EndCause.code).getD 0), (7, bitOf k.endCause.isSome)] =
      BitVec.ofBool k.endCause.isSome ++ (0 : BitVec 4) ++ BitVec.ofNat 3 ((k.endCause.map EndCause.code).getD 0) := by
    refine packByte_eq ?_
    simp only [List.foldl, toNat_append_add, toNat_ofBool_eq, BitVec.toNat_ofNat, BitVec.ofNat_eq_ofNat]
    omega
  have hheld : packByte [(0, e.blocksOf t), (7, bitOf k.heldBlock.isSome)] =
      BitVec.ofBool k.heldBlock.isSome ++ (0 : BitVec 2) ++ BitVec.ofNat 5 (e.blocksOf t) := by
    refine packByte_eq ?_
    simp only [List.foldl, toNat_append_add, toNat_ofBool_eq, BitVec.toNat_ofNat, BitVec.ofNat_eq_ofNat]
    omega
  simp only [taskBytes, hk, beBytes_two_ofNat, packByte_single, ofNat_bitOf, hend, hheld]
  rfl

theorem queueGroup_eq (q : List Block) : queueGroup q =
    [BitVec.ofNat 8 q.length,
      BitVec.ofBool q.head?.isSome ++ (0 : BitVec 4) ++ BitVec.ofNat 3 ((q.head?.map (fun b => b.task.val)).getD 0)] ++
      wordBytes ((q.head?.map (fun b => b.number)).getD 0) := by
  have htask := getD_code_lt (code := fun b : Block => b.task.val) (by decide) (fun b => b.task.isLt) q.head?
  have hnumber : (q.head?.map (fun b => b.number.toNat)).getD 0 = ((q.head?.map Block.number).getD 0).toNat := by
    rw [← getD_toNat, Option.map_map]; rfl
  rw [queueGroup, packByte_single, hnumber, beBytes_two]
  refine congrArg (fun x => [_, x] ++ _) (packByte_eq ?_)
  simp only [List.foldl, toNat_append_add, toNat_ofBool_eq, BitVec.toNat_ofNat, BitVec.ofNat_eq_ofNat]
  omega

theorem slotBytes_some (y : Slot) : slotBytes (some y) =
    [(1 : BitVec 1) ++ (0 : BitVec 4) ++ BitVec.ofNat 3 y.task.val, y.source ++ y.tag, BitVec.ofNat 8 y.arrival] := by
  have htask := y.task.isLt
  simp only [slotBytes, packByte_single, List.cons.injEq, and_true]
  refine ⟨packByte_eq ?_, packByte_eq ?_⟩ <;>
    simp only [List.foldl, toNat_append_add, BitVec.toNat_ofNat, BitVec.ofNat_eq_ofNat] <;> omega

theorem peerBytes_eq (p : Peer) : peerBytes p =
    [(0 : BitVec 1) ++ BitVec.ofBool p.lastAnnounce.isSome ++ BitVec.ofBool p.position.isSome ++
        BitVec.ofBool p.haltReason.isSome ++ BitVec.ofNat 2 ((p.haltReason.map HaltReason.code).getD 0) ++
        BitVec.ofNat 2 p.state.code] ++
      wordBytes ((0 : BitVec 5) ++ p.position.getD 0) ++ sixBytes p.lastAnnounce := by
  have hstate := peerState_code_lt p.state
  have hreason := getD_code_lt (by decide) haltReason_code_lt p.haltReason
  have hposition : (p.position.map BitVec.toNat).getD 0 = ((0 : BitVec 5) ++ p.position.getD 0).toNat := by
    rw [getD_toNat, toNat_append_add]
    exact (Nat.zero_add _).symm
  have hfields : packByte [(0, p.state.code), (2, (p.haltReason.map HaltReason.code).getD 0), (4, bitOf p.haltReason.isSome),
      (5, bitOf p.position.isSome), (6, bitOf p.lastAnnounce.isSome)] =
      (0 : BitVec 1) ++ BitVec.ofBool p.lastAnnounce.isSome ++ BitVec.ofBool p.position.isSome ++
        BitVec.ofBool p.haltReason.isSome ++ BitVec.ofNat 2 ((p.haltReason.map HaltReason.code).getD 0) ++
        BitVec.ofNat 2 p.state.code := by
    refine packByte_eq ?_
    simp only [List.foldl, toNat_append_add, toNat_ofBool_eq, BitVec.toNat_ofNat, BitVec.ofNat_eq_ofNat]
    omega
  rw [peerBytes, hfields, hposition, stampBytes_eq_sixBytes]
  exact congrArg ([_] ++ · ++ _) (beBytes_two _)

theorem gateBytes_eq (g : Gate) : gateBytes g =
    [(0 : BitVec 3) ++ BitVec.ofBool g.closer.isSome ++ BitVec.ofBool g.closeTime.isSome ++ BitVec.ofBool g.opener.isSome ++
        BitVec.ofBool g.openTime.isSome ++ BitVec.ofNat 1 g.state.code,
      (0 : BitVec 4) ++ BitVec.ofBool g.negative ++ BitVec.ofBool g.reopened ++ BitVec.ofBool g.orphaned ++
        BitVec.ofBool g.unplaced] ++
      sixBytes (g.openTime.map (fun t => t.stamp)) ++ [g.opener.getD 0 ++ g.closer.getD 0] ++ sixBytes g.closeTime ++
      [g.generation] := by
  have hstate := gateState_code_lt g.state
  have hflags : packByte [(0, g.state.code), (1, bitOf g.openTime.isSome), (2, bitOf g.opener.isSome),
      (3, bitOf g.closeTime.isSome), (4, bitOf g.closer.isSome)] =
      (0 : BitVec 3) ++ BitVec.ofBool g.closer.isSome ++ BitVec.ofBool g.closeTime.isSome ++ BitVec.ofBool g.opener.isSome ++
        BitVec.ofBool g.openTime.isSome ++ BitVec.ofNat 1 g.state.code := by
    refine packByte_eq ?_
    simp only [List.foldl, toNat_append_add, toNat_ofBool_eq, BitVec.toNat_ofNat, BitVec.ofNat_eq_ofNat]
    omega
  have hstations : packByte [(0, (g.closer.map BitVec.toNat).getD 0), (4, (g.opener.map BitVec.toNat).getD 0)] =
      g.opener.getD 0 ++ g.closer.getD 0 := by
    refine packByte_eq ?_
    simp only [List.foldl, toNat_append_add, getD_toNat]
    omega
  have hgeneration : beBytes 1 g.generation.toNat = [g.generation] := by
    rw [beBytes_one, BitVec.ofNat_toNat, BitVec.setWidth_eq]
  rw [gateBytes, hflags, hstations, hgeneration, flagByte_four, stampBytes_eq_sixBytes, stampBytes_eq_sixBytes]

/-! ## The request (R135, R172) -/

theorem readStatus_eq (d : Station) (clear : Bool) :
    d.readStatus clear =
      (if clear then withCtl d { d.eng.ctl with counters := ⟨0, 0, 0, 0, 0, 0, 0, 0, 0, 0, 0, 0⟩ } else d,
        ⟨.ok, statusBody d.front.tb d.gates d.eng⟩) := rfl

/-- Settles O20: the reply with the counters kept or cleared, then the groups at their places, byte by byte. -/
theorem readStatusReportsTheStation : Obligations.ReadStatusReportsTheStation := by
  refine ⟨fun s dt options h => ?_, fun d hq => ?_⟩
  · intro d body
    exact ⟨statusBody_length _ _ _, request_replied dt _ _ h (readStatus_eq d _) (by split <;> rfl)⟩
  · intro e c n body slice bit two six reason head
    refine ⟨?_, ?_, ?_, fun t => ?_, ?_, fun i => ⟨fun hi => ?_, fun y hi => ?_⟩, ?_, fun i => ?_, fun i => ?_, ?_⟩
    · exact (statusBody_group 0 rfl).trans (stationGroup_eq c e.tx.mute d.front.tb)
    · exact (statusBody_group 1 rfl).trans (faultGroup_eq c)
    · exact statusBody_group 2 rfl
    · have hi : taskIds[t.val]? = some t := by revert t; decide
      exact (statusBody_record 3 8 t.val rfl (taskBytes_length e) hi).trans (taskBytes_eq rfl hq)
    · exact (statusBody_group 4 rfl).trans (queueGroup_eq e.queue)
    · exact (statusBody_record 5 3 i.val rfl slotBytes_length (Per8.getElem?_toList _ i)).trans (congrArg slotBytes hi)
    · exact (statusBody_record 5 3 i.val rfl slotBytes_length (Per8.getElem?_toList _ i)).trans
        ((congrArg slotBytes hi).trans (slotBytes_some y))
    · exact (statusBody_group 6 rfl).trans (beBytes_one _)
    · exact (statusBody_record 7 9 i.toNat rfl peerBytes_length (Per16.getElem?_toList _ i)).trans (peerBytes_eq _)
    · exact (statusBody_record 8 16 i.toNat rfl gateBytes_length (Per16.getElem?_toList _ i)).trans (gateBytes_eq _)
    · exact (statusBody_group 9 rfl).trans (congrArg (List.flatMap · _) (funext beBytes_two))

end Sys2Proof.Safety
end

