-- ==== Sys2Proof/Proofs/RequestFrames.lean ====
section
/-!
PROOFS. The frames of host requests: numbers in bytes read back, a frame is complete, and it decodes to its request, as bytes
and as a word (12.3, R175, log 27).
-/

namespace Sys2Proof

open Sys2Proof.Machine

/-! ## Numbers in bytes (chapter 12, opening) -/

/-- Reading on over the bytes of a number: what was read moves up by their places. -/
theorem foldl_beBytes (n v acc : Nat) :
    (beBytes n v).foldl (fun v b => v * 256 + b.toNat) acc = acc * 256 ^ n + v % 256 ^ n := by
  induction n generalizing acc with
  | zero => simp [beBytes, Nat.mod_one]
  | succ n ih =>
    have hsplit : v % 256 ^ (n + 1) = v % 256 ^ n + 256 ^ n * (v / 256 ^ n % 256) := Nat.mod_mul
    have hacc : acc * 256 * 256 ^ n = acc * 256 ^ (n + 1) := by
      rw [Nat.mul_assoc, Nat.mul_comm 256, ← Nat.pow_succ]
    calc (beBytes (n + 1) v).foldl (fun v b => v * 256 + b.toNat) acc
        = (acc * 256 + v / 256 ^ n % 256) * 256 ^ n + v % 256 ^ n := by
          rw [beBytes, List.foldl_cons, ih, BitVec.toNat_ofNat]
      _ = acc * 256 ^ (n + 1) + 256 ^ n * (v / 256 ^ n % 256) + v % 256 ^ n := by
          rw [Nat.add_mul, hacc, Nat.mul_comm (v / 256 ^ n % 256)]
      _ = acc * 256 ^ (n + 1) + v % 256 ^ (n + 1) := by
          rw [hsplit, Nat.add_assoc, Nat.add_comm (256 ^ n * _)]

theorem natOfBytes_beBytes (n v : Nat) : natOfBytes (beBytes n v) = v % 256 ^ n := by
  rw [natOfBytes, foldl_beBytes, Nat.zero_mul, Nat.zero_add]

/-- A word of whole bytes is read back from them. -/
theorem ofNat_natOfBytes_beBytes (n : Nat) (x : BitVec (8 * n)) :
    BitVec.ofNat (8 * n) (natOfBytes (beBytes n x.toNat)) = x := by
  have hx : x.toNat < 256 ^ n := by simpa [Nat.pow_mul] using x.isLt
  rw [natOfBytes_beBytes, Nat.mod_eq_of_lt hx, BitVec.ofNat_toNat, BitVec.setWidth_eq]

/-! ## Frames (12.3) -/

/-- The frame of a request holds the body its kind byte fixes (R175). -/
theorem length_of_encodeFrame {c : Instr} {kind : Byte} {body : List Byte} (hfits : c.kindFits = true)
    (h : encodeFrame c = some (kind :: body)) : body.length = bodyLength kind := by
  cases c with
  | unknownRequest dt k =>
    cases h
    simp only [Instr.kindFits, Bool.or_eq_true, decide_eq_true_eq] at hfits
    exact (bodyLength_unassigned (Safety.kindAssigned_eq_false hfits)).symm
  | setup | configureChannel | defineTask | armTask | disarmTask | tearDownTask | defineListenEntry | publishGate
  | readResult | readStatus | readTime | setEvents | ackEvents | clearFault | retire | reset => cases h; rfl
  | _ => cases h

/-- Every frame begins with a kind byte. -/
theorem encodeFrame_eq_cons {c : Instr} {frame : List Byte} (h : encodeFrame c = some frame) :
    ∃ kind body, frame = kind :: body := by
  cases c with
  | setup | configureChannel | defineTask | armTask | disarmTask | tearDownTask | defineListenEntry | publishGate
  | readResult | readStatus | readTime | setEvents | ackEvents | clearFault | retire | reset | unknownRequest =>
    cases h; exact ⟨_, _, rfl⟩
  | _ => cases h

/-- The fields that are bytes stand in the frame themselves; those of several bytes are read back from them. -/
theorem decodeFrame_encodeFrame {c : Instr} {frame : List Byte} (hfits : c.kindFits = true)
    (h : encodeFrame c = some frame) : decodeFrame c.dt frame = some c := by
  cases c with
  | setup dt position =>
    cases h
    exact congrArg (fun x => some (Instr.setup dt x)) (ofNat_natOfBytes_beBytes 2 position)
  | configureChannel dt channel options glitch prescale =>
    cases h
    exact congrArg (fun x => some (Instr.configureChannel dt channel options glitch x)) (ofNat_natOfBytes_beBytes 2 prescale)
  | defineTask dt task kind blockSize runLength continuation failLimit escalation area =>
    cases h
    exact congr
      (congrArg (fun l a => some (Instr.defineTask dt task kind blockSize l continuation failLimit escalation a))
        (ofNat_natOfBytes_beBytes 2 runLength))
      (ofNat_natOfBytes_beBytes 13 area)
  | unknownRequest dt kind =>
    cases h
    simp only [Instr.kindFits, Bool.or_eq_true, decide_eq_true_eq] at hfits
    exact (if_neg (by omega)).trans (if_pos rfl)
  | armTask | disarmTask | tearDownTask | defineListenEntry | publishGate | readResult | readStatus | readTime | setEvents
  | ackEvents | clearFault | retire | reset => cases h; rfl
  | _ => cases h

/-! ## Words (log 27) -/

/-- The word that holds a frame, its first byte lowest. -/
def wordOfFrame (frame : List Byte) : Nat := frame.foldr (fun b w => b.toNat + 256 * w) 0

theorem wordOfFrame_cons (b : Byte) (frame : List Byte) : wordOfFrame (b :: frame) = b.toNat + 256 * wordOfFrame frame := rfl

/-- The lowest byte of a word is the first of its frame. -/
theorem ofNat_wordOfFrame_cons (b : Byte) (frame : List Byte) : BitVec.ofNat 8 (wordOfFrame (b :: frame)) = b := by
  apply BitVec.eq_of_toNat_eq
  rw [wordOfFrame_cons, BitVec.toNat_ofNat]
  omega

theorem wordOfFrame_lt (frame : List Byte) : wordOfFrame frame < 2 ^ (8 * frame.length) := by
  induction frame with
  | nil => exact Nat.one_pos
  | cons b frame ih =>
    have hb := b.isLt
    rw [wordOfFrame_cons, List.length_cons, Nat.mul_succ, Nat.pow_add]
    omega

theorem bytesOfWord_wordOfFrame (frame : List Byte) : bytesOfWord frame.length (wordOfFrame frame) = frame := by
  induction frame with
  | nil => rfl
  | cons b frame ih =>
    have hrest : wordOfFrame (b :: frame) / 256 = wordOfFrame frame := by
      rw [wordOfFrame_cons]
      omega
    rw [List.length_cons, bytesOfWord, ofNat_wordOfFrame_cons, hrest, ih]

/-- A word that holds a whole frame spells what the frame carries. -/
theorem decodeTableWord_wordOfFrame {kind : Byte} {body : List Byte} (h : body.length = bodyLength kind) :
    decodeTableWord (8 * (kind :: body).length) (wordOfFrame (kind :: body)) = decodeFrame 0 (kind :: body) := by
  have hlength : max (8 * (kind :: body).length / 8) (1 + bodyLength kind) = (kind :: body).length := by
    rw [List.length_cons, h]
    omega
  have hwide : ¬8 * (kind :: body).length < 8 := by
    rw [List.length_cons]
    omega
  rw [decodeTableWord, if_neg hwide]
  simp only [Nat.mod_eq_of_lt (wordOfFrame_lt (kind :: body)), ofNat_wordOfFrame_cons, hlength, bytesOfWord_wordOfFrame]

theorem kindFits_of_wellFormed {c : Instr} (h : c.wellFormed = true) : c.kindFits = true := by
  simp only [Instr.wellFormed, Bool.and_eq_true] at h
  obtain ⟨⟨⟨-, hfits⟩, -⟩, -⟩ := h
  exact hfits

/-- Settles O57: a frame decodes to its request, and the word that holds it is read as that frame. -/
theorem requestFramesRoundTrip : Obligations.RequestFramesRoundTrip := by
  refine ⟨fun c hwf hrequest => ?_, fun c frame hwf hdt h => ?_⟩
  · obtain ⟨frame, h⟩ := Option.isSome_iff_exists.1 hrequest
    exact ⟨frame, h, decodeFrame_encodeFrame (kindFits_of_wellFormed hwf) h⟩
  · obtain ⟨kind, body, rfl⟩ := encodeFrame_eq_cons h
    have hfits := kindFits_of_wellFormed hwf
    have hdecode := decodeFrame_encodeFrame hfits h
    rw [hdt] at hdecode
    exact (decodeTableWord_wordOfFrame (length_of_encodeFrame hfits h)).trans hdecode

end Sys2Proof
end

