-- ==== Sys2Proof/Proofs/HostPort.lean ====
section
/-!
PROOFS. The transaction on the host port: the summary byte, the phases, the bytes of a request and what SDO carries (R174 to
R178).
-/

namespace Sys2Proof.Safety

open Sys2Proof.Machine

/-! ## The fall of CS# (R177) -/

theorem ofNat_stationState_code (s : StationState) : BitVec.ofNat 2 s.code =
    match s with
    | .unset => 0
    | .joining => 1
    | .live => 2
    | .halted => 3 := by
  cases s <;> rfl

theorem transactionStart_samples {d : Station} (hheld : d.held = false) (hcs : d.port.csLow = false) :
    d.transactionStart = withPort d ⟨.summary, true, some d.eng.summaryByte, none, [], none⟩ :=
  (if_neg (Bool.eq_false_iff.1 hcs)).trans (if_neg (Bool.eq_false_iff.1 hheld))

/-- With CS# low already nothing starts (R178). -/
theorem transactionStart_low {d : Station} (hcs : d.port.csLow = true) : d.transactionStart = d := if_pos hcs

/-- Settles O8: the sampled byte is the summary byte, its queue bit and its state bits as R177 states them. -/
theorem transactionStartSamplesTheSummary : Obligations.TransactionStartSamplesTheSummary := by
  intro s dt hheld hcs d state
  have hqueue : decide (d.eng.queue.length ≠ 0) = !d.eng.queue.isEmpty := by
    cases d.eng.queue <;> rfl
  have hstate : BitVec.ofNat 2 d.eng.ctl.state.code = state := ofNat_stationState_code _
  have hint : d.eng.interrupt = d.intLow := by
    rw [Station.intLow, show d.held = false from hheld]; rfl
  have hsummary : d.eng.summaryByte = (0b011 : BitVec 3) ++ BitVec.ofBool d.intLow ++
      BitVec.ofBool (d.eng.queue.length ≠ 0) ++ BitVec.ofBool d.eng.ctl.faultHold ++ state := by
    rw [Engine.summaryByte, hstate, hqueue, hint]
  rw [← hsummary]
  exact (acting_goesTo dt _ hheld).trans (congrArg (goesTo s) (transactionStart_samples (d := d) hheld hcs))

/-! ## The phases (R174, R176) -/

section
variable {d : Station} {pins : ReleasePins}

theorem replyReady_fill (h : d.port.phase = .fill) : d.replyReady = withPort d { d.port with phase := .reply } := if_pos h

theorem replyReady_other (h : d.port.phase ≠ .fill) : d.replyReady = d := if_neg h

/-- Only a READ RESULT answered OK gave a block (R155). -/
theorem gaveBlock_eq_false {p : HostPort} (h : ¬(p.kind = some 0x09 ∧ ∃ body, p.reply = some ⟨.ok, body⟩)) :
    p.gaveBlock = false := by
  refine Bool.eq_false_iff.2 fun hgave => h ?_
  simp only [HostPort.gaveBlock, Bool.and_eq_true, beq_iff_eq, Option.any_eq_true] at hgave
  obtain ⟨hkind, ⟨status, body⟩, hreply, rfl⟩ := hgave
  exact ⟨hkind, body, hreply⟩

theorem replyCompleted_done (hphase : d.port.phase = .reply) (hdue : d.eng.ctl.resetDue = false)
    (hgave : d.port.gaveBlock = false) : d.replyCompleted pins = withPort d { d.port with phase := .done } := by
  rw [Station.replyCompleted, if_neg (fun hne => hne hphase), if_neg (Bool.eq_false_iff.1 hdue),
    if_neg (Bool.eq_false_iff.1 hgave)]
  rfl

/-- A transaction is early from its start to its reply (R176). -/
theorem early_iff {p : Phase} : p.early = true ↔ p = .summary ∨ p = .body ∨ p = .fill ∨ p = .reply := by
  cases p <;> decide

theorem early_eq_false_iff {p : Phase} : p.early = false ↔ p = .idle ∨ p = .done := by
  cases p <;> decide

theorem transactionEnd_idles (hcs : d.port.csLow = true) (hphase : d.port.phase = .idle ∨ d.port.phase = .done) :
    d.transactionEnd = withPort d ⟨.idle, false, none, none, [], none⟩ :=
  if_pos (by rw [hcs, early_eq_false_iff.2 hphase]; rfl)

theorem transactionEnd_high (hcs : d.port.csLow = false) : d.transactionEnd = d :=
  if_neg (by rw [hcs]; exact Bool.false_ne_true)

theorem transactionEnd_early (h : d.port.phase.early = true) : d.transactionEnd = d := if_neg (by simp [h])

theorem csRiseEarly_early (h : d.port.phase.early = true) :
    d.csRiseEarly pins =
      if d.eng.ctl.resetDue then Station.released pins d.inputLevels false
      else withPort d ⟨.idle, false, none, none, [], none⟩ := if_pos h

theorem csRiseEarly_other (h : d.port.phase = .idle ∨ d.port.phase = .done) : d.csRiseEarly pins = d :=
  if_neg (by rw [early_eq_false_iff.2 h]; exact Bool.false_ne_true)

end

/-- Every rise and fall of CS# finds the station at its time, in reset as it was. -/
theorem acting_elapsed (dt : Nat) (f : Station → Station) (s : State) :
    s.acting dt f = goesTo s (f (if s.dev.held then s.dev else atTime dt s)) := by
  rw [State.acting_eq, elapse_eq]; rfl

theorem exec_transactionEnd (dt : Nat) (s : State) :
    exec (.transactionEnd dt) s = goesTo s (if s.dev.held then s.dev else atTime dt s).transactionEnd :=
  acting_elapsed dt _ s

theorem exec_csRiseEarly_other (dt : Nat) (pins : ReleasePins) {s : State}
    (h : s.dev.port.phase = .idle ∨ s.dev.port.phase = .done) :
    exec (.csRiseEarly dt pins) s = goesTo s (if s.dev.held then s.dev else atTime dt s) := by
  cases hheld : s.dev.held with
  | true => exact State.running_held _ _ hheld
  | false => exact (running_goesTo dt _ hheld).trans (congrArg (goesTo s) (csRiseEarly_other (d := atTime dt s) h))

/-! ## The bytes of a request (R174, R175) -/

/-- Short of its last byte a request is not complete. -/
theorem receive_take_incomplete {kind : Byte} {body : List Byte} (p : HostPort) (h : body.length = bodyLength kind) {n : Nat}
    (hn : n < body.length) : (p.receive kind (body.take n)).requestComplete = false := by
  rw [HostPort.receive_complete, beq_eq_false_iff_ne, List.length_take_of_le (Nat.le_of_lt hn), ← h]
  exact Nat.ne_of_lt hn

theorem clockIn_other {p : HostPort} {b : Byte} (hs : p.phase ≠ .summary) (hb : p.phase ≠ .body) : p.clockIn b = p := by
  unfold HostPort.clockIn
  split
  · exact absurd ‹_› hs
  · exact absurd ‹_› hb
  · rfl

/-! ## What SDO carries (R174, R178) -/

section
variable {d : Station}

/-- SDO is driven by a transaction only: CS# is low, out of reset, and the port is not idle. -/
theorem sdo_eq_none (i : Nat) (h : d.held = true ∨ d.port.csLow = false ∨ d.port.phase = .idle) : d.sdo i = none := by
  unfold Station.sdo HostPort.sdo
  obtain h | h | h := h <;> simp [h]

theorem sdo_driven (i : Nat) (hheld : d.held = false) (hcs : d.port.csLow = true) :
    d.sdo i = match d.port.phase with
      | .idle => none
      | .summary => d.port.summary
      | .body | .fill | .done => some 0
      | .reply => d.port.reply.map (fun r => r.bytes.getD i 0) :=
  (if_neg (Bool.eq_false_iff.1 hheld)).trans (if_pos hcs)

theorem sdo_reply (i : Nat) {r : Reply} (hheld : d.held = false) (hcs : d.port.csLow = true) (hphase : d.port.phase = .reply)
    (hr : d.port.reply = some r) : d.sdo i = some (r.bytes.getD i 0) := by
  rw [sdo_driven i hheld hcs, hphase, hr]; rfl

end

/-- Settles O9: the phases in order, the early rise, the rise without a transaction, the bytes in and the bytes out. -/
theorem transactionPhasesAdvance : Obligations.TransactionPhasesAdvance := by
  refine ⟨fun s dt pins hheld => ?_, fun s dt pins hheld hphase => ?_, fun s dt pins => ?_, fun p b => ?_, fun d i => ?_⟩
  · intro d
    refine ⟨fun hphase => ?_, fun hphase => ?_, fun hphase hdue hgave => ?_, fun hphase hcs => ?_⟩
    · exact (running_goesTo dt _ hheld).trans (congrArg (goesTo s) (replyReady_fill (d := d) hphase))
    · exact (running_goesTo dt _ hheld).trans (congrArg (goesTo s) (replyReady_other (d := d) hphase))
    · exact (running_goesTo dt _ hheld).trans
        (congrArg (goesTo s) (replyCompleted_done (d := d) hphase hdue (gaveBlock_eq_false hgave)))
    · exact (acting_goesTo dt _ hheld).trans (congrArg (goesTo s) (transactionEnd_idles (d := d) hcs (.inr hphase)))
  · exact (running_goesTo dt _ hheld).trans
      (congrArg (goesTo s) (csRiseEarly_early (d := atTime dt s) (early_iff.2 hphase)))
  · intro d p
    have hport : d.port = p := by simp only [d]; split <;> rfl
    refine ⟨fun hphase hcs => ⟨?_, ?_⟩, fun hcs => ?_, fun hphase => ?_, fun hphase => ?_⟩
    · exact (exec_transactionEnd dt s).trans
        (congrArg (goesTo s) (transactionEnd_idles (hport ▸ hcs) (.inl (hport ▸ hphase))))
    · exact (acting_elapsed dt _ s).trans (congrArg (goesTo s) (transactionStart_low (hport ▸ hcs)))
    · exact (exec_transactionEnd dt s).trans (congrArg (goesTo s) (transactionEnd_high (hport ▸ hcs)))
    · exact (exec_transactionEnd dt s).trans
        (congrArg (goesTo s) (transactionEnd_early (hport ▸ early_iff.2 hphase)))
    · exact exec_csRiseEarly_other dt pins hphase
  · refine ⟨fun hphase => ?_, fun hphase => ?_, clockIn_other, fun c k body hframe hfits => ?_⟩
    · rw [HostPort.clockIn, hphase]
    · rw [HostPort.clockIn, hphase]
    · have hlength := length_of_encodeFrame hfits hframe
      refine ⟨?_, ?_, ?_, fun n hn => receive_take_incomplete p hlength hn⟩
      · rw [HostPort.receive_complete, hlength, beq_self_eq_true]
      · rw [HostPort.receive_eq]
      · rw [HostPort.receive_eq]
  · intro p
    refine ⟨sdo_eq_none i, fun hheld hcs => ⟨fun hphase => ?_, fun hphase => ?_, fun r hphase hr => ?_⟩⟩
    · rw [sdo_driven i hheld hcs, hphase]
    · rw [sdo_driven i hheld hcs]
      obtain hphase | hphase | hphase := hphase <;> rw [hphase]
    · have hsdo := fun i => sdo_reply i hheld hcs hphase hr
      refine ⟨hsdo 0, hsdo 1, fun j hj => ?_, fun hi => ?_⟩
      · rw [hsdo, Reply.bytes, List.getD_cons_succ, List.getD_cons_succ, List.getD_eq_getElem?_getD,
          List.getElem?_eq_getElem hj, Option.getD_some]
      · rw [hsdo, List.getD_eq_getElem?_getD, List.getElem?_eq_none hi, Option.getD_none]

end Sys2Proof.Safety
end

