-- ==== Sys2Proof/Proofs/Steps.lean ====
section
/-!
PROOFS. A step is the front command's, and every command answers a next state of the station (log 25).
-/

namespace Sys2Proof.Safety

open Sys2Proof.Machine

/-- Settles O1: the queue is not empty, so the step is that of its front command. -/
theorem stepRunsTheFrontCommand : Obligations.StepRunsTheFrontCommand := by
  intro c rest s h
  rw [step, h]

/-- The five commands that act in reset act on the station in every state (R165, R178). -/
theorem exec_eq_acting {c : Instr} (h : actsInReset c = true) : ∃ f, ∀ s, exec c s = s.acting c.dt f := by
  cases c with
  | powerOnReset | resetRelease | transactionStart | transactionEnd | pinLevelChange =>
    exact ⟨_, fun _ => by unfold exec; exact rfl⟩
  | _ => exact absurd h Bool.false_ne_true

/-- Settles O3: a command acts on the station in every state, or on a running one only. -/
theorem everyCommandCompletes : Obligations.EveryCommandCompletes := by
  intro c s
  cases h : actsInReset c with
  | true =>
    obtain ⟨f, hf⟩ := exec_eq_acting h
    exact ⟨_, (hf s).trans (State.acting_eq _ _ _)⟩
  | false =>
    obtain ⟨f, hf⟩ := exec_eq_running h
    exact ⟨_, (hf s).trans (State.acting_eq _ _ _)⟩

end Sys2Proof.Safety
end
